-- ==== Sys2Proof/Word.lean ====
section
/-! DEFINITION. The word types of the block: rule R7 fixes the widths (registers 32 bits, coefficients and
checksum 16 bits, bus data 8 bits, device address 7 bits). -/

namespace Sys2Proof

/-- A data byte on the bus, a register index, a byte of the frame (R7). -/
abbrev Byte := BitVec 8

/-- A calibration coefficient, the checksum, the framed read's data word (R7). -/
abbrev Half := BitVec 16

/-- A control register, a command word, an s32 or u32 of the compensation (R7, R9). -/
abbrev Word := BitVec 32

/-- A bus device address (R7). -/
abbrev Dev := BitVec 7

end Sys2Proof
end

