-- ==== Sys2Proof/Syntax.lean ====
section
/-! DEFINITION. The commands of the block: one constructor for each row of spec/opcode_table.json (R123). The
operand fields have the widths of R122, so a field value that a command word cannot hold is not a term. -/

namespace Sys2Proof

/-- A command (R120 to R123). -/
inductive Instr where
  /-- NOP (R127). -/
  | nop
  /-- REG_READ dev, reg (R160). -/
  | regRead (dev : Dev) (reg : Byte)
  /-- REG_WRITE dev, reg, data (R161). -/
  | regWrite (dev : Dev) (reg : Byte) (data : Byte)
  /-- FRAMED_READ dev, reg (R193). -/
  | framedRead (dev : Dev) (reg : Byte)
  /-- COMBO_TEMP (R198). -/
  | comboTemp
  /-- COMBO_HUM (R199). -/
  | comboHum
  /-- CAL_LOAD_A setting (R230). -/
  | calLoadA (setting : Byte)
  /-- RAWT_A (R235). -/
  | rawtA
  /-- RAWP_A (R236). -/
  | rawpA
  /-- COMPT_A (R238). -/
  | comptA
  /-- COMPP_A (R240). -/
  | comppA
  /-- TEMP_A (R242). -/
  | tempA
  /-- PRES_A (R243). -/
  | presA
  /-- CAL_LOAD_B (R280). -/
  | calLoadB
  /-- RAWT_B (R281). -/
  | rawtB
  /-- RAWP_B (R282). -/
  | rawpB
  /-- COMPT_B (R283). -/
  | comptB
  /-- COMPP_B (R285). -/
  | comppB
  /-- TEMP_B (R287). -/
  | tempB
  /-- PRES_B (R288). -/
  | presB
  /-- FRAME_ENCODE (R334). -/
  | frameEncode
  deriving DecidableEq, Repr

end Sys2Proof
end

