-- ==== Sys2Proof/WellFormed.lean ====
section
/-! DEFINITION. Well-formedness: the assembler of R128. A source command carries its operands as numbers; the
assembler refuses a number that does not fit its field and never truncates. A term of `Instr` fits by its types. -/

namespace Sys2Proof

/-- A command as the assembler's user writes it: the mnemonic with plain numbers in field order (R128). -/
inductive Source where
  | nop
  | regRead (dev reg : Nat)
  | regWrite (dev reg data : Nat)
  | framedRead (dev reg : Nat)
  | comboTemp
  | comboHum
  | calLoadA (setting : Nat)
  | rawtA
  | rawpA
  | comptA
  | comppA
  | tempA
  | presA
  | calLoadB
  | rawtB
  | rawpB
  | comptB
  | comppB
  | tempB
  | presB
  | frameEncode
  deriving DecidableEq, Repr

/-- DEV fits its 7-bit field (R128: refused when dev > 0x7F). -/
def fitsDev (dev : Nat) : Bool := dev ≤ 0x7F

/-- REG, DATA and SETTING fit their 8-bit fields (R128: refused when above 0xFF). -/
def fitsByte (n : Nat) : Bool := n ≤ 0xFF

/-- Every operand fits its field (R128). -/
def Source.wf : Source → Bool
  | .regRead dev reg => fitsDev dev && fitsByte reg
  | .regWrite dev reg data => fitsDev dev && fitsByte reg && fitsByte data
  | .framedRead dev reg => fitsDev dev && fitsByte reg
  | .calLoadA setting => fitsByte setting
  | .nop => true
  | .comboTemp => true
  | .comboHum => true
  | .rawtA => true
  | .rawpA => true
  | .comptA => true
  | .comppA => true
  | .tempA => true
  | .presA => true
  | .calLoadB => true
  | .rawtB => true
  | .rawpB => true
  | .comptB => true
  | .comppB => true
  | .tempB => true
  | .presB => true
  | .frameEncode => true

/-- The command a well-formed source stands for. -/
def Source.instr : Source → Instr
  | .nop => .nop
  | .regRead dev reg => .regRead (BitVec.ofNat 7 dev) (BitVec.ofNat 8 reg)
  | .regWrite dev reg data => .regWrite (BitVec.ofNat 7 dev) (BitVec.ofNat 8 reg) (BitVec.ofNat 8 data)
  | .framedRead dev reg => .framedRead (BitVec.ofNat 7 dev) (BitVec.ofNat 8 reg)
  | .comboTemp => .comboTemp
  | .comboHum => .comboHum
  | .calLoadA setting => .calLoadA (BitVec.ofNat 8 setting)
  | .rawtA => .rawtA
  | .rawpA => .rawpA
  | .comptA => .comptA
  | .comppA => .comppA
  | .tempA => .tempA
  | .presA => .presA
  | .calLoadB => .calLoadB
  | .rawtB => .rawtB
  | .rawpB => .rawpB
  | .comptB => .comptB
  | .comppB => .comppB
  | .tempB => .tempB
  | .presB => .presB
  | .frameEncode => .frameEncode

/-- The assembler (R128): a source whose operands do not all fit is refused. -/
def assemble (s : Source) : Option Instr := if s.wf then some s.instr else none

/-- A command written back as its source, the operands as numbers (R122: no field is signed or scaled). -/
def Instr.source : Instr → Source
  | .nop => .nop
  | .regRead dev reg => .regRead dev.toNat reg.toNat
  | .regWrite dev reg data => .regWrite dev.toNat reg.toNat data.toNat
  | .framedRead dev reg => .framedRead dev.toNat reg.toNat
  | .comboTemp => .comboTemp
  | .comboHum => .comboHum
  | .calLoadA setting => .calLoadA setting.toNat
  | .rawtA => .rawtA
  | .rawpA => .rawpA
  | .comptA => .comptA
  | .comppA => .comppA
  | .tempA => .tempA
  | .presA => .presA
  | .calLoadB => .calLoadB
  | .rawtB => .rawtB
  | .rawpB => .rawpB
  | .comptB => .comptB
  | .comppB => .comppB
  | .tempB => .tempB
  | .presB => .presB
  | .frameEncode => .frameEncode

/-- An instruction is well formed when its source form is; the field types of `Instr` make every term so. -/
def Instr.wf (i : Instr) : Bool := i.source.wf

end Sys2Proof
end

