-- ==== Sys2Proof/Decode.lean ====
section
/-! DEFINITION. The command word: the decoder, total on every 32-bit word and rejecting by name (R120 to R123,
R126), the encoder, the table of match and mask words, and the host's decodeTableWord. -/

namespace Sys2Proof

/-- Why a word is illegal (R126). -/
inductive DecodeError where
  /-- The OP byte is in no row of R123's table. -/
  | reservedOpcode (op : Byte)
  /-- The OP byte is in the table but a reserved bit of the row's format is 1. -/
  | reservedBits (op : Byte)
  deriving DecidableEq, Repr

/-- OP = w[31:24] (R120). -/
def opField (w : Word) : Byte := w.extractLsb' 24 8

/-- Bit 23, reserved in formats RR and RW (R121). -/
def bit23Field (w : Word) : BitVec 1 := w.extractLsb' 23 1

/-- DEV = w[22:16] (R122). -/
def devField (w : Word) : Dev := w.extractLsb' 16 7

/-- REG = w[15:8] (R122). -/
def regField (w : Word) : Byte := w.extractLsb' 8 8

/-- DATA or SETTING = w[7:0] (R122). -/
def dataField (w : Word) : Byte := w.extractLsb' 0 8

/-- The four formats of R121, each with the commands it stands for under an opcode. -/
inductive Format where
  | n (i : Instr)
  | rr (f : Dev → Byte → Instr)
  | rw (f : Dev → Byte → Byte → Instr)
  | ca (f : Byte → Instr)

/-- The format and the command of each OP byte in the table of R123. -/
def formatOf (op : Byte) : Option Format :=
  match op.toNat with
  | 0x00 => some (.n .nop)
  | 0x01 => some (.rr .regRead)
  | 0x02 => some (.rw .regWrite)
  | 0x10 => some (.rr .framedRead)
  | 0x11 => some (.n .comboTemp)
  | 0x12 => some (.n .comboHum)
  | 0x20 => some (.ca .calLoadA)
  | 0x21 => some (.n .rawtA)
  | 0x22 => some (.n .rawpA)
  | 0x23 => some (.n .comptA)
  | 0x24 => some (.n .comppA)
  | 0x25 => some (.n .tempA)
  | 0x26 => some (.n .presA)
  | 0x30 => some (.n .calLoadB)
  | 0x31 => some (.n .rawtB)
  | 0x32 => some (.n .rawpB)
  | 0x33 => some (.n .comptB)
  | 0x34 => some (.n .comppB)
  | 0x35 => some (.n .tempB)
  | 0x36 => some (.n .presB)
  | 0x40 => some (.n .frameEncode)
  | _ => none

/-- The bits a format reserves are zero in w (R121): 23:0 in N, 23 and 7:0 in RR, 23 in RW, 23:8 in CA. -/
def Format.reservedZero (w : Word) : Format → Bool
  | .n _ => w.extractLsb' 0 24 == 0#24
  | .rr _ => bit23Field w == 0#1 && dataField w == 0#8
  | .rw _ => bit23Field w == 0#1
  | .ca _ => w.extractLsb' 8 16 == 0#16

/-- The command a word of the format stands for (R122). -/
def Format.instr (w : Word) : Format → Instr
  | .n i => i
  | .rr f => f (devField w) (regField w)
  | .rw f => f (devField w) (regField w) (dataField w)
  | .ca f => f (dataField w)

/-- The decoder (R123, R126). -/
def decode (w : Word) : Except DecodeError Instr :=
  match formatOf (opField w) with
  | none => .error (.reservedOpcode (opField w))
  | some f => if f.reservedZero w then .ok (f.instr w) else .error (.reservedBits (opField w))

/-- A word of format N (R121). -/
def encodeN (op : Byte) : Word := op ++ 0#24

/-- A word of format RR (R121). -/
def encodeRR (op : Byte) (dev : Dev) (reg : Byte) : Word := op ++ 0#1 ++ dev ++ reg ++ 0#8

/-- A word of format RW (R121). -/
def encodeRW (op : Byte) (dev : Dev) (reg data : Byte) : Word := op ++ 0#1 ++ dev ++ reg ++ data

/-- A word of format CA (R121). -/
def encodeCA (op : Byte) (setting : Byte) : Word := op ++ 0#16 ++ setting

/-- The encoder (R121 to R123). -/
def encode : Instr → Word
  | .nop => encodeN 0x00
  | .regRead dev reg => encodeRR 0x01 dev reg
  | .regWrite dev reg data => encodeRW 0x02 dev reg data
  | .framedRead dev reg => encodeRR 0x10 dev reg
  | .comboTemp => encodeN 0x11
  | .comboHum => encodeN 0x12
  | .calLoadA setting => encodeCA 0x20 setting
  | .rawtA => encodeN 0x21
  | .rawpA => encodeN 0x22
  | .comptA => encodeN 0x23
  | .comppA => encodeN 0x24
  | .tempA => encodeN 0x25
  | .presA => encodeN 0x26
  | .calLoadB => encodeN 0x30
  | .rawtB => encodeN 0x31
  | .rawpB => encodeN 0x32
  | .comptB => encodeN 0x33
  | .comppB => encodeN 0x34
  | .tempB => encodeN 0x35
  | .presB => encodeN 0x36
  | .frameEncode => encodeN 0x40

/-- A row of the opcode table (R123): the bits a word of the command has fixed. -/
structure OpRow where
  matchBits : Word
  mask : Word
  deriving DecidableEq, Repr

/-- A word belongs to a row when (w and mask) = match (R123). -/
def OpRow.accepts (r : OpRow) (w : Word) : Bool := w &&& r.mask == r.matchBits

/-- The row of each command, from the table of R123. -/
def Instr.row : Instr → OpRow
  | .nop => ⟨0x00000000, 0xFFFFFFFF⟩
  | .regRead _ _ => ⟨0x01000000, 0xFF8000FF⟩
  | .regWrite _ _ _ => ⟨0x02000000, 0xFF800000⟩
  | .framedRead _ _ => ⟨0x10000000, 0xFF8000FF⟩
  | .comboTemp => ⟨0x11000000, 0xFFFFFFFF⟩
  | .comboHum => ⟨0x12000000, 0xFFFFFFFF⟩
  | .calLoadA _ => ⟨0x20000000, 0xFFFFFF00⟩
  | .rawtA => ⟨0x21000000, 0xFFFFFFFF⟩
  | .rawpA => ⟨0x22000000, 0xFFFFFFFF⟩
  | .comptA => ⟨0x23000000, 0xFFFFFFFF⟩
  | .comppA => ⟨0x24000000, 0xFFFFFFFF⟩
  | .tempA => ⟨0x25000000, 0xFFFFFFFF⟩
  | .presA => ⟨0x26000000, 0xFFFFFFFF⟩
  | .calLoadB => ⟨0x30000000, 0xFFFFFFFF⟩
  | .rawtB => ⟨0x31000000, 0xFFFFFFFF⟩
  | .rawpB => ⟨0x32000000, 0xFFFFFFFF⟩
  | .comptB => ⟨0x33000000, 0xFFFFFFFF⟩
  | .comppB => ⟨0x34000000, 0xFFFFFFFF⟩
  | .tempB => ⟨0x35000000, 0xFFFFFFFF⟩
  | .presB => ⟨0x36000000, 0xFFFFFFFF⟩
  | .frameEncode => ⟨0x40000000, 0xFFFFFFFF⟩

/-- The opcode map of R123, one row per command, in the table's order. -/
def opTable : List OpRow :=
  [.nop, .regRead 0 0, .regWrite 0 0 0, .framedRead 0 0, .comboTemp, .comboHum, .calLoadA 0, .rawtA, .rawpA,
    .comptA, .comppA, .tempA, .presA, .calLoadB, .rawtB, .rawpB, .comptB, .comppB, .tempB, .presB,
    .frameEncode].map Instr.row

/-- The mnemonic of each command (R123, R128). -/
def Instr.mnemonic : Instr → String
  | .nop => "NOP"
  | .regRead _ _ => "REG_READ"
  | .regWrite _ _ _ => "REG_WRITE"
  | .framedRead _ _ => "FRAMED_READ"
  | .comboTemp => "COMBO_TEMP"
  | .comboHum => "COMBO_HUM"
  | .calLoadA _ => "CAL_LOAD_A"
  | .rawtA => "RAWT_A"
  | .rawpA => "RAWP_A"
  | .comptA => "COMPT_A"
  | .comppA => "COMPP_A"
  | .tempA => "TEMP_A"
  | .presA => "PRES_A"
  | .calLoadB => "CAL_LOAD_B"
  | .rawtB => "RAWT_B"
  | .rawpB => "RAWP_B"
  | .comptB => "COMPT_B"
  | .comppB => "COMPP_B"
  | .tempB => "TEMP_B"
  | .presB => "PRES_B"
  | .frameEncode => "FRAME_ENCODE"

/-- For the host: the instruction the decoder reads from an instruction whose bits are w. A command is one 32-bit
word (R120), so its layout in bytes does not arise (R83, R96). -/
def decodeTableWord (nbits w : Nat) : Option Instr :=
  match decode (BitVec.ofNat 32 (w % 2 ^ nbits)) with
  | .ok i => some i
  | .error _ => none

end Sys2Proof
end

