-- ==== Sys2Proof/Config.lean ====
section
/-! DEFINITION. Configuration: the parameters of R6 as plain data, the types of bus answers and bus events
(R16, R86), and the free values: opaque constants with no body. The document's fixed constants and the
parameters' defaults stand in Machine/Defaults.lean. -/

namespace Sys2Proof

/-- DIV_POW2 of R6: how a division by a power of two rounds (R12). -/
inductive Rounding where
  | floor
  | trunc
  deriving DecidableEq, Repr

/-- AB_BUS_POLICY of R6: what a Nack does to a family-A or family-B command (R164, R165). -/
inductive BusPolicy where
  | abort
  | ignore
  deriving DecidableEq, Repr

/-- WAKE_NACK_POLICY of R6: what a Nack of the wake write does (R191). -/
inductive WakePolicy where
  | error
  | ignore
  deriving DecidableEq, Repr

/-- CAL_ORDER_A and CAL_ORDER_B of R6: which byte of a coefficient comes first (R84). -/
inductive ByteOrder where
  | big
  | little
  deriving DecidableEq, Repr

/-- The answer of the bus oracle to one transaction (R16, R85). A Nack also carries the bytes that a read which
goes on regardless would see (R164 under IGNORE: "n bytes chosen by the oracle"); no other rule looks at them
[DESIGN CHOICE, notes/assumptions/4.md]. -/
inductive BusAnswer where
  | ack (bytes : List Byte)
  | nack (code : Word) (bytes : List Byte)
  deriving DecidableEq, Repr

/-- One event of the bus trace (R86): a transaction (dev, w, n, answer), or a delay. -/
inductive BusEvent where
  | xfer (dev : Dev) (w : List Byte) (n : Nat) (answer : BusAnswer)
  | delay (ms : Nat)
  deriving DecidableEq, Repr

/-- The implementation parameters of R6 that are not fixed by the document. CMD_PRES_A is a function of the
oversampling code, held as its four values. -/
structure Params where
  divPow2 : Rounding
  abBusPolicy : BusPolicy
  /-- POLL_LIMIT: none is UNBOUNDED; R6 wants a finite limit positive (`Params.wf`). -/
  pollLimit : Option Nat
  wakeBytes : List Byte
  wakeNackPolicy : WakePolicy
  regId : Byte
  calBaseA : Byte
  calOrderA : ByteOrder
  calBaseB : Byte
  calOrderB : ByteOrder
  regCtrlA : Byte
  cmdTempA : Byte
  cmdPresA0 : Byte
  cmdPresA1 : Byte
  cmdPresA2 : Byte
  cmdPresA3 : Byte
  regDataA : Byte
  regCtrlB : Byte
  ctrlBValue : Byte
  regStatusB : Byte
  measMaskB : Byte
  regPresB : Byte
  regTempB : Byte
  regTempC : Byte
  regHumC : Byte
  frameSvcId : Half
  frameFlags : Byte
  /-- CSR_BASE, a host address; the spec gives host addresses no width, so they are natural numbers [DESIGN CHOICE,
  notes/assumptions/25.md]. -/
  csrBase : Nat
  deriving DecidableEq, Repr

/-- The range R6 gives POLL_LIMIT: a positive integer, or UNBOUNDED. -/
def Params.wf (p : Params) : Bool := p.pollLimit != some 0

namespace Config

/-- FREE VALUE (R85, R16): whether the bus oracle answers a transaction with Nack, and the bus-reported code it
gives, as a function of the whole history of earlier transactions and of this one. Nothing constrains it. -/
opaque oracleNack : List BusEvent → Dev → List Byte → Nat → Option Word

/-- FREE VALUE (R85, R164): byte number i of the bus oracle's answer to a transaction, as a function of the whole
history and of this transaction. Nothing constrains it. -/
opaque oracleByte : List BusEvent → Dev → List Byte → Nat → Nat → Byte

/-- FREE VALUE (R6, OPEN): CTRL_B_VALUE has no default the model may assume. -/
opaque ctrlBValue : Byte

/-- FREE VALUE (R6, OPEN): CSR_BASE has no default the model may assume, nor has its width (notes/assumptions/25.md). -/
opaque csrBase : Nat

end Config

end Sys2Proof
end

