-- ==== Sys2Proof/Machine/Defaults.lean ====
section
/-! DEFINITION. The values of R6: the constants the document fixes (rows marked "doc") and the defaults of the
parameters (rows marked "decision" and "GK"). The GK values are the spec's own defaults from general knowledge
of the identified parts, and no rule depends on them (notes/assumptions/10.md). -/

namespace Sys2Proof.Machine

/-- COMBO_ADDR (R6, doc). -/
abbrev comboAddr : Dev := 0x5C

/-- PRESS_ADDR (R6, doc). -/
abbrev pressAddr : Dev := 0x77

/-- ID_A (R6, doc). -/
abbrev idA : Byte := 0x55

/-- ID_B (R6, doc). -/
abbrev idB : Byte := 0x58

/-- FC_READ, the function code of the framed read (R6, doc). -/
abbrev fcRead : Byte := 0x03

/-- FR_LEN, the length of the framed read (R6, doc). -/
abbrev frLen : Byte := 0x02

/-- CRC_POLY (R6, doc). -/
abbrev crcPoly : Half := 0xA001

/-- CRC_INIT (R6, doc). -/
abbrev crcInit : Half := 0xFFFF

/-- T_WAKE_MS (R6, doc). -/
abbrev tWakeMs : Nat := 10

/-- T_CMD_MS (R6, doc). -/
abbrev tCmdMs : Nat := 2

/-- T_TEMP_A_MS (R6, doc). -/
abbrev tTempAMs : Nat := 5

/-- WAIT_A[0..3] (R6, doc). -/
def waitA (oss : BitVec 2) : Byte :=
  if oss = 0 then 5 else if oss = 1 then 8 else if oss = 2 then 14 else 26

/-- SENTINEL_RAW (R6, doc). -/
abbrev sentinelRaw : Half := 0xFFFF

/-- SENTINEL_VAL, −1000 (R6, doc). -/
abbrev sentinelVal : Word := BitVec.ofInt 32 (-1000)

/-- FRAME_LEN (R6, doc). -/
abbrev frameLen : Nat := 16

/-- The defaults of R6; the two OPEN parameters are the opaque constants of Config. -/
def defaultParams : Params where
  divPow2 := .floor
  abBusPolicy := .abort
  pollLimit := none
  wakeBytes := []
  wakeNackPolicy := .error
  regId := 0xD0
  calBaseA := 0xAA
  calOrderA := .big
  calBaseB := 0x88
  calOrderB := .little
  regCtrlA := 0xF4
  cmdTempA := 0x2E
  cmdPresA0 := 0x34
  cmdPresA1 := 0x74
  cmdPresA2 := 0xB4
  cmdPresA3 := 0xF4
  regDataA := 0xF6
  regCtrlB := 0xF4
  ctrlBValue := Config.ctrlBValue
  regStatusB := 0xF3
  measMaskB := 0x08
  regPresB := 0xF7
  regTempB := 0xFA
  regTempC := 0x02
  regHumC := 0x00
  frameSvcId := 0xFCD2
  frameFlags := 0x40
  csrBase := Config.csrBase

/-- CMD_PRES_A(oss) (R6, R134). -/
def cmdPresA (p : Params) (oss : BitVec 2) : Byte :=
  if oss = 0 then p.cmdPresA0 else if oss = 1 then p.cmdPresA1 else if oss = 2 then p.cmdPresA2 else p.cmdPresA3

end Sys2Proof.Machine
end

