-- ==== Sys2Proof/Machine/State.lean ====
section
/-! DEFINITION. The state of the block as plain data (R30 to R59), the reasons a step can stop, and the state
right after reset (R59). -/

namespace Sys2Proof.Machine

/-- The error kinds of R350; `Option ErrorKind` is the ERR field, none standing for code 0. Codes 10 to 15 are
never written, so they have no constructor. -/
inductive ErrorKind where
  | busNack
  | protocolMismatch
  | checksumMismatch
  | calibrationFault
  | divideByZeroGuard
  | divideByZero
  | noTemperature
  | illegalCommand
  | pollTimeout
  deriving DecidableEq, Repr

/-- STATUS.FAMILY (R33, R58). -/
inductive Family where
  | notProbed
  | familyA
  | familyB
  | unknown
  deriving DecidableEq, Repr

/-- The framed-read protocol state fr (R51). -/
inductive FrState where
  | idle
  | wakeWrite
  | waitWake
  | commandFrameWrite
  | waitCmd
  | responseRead
  | validate
  | done
  | fault
  deriving DecidableEq, Repr

/-- The family-A calibration store CAL_A[0..10], the 16-bit patterns by name (R44). -/
structure CalA where
  ac1 : Half
  ac2 : Half
  ac3 : Half
  ac4 : Half
  ac5 : Half
  ac6 : Half
  b1 : Half
  b2 : Half
  mb : Half
  mc : Half
  md : Half
  deriving DecidableEq, Repr

/-- The family-B calibration store CAL_B[0..11], the 16-bit patterns by name (R45). -/
structure CalB where
  t1 : Half
  t2 : Half
  t3 : Half
  p1 : Half
  p2 : Half
  p3 : Half
  p4 : Half
  p5 : Half
  p6 : Half
  p7 : Half
  p8 : Half
  p9 : Half
  deriving DecidableEq, Repr

/-- The response buffer RESP[0..5] (R49). -/
structure Resp where
  r0 : Byte
  r1 : Byte
  r2 : Byte
  r3 : Byte
  r4 : Byte
  r5 : Byte
  deriving DecidableEq, Repr

/-- The frame memory: (offset, byte) cells, offsets strictly rising, each cell different from what its offset reads
as when unlisted, which is its reset value of R332 (`frameInit`, `Memory.wf` in Ops.lean). -/
abbrev Memory := List Host.Cell

/-- One register write of a command's body, collected for commit (R18, R50 (5)). -/
inductive RegWrite where
  | result (v : Word)
  | id (v : Byte)
  | family (f : Family)
  | calA (c : CalA)
  | calB (c : CalB)
  | ossCode (c : BitVec 2)
  | waitPMs (v : Byte)
  | calValidA (b : Bool)
  | calValidB (b : Bool)
  | calFaultA (b : Bool)
  | calFaultB (b : Bool)
  | b5 (v : Word)
  | b5Valid (b : Bool)
  | tfine (v : Word)
  | tfineValid (b : Bool)
  | valT1 (v : Word)
  | valP (v : Word)
  | valT2 (v : Word)
  | valH (v : Word)
  | rawT (v : Word)
  | rawP (v : Word)
  | resp (r : Resp)
  /-- MemWrite(FRAME, i, n, v) of R97. -/
  | frame (i n : Nat) (v : Word)
  deriving DecidableEq, Repr

/-- The hidden state of a running sequencer (R50). -/
structure Running where
  /-- The command being executed. -/
  cmd : Instr
  /-- The position within the command's body: how many transactions, delays and computations of the body's text
  lie behind it (notes/assumptions/8.md). -/
  step : Nat
  /-- The framed-read protocol state. -/
  fr : FrState
  /-- The register writes collected for commit, oldest first. -/
  staged : List RegWrite
  /-- The number of status polls made by RAWT_B. -/
  pollCount : Nat
  deriving DecidableEq, Repr

/-- The width of a host access; R82 supports the 32-bit one only. -/
inductive AccessSize where
  | byte
  | half
  | word
  | double
  deriving DecidableEq, Repr

/-- A host load or store of the CSR space, at an offset from CSR_BASE, as R129's macros write it (R32, R82). That an
offset has 32 bits is the model's choice [DESIGN CHOICE, notes/assumptions/25.md]. -/
inductive HostAccess where
  | read (size : AccessSize) (off : Word)
  | write (size : AccessSize) (off : Word) (v : Word)
  deriving DecidableEq, Repr

/-- A host load or store at a host address (R80). The spec gives host addresses no width, so they are natural numbers
[DESIGN CHOICE, notes/assumptions/25.md]. -/
inductive MemAccess where
  | load (size : AccessSize) (addr : Nat)
  | store (size : AccessSize) (addr : Nat) (v : Word)
  deriving DecidableEq, Repr

/-- When an input reaches the block: after the host has seen BUSY = 0 (the `wait` of R129), or after n further
slots of the running command, at once if none runs (notes/assumptions/5.md). -/
inductive Arrival where
  | whenIdle
  | after (n : Nat)
  deriving DecidableEq, Repr

/-- What the outside does: a host access of the CSR space (R32), a host access at any host address (R80), or a reset by
the platform (R390). -/
inductive Event where
  | access (a : HostAccess)
  | memory (m : MemAccess)
  | reset
  deriving DecidableEq, Repr

/-- What an event is to the block: an access of its CSR space, nothing (a host access elsewhere), or a reset. -/
inductive Reach where
  | csr (a : HostAccess)
  | elsewhere
  | reset
  deriving DecidableEq, Repr

/-- One item of the input list. -/
structure Input where
  arrival : Arrival
  event : Event
  deriving DecidableEq, Repr

/-- Why the machine stops with a fault. -/
inductive Fault where
  /-- Raised by `step` in a state whose sequencer is Running anywhere but at the status poll of RAWT_B, TEMP_B or
  PRES_B. No run from reset reaches such a state (statement StepKeepsSequencerAtPoll). SAFE: the model stops. -/
  | strandedSequencer
  deriving DecidableEq, Repr

/-- Why a step is refused. -/
inductive Refusal where
  /-- The host's refusal for an instruction without a meaning. No arm of `exec` uses it. SAFE. -/
  | notModelled (mnemonic : String)
  /-- Raised by `step` when the idle block's next input is a host access that is not an aligned 32-bit one: R82
  says "A model *refuses* it: the host agent has no step for such an access". SAFE. -/
  | unsupportedHostAccess
  deriving DecidableEq, Repr

/-- The state of the block. STATUS is held by its fields (R33); BUSY is computed from `seq` (R50 (1)). -/
@[ext]
structure State where
  /-- The implementation parameters (R6), constant. -/
  params : Params
  /-- CMD (R34). -/
  cmd : Word
  /-- STATUS.DONE (R33). -/
  done : Bool
  /-- STATUS.ERR (R33, R350). -/
  err : Option ErrorKind
  /-- STATUS.CAL_VALID_A (R33). -/
  calValidA : Bool
  /-- STATUS.CAL_VALID_B (R33). -/
  calValidB : Bool
  /-- STATUS.CAL_FAULT_A (R33). -/
  calFaultA : Bool
  /-- STATUS.CAL_FAULT_B (R33). -/
  calFaultB : Bool
  /-- STATUS.FAMILY (R33, R58). -/
  family : Family
  /-- STATUS.B5_VALID (R33, R46). -/
  b5Valid : Bool
  /-- STATUS.TFINE_VALID (R33, R47). -/
  tfineValid : Bool
  /-- STATUS.OVF (R33, R10). -/
  ovf : Bool
  /-- STATUS.OVERRUN (R33, R53). -/
  overrun : Bool
  /-- STATUS.BUSERR_SEEN (R33, R16). -/
  buserrSeen : Bool
  /-- RESULT (R35). -/
  result : Word
  /-- BUSCODE (R36). -/
  buscode : Word
  /-- OSSCFG.OSS_CODE (R37). -/
  ossCode : BitVec 2
  /-- OSSCFG.WAIT_P_MS (R37). -/
  waitPMs : Byte
  /-- ID[7:0] (R38). -/
  id : Byte
  /-- VAL_T1 (R39). -/
  valT1 : Word
  /-- VAL_P (R40). -/
  valP : Word
  /-- VAL_T2 (R41). -/
  valT2 : Word
  /-- VAL_H (R42). -/
  valH : Word
  /-- RAW_T (R43). -/
  rawT : Word
  /-- RAW_P (R43). -/
  rawP : Word
  /-- B5 (R46). -/
  b5 : Word
  /-- TFINE (R47). -/
  tfine : Word
  /-- CAL_A[0..10] (R44). -/
  calA : CalA
  /-- CAL_B[0..11] (R45). -/
  calB : CalB
  /-- FRAME[0..15] (R48, R97). -/
  frame : Memory
  /-- RESP[0..5] (R49). -/
  resp : Resp
  /-- The sequencer: none is phase Idle, some is phase Running (R50). -/
  seq : Option Running
  /-- The host's and the platform's inputs still to come (the model's own field). -/
  inputs : List Input
  /-- The bus oracle's next answers, where they are laid down beforehand (the model's own field); past its end the
  answers are the free values of Config (R85). -/
  answers : List BusAnswer
  /-- The bus trace, oldest event first (R86). -/
  trace : List BusEvent
  /-- The protocol states fr went through, oldest first (the model's own observation of R192). -/
  frLog : List FrState
  /-- What the host's reads returned, oldest first: (offset, value) (the model's own observation of R32). -/
  hostLog : List (Word × Word)
  deriving DecidableEq, Repr

/-- The family-A store at reset: 0x0000 in every entry (R44, R59). -/
def CalA.zero : CalA := ⟨0, 0, 0, 0, 0, 0, 0, 0, 0, 0, 0⟩

/-- The family-B store at reset: 0x0000 in every entry (R45, R59). -/
def CalB.zero : CalB := ⟨0, 0, 0, 0, 0, 0, 0, 0, 0, 0, 0, 0⟩

/-- RESP at reset: 0x00 in every byte (R49, R59). -/
def Resp.zero : Resp := ⟨0, 0, 0, 0, 0, 0⟩

/-- The state right after reset of a block with the parameters p (R59). The frame lists nothing: every byte
reads as its reset value of R332. -/
def State.resetWith (p : Params) : State where
  params := p
  cmd := 0x00000000
  done := false
  err := none
  calValidA := false
  calValidB := false
  calFaultA := false
  calFaultB := false
  family := .notProbed
  b5Valid := false
  tfineValid := false
  ovf := false
  overrun := false
  buserrSeen := false
  result := 0
  buscode := 0
  ossCode := 1
  waitPMs := 8
  id := 0
  valT1 := 0
  valP := 0
  valT2 := 0
  valH := 0
  rawT := 0
  rawP := 0
  b5 := 0
  tfine := 0
  calA := CalA.zero
  calB := CalB.zero
  frame := []
  resp := Resp.zero
  seq := none
  inputs := []
  answers := []
  trace := []
  frLog := []
  hostLog := []

/-- The machine right after reset, with the default parameters of R6 (R59, R390). -/
def State.reset : State := State.resetWith defaultParams

end Sys2Proof.Machine
end

