-- ==== Sys2Proof/Machine/Flags.lean ====
section
/-! DEFINITION. Every flag and status computation: the codes of ERR and FAMILY, the packed STATUS and OSSCFG
words (R33, R37, R350), the write-1-to-clear rule (R54), and the s32 arithmetic that sets OVF (R9 to R13). -/

namespace Sys2Proof.Machine

/-- The code of an error kind in STATUS.ERR (R350). -/
def errCode : Option ErrorKind → BitVec 4
  | none => 0
  | some .busNack => 1
  | some .protocolMismatch => 2
  | some .checksumMismatch => 3
  | some .calibrationFault => 4
  | some .divideByZeroGuard => 5
  | some .divideByZero => 6
  | some .noTemperature => 7
  | some .illegalCommand => 8
  | some .pollTimeout => 9

/-- The code of FAMILY (R33, R58). -/
def familyCode : Family → BitVec 2
  | .notProbed => 0
  | .familyA => 1
  | .familyB => 2
  | .unknown => 3

/-- STATUS.BUSY: the phase is Running (R50 (1)). -/
def State.busy (s : State) : Bool := s.seq.isSome

/-- The STATUS word (R33): reserved bits 31:19 and 3:2 read 0. -/
def statusWord (s : State) : Word :=
  0#13 ++ BitVec.ofBool s.buserrSeen ++ BitVec.ofBool s.overrun ++ BitVec.ofBool s.ovf
    ++ BitVec.ofBool s.tfineValid ++ BitVec.ofBool s.b5Valid ++ familyCode s.family
    ++ BitVec.ofBool s.calFaultB ++ BitVec.ofBool s.calFaultA
    ++ BitVec.ofBool s.calValidB ++ BitVec.ofBool s.calValidA
    ++ errCode s.err ++ 0#2 ++ BitVec.ofBool s.done ++ BitVec.ofBool s.busy

/-- The OSSCFG word (R37): WAIT_P_MS in bits 15:8, OSS_CODE in bits 1:0, the rest 0. -/
def osscfgWord (s : State) : Word := 0#16 ++ s.waitPMs ++ 0#6 ++ s.ossCode

/-- A host write of v to STATUS clears each W1C field whose bit of v is 1 and changes nothing else (R54). -/
def clearW1C (v : Word) (s : State) : State :=
  { s with
    done := s.done && !v.getLsbD 1
    ovf := s.ovf && !v.getLsbD 16
    overrun := s.overrun && !v.getLsbD 17
    buserrSeen := s.buserrSeen && !v.getLsbD 18 }

/-- A computation of the compensation engines: its state lists, for each s32 step made so far, whether that step
overflowed (R10), oldest first; its error is the kind it raises (R244). -/
abbrev Calc (α : Type) := EStateM ErrorKind (List Bool) α

/-- Some step of a computation overflowed (R10). -/
def overflowed (steps : List Bool) : Bool := steps.any id

/-- The range of s32 (R9, R10). -/
def inS32 (x : Int) : Bool := decide (-2147483648 ≤ x) && decide (x ≤ 2147483647)

/-- The exact result reduced modulo 2^32 into s32; the step overflows when it lies outside the range (R10). -/
def narrow (x : Int) : Calc Word := fun steps => .ok (BitVec.ofInt 32 x) (steps ++ [!inS32 x])

/-- s32 addition (R10). -/
def sAdd (a b : Word) : Calc Word := narrow (a.toInt + b.toInt)

/-- s32 subtraction (R10). -/
def sSub (a b : Word) : Calc Word := narrow (a.toInt - b.toInt)

/-- s32 multiplication (R10). -/
def sMul (a b : Word) : Calc Word := narrow (a.toInt * b.toInt)

/-- `a << k` on s32: multiplication by 2^k (R13). -/
def sShl (a : Word) (k : Nat) : Calc Word := narrow (a.toInt * 2 ^ k)

/-- `a tdiv b` on s32, truncated toward zero; (−2^31) tdiv (−1) gives −2^31 and overflows (R11). The divisor has
been tested by the caller. -/
def sTdiv (a b : Word) : Calc Word := narrow (a.toInt.tdiv b.toInt)

/-- `a >>a k`, the arithmetic right shift (R13). -/
def sar (a : Word) (k : Nat) : Word := a.sshiftRight k

/-- `a pdiv k` (R12): an arithmetic shift under FLOOR, a truncated division by 2^k under TRUNC. -/
def pdiv (r : Rounding) (a : Word) (k : Nat) : Word :=
  match r with
  | .floor => sar a k
  | .trunc => BitVec.ofInt 32 (a.toInt.tdiv (2 ^ k))

/-- `asS32(u)`: the same pattern; u ≥ 2^31 overflows (R10). -/
def asS32 (u : Word) : Calc Word := fun steps => .ok u (steps ++ [u.msb])

/-- `asU32(s)`: the same pattern, no flag (R10). -/
def asU32 (s : Word) : Word := s

/-- `a udiv b` on u32 (R11). The divisor has been tested by the caller. -/
def uDiv (a b : Word) : Word := BitVec.udiv a b

end Sys2Proof.Machine
end

