-- ==== Sys2Proof/Machine/Operands.lean ====
section
/-! DEFINITION. Every operand form: coefficients by their signedness (R44, R45), the assembly of raw codes and
coefficient words (R84, R235, R236, R281, R282), the load's classifications (R231 to R233), the framed read's
checksum, validation and decoders (R163, R194, R196, R197). -/

namespace Sys2Proof.Machine

/-- Byte i of a byte sequence that a rule knows to be long enough. -/
def byteAt (b : List Byte) (i : Nat) : Byte := b.getD i 0

/-- A coefficient read as sext_16 (R9, R44). -/
def s16 (h : Half) : Word := h.signExtend 32

/-- A coefficient read as zext_16 (R9, R44). -/
def u16 (h : Half) : Word := h.setWidth 32

/-- zext_16 of a big-endian pair, the family-A raw temperature (R84, R235). -/
def raw16 (m l : Byte) : Word := (m ++ l).setWidth 32

/-- zext_24 of MSB, LSB, XLSB, most significant first (R84, R236, R281). -/
def raw24 (m l x : Byte) : Word := (m ++ l ++ x).setWidth 32

/-- A coefficient word from its two bytes in bus order (R84, R230, R280). -/
def calWord (o : ByteOrder) (b : List Byte) : Half :=
  match o with
  | .big => byteAt b 0 ++ byteAt b 1
  | .little => byteAt b 1 ++ byteAt b 0

/-- The coefficients of CAL_A in index order (R44). -/
def CalA.words (c : CalA) : List Half :=
  [c.ac1, c.ac2, c.ac3, c.ac4, c.ac5, c.ac6, c.b1, c.b2, c.mb, c.mc, c.md]

/-- The coefficients of CAL_B in index order (R45). -/
def CalB.words (c : CalB) : List Half :=
  [c.t1, c.t2, c.t3, c.p1, c.p2, c.p3, c.p4, c.p5, c.p6, c.p7, c.p8, c.p9]

/-- CAL_A from eleven words in index order (R44). -/
def CalA.ofWords (w : List Half) : CalA where
  ac1 := w.getD 0 0
  ac2 := w.getD 1 0
  ac3 := w.getD 2 0
  ac4 := w.getD 3 0
  ac5 := w.getD 4 0
  ac6 := w.getD 5 0
  b1 := w.getD 6 0
  b2 := w.getD 7 0
  mb := w.getD 8 0
  mc := w.getD 9 0
  md := w.getD 10 0

/-- CAL_B from twelve words in index order (R45). -/
def CalB.ofWords (w : List Half) : CalB where
  t1 := w.getD 0 0
  t2 := w.getD 1 0
  t3 := w.getD 2 0
  p1 := w.getD 3 0
  p2 := w.getD 4 0
  p3 := w.getD 5 0
  p4 := w.getD 6 0
  p5 := w.getD 7 0
  p6 := w.getD 8 0
  p7 := w.getD 9 0
  p8 := w.getD 10 0
  p9 := w.getD 11 0

/-- RESP from the six bytes of a response (R49). -/
def Resp.ofBytes (b : List Byte) : Resp :=
  ⟨byteAt b 0, byteAt b 1, byteAt b 2, byteAt b 3, byteAt b 4, byteAt b 5⟩

/-- The six bytes of RESP in order (R49). -/
def Resp.bytes (r : Resp) : List Byte := [r.r0, r.r1, r.r2, r.r3, r.r4, r.r5]

/-- Classify(id) (R58, R231). -/
def classify (id : Byte) : Family :=
  if id = idA then .familyA else if id = idB then .familyB else .unknown

/-- The oversampling code of OssMap(SETTING) (R232). -/
def ossCodeOf (setting : Byte) : BitVec 2 :=
  if setting = 0 then 0 else if setting = 1 then 1 else if setting = 2 then 2 else if setting = 3 then 3 else 1

/-- The wait of OssMap(SETTING), always that of the code (R232, 90_conflicts.md C2). -/
def ossWaitOf (setting : Byte) : Byte := waitA (ossCodeOf setting)

/-- CalFault: some coefficient's own two bytes are 0x0000 or 0xFFFF (R233, 90_conflicts.md C3). -/
def calFault (words : List Half) : Bool := words.any fun w => w == 0x0000 || w == 0xFFFF

/-- One of the eight iterations of R163. -/
def crcBit (c : Half) : Half := if c.getLsbD 0 then (c >>> 1) ^^^ crcPoly else c >>> 1

/-- The eight iterations of R163 for one byte, after it is combined into the low 8 bits. -/
def crcByte (c : Half) (b : Byte) : Half :=
  let c0 := c ^^^ b.setWidth 16
  crcBit (crcBit (crcBit (crcBit (crcBit (crcBit (crcBit (crcBit c0)))))))

/-- Crc16 (R163). -/
def crc16 (b : List Byte) : Half := b.foldl crcByte crcInit

/-- Validate(b) (R194): the data word, or the first check that failed. -/
def validateResponse (b : List Byte) : Except ErrorKind Half :=
  if byteAt b 0 ≠ fcRead then .error .protocolMismatch
  else if byteAt b 1 ≠ frLen then .error .protocolMismatch
  else if crc16 [byteAt b 0, byteAt b 1, byteAt b 2, byteAt b 3] ≠ byteAt b 5 ++ byteAt b 4 then
    .error .checksumMismatch
  else .ok (byteAt b 2 ++ byteAt b 3)

/-- TempDecode(v), in hundredths of a degree (R196): the top bit is a sign flag over a 15-bit magnitude. -/
def tempDecode (v : Half) : Int :=
  (if v.getLsbD 15 then -((v.extractLsb' 0 15).toNat : Int) else (v.toNat : Int)) * 10

/-- HumDecode(v), in hundredths of a percent (R197). -/
def humDecode (v : Half) : Int := (v.toNat : Int) * 10

end Sys2Proof.Machine
end

