-- ==== Sys2Proof/Machine/Ops.lean ====
section
/-! DEFINITION. The operations the commands share: the frame memory (R97), the CSR space (R32, R53, R54), the
inputs that arrive while a command runs, the bus and the delay (R16, R17), accept, commit and raise (R124, R125,
R19), reset (R390). -/

namespace Sys2Proof.Machine

/-! ## Frame memory (R97, R330 to R332) -/

/-- What frame byte a reads as after reset (R332): header and tags as R330 lays them out, value bytes 0x00. It is
also what an offset the frame does not list reads as. -/
def frameInit (p : Params) (a : Nat) : Byte :=
  if a = 0 then p.frameSvcId.extractLsb' 0 8
  else if a = 1 then p.frameSvcId.extractLsb' 8 8
  else if a = 2 then p.frameFlags
  else if a = 3 then 0x02
  else if a = 6 then 0x04
  else if a = 10 then 0x02
  else if a = 13 then 0x03
  else 0x00

/-- The byte listed at offset a, if one is. -/
def Memory.find (a : Nat) : Memory → Option Byte
  | [] => none
  | (x, y) :: m => if x = a then some y else Memory.find a m

/-- FRAME[a] (R48, R97). -/
def Memory.read (p : Params) (m : Memory) (a : Nat) : Byte := (Memory.find a m).getD (frameInit p a)

/-- List the byte b at offset a, keeping the offsets rising. -/
def Memory.insert (a : Nat) (b : Byte) : Memory → Memory
  | [] => [(a, b)]
  | (x, y) :: m =>
    if a < x then (a, b) :: (x, y) :: m
    else if a = x then (a, b) :: m
    else (x, y) :: Memory.insert a b m

/-- List nothing at offset a. -/
def Memory.erase (a : Nat) : Memory → Memory
  | [] => []
  | (x, y) :: m => if x = a then Memory.erase a m else (x, y) :: Memory.erase a m

/-- FRAME[a] ← b, in canonical form. Offsets 16 and above do not exist (R97: "No rule writes outside 0..15"), so
there is no byte to change there. -/
def Memory.write (p : Params) (m : Memory) (a : Nat) (b : Byte) : Memory :=
  if frameLen ≤ a then m
  else if b = frameInit p a then Memory.erase a m
  else Memory.insert a b m

/-- MemWrite(FRAME, i, n, v): FRAME[i + k] ← v[8k+7:8k] for k = 0..n−1 (R97). -/
def Memory.writeLE (p : Params) (i : Nat) : Nat → Word → Memory → Memory
  | 0, _, m => m
  | n + 1, v, m => Memory.writeLE p (i + 1) n (v >>> 8) (Memory.write p m i (v.setWidth 8))

/-- MemRead(FRAME, i, n) = {FRAME[i+n−1], ..., FRAME[i]} (R97). -/
def Memory.readLE (p : Params) (m : Memory) (i : Nat) : Nat → Word
  | 0 => 0
  | n + 1 => (Memory.read p m i).setWidth 32 ||| (Memory.readLE p m (i + 1) n <<< 8)

/-- Every listed offset is above the bound. -/
def Memory.above (bound : Nat) : Memory → Bool
  | [] => true
  | (x, _) :: m => decide (bound < x) && Memory.above bound m

/-- The canonical form: offsets strictly rising and below 16, no cell equal to what its offset reads as unlisted. -/
def Memory.wf (p : Params) : Memory → Bool
  | [] => true
  | (x, y) :: m => decide (x < frameLen) && decide (y ≠ frameInit p x) && Memory.above x m && Memory.wf p m

/-- FRAME[a] of the block. -/
def State.frameByte (s : State) (a : Nat) : Byte := Memory.read s.params s.frame a

/-- FRAMEW[j] = {FRAME[4j+3], FRAME[4j+2], FRAME[4j+1], FRAME[4j]} (R48). -/
def frameWord (s : State) (j : Nat) : Word :=
  s.frameByte (4 * j + 3) ++ s.frameByte (4 * j + 2) ++ s.frameByte (4 * j + 1) ++ s.frameByte (4 * j)

/-! ## The CSR space (R32, R53, R54) -/

/-- The registers of R32's map. -/
inductive Csr where
  | cmd
  | status
  | result
  | buscode
  | osscfg
  | id
  | valT1
  | valP
  | valT2
  | valH
  | rawT
  | rawP
  | b5
  | tfine
  | calA (i : Nat)
  | calB (i : Nat)
  | frameW (j : Nat)
  | respW0
  | respW1
  deriving DecidableEq, Repr

/-- A run of n registers from an offset, four bytes apart. -/
def csrRun (off n : Nat) (f : Nat → Csr) : List (Nat × Csr) :=
  (List.range n).map fun i => (off + 4 * i, f i)

/-- The map of R32 up to 0x03C: each register with its offset from CSR_BASE. -/
def csrScalars : List (Nat × Csr) :=
  [(0x000, .cmd), (0x004, .status), (0x008, .result), (0x00C, .buscode), (0x010, .osscfg), (0x014, .id),
    (0x020, .valT1), (0x024, .valP), (0x028, .valT2), (0x02C, .valH), (0x030, .rawT), (0x034, .rawP),
    (0x038, .b5), (0x03C, .tfine)]

/-- The map of R32. -/
def csrMap : List (Nat × Csr) :=
  csrScalars ++ csrRun 0x040 11 .calA ++ csrRun 0x080 12 .calB ++ csrRun 0x0C0 4 .frameW ++
    [(0x0D0, .respW0), (0x0D4, .respW1)]

/-- The register at a multiple-of-4 offset from CSR_BASE; none is a reserved offset (R32). -/
def csrAt (off : Word) : Option Csr := csrMap.lookup off.toNat

/-- The value a host read of a register returns (R32 to R49). -/
def csrRead (s : State) : Csr → Word
  | .cmd => s.cmd
  | .status => statusWord s
  | .result => s.result
  | .buscode => s.buscode
  | .osscfg => osscfgWord s
  | .id => s.id.setWidth 32
  | .valT1 => s.valT1
  | .valP => s.valP
  | .valT2 => s.valT2
  | .valH => s.valH
  | .rawT => s.rawT
  | .rawP => s.rawP
  | .b5 => s.b5
  | .tfine => s.tfine
  | .calA i => u16 (s.calA.words.getD i 0)
  | .calB i => u16 (s.calB.words.getD i 0)
  | .frameW j => frameWord s j
  | .respW0 => s.resp.r3 ++ s.resp.r2 ++ s.resp.r1 ++ s.resp.r0
  | .respW1 => 0#16 ++ s.resp.r5 ++ s.resp.r4

/-- A host read at an offset: a reserved offset reads 0 (R32). -/
def hostReadValue (s : State) (off : Word) : Word :=
  match csrAt off with
  | some c => csrRead s c
  | none => 0

/-- A host read: no side effect on the block (R89); the value goes to the host. -/
def hostRead (off : Word) (s : State) : State :=
  { s with hostLog := s.hostLog ++ [(off, hostReadValue s off)] }

/-- A host write of an idle block to a register other than CMD (R32, R46, R47, R54): value registers store it, B5 and
TFINE also set their VALID bit, STATUS clears its W1C fields, read-only registers ignore it. -/
def csrWriteIdle (c : Csr) (v : Word) (s : State) : State :=
  match c with
  | .cmd => s
  | .status => clearW1C v s
  | .result => s
  | .buscode => s
  | .osscfg => s
  | .id => s
  | .valT1 => { s with valT1 := v }
  | .valP => { s with valP := v }
  | .valT2 => { s with valT2 := v }
  | .valH => { s with valH := v }
  | .rawT => { s with rawT := v }
  | .rawP => { s with rawP := v }
  | .b5 => { s with b5 := v, b5Valid := true }
  | .tfine => { s with tfine := v, tfineValid := true }
  | .calA _ => s
  | .calB _ => s
  | .frameW _ => s
  | .respW0 => s
  | .respW1 => s

/-- A host write of an idle block to an offset other than CMD's; a reserved offset ignores it (R54). -/
def hostWriteIdle (off v : Word) (s : State) : State :=
  match csrAt off with
  | some c => csrWriteIdle c v s
  | none => s

/-- A host write that a running command drops (R53): OVERRUN is set and nothing else happens. -/
def dropWrite (s : State) : State := { s with overrun := true }

/-- The bytes of the CSR space, at host addresses CSR_BASE to CSR_BASE + 0xFF (R80). -/
def csrSpaceLen : Nat := 0x100

/-- A host write while BUSY = 1 (R53): STATUS clears its W1C fields, any other offset of the CSR space is dropped; past
the end of the CSR space there is no CSR for R53 to speak of (R80, notes/assumptions/9.md). -/
def hostWriteBusy (off v : Word) (s : State) : State :=
  if csrAt off = some .status then clearW1C v s
  else if off.toNat < csrSpaceLen then dropWrite s
  else s

/-- R82: the host accesses the CSR space by 32-bit accesses at offsets that are multiples of 4. R82 speaks of the CSR
space only; that an access given by an offset past it (0x100 or more) is judged in the same way is the model's choice
[DESIGN CHOICE, notes/assumptions/27.md]. -/
def HostAccess.supported : HostAccess → Bool
  | .read size off => size == .word && off.extractLsb' 0 2 == 0#2
  | .write size off _ => size == .word && off.extractLsb' 0 2 == 0#2

/-- A supported host access while a command runs (R53). -/
def hostAccessBusy (a : HostAccess) (s : State) : State :=
  match a with
  | .read _ off => hostRead off s
  | .write _ off v => hostWriteBusy off v s

/-- The bytes of an access. -/
def AccessSize.bytes : AccessSize → Nat
  | .byte => 1
  | .half => 2
  | .word => 4
  | .double => 8

/-- The offset of a host address from CSR_BASE (R32, R80). It is looked at only where `meetsCsr` holds; the first byte
of an access that reaches into the CSR space from below lies at a negative offset, and R82 does not support such an
access at any size (notes/assumptions/25.md). -/
def csrOffset (p : Params) (addr : Nat) : Word := BitVec.ofInt 32 ((addr : Int) - (p.csrBase : Int))

/-- Some byte of the access lies in the CSR space (R80). -/
def meetsCsr (p : Params) (size : AccessSize) (addr : Nat) : Bool :=
  decide (addr < p.csrBase + csrSpaceLen) && decide (p.csrBase < addr + size.bytes)

/-- What a host access at a host address is to the block (R80). -/
def MemAccess.reach (p : Params) : MemAccess → Reach
  | .load size addr => if meetsCsr p size addr then .csr (.read size (csrOffset p addr)) else .elsewhere
  | .store size addr v => if meetsCsr p size addr then .csr (.write size (csrOffset p addr) v) else .elsewhere

/-- What an event is to the block. -/
def Event.reach (p : Params) : Event → Reach
  | .access a => .csr a
  | .memory m => m.reach p
  | .reset => .reset

/-! ## The end of a command, and reset -/

/-- What fr's return to Idle adds to the protocol log; a command that ran no framed read adds nothing (R192). -/
def frReturn (s : State) : List FrState :=
  match s.seq with
  | some r => if r.fr = .idle then s.frLog else s.frLog ++ [.idle]
  | none => s.frLog

/-- Reset by the platform (R390): every piece of state takes its reset value and a running command is abandoned.
The parameters, the inputs and answers still to come, and what has been observed are not state of the block
and stay (notes/assumptions/16.md). -/
def platformReset (s : State) : State :=
  { State.resetWith s.params with
    inputs := s.inputs
    answers := s.answers
    trace := s.trace
    frLog := frReturn s
    hostLog := s.hostLog }

/-- One register write at commit (R18). -/
def applyWrite (s : State) : RegWrite → State
  | .result v => { s with result := v }
  | .id v => { s with id := v }
  | .family f => { s with family := f }
  | .calA c => { s with calA := c }
  | .calB c => { s with calB := c }
  | .ossCode c => { s with ossCode := c }
  | .waitPMs v => { s with waitPMs := v }
  | .calValidA b => { s with calValidA := b }
  | .calValidB b => { s with calValidB := b }
  | .calFaultA b => { s with calFaultA := b }
  | .calFaultB b => { s with calFaultB := b }
  | .b5 v => { s with b5 := v }
  | .b5Valid b => { s with b5Valid := b }
  | .tfine v => { s with tfine := v }
  | .tfineValid b => { s with tfineValid := b }
  | .valT1 v => { s with valT1 := v }
  | .valP v => { s with valP := v }
  | .valT2 v => { s with valT2 := v }
  | .valH v => { s with valH := v }
  | .rawT v => { s with rawT := v }
  | .rawP v => { s with rawP := v }
  | .resp r => { s with resp := r }
  | .frame i n v => { s with frame := Memory.writeLE s.params i n v s.frame }

/-- Every write of a list, in order. -/
def applyWrites (ws : List RegWrite) (s : State) : State := ws.foldl applyWrite s

/-- The commit (R125): the writes, ERR, BUSY ← 0 and DONE ← 1 in one step; fr returns to Idle (R192). -/
def commit (e : Option ErrorKind) (ws : List RegWrite) (s : State) : State :=
  { applyWrites ws s with err := e, done := true, seq := none, frLog := frReturn s }

/-! ## Accept (R124) -/

/-- The accept of a legal command: CMD ← w, BUSY ← 1, DONE ← 0, ERR ← 0, BUSCODE ← 0, `staged` empty (R124). -/
def accept (i : Instr) (s : State) : State :=
  { s with
    cmd := encode i
    done := false
    err := none
    buscode := 0
    seq := some ⟨i, 0, .idle, [], 0⟩ }

/-- A word w that is no command, written to CMD with BUSY = 0 (R124, R351). -/
def illegalCommand (w : Word) (s : State) : State :=
  { s with cmd := w, err := some .illegalCommand, buscode := 0, done := true }

/-! ## The body of a command

A body runs from the accepted state. It ends with a value and a state in which the command goes on (`ok`), or with
the state it leaves for good (`error`): committed by `raise`, reset by the platform, or still polling. -/

/-- A piece of a command's body. -/
abbrev Body (α : Type) := EStateM Unit State α

/-- Reads something of the state, such as R[NAME] (R15). -/
def regOf {α : Type} (f : State → α) : Body α := fun s => .ok (f s) s

/-- Changes the state. -/
def change (f : State → State) : Body Unit := fun s => .ok () (f s)

/-- A piece of a body given by what it makes of the state. -/
def fromState {α : Type} (f : State → EStateM.Result Unit State α) : Body α := f

/-- Changes the hidden state of the running sequencer. -/
def onSeq (f : Running → Running) (s : State) : State := { s with seq := s.seq.map f }

/-- One transaction, delay or computation of the body's text lies behind (R50 (3)). -/
def advance (s : State) : State := onSeq (fun r => { r with step := r.step + 1 }) s

/-- The position of the body (R50 (3)) becomes n: a jump back to a loop's head (R135). -/
def jumpTo (n : Nat) : Body Unit := change (onSeq fun r => { r with step := n })

/-- `R[NAME] <- v`: the write is staged (R18). -/
def stage (w : RegWrite) : Body Unit := change (onSeq fun r => { r with staged := r.staged ++ [w] })

/-- The writes staged so far (R50 (5)). -/
def stagedOf (s : State) : List RegWrite :=
  match s.seq with
  | some r => r.staged
  | none => []

/-- The protocol log gains the state f. -/
def passFr (f : FrState) (s : State) : State := { s with frLog := s.frLog ++ [f] }

/-- fr moves to f (R191, R192). -/
def setFr (f : FrState) : Body Unit := change fun s => onSeq (fun r => { r with fr := f }) (passFr f s)

/-- The inputs still to come become l. -/
def setInputs (l : List Input) (s : State) : State := { s with inputs := l }

/-- The inputs that arrive in one slot of a running command (R53, R390), by recursion on the input list: each one
that is due is served; one that is due later comes a slot nearer; an access that R82 does not support stays
(the host is stuck, the command is not). -/
def serveInputs : List Input → Body Unit
  | [], s => .ok () s
  | it :: rest, s =>
    match it.arrival with
    | .whenIdle => .ok () s
    | .after (n + 1) => .ok () (setInputs (⟨.after n, it.event⟩ :: rest) s)
    | .after 0 =>
      match it.event.reach s.params with
      | .reset => .error () (platformReset (setInputs rest s))
      | .elsewhere => serveInputs rest (setInputs rest s)
      | .csr a =>
        if a.supported then serveInputs rest (hostAccessBusy a (setInputs rest s)) else .ok () s

/-- A slot: the point before each transaction, s32 step and commit, and inside each delay, where an input can
reach a running command (notes/assumptions/5.md). -/
def slot : Body Unit := fun s => serveInputs s.inputs s

/-- No input is due while a command runs. -/
def State.hostQuiet (s : State) : Bool :=
  match s.inputs with
  | [] => true
  | it :: _ => it.arrival == .whenIdle

/-- BUSCODE takes the bus-reported code when there is one (R19, R36). -/
def takeBuscode (info : Option Word) (s : State) : State := { s with buscode := info.getD s.buscode }

/-- The command ends with the error e (R19): the writes ws are committed, ERR takes e, and BUSCODE takes the
bus-reported code when there is one. -/
def raise {α : Type} (e : ErrorKind) (info : Option Word) (ws : List RegWrite) : Body α := do
  slot
  fromState fun s => .error () (commit (some e) ws (takeBuscode info s))

/-- The error e with everything staged so far committed. -/
def raiseStaged {α : Type} (e : ErrorKind) (info : Option Word) : Body α := do
  let ws ← regOf stagedOf
  raise e info ws

/-- The command's normal end (R125). -/
def endBody : Body Unit := do
  slot
  change fun s => commit none (stagedOf s) s

/-- The state in which a body leaves the block. -/
def runBody (b : Body Unit) (s : State) : State :=
  match (do b; endBody : Body Unit) s with
  | .ok _ t => t
  | .error _ t => t

/-- Launch: the command i is accepted by an idle block and run (R124); a busy block drops the write of CMD that
launches it (R34, R53). -/
def launch (i : Instr) (run : State → State) (s : State) : Host.Outcome State Fault Refusal :=
  .next (if s.busy then dropWrite s else run (accept i s))

/-! ## The bus and the delay (R16, R17, R85, R86) -/

/-- The bytes of an answer. -/
def answerBytes : BusAnswer → List Byte
  | .ack b => b
  | .nack _ b => b

/-- Is the answer a Nack? -/
def isNack : BusAnswer → Bool
  | .ack _ => false
  | .nack _ _ => true

/-- Byte i of an answer. -/
def answerByte (a : BusAnswer) (i : Nat) : Byte := byteAt (answerBytes a) i

/-- The first n bytes of a byte sequence; a byte it does not give is the oracle's own (R85: "r is any sequence of n
bytes"). -/
def fitBytes (h : List BusEvent) (dev : Dev) (w : List Byte) (n : Nat) (b : List Byte) : List Byte :=
  (List.range n).map fun i => b.getD i (Config.oracleByte h dev w n i)

/-- The answer the bus oracle gives to Xfer(dev, w, n) now (R85): the next one laid down, else the free one. -/
def busAnswer (dev : Dev) (w : List Byte) (n : Nat) (s : State) : BusAnswer :=
  match s.answers with
  | .ack b :: _ => .ack (fitBytes s.trace dev w n b)
  | .nack c b :: _ => .nack c (fitBytes s.trace dev w n b)
  | [] =>
    match Config.oracleNack s.trace dev w n with
    | some c => .nack c (fitBytes s.trace dev w n [])
    | none => .ack (fitBytes s.trace dev w n [])

/-- What Xfer(dev, w, n) leaves (R16, R86): the event in the trace, BUSERR_SEEN set by a Nack. -/
def afterXfer (dev : Dev) (w : List Byte) (n : Nat) (s : State) : State :=
  { s with
    answers := s.answers.tail
    trace := s.trace ++ [.xfer dev w n (busAnswer dev w n s)]
    buserrSeen := s.buserrSeen || isNack (busAnswer dev w n s) }

/-- Xfer(dev, w, n) (R16). -/
def xfer (dev : Dev) (w : List Byte) (n : Nat) : Body BusAnswer := do
  slot
  fromState fun s => .ok (busAnswer dev w n s) (advance (afterXfer dev w n s))

/-- What Delay(ms) leaves: the event in the trace (R17, R86). -/
def afterDelay (ms : Nat) (s : State) : State := { s with trace := s.trace ++ [.delay ms] }

/-- Delay(ms) (R17). Its slot comes before its event, so that a reset that lands inside a delay leaves no Delay event in
the trace; R17, R86 and R390 do not say whether a delay cut short is recorded [DESIGN CHOICE,
notes/assumptions/28.md]. -/
def delay (ms : Nat) : Body Unit := do
  slot
  change fun s => advance (afterDelay ms s)

/-- RdAB(reg, n) (R164), with the calling rule's BusNack commits. -/
def rdAB (reg : Byte) (n : Nat) (onNack : List RegWrite) : Body (List Byte) := do
  let p ← regOf State.params
  let a ← xfer pressAddr [reg] n
  match a with
  | .ack b => pure b
  | .nack c b =>
    match p.abBusPolicy with
    | .abort => raise .busNack (some c) onNack
    | .ignore => pure b

/-- WrAB(reg, v) (R165), with the calling rule's BusNack commits. -/
def wrAB (reg v : Byte) (onNack : List RegWrite) : Body Unit := do
  let p ← regOf State.params
  let a ← xfer pressAddr [reg, v] 0
  match a with
  | .ack _ => pure ()
  | .nack c _ =>
    match p.abBusPolicy with
    | .abort => raise .busNack (some c) onNack
    | .ignore => pure ()

/-- One byte of RdAB(reg, 1). -/
def rdByte (reg : Byte) : Body Byte := do
  let b ← rdAB reg 1 []
  pure (byteAt b 0)

/-! ## Computations -/

/-- OVF is set the moment the event happens, whether or not the command then raises (R10, R125). -/
def noteOvf (o : Bool) (s : State) : State := { s with ovf := s.ovf || o }

/-- The s32 steps of a computation, one after the other: each has its slot and sets OVF if it overflows (R10, R125;
notes/assumptions/20.md). -/
def playSteps : List Bool → Body Unit
  | [] => pure ()
  | o :: steps => do
    slot
    change (noteOvf o)
    playSteps steps

/-- A computation of the compensation engines as a piece of a body; an error it raises commits ws (R244). -/
def compute {α : Type} (c : Calc α) (ws : List RegWrite) : Body α :=
  match c [] with
  | .ok a steps => do
    playSteps steps
    change advance
    pure a
  | .error e steps => do
    playSteps steps
    change advance
    raise e none ws

end Sys2Proof.Machine
end

