-- ==== Sys2Proof/Machine/Client.lean ====
section
/-! DEFINITION. NOP (R127) and the register transaction client: REG_READ (R160), REG_WRITE (R161). -/

namespace Sys2Proof.Machine

/-- NOP (R127): accept and commit with an empty body between them, so that the host cannot observe it as busy
(95_test_vectors.md E-ACC-3) and no slot stands between the two. -/
def execNop (s : State) : Host.Outcome State Fault Refusal := launch .nop (commit none []) s

/-- The body of REG_READ (R160). -/
def regReadBody (dev : Dev) (reg : Byte) : Body Unit := do
  let r ← xfer dev [reg] 1
  match r with
  | .nack c _ => raise .busNack (some c) []
  | .ack b => stage (.result ((byteAt b 0).setWidth 32))

/-- REG_READ dev, reg (R160). -/
def execRegRead (dev : Dev) (reg : Byte) (s : State) : Host.Outcome State Fault Refusal :=
  launch (.regRead dev reg) (runBody (regReadBody dev reg)) s

/-- The body of REG_WRITE (R161). -/
def regWriteBody (dev : Dev) (reg data : Byte) : Body Unit := do
  let r ← xfer dev [reg, data] 0
  match r with
  | .nack c _ => raise .busNack (some c) []
  | .ack _ => pure ()

/-- REG_WRITE dev, reg, data (R161). -/
def execRegWrite (dev : Dev) (reg data : Byte) (s : State) : Host.Outcome State Fault Refusal :=
  launch (.regWrite dev reg data) (runBody (regWriteBody dev reg data)) s

end Sys2Proof.Machine
end

