-- ==== Sys2Proof/Machine/FamilyA.lean ====
section
/-! DEFINITION. The calibration load both families share, and family A: CAL_LOAD_A (R230), RAWT_A (R235), RAWP_A
(R236), COMPT_A (R238), COMPP_A (R240), TEMP_A (R242), PRES_A (R243), with CompTA (R237) and CompPA (R239). -/

namespace Sys2Proof.Machine

/-- The coefficient words of a load, one two-byte read for each index of the list (R230, R280, R87). Register
indices are modulo 256. -/
def readCalWords (order : ByteOrder) (base : Byte) (onNack : List RegWrite) : List Nat → Body (List Half)
  | [] => pure []
  | i :: is => do
    let b ← rdAB (base + BitVec.ofNat 8 (2 * i)) 2 onNack
    let ws ← readCalWords order base onNack is
    pure (calWord order b :: ws)

/-- What CAL_LOAD_A commits when a Nack ends it (R230). -/
def calLoadANack : List RegWrite := [.calValidA false, .b5Valid false]

/-- The body of CAL_LOAD_A (R230). -/
def calLoadABody (setting : Byte) : Body Unit := do
  let p ← regOf State.params
  let idb ← rdAB p.regId 1 calLoadANack
  let words ← readCalWords p.calOrderA p.calBaseA calLoadANack (List.range 11)
  stage (.id (byteAt idb 0))
  stage (.result ((byteAt idb 0).setWidth 32))
  stage (.family (classify (byteAt idb 0)))
  stage (.calA (CalA.ofWords words))
  stage (.ossCode (ossCodeOf setting))
  stage (.waitPMs (ossWaitOf setting))
  stage (.calValidA (!calFault words))
  stage (.calFaultA (calFault words))
  stage (.b5Valid false)
  if calFault words then raiseStaged .calibrationFault none else pure ()

/-- CAL_LOAD_A setting (R230). -/
def execCalLoadA (setting : Byte) (s : State) : Host.Outcome State Fault Refusal :=
  launch (.calLoadA setting) (runBody (calLoadABody setting)) s

/-- The body of RAWT_A (R235); it answers the code it stages. -/
def rawtABody : Body Word := do
  let p ← regOf State.params
  wrAB p.regCtrlA p.cmdTempA []
  delay tTempAMs
  let m ← rdByte p.regDataA
  let l ← rdByte (p.regDataA + 1)
  stage (.rawT (raw16 m l))
  pure (raw16 m l)

/-- RAWT_A (R235). -/
def execRawtA (s : State) : Host.Outcome State Fault Refusal :=
  launch .rawtA (runBody (do let _ ← rawtABody)) s

/-- The body of RAWP_A (R236); it answers the code it stages. -/
def rawpABody : Body Word := do
  let p ← regOf State.params
  let oss ← regOf State.ossCode
  let wait ← regOf State.waitPMs
  wrAB p.regCtrlA (cmdPresA p oss) []
  delay wait.toNat
  let m ← rdByte p.regDataA
  let l ← rdByte (p.regDataA + 1)
  let x ← rdByte (p.regDataA + 2)
  stage (.rawP (raw24 m l x >>> (8 - oss.toNat)))
  pure (raw24 m l x >>> (8 - oss.toNat))

/-- RAWP_A (R236). -/
def execRawpA (s : State) : Host.Outcome State Fault Refusal :=
  launch .rawpA (runBody (do let _ ← rawpABody)) s

/-- CompTA(UT) (R237): the pair (B5, T), or DivideByZero. -/
def compTA (rnd : Rounding) (c : CalA) (ut : Word) : Calc (Word × Word) := do
  let diff ← sSub ut (u16 c.ac6)
  let prod ← sMul diff (u16 c.ac5)
  let x1 := pdiv rnd prod 15
  let d ← sAdd x1 (s16 c.md)
  if d = 0 then throw ErrorKind.divideByZero
  else do
    let mc ← sMul (s16 c.mc) 2048
    let x2 ← sTdiv mc d
    let b5 ← sAdd x1 x2
    let sum ← sAdd b5 8
    let t ← sMul (pdiv rnd sum 4) 10
    pure (b5, t)

/-- CompTA on the pattern of RAW_T, asS32(R[RAW_T]) (R238). -/
def compTAOf (rnd : Rounding) (c : CalA) (raw : Word) : Calc (Word × Word) := do
  let ut ← asS32 raw
  compTA rnd c ut

/-- The compensation part of COMPT_A and TEMP_A on a raw code; DivideByZero commits the writes given (R238, R242). -/
def comptABody (raw : Word) (onError : List RegWrite) : Body Unit := do
  let p ← regOf State.params
  let c ← regOf State.calA
  let r ← compute (compTAOf p.divPow2 c raw) onError
  stage (.b5 r.1)
  stage (.b5Valid true)
  stage (.valT1 r.2)

/-- COMPT_A (R238). -/
def execComptA (s : State) : Host.Outcome State Fault Refusal :=
  launch .comptA (runBody (do let raw ← regOf State.rawT; comptABody raw [])) s

/-- B3 of CompPA (R239), from B6 and S. -/
def compPAB3 (rnd : Rounding) (c : CalA) (oss : BitVec 2) (b6 sq : Word) : Calc Word := do
  let a ← sMul (s16 c.b2) sq
  let b ← sMul (s16 c.ac2) b6
  let x3 ← sAdd (pdiv rnd a 11) (pdiv rnd b 11)
  let e ← sMul (s16 c.ac1) 4
  let f ← sAdd e x3
  let g ← sShl f oss.toNat
  let h ← sAdd g 2
  sTdiv h 4

/-- B4 of CompPA (R239), from B6 and S: a u32. -/
def compPAB4 (rnd : Rounding) (c : CalA) (b6 sq : Word) : Calc Word := do
  let a ← sMul (s16 c.ac3) b6
  let b ← sMul (s16 c.b1) sq
  let x ← sAdd (pdiv rnd a 13) (pdiv rnd b 16)
  let y ← sAdd x 2
  let x3 ← sTdiv y 4
  let z ← sAdd x3 32768
  pure ((u16 c.ac4 * asU32 z) >>> 15)

/-- The tail of CompPA (R239), from p as s32. -/
def compPATail (rnd : Rounding) (p : Word) : Calc Word := do
  let q ← sMul (pdiv rnd p 8) (pdiv rnd p 8)
  let a ← sMul q 3038
  let b ← sMul (BitVec.ofInt 32 (-7357)) p
  let c ← sAdd (pdiv rnd a 16) (pdiv rnd b 16)
  let d ← sAdd c 3791
  sAdd p (pdiv rnd d 4)

/-- CompPA(UP, B5, oss) (R239): the pressure, or DivideByZero. -/
def compPA (rnd : Rounding) (c : CalA) (up b5 : Word) (oss : BitVec 2) : Calc Word := do
  let b6 ← sSub b5 4000
  let sq ← sMul b6 b6
  let sqs := pdiv rnd sq 12
  let b3 ← compPAB3 rnd c oss b6 sqs
  let b4 ← compPAB4 rnd c b6 sqs
  if b4 = 0 then throw ErrorKind.divideByZero
  else do
    let b7 := (up - asU32 b3) * asU32 (50000#32 >>> oss.toNat)
    let pu := if b7 < 0x80000000#32 then uDiv (b7 * 2) b4 else uDiv b7 b4 * 2
    let p ← asS32 pu
    compPATail rnd p

/-- The compensation part of COMPP_A and PRES_A on a raw code; DivideByZero commits the writes given (R240, R243). -/
def comppABody (raw : Word) (onError : List RegWrite) : Body Unit := do
  let p ← regOf State.params
  let c ← regOf State.calA
  let b5 ← regOf State.b5
  let oss ← regOf State.ossCode
  let r ← compute (compPA p.divPow2 c raw b5 oss) onError
  stage (.valP (asU32 r))

/-- The test of B5_VALID that COMPP_A and PRES_A make before anything else (R240, R243, R246, R360). -/
def needB5 : Body Unit := do
  let v ← regOf State.b5Valid
  if v then pure () else raise .noTemperature none []

/-- COMPP_A (R240). -/
def execComppA (s : State) : Host.Outcome State Fault Refusal :=
  launch .comppA (runBody (do needB5; let raw ← regOf State.rawP; comppABody raw [])) s

/-- TEMP_A (R242): the body of RAWT_A, then that of COMPT_A on the code it staged. -/
def execTempA (s : State) : Host.Outcome State Fault Refusal :=
  launch .tempA (runBody (do let raw ← rawtABody; comptABody raw [.rawT raw])) s

/-- PRES_A (R243): the test of B5_VALID, the body of RAWP_A, then CompPA on the code it staged. -/
def execPresA (s : State) : Host.Outcome State Fault Refusal :=
  launch .presA (runBody (do needB5; let raw ← rawpABody; comppABody raw [.rawP raw])) s

end Sys2Proof.Machine
end

