-- ==== Sys2Proof/Machine/FamilyB.lean ====
section
/-! DEFINITION. Family B: CAL_LOAD_B (R280), RAWT_B (R281) with its status poll, RAWP_B (R282), COMPT_B (R283),
COMPP_B (R285), TEMP_B (R287), PRES_B (R288), with CompTB (R284) and CompPB (R286, R289), and the resumption of a
command that still polls (R358). -/

namespace Sys2Proof.Machine

/-- What CAL_LOAD_B commits when a Nack ends it (R280). -/
def calLoadBNack : List RegWrite := [.calValidB false, .tfineValid false]

/-- The body of CAL_LOAD_B (R280). -/
def calLoadBBody : Body Unit := do
  let p ← regOf State.params
  let idb ← rdAB p.regId 1 calLoadBNack
  let words ← readCalWords p.calOrderB p.calBaseB calLoadBNack (List.range 12)
  stage (.id (byteAt idb 0))
  stage (.result ((byteAt idb 0).setWidth 32))
  stage (.family (classify (byteAt idb 0)))
  stage (.calB (CalB.ofWords words))
  stage (.calValidB (!calFault words))
  stage (.calFaultB (calFault words))
  stage (.tfineValid false)
  if calFault words then raiseStaged .calibrationFault none else pure ()

/-- CAL_LOAD_B (R280). -/
def execCalLoadB (s : State) : Host.Outcome State Fault Refusal :=
  launch .calLoadB (runBody calLoadBBody) s

/-! ## The status poll (R281) -/

/-- The position of the poll loop's head in the body of RAWT_B: the control write lies behind it. -/
def pollHead : Nat := 1

/-- poll_count of the running sequencer (R50 (6)). -/
def State.pollCount (s : State) : Nat :=
  match s.seq with
  | some r => r.pollCount
  | none => 0

/-- `n <- n + 1` of R281. -/
def countPoll : Body Unit := change (onSeq fun r => { r with pollCount := r.pollCount + 1 })

/-- `POLL_LIMIT != UNBOUNDED and n >= POLL_LIMIT` of R281. -/
def limitReached (limit : Option Nat) (n : Nat) : Bool :=
  match limit with
  | none => false
  | some l => decide (l ≤ n)

/-- The loop of R281, at most k polls in this step; after k polls that found the measuring bit set the command is
left running at the loop's head, and the next step polls on (notes/assumptions/6.md). -/
def pollLoop : Nat → Body Unit
  | 0 => fromState fun s => .error () s
  | k + 1 => do
    let p ← regOf State.params
    let st ← rdByte p.regStatusB
    countPoll
    if st &&& p.measMaskB = 0 then pure ()
    else do
      let n ← regOf State.pollCount
      if limitReached p.pollLimit n then raise .pollTimeout none []
      else do
        jumpTo pollHead
        pollLoop k

/-- The loop of R281 as one step runs it: one poll for each answer laid down beforehand, and at least one. -/
def pollStatus : Body Unit := do
  let k ← regOf fun s => s.answers.length
  pollLoop (max k 1)

/-- RAWT_B from the poll loop on (R281); it answers the code it stages. With the control write it makes 4 + n
transactions for n polls, as R281's body and R87 list them; R403's table has one fewer, and the model follows R281
[DEDUCED, notes/assumptions/26.md]. -/
def rawtBPolling : Body Word := do
  pollStatus
  let p ← regOf State.params
  let m ← rdByte p.regTempB
  let l ← rdByte (p.regTempB + 1)
  let x ← rdByte (p.regTempB + 2)
  stage (.rawT (raw24 m l x >>> 4))
  pure (raw24 m l x >>> 4)

/-- The control write of RAWT_B (R281). -/
def rawtBStart : Body Unit := do
  let p ← regOf State.params
  wrAB p.regCtrlB p.ctrlBValue []

/-- RAWT_B from the poll loop on, as a command. -/
def rawtBRest : Body Unit := do
  let _ ← rawtBPolling

/-- RAWT_B (R281). -/
def execRawtB (s : State) : Host.Outcome State Fault Refusal :=
  launch .rawtB (runBody (do rawtBStart; rawtBRest)) s

/-- The body of RAWP_B (R282); it answers the code it stages. -/
def rawpBBody : Body Word := do
  let p ← regOf State.params
  let m ← rdByte p.regPresB
  let l ← rdByte (p.regPresB + 1)
  let x ← rdByte (p.regPresB + 2)
  stage (.rawP (raw24 m l x >>> 4))
  pure (raw24 m l x >>> 4)

/-- RAWP_B (R282). -/
def execRawpB (s : State) : Host.Outcome State Fault Refusal :=
  launch .rawpB (runBody (do let _ ← rawpBBody)) s

/-! ## Compensation -/

/-- CompTB(rawT) (R284): the pair (tFine, T). -/
def compTB (rnd : Rounding) (c : CalB) (rawT : Word) : Calc (Word × Word) := do
  let t2x ← sShl (u16 c.t1) 1
  let a ← sSub (sar rawT 3) t2x
  let b ← sMul a (s16 c.t2)
  let var1 := pdiv rnd b 11
  let d ← sSub (sar rawT 4) (u16 c.t1)
  let e ← sMul d d
  let f ← sMul (pdiv rnd e 12) (s16 c.t3)
  let var2 := pdiv rnd f 14
  let tFine ← sAdd var1 var2
  let g ← sMul tFine 5
  let h ← sAdd g 128
  pure (tFine, pdiv rnd h 8)

/-- CompTB on the pattern of RAW_T, asS32(R[RAW_T]) (R283). -/
def compTBOf (rnd : Rounding) (c : CalB) (raw : Word) : Calc (Word × Word) := do
  let rawT ← asS32 raw
  compTB rnd c rawT

/-- The second var2 of CompPB (R286), from the first var1 and q. -/
def compPBVar2 (rnd : Rounding) (c : CalB) (var1 q : Word) : Calc Word := do
  let qq ← sMul q q
  let a ← sMul (pdiv rnd qq 11) (s16 c.p6)
  let b ← sMul var1 (s16 c.p5)
  let b2 ← sShl b 1
  let d ← sAdd a b2
  let e ← sShl (s16 c.p4) 16
  sAdd (pdiv rnd d 2) e

/-- The guard divisor, the last var1 of CompPB (R286), from the first var1 and q. -/
def compPBVar1 (rnd : Rounding) (c : CalB) (var1 q : Word) : Calc Word := do
  let qq ← sMul q q
  let a ← sMul (s16 c.p3) (pdiv rnd qq 13)
  let b ← sMul (s16 c.p2) var1
  let d ← sAdd (pdiv rnd a 3) (pdiv rnd b 1)
  let e ← sAdd 32768 (pdiv rnd d 18)
  let f ← sMul e (u16 c.p1)
  pure (pdiv rnd f 15)

/-- The tail of CompPB (R286, R289), from p as u32. -/
def compPBTail (rnd : Rounding) (c : CalB) (p : Word) : Calc Word := do
  let sq ← asS32 (((p >>> 3) * (p >>> 3)) >>> 13)
  let a ← sMul (s16 c.p9) sq
  let w1 := pdiv rnd a 12
  let p4 ← asS32 (p >>> 2)
  let b ← sMul p4 (s16 c.p8)
  let w2 := pdiv rnd b 13
  let ps ← asS32 p
  let d ← sAdd w1 w2
  let e ← sAdd d (s16 c.p7)
  let f ← sAdd ps (sar e 4)
  pure (asU32 f)

/-- CompPB(rawP, tFine) (R286): the pair (P, guard). -/
def compPB (rnd : Rounding) (c : CalB) (rawP tFine : Word) : Calc (Word × Bool) := do
  let var1 ← sSub (sar tFine 1) 64000
  let q := sar var1 2
  let var2 ← compPBVar2 rnd c var1 q
  let div ← compPBVar1 rnd c var1 q
  if div = 0 then pure (0, true)
  else do
    let a ← sSub 1048576 rawP
    let b ← sSub a (sar var2 12)
    let p := asU32 b * 3125
    let pq := if p < 0x80000000#32 then uDiv (p <<< 1) (asU32 div) else uDiv p (asU32 div) * 2
    let r ← compPBTail rnd c pq
    pure (r, false)

/-- CompPB on the pattern of RAW_P, asS32(R[RAW_P]) (R285). -/
def compPBOf (rnd : Rounding) (c : CalB) (raw tFine : Word) : Calc (Word × Bool) := do
  let rawP ← asS32 raw
  compPB rnd c rawP tFine

/-- The compensation part of COMPT_B, TEMP_B and PRES_B on a raw code; it answers tFine (R283, R287, R288). -/
def comptBBody (raw : Word) : Body Word := do
  let p ← regOf State.params
  let c ← regOf State.calB
  let r ← compute (compTBOf p.divPow2 c raw) []
  stage (.tfine r.1)
  stage (.tfineValid true)
  stage (.valT1 r.2)
  pure r.1

/-- COMPT_B (R283). -/
def execComptB (s : State) : Host.Outcome State Fault Refusal :=
  launch .comptB (runBody (do let raw ← regOf State.rawT; let _ ← comptBBody raw)) s

/-- The compensation part of COMPP_B and PRES_B on a raw code and a tFine; the guard commits everything staged with
VAL_P = 0 (R285, R288, R356). -/
def comppBBody (raw tFine : Word) : Body Unit := do
  let p ← regOf State.params
  let c ← regOf State.calB
  let r ← compute (compPBOf p.divPow2 c raw tFine) []
  stage (.valP r.1)
  if r.2 then raiseStaged .divideByZeroGuard none else pure ()

/-- The test of TFINE_VALID that COMPP_B makes before anything else (R285, R290, R360). -/
def needTfine : Body Unit := do
  let v ← regOf State.tfineValid
  if v then pure () else raise .noTemperature none []

/-- The body of COMPP_B (R285). -/
def comppBFull : Body Unit := do
  needTfine
  let raw ← regOf State.rawP
  let tf ← regOf State.tfine
  comppBBody raw tf

/-- COMPP_B (R285). -/
def execComppB (s : State) : Host.Outcome State Fault Refusal :=
  launch .comppB (runBody comppBFull) s

/-- TEMP_B from the poll loop on (R287). -/
def tempBRest : Body Unit := do
  let raw ← rawtBPolling
  let _ ← comptBBody raw

/-- TEMP_B (R287). -/
def execTempB (s : State) : Host.Outcome State Fault Refusal :=
  launch .tempB (runBody (do rawtBStart; tempBRest)) s

/-- PRES_B from the poll loop on (R288). -/
def presBRest : Body Unit := do
  let raw ← rawtBPolling
  let tf ← comptBBody raw
  let rawP ← rawpBBody
  comppBBody rawP tf

/-- PRES_B (R288). -/
def execPresB (s : State) : Host.Outcome State Fault Refusal :=
  launch .presB (runBody (do rawtBStart; presBRest)) s

/-! ## The command that still polls (R358) -/

/-- What is left of a command's body at the poll loop's head, for the commands that have one. -/
def pollRest : Instr → Option (Body Unit)
  | .rawtB => some rawtBRest
  | .tempB => some tempBRest
  | .presB => some presBRest
  | .nop => none
  | .regRead _ _ => none
  | .regWrite _ _ _ => none
  | .framedRead _ _ => none
  | .comboTemp => none
  | .comboHum => none
  | .calLoadA _ => none
  | .rawtA => none
  | .rawpA => none
  | .comptA => none
  | .comppA => none
  | .tempA => none
  | .presA => none
  | .calLoadB => none
  | .rawpB => none
  | .comptB => none
  | .comppB => none
  | .frameEncode => none

/-- The step of a block whose command still polls: the body goes on from the loop's head (R281, R358). -/
def resumePolling (r : Running) (s : State) : Host.Outcome State Fault Refusal :=
  match pollRest r.cmd with
  | some b => if r.step = pollHead then .next (runBody b s) else .fault .strandedSequencer
  | none => .fault .strandedSequencer

end Sys2Proof.Machine
end

