-- ==== Sys2Proof/Machine/Framed.lean ====
section
/-! DEFINITION. The checksum-validated framed read (R190 to R202) and its commands FRAMED_READ (R193), COMBO_TEMP
(R198) and COMBO_HUM (R199). -/

namespace Sys2Proof.Machine

/-- What FramedRead returns (R191): the value v, the error kind e with the bus-reported code of a BusNack, and the
six response bytes if the response was received. -/
structure Framed where
  v : Half
  e : Option (ErrorKind × Option Word)
  b : Option Resp
  deriving DecidableEq, Repr

/-- A Nack that ends the protocol (R191). -/
def framedNack (c : Word) : Body Framed := do
  setFr .fault
  pure ⟨sentinelRaw, some (.busNack, some c), none⟩

/-- The Validate step of FramedRead on the six bytes received (R191, R194). -/
def framedValidate (b : List Byte) : Body Framed := do
  setFr .validate
  match validateResponse b with
  | .ok v => do
    setFr .done
    pure ⟨v, none, some (Resp.ofBytes b)⟩
  | .error e => do
    setFr .fault
    pure ⟨sentinelRaw, some (e, none), some (Resp.ofBytes b)⟩

/-- FramedRead from the response read on (R191). -/
def framedResponse (dev : Dev) : Body Framed := do
  setFr .responseRead
  let r ← xfer dev [] 6
  match r with
  | .nack c _ => framedNack c
  | .ack b => framedValidate b

/-- FramedRead from the command-frame write on (R130, R191). -/
def framedRequest (dev : Dev) (reg : Byte) : Body Framed := do
  setFr .commandFrameWrite
  let r ← xfer dev [fcRead, reg, frLen] 0
  match r with
  | .nack c _ => framedNack c
  | .ack _ => do
    setFr .waitCmd
    delay tCmdMs
    framedResponse dev

/-- FramedRead after the wake write went through (R191). -/
def framedAwake (dev : Dev) (reg : Byte) : Body Framed := do
  setFr .waitWake
  delay tWakeMs
  framedRequest dev reg

/-- FramedRead(dev, reg) (R191). -/
def framedRead (dev : Dev) (reg : Byte) : Body Framed := do
  let p ← regOf State.params
  setFr .wakeWrite
  let r ← xfer dev p.wakeBytes 0
  match r with
  | .nack c _ =>
    match p.wakeNackPolicy with
    | .error => framedNack c
    | .ignore => framedAwake dev reg
  | .ack _ => framedAwake dev reg

/-- The writes every framed-read command stages: RESULT, and RESP when the response was received (R193, R201). -/
def stageFramed (f : Framed) : Body Unit := do
  stage (.result (u16 f.v))
  match f.b with
  | some r => stage (.resp r)
  | none => pure ()

/-- The body of FRAMED_READ (R193). -/
def framedReadBody (dev : Dev) (reg : Byte) : Body Unit := do
  let f ← framedRead dev reg
  stageFramed f
  match f.e with
  | some e => raiseStaged e.1 e.2
  | none => pure ()

/-- FRAMED_READ dev, reg (R193). -/
def execFramedRead (dev : Dev) (reg : Byte) (s : State) : Host.Outcome State Fault Refusal :=
  launch (.framedRead dev reg) (runBody (framedReadBody dev reg)) s

/-- The body of the combo readers (R198, R199): the value register takes the decoded word, or the sentinel −1000
with the error raised. The error decides, not the value (R200). -/
def comboBody (reg : Params → Byte) (decodeWord : Half → Int) (target : Word → RegWrite) : Body Unit := do
  let p ← regOf State.params
  let f ← framedRead comboAddr (reg p)
  stageFramed f
  match f.e with
  | some e => do
    stage (target sentinelVal)
    raiseStaged e.1 e.2
  | none => stage (target (BitVec.ofInt 32 (decodeWord f.v)))

/-- COMBO_TEMP (R198). -/
def execComboTemp (s : State) : Host.Outcome State Fault Refusal :=
  launch .comboTemp (runBody (comboBody Params.regTempC tempDecode RegWrite.valT2)) s

/-- COMBO_HUM (R199). -/
def execComboHum (s : State) : Host.Outcome State Fault Refusal :=
  launch .comboHum (runBody (comboBody Params.regHumC humDecode RegWrite.valH)) s

end Sys2Proof.Machine
end

