-- ==== Sys2Proof/Machine/Telemetry.lean ====
section
/-! DEFINITION. FRAME_ENCODE (R334). -/

namespace Sys2Proof.Machine

/-- The body of FRAME_ENCODE (R334): the four value fields, staged. -/
def frameEncodeBody : Body Unit := do
  let t1 ← regOf State.valT1
  let p ← regOf State.valP
  let t2 ← regOf State.valT2
  let h ← regOf State.valH
  stage (.frame 4 2 t1)
  stage (.frame 7 3 p)
  stage (.frame 11 2 t2)
  stage (.frame 14 2 h)

/-- FRAME_ENCODE (R334). -/
def execFrameEncode (s : State) : Host.Outcome State Fault Refusal :=
  launch .frameEncode (runBody frameEncodeBody) s

end Sys2Proof.Machine
end

