-- ==== Sys2Proof/Machine/Dispatch.lean ====
section
/-! DEFINITION. The dispatch: one arm per command, each a direct call of its meaning. -/

namespace Sys2Proof.Machine

def exec (i : Instr) (s : State) : Host.Outcome State Fault Refusal :=
  match i with
  | .nop => Sys2Proof.Machine.execNop s
  | .regRead dev reg => Sys2Proof.Machine.execRegRead dev reg s
  | .regWrite dev reg data => Sys2Proof.Machine.execRegWrite dev reg data s
  | .framedRead dev reg => Sys2Proof.Machine.execFramedRead dev reg s
  | .comboTemp => Sys2Proof.Machine.execComboTemp s
  | .comboHum => Sys2Proof.Machine.execComboHum s
  | .calLoadA setting => Sys2Proof.Machine.execCalLoadA setting s
  | .rawtA => Sys2Proof.Machine.execRawtA s
  | .rawpA => Sys2Proof.Machine.execRawpA s
  | .comptA => Sys2Proof.Machine.execComptA s
  | .comppA => Sys2Proof.Machine.execComppA s
  | .tempA => Sys2Proof.Machine.execTempA s
  | .presA => Sys2Proof.Machine.execPresA s
  | .calLoadB => Sys2Proof.Machine.execCalLoadB s
  | .rawtB => Sys2Proof.Machine.execRawtB s
  | .rawpB => Sys2Proof.Machine.execRawpB s
  | .comptB => Sys2Proof.Machine.execComptB s
  | .comppB => Sys2Proof.Machine.execComppB s
  | .tempB => Sys2Proof.Machine.execTempB s
  | .presB => Sys2Proof.Machine.execPresB s
  | .frameEncode => Sys2Proof.Machine.execFrameEncode s

end Sys2Proof.Machine
end

