-- ==== Sys2Proof/Machine/HostPort.lean ====
section
/-! DEFINITION. What an idle block does with its next input: the write of CMD that launches a command (R34, R124,
R126), the other host accesses (R32, R54), a reset (R390). -/

namespace Sys2Proof.Machine

/-- A host write of the word w to CMD with BUSY = 0 (R124): a command is run, any other word is illegal (R126). -/
def commandWrite (w : Word) (s : State) : Host.Outcome State Fault Refusal :=
  match decode w with
  | .ok i => exec i s
  | .error _ => .next (illegalCommand w s)

/-- A host write to an idle block: CMD launches, every other offset is a plain CSR write (R32, R89). -/
def hostWrite (off w : Word) (s : State) : Host.Outcome State Fault Refusal :=
  if csrAt off = some .cmd then commandWrite w s else .next (hostWriteIdle off w s)

/-- A host access to an idle block; an access that is not an aligned 32-bit one is refused (R82). -/
def hostAccess (a : HostAccess) (s : State) : Host.Outcome State Fault Refusal :=
  if a.supported then
    match a with
    | .read _ off => .next (hostRead off s)
    | .write _ off v => hostWrite off v s
  else .refused .unsupportedHostAccess

/-- One input of an idle block, already taken from the list. A host access outside the CSR space is none of the block's
(R80). -/
def takeInput (e : Event) (s : State) : Host.Outcome State Fault Refusal :=
  match e.reach s.params with
  | .reset => .next (platformReset s)
  | .elsewhere => .next s
  | .csr a => hostAccess a s

/-- The step of an idle block (R98): it takes its next input; with none it waits. -/
def idleStep (s : State) : Host.Outcome State Fault Refusal :=
  match s.inputs with
  | [] => .next s
  | it :: rest => takeInput it.event (setInputs rest s)

/-- The input by which the host writes the word w to CMD once the block is idle. -/
def commandInput (w : Word) : Input := ⟨.whenIdle, .access (.write .word 0x000 w)⟩

end Sys2Proof.Machine
end

