-- ==== Sys2Proof/Machine/Step.lean ====
section
/-! DEFINITION. One step of the block. An idle block takes its next input: a write of CMD runs the whole command
it launches, from accept to commit, in that step. A block whose command still polls polls on. -/

namespace Sys2Proof.Machine

/-- One step of the block. -/
def step (s : State) : Host.Outcome State Fault Refusal :=
  match s.seq with
  | some r => resumePolling r s
  | none => idleStep s

/-- The state s, its sequencer idle, with the command word w as the next input: the host's write of w to CMD. -/
def State.withFetchWord (s : State) (nbits w : Nat) : State :=
  { s with seq := none, inputs := commandInput (BitVec.ofNat 32 (w % 2 ^ nbits)) :: s.inputs }

end Sys2Proof.Machine
end

