-- ==== Sys2Proof/Machine/Assembler.lean ====
section
/-! DEFINITION. The text form of the assembler (R128): the mnemonic, then its operands in field order, separated by
commas, each a number in C syntax. -/

namespace Sys2Proof.Machine

/-- The value of a digit in a base, if it is one. -/
def digitValue (base : Nat) (c : Char) : Option Nat :=
  let n := c.toNat
  let v := if 48 ≤ n ∧ n ≤ 57 then n - 48
    else if 97 ≤ n ∧ n ≤ 102 then n - 87
    else if 65 ≤ n ∧ n ≤ 70 then n - 55
    else base
  if v < base then some v else none

/-- The number that a sequence of digits after the value so far stands for. -/
def digits (base : Nat) : Nat → List Char → Option Nat
  | acc, [] => some acc
  | acc, c :: cs =>
    match digitValue base c with
    | some v => digits base (base * acc + v) cs
    | none => none

/-- A number in C syntax without a suffix: 0x or 0X and hexadecimal digits, 0 and octal digits, or decimal digits
(R128; notes/assumptions/21.md). -/
def cNumber : List Char → Option Nat
  | [] => none
  | ['0'] => some 0
  | '0' :: 'x' :: d :: ds => digits 16 0 (d :: ds)
  | '0' :: 'X' :: d :: ds => digits 16 0 (d :: ds)
  | '0' :: d :: ds => digits 8 0 (d :: ds)
  | d :: ds => digits 10 0 (d :: ds)

/-- The pieces of a text between the separators. -/
def pieces (sep : Char) : List Char → List (List Char)
  | [] => [[]]
  | c :: cs =>
    if c = sep then [] :: pieces sep cs
    else
      match pieces sep cs with
      | [] => [[c]]
      | p :: ps => (c :: p) :: ps

/-- A text without the blanks at its two ends. -/
def trim (l : List Char) : List Char :=
  ((l.dropWhile (· == ' ')).reverse.dropWhile (· == ' ')).reverse

/-- The operands of a text: none if it is blank, else one number between each two commas. -/
def operands (l : List Char) : Option (List Nat) :=
  if trim l = [] then some [] else (pieces ',' l).mapM fun p => cNumber (trim p)

/-- The mnemonics of format N (R123). -/
def bareSources : List (String × Source) :=
  [("NOP", .nop), ("COMBO_TEMP", .comboTemp), ("COMBO_HUM", .comboHum), ("RAWT_A", .rawtA), ("RAWP_A", .rawpA),
    ("COMPT_A", .comptA), ("COMPP_A", .comppA), ("TEMP_A", .tempA), ("PRES_A", .presA), ("CAL_LOAD_B", .calLoadB),
    ("RAWT_B", .rawtB), ("RAWP_B", .rawpB), ("COMPT_B", .comptB), ("COMPP_B", .comppB), ("TEMP_B", .tempB),
    ("PRES_B", .presB), ("FRAME_ENCODE", .frameEncode)]

/-- The source a mnemonic and its operands stand for; another number of operands is refused (R128). -/
def sourceOf (mnemonic : List Char) : List Nat → Option Source
  | [] => (bareSources.find? fun r => r.1.toList == mnemonic).map Prod.snd
  | [a] => if mnemonic = "CAL_LOAD_A".toList then some (.calLoadA a) else none
  | [a, b] =>
    if mnemonic = "REG_READ".toList then some (.regRead a b)
    else if mnemonic = "FRAMED_READ".toList then some (.framedRead a b)
    else none
  | [a, b, c] => if mnemonic = "REG_WRITE".toList then some (.regWrite a b c) else none
  | _ :: _ :: _ :: _ :: _ => none

/-- A line of the assembler read as a source command (R128). -/
def parseLine (line : String) : Option Source :=
  let l := trim line.toList
  let name := l.takeWhile (· != ' ')
  (operands (l.drop name.length)).bind (sourceOf name)

/-- The command word of a line, if the assembler accepts it (R128). -/
def assembleLine (line : String) : Option Word := ((parseLine line).bind assemble).map encode

end Sys2Proof.Machine
end

