-- ==== Sys2Proof/Machine/HostMacros.lean ====
section
/-! DEFINITION. The host's pseudo-instructions of R129, as inputs of the block. `wait` (read STATUS until BUSY = 0)
is the arrival `whenIdle` of the input that follows it (notes/assumptions/17.md). -/

namespace Sys2Proof.Machine

/-- `csrw off, v` by a host that waits for BUSY = 0 first (R129). -/
def csrw (off v : Word) : Input := ⟨.whenIdle, .access (.write .word off v)⟩

/-- `csrr off` by a host that waits for BUSY = 0 first (R129). -/
def csrr (off : Word) : Input := ⟨.whenIdle, .access (.read .word off)⟩

/-- `csrw off, v` n slots into the running command, by a host that does not wait (R394). -/
def csrwDuring (n : Nat) (off v : Word) : Input := ⟨.after n, .access (.write .word off v)⟩

/-- `csrr off` n slots into the running command (R53). -/
def csrrDuring (n : Nat) (off : Word) : Input := ⟨.after n, .access (.read .word off)⟩

/-- A host store of a word at a host address, by a host that waits for BUSY = 0 first (R80). -/
def storeAt (addr : Nat) (v : Word) : Input := ⟨.whenIdle, .memory (.store .word addr v)⟩

/-- A host load of a word at a host address (R80). -/
def loadAt (addr : Nat) : Input := ⟨.whenIdle, .memory (.load .word addr)⟩

/-- `run C` (R129): the store of the encoding of C to CMD; the wait is that of the next input. -/
def run (i : Instr) : Input := commandInput (encode i)

/-- `clear` (R129). -/
def clear : Input := csrw 0x004 0x00070002

/-- CYCLE_A (R129). -/
def cycleA : List Input := [run .tempA, run .presA, run .comboTemp, run .comboHum, run .frameEncode]

/-- CYCLE_B (R129). -/
def cycleB : List Input := [run .presB, run .comboTemp, run .comboHum, run .frameEncode]

/-- The reads of the four frame words by which the host hands the frame over (R335). -/
def readFrame : List Input := [csrr 0x0C0, csrr 0x0C4, csrr 0x0C8, csrr 0x0CC]

end Sys2Proof.Machine
end

