-- ==== Sys2Proof/Safety.lean ====
section
/-! DEFINITION. The terms the claims use: when a command runs undisturbed, the bus transactions each command makes
(R87), the paths of the framed read (R191, R192), the status polls (R281), the compensation formulas over
unbounded integers (R237, R239, R284, R286), and the invariants of the block. -/

namespace Sys2Proof.Machine

/-! ## When a command runs undisturbed -/

/-- The block is idle and no input is due before the next command ends: what a host that waits for BUSY = 0 before
each access ensures (R129, R394). -/
def State.ready (s : State) : Bool := s.seq.isNone && s.hostQuiet

/-- The platform does not reset the block among the inputs to come. -/
def State.noReset (s : State) : Bool := s.inputs.all fun it => it.event != .reset

/-- The command goes on after this answer: Ack, or a Nack that AB_BUS_POLICY = IGNORE swallows (R164, R165). -/
def goesOn (p : Params) (a : BusAnswer) : Bool := !isNack a || p.abBusPolicy == .ignore

/-! ## The bus transactions of a command (R87) -/

/-- A transaction or a delay of a command's body. -/
inductive BusOp where
  | xfer (dev : Dev) (w : List Byte) (n : Nat)
  | delay (ms : Nat)
  deriving DecidableEq, Repr

/-- The oracle's answers to a sequence of transactions and delays made one after the other, and the state they leave
(R16, R17, R86). -/
def runOps : List BusOp → State → List BusAnswer × State
  | [], s => ([], s)
  | .xfer dev w n :: ops, s =>
    let r := runOps ops (afterXfer dev w n s)
    (busAnswer dev w n s :: r.1, r.2)
  | .delay ms :: ops, s => runOps ops (afterDelay ms s)

/-- "write [X], read n" at PRESS_ADDR (R87). -/
def readOp (reg : Byte) (n : Nat) : BusOp := .xfer 0x77 [reg] n

/-- The transactions of a sequence of bus operations, as counted in R403's table. -/
def transactionCount (ops : List BusOp) : Nat :=
  ops.countP fun
    | .xfer _ _ _ => true
    | .delay _ => false

/-- The sum of the delays of a sequence of bus operations, in milliseconds (R403). -/
def delaySum (ops : List BusOp) : Nat :=
  (ops.map fun
    | .xfer _ _ _ => 0
    | .delay ms => ms).sum

/-- The bus accesses of CAL_LOAD_A (R87). -/
def calLoadAOps (p : Params) : List BusOp :=
  readOp p.regId 1 :: (List.range 11).map fun i => readOp (p.calBaseA + BitVec.ofNat 8 (2 * i)) 2

/-- The bus accesses of CAL_LOAD_B (R87). -/
def calLoadBOps (p : Params) : List BusOp :=
  readOp p.regId 1 :: (List.range 12).map fun i => readOp (p.calBaseB + BitVec.ofNat 8 (2 * i)) 2

/-- The bus accesses and the delay of RAWT_A (R87, R235). -/
def rawtAOps (p : Params) : List BusOp :=
  [.xfer 0x77 [p.regCtrlA, p.cmdTempA] 0, .delay 5, readOp p.regDataA 1, readOp (p.regDataA + 1) 1]

/-- The bus accesses and the delay of RAWP_A at the oversampling code and wait held (R87, R236). -/
def rawpAOps (s : State) : List BusOp :=
  [.xfer 0x77 [s.params.regCtrlA, cmdPresA s.params s.ossCode] 0, .delay s.waitPMs.toNat,
    readOp s.params.regDataA 1, readOp (s.params.regDataA + 1) 1, readOp (s.params.regDataA + 2) 1]

/-- The control write of RAWT_B (R87, R281). -/
def rawtBControlOp (p : Params) : BusOp := .xfer 0x77 [p.regCtrlB, p.ctrlBValue] 0

/-- One status poll of RAWT_B (R87, R281). -/
def pollOp (p : Params) : BusOp := readOp p.regStatusB 1

/-- The data reads of RAWT_B (R87, R281). -/
def rawtBDataOps (p : Params) : List BusOp :=
  [readOp p.regTempB 1, readOp (p.regTempB + 1) 1, readOp (p.regTempB + 2) 1]

/-- The bus accesses of RAWP_B (R87, R282). -/
def rawpBOps (p : Params) : List BusOp :=
  [readOp p.regPresB 1, readOp (p.regPresB + 1) 1, readOp (p.regPresB + 2) 1]

/-- The control write and n + 1 polls of RAWT_B. -/
def pollingOps (p : Params) (n : Nat) : List BusOp := rawtBControlOp p :: List.replicate (n + 1) (pollOp p)

/-- The answer to a poll that finds the measuring bit set (R281). -/
def pollBusy (p : Params) (a : BusAnswer) : Bool := goesOn p a && answerByte a 0 &&& p.measMaskB != 0

/-- The answer to a poll that finds the measuring bit clear (R281). -/
def pollClear (p : Params) (a : BusAnswer) : Bool := goesOn p a && answerByte a 0 &&& p.measMaskB == 0

/-- The answers of `pollingOps p n`: the control write goes on, n polls find the measuring bit set, the last one finds
it clear. -/
def pollsClearAfter (p : Params) (n : Nat) (answers : List BusAnswer) : Prop :=
  ∃ a0 busy a1, answers = a0 :: busy ++ [a1] ∧ busy.length = n ∧ goesOn p a0 = true ∧
    (∀ a ∈ busy, pollBusy p a = true) ∧ pollClear p a1 = true

/-- n polls lie below POLL_LIMIT, so that the poll loop goes on (R281, R359). -/
def belowLimit (p : Params) (n : Nat) : Bool :=
  match p.pollLimit with
  | none => true
  | some l => decide (n < l)

/-! ## The framed read (R191, R192) -/

/-- The states the framed read goes through: after the wake write, its delay, the command-frame write, its delay and
the response read (R190). -/
def afterWake (dev : Dev) (s : State) : State := afterXfer dev s.params.wakeBytes 0 s

/-- After the 10 ms delay (R190). -/
def beforeRequest (dev : Dev) (s : State) : State := afterDelay 10 (afterWake dev s)

/-- After the command-frame write (R130, R190). -/
def afterRequest (dev : Dev) (reg : Byte) (s : State) : State :=
  afterXfer dev [0x03, reg, 0x02] 0 (beforeRequest dev s)

/-- After the 2 ms delay (R190). -/
def beforeResponse (dev : Dev) (reg : Byte) (s : State) : State := afterDelay 2 (afterRequest dev reg s)

/-- After the response read (R190). -/
def afterResponse (dev : Dev) (reg : Byte) (s : State) : State :=
  afterXfer dev [] 6 (beforeResponse dev reg s)

/-- The wake write lets the protocol go on: Ack, or a Nack under WAKE_NACK_POLICY = IGNORE (R192). -/
def wakeGoesOn (dev : Dev) (s : State) : Bool :=
  !isNack (busAnswer dev s.params.wakeBytes 0 s) || s.params.wakeNackPolicy == .ignore

/-- The five ways through FramedRead(dev, reg) from the state s (R191, R192): the state the bus is left in, what
FramedRead returns, and the protocol states passed, from WakeWrite to Done or Fault. -/
inductive FramedPath (dev : Dev) (reg : Byte) (s : State) : State → Framed → List FrState → Prop where
  /-- Nack at the wake write under ERROR. -/
  | wakeNack (c : Word) (b : List Byte) :
      busAnswer dev s.params.wakeBytes 0 s = .nack c b → s.params.wakeNackPolicy = .error →
      FramedPath dev reg s (afterWake dev s) ⟨0xFFFF, some (.busNack, some c), none⟩ [.wakeWrite, .fault]
  /-- Nack at the command-frame write. -/
  | requestNack (c : Word) (b : List Byte) :
      wakeGoesOn dev s = true → busAnswer dev [0x03, reg, 0x02] 0 (beforeRequest dev s) = .nack c b →
      FramedPath dev reg s (afterRequest dev reg s) ⟨0xFFFF, some (.busNack, some c), none⟩
        [.wakeWrite, .waitWake, .commandFrameWrite, .fault]
  /-- Nack at the response read. -/
  | responseNack (b0 : List Byte) (c : Word) (b : List Byte) :
      wakeGoesOn dev s = true → busAnswer dev [0x03, reg, 0x02] 0 (beforeRequest dev s) = .ack b0 →
      busAnswer dev [] 6 (beforeResponse dev reg s) = .nack c b →
      FramedPath dev reg s (afterResponse dev reg s) ⟨0xFFFF, some (.busNack, some c), none⟩
        [.wakeWrite, .waitWake, .commandFrameWrite, .waitCmd, .responseRead, .fault]
  /-- A response that a check of Validate rejects. -/
  | invalid (b0 b : List Byte) (e : ErrorKind) :
      wakeGoesOn dev s = true → busAnswer dev [0x03, reg, 0x02] 0 (beforeRequest dev s) = .ack b0 →
      busAnswer dev [] 6 (beforeResponse dev reg s) = .ack b → validateResponse b = .error e →
      FramedPath dev reg s (afterResponse dev reg s) ⟨0xFFFF, some (e, none),
        some ⟨b.getD 0 0, b.getD 1 0, b.getD 2 0, b.getD 3 0, b.getD 4 0, b.getD 5 0⟩⟩
        [.wakeWrite, .waitWake, .commandFrameWrite, .waitCmd, .responseRead, .validate, .fault]
  /-- A valid response. -/
  | valid (b0 b : List Byte) (v : Half) :
      wakeGoesOn dev s = true → busAnswer dev [0x03, reg, 0x02] 0 (beforeRequest dev s) = .ack b0 →
      busAnswer dev [] 6 (beforeResponse dev reg s) = .ack b → validateResponse b = .ok v →
      FramedPath dev reg s (afterResponse dev reg s) ⟨v, none,
        some ⟨b.getD 0 0, b.getD 1 0, b.getD 2 0, b.getD 3 0, b.getD 4 0, b.getD 5 0⟩⟩
        [.wakeWrite, .waitWake, .commandFrameWrite, .waitCmd, .responseRead, .validate, .done]

/-- The transitions of R192, Done or Fault to Idle at commit among them. -/
def frTransition (a b : FrState) : Bool :=
  match a, b with
  | .idle, .wakeWrite => true
  | .wakeWrite, .waitWake => true
  | .wakeWrite, .fault => true
  | .waitWake, .commandFrameWrite => true
  | .commandFrameWrite, .waitCmd => true
  | .commandFrameWrite, .fault => true
  | .waitCmd, .responseRead => true
  | .responseRead, .validate => true
  | .responseRead, .fault => true
  | .validate, .done => true
  | .validate, .fault => true
  | .done, .idle => true
  | .fault, .idle => true
  | _, _ => false

/-- A sequence of protocol states follows R192's transitions from the state a. -/
def frFollows (a : FrState) : List FrState → Bool
  | [] => true
  | b :: l => frTransition a b && frFollows b l

/-- The event is a transaction (R86). -/
def isXferEvent : BusEvent → Bool
  | .xfer _ _ _ _ => true
  | .delay _ => false

/-! ## The compensation over the integers -/

/-- x / 2^k over the integers, rounded as DIV_POW2 says (R12). -/
def intPdiv (r : Rounding) (x : Int) (k : Nat) : Int :=
  match r with
  | .floor => x / 2 ^ k
  | .trunc => x.tdiv (2 ^ k)

/-- An exact result reduced modulo 2^32 into s32 (R10). -/
def wrapS32 (x : Int) : Int := Int.bmod x (2 ^ 32)

/-- Every value of a list lies in the range of s32 (R10). -/
def allS32 (l : List Int) : Prop := ∀ x ∈ l, -2147483648 ≤ x ∧ x ≤ 2147483647

/-! ## Invariants -/

/-- A block whose sequencer is Running stands at a status poll, with nothing staged and no framed read under way;
DONE, ERR and BUSCODE are as accept left them (R358), and CMD holds the command (R34). -/
def State.seqAtPoll (s : State) : Bool :=
  match s.seq with
  | none => true
  | some r =>
    (pollRest r.cmd).isSome && r.step == pollHead && r.fr == .idle && r.staged == [] &&
      decide (1 ≤ r.pollCount) && !limitReached s.params.pollLimit r.pollCount &&
      !s.done && s.err == none && s.buscode == 0 && s.cmd == encode r.cmd

/-- WAIT_P_MS = WAIT_A[OSS_CODE] (R37). -/
def State.waitMatchesCode (s : State) : Bool := s.waitPMs == waitA s.ossCode

/-- The frame memory is in canonical form, and the header and tag bytes read as R332 sets them (R331). -/
def State.frameIntact (s : State) : Bool :=
  Memory.wf s.params s.frame && [0, 1, 2, 3, 6, 10, 13].all fun a => s.frameByte a == frameInit s.params a

/-- BUSCODE is 0 unless the last command ended with BusNack (R36). -/
def State.buscodeMatchesErr (s : State) : Bool := s.err == some .busNack || s.buscode == 0

/-- A valid store holds no fault pattern and its fault bit is 0; FAMILY classifies ID once a load has committed
(R33, R58, R233). -/
def State.storesClassified (s : State) : Bool :=
  (!s.calValidA || (!calFault s.calA.words && !s.calFaultA)) &&
    (!s.calValidB || (!calFault s.calB.words && !s.calFaultB)) &&
    (s.family == .notProbed || s.family == classify s.id)

/-- The invariants of the block together. -/
def State.invariant (s : State) : Bool :=
  s.seqAtPoll && s.waitMatchesCode && s.frameIntact && s.buscodeMatchesErr && s.storesClassified

/-- A safe step: the block goes on. The only stop a run from reset can meet is the refusal of R82. -/
def goesOnStepping (s : State) : Prop := ∃ t, step s = .next t

end Sys2Proof.Machine
end

