-- ==== Sys2Proof/Certificates/Slice0/Obligations.lean ====
section
/-! DEFINITION. The statements for the provers, in the terms of Safety.lean. A statement of a command's result gives
the whole next state, so what it does not name is unchanged. -/

open Sys2Proof Sys2Proof.Machine

/-! ## Reset and the host interface -/

/-- R59, R332: what every register reads after reset, for every choice of the parameters. -/
def Obligations.ResetLeavesStatedValues : Prop :=
  State.reset = State.resetWith defaultParams ∧
  ∀ p : Params,
    let s := State.resetWith p
    s.cmd = 0 ∧ statusWord s = 0 ∧ s.result = 0 ∧ s.buscode = 0 ∧ s.id = 0 ∧
    s.ossCode = 1 ∧ s.waitPMs = 8 ∧ osscfgWord s = 0x00000801 ∧
    s.valT1 = 0 ∧ s.valP = 0 ∧ s.valT2 = 0 ∧ s.valH = 0 ∧
    s.rawT = 0 ∧ s.rawP = 0 ∧ s.b5 = 0 ∧ s.tfine = 0 ∧
    (∀ w ∈ s.calA.words, w = 0) ∧ (∀ w ∈ s.calB.words, w = 0) ∧
    s.frameByte 0 = p.frameSvcId.extractLsb' 0 8 ∧ s.frameByte 1 = p.frameSvcId.extractLsb' 8 8 ∧
    s.frameByte 2 = p.frameFlags ∧ s.frameByte 3 = 0x02 ∧ s.frameByte 6 = 0x04 ∧ s.frameByte 10 = 0x02 ∧
    s.frameByte 13 = 0x03 ∧ (∀ a ∈ [4, 5, 7, 8, 9, 11, 12, 14, 15], s.frameByte a = 0x00) ∧
    (∀ b ∈ s.resp.bytes, b = 0x00) ∧ s.seq = none ∧
    frameWord State.reset 0 = 0x0240FCD2 ∧ frameWord State.reset 1 = 0x00040000 ∧
    frameWord State.reset 2 = 0x00020000 ∧ frameWord State.reset 3 = 0x00000300

/-- R390: a reset of an idle block, a reset that lands in a running command before its first event, a reset of a block
that polls, and a reset at any slot of a running command, whatever it has staged: every piece of the block's state
takes its reset value and nothing staged is committed. The model's choices: a reset is an input and reaches a running
command at its slots, the first of them before the first event (log 5, DESIGN CHOICE, unsafe), which FRAME_ENCODE has
too, as its one slot (log 18, DEDUCED), and a block that polls at the slot its next step begins with (log 6); a step of
an idle block takes one input (log 1); and the parameters, the inputs and answers to come and the observations stay
(logs 3, 11, 16). That NOP has no slot is the spec's (95_test_vectors.md E-ACC-3). -/
def Obligations.ResetAbandonsTheRunningCommand : Prop :=
  ∀ (s : State) (rest : List Input),
    (∀ ar, s.seq = none → s.inputs = ⟨ar, .reset⟩ :: rest →
      step s = .next { State.resetWith s.params with
        inputs := rest, answers := s.answers, trace := s.trace, frLog := s.frLog, hostLog := s.hostLog }) ∧
    (∀ i, i ≠ .nop → s.seq = none → s.inputs = ⟨.after 0, .reset⟩ :: rest →
      ∃ log, exec i s = .next { State.resetWith s.params with
        inputs := rest, answers := s.answers, trace := s.trace, frLog := log, hostLog := s.hostLog }) ∧
    (∀ r, s.seq = some r → s.seqAtPoll = true → s.inputs = ⟨.after 0, .reset⟩ :: rest →
      step s = .next { State.resetWith s.params with
        inputs := rest, answers := s.answers, trace := s.trace, frLog := s.frLog, hostLog := s.hostLog }) ∧
    (∀ r, s.seq = some r → s.inputs = ⟨.after 0, .reset⟩ :: rest →
      slot s = .error () { State.resetWith s.params with
        inputs := rest, answers := s.answers, trace := s.trace
        frLog := if r.fr = .idle then s.frLog else s.frLog ++ [.idle]
        hostLog := s.hostLog })

/-- R124, R34: the host's write of a command word to CMD of an idle block is the execution of the command it decodes
to, the input taken from the list; every command is well formed; a word placed by withFetchWord is that write. One step
for a whole command and the input list are the model's choice (log 1). -/
def Obligations.StepRunsTheDecodedCommand : Prop :=
  (∀ i : Instr, i.wf = true) ∧
  (∀ (s : State) (ar : Arrival) (w : Word) (rest : List Input) (i : Instr),
    s.seq = none → s.inputs = ⟨ar, .access (.write .word 0x000 w)⟩ :: rest → decode w = .ok i →
    step s = exec i { s with inputs := rest }) ∧
  (∀ (s : State) (i : Instr), decode (encode i) = .ok i →
    step (s.withFetchWord 32 (encode i).toNat) = exec i { s with seq := none })

/-- R351, R126: an illegal word written to CMD with BUSY = 0, and one that reaches a running command (at a slot, log 5).
That an idle block's step takes one input is the model's choice (log 1). -/
def Obligations.IllegalWordIsRecordedOrDropped : Prop :=
  ∀ (s : State) (ar : Arrival) (w : Word) (rest : List Input) (e : DecodeError),
    decode w = .error e →
    (s.seq = none → s.inputs = ⟨ar, .access (.write .word 0x000 w)⟩ :: rest →
      step s = .next { s with
        inputs := rest, cmd := w, err := some .illegalCommand, buscode := 0, done := true }) ∧
    (∀ r, s.seq = some r → s.inputs = ⟨.after 0, .access (.write .word 0x000 w)⟩ :: rest →
      slot s = slot { s with inputs := rest, overrun := true })

/-- R53, R34: a command launched at a busy block is dropped, `exec` there standing for the dropped write of CMD (log 19,
DEDUCED); and a host access that reaches a running command (at a slot, log 5). A write to any offset but STATUS's is
dropped and sets OVERRUN, a write to STATUS clears W1C fields, a read returns the committed value; then the next input is
looked at. An access at a host address (R80) is that at its offset, or none of the block's. The model's choices: an access
that R82 does not support waits (log 15, DEDUCED), one given by an offset of 0x100 or above too (log 27, DESIGN CHOICE),
and one that reaches into the CSR space from below or past its end (log 25); one that is due later comes a slot nearer
(log 5); a write at an offset past the CSR space does nothing (log 9); host addresses are unbounded (log 25); what a read
returns goes to the host log (log 11). -/
def Obligations.BusyBlockDropsWrites : Prop :=
  ∀ (s : State) (r : Running) (off v : Word) (rest : List Input),
    s.seq = some r → off.extractLsb' 0 2 = 0#2 →
    (∀ i : Instr, exec i s = .next { s with overrun := true }) ∧
    (s.inputs = ⟨.after 0, .access (.write .word off v)⟩ :: rest → off ≠ 0x004 → off.toNat < 0x100 →
      slot s = slot { s with inputs := rest, overrun := true }) ∧
    (s.inputs = ⟨.after 0, .access (.write .word off v)⟩ :: rest → 0x100 ≤ off.toNat →
      slot s = slot { s with inputs := rest }) ∧
    (s.inputs = ⟨.after 0, .access (.write .word off v)⟩ :: rest → off = 0x004 →
      slot s = slot { s with
        inputs := rest
        done := s.done && !v.getLsbD 1
        ovf := s.ovf && !v.getLsbD 16
        overrun := s.overrun && !v.getLsbD 17
        buserrSeen := s.buserrSeen && !v.getLsbD 18 }) ∧
    (s.inputs = ⟨.after 0, .access (.read .word off)⟩ :: rest →
      slot s = slot { s with
        inputs := rest, hostLog := s.hostLog ++ [(off, hostReadValue s off)] }) ∧
    (off.toNat < 0x100 →
      (s.inputs = ⟨.after 0, .memory (.store .word (s.params.csrBase + off.toNat) v)⟩ :: rest →
        slot s = slot { s with inputs := ⟨.after 0, .access (.write .word off v)⟩ :: rest }) ∧
      (s.inputs = ⟨.after 0, .memory (.load .word (s.params.csrBase + off.toNat))⟩ :: rest →
        slot s = slot { s with inputs := ⟨.after 0, .access (.read .word off)⟩ :: rest })) ∧
    (∀ (size : AccessSize) (addr : Nat), addr + size.bytes ≤ s.params.csrBase ∨ s.params.csrBase + 0x100 ≤ addr →
      s.inputs = ⟨.after 0, .memory (.store size addr v)⟩ :: rest ∨
        s.inputs = ⟨.after 0, .memory (.load size addr)⟩ :: rest →
      slot s = slot { s with inputs := rest }) ∧
    (∀ (size : AccessSize) (off' : Word), size ≠ .word ∨ off'.extractLsb' 0 2 ≠ 0#2 →
      s.inputs = ⟨.after 0, .access (.write size off' v)⟩ :: rest ∨
        s.inputs = ⟨.after 0, .access (.read size off')⟩ :: rest →
      slot s = .ok () s) ∧
    (∀ (size : AccessSize) (addr : Nat), s.params.csrBase < addr + size.bytes → addr < s.params.csrBase + 0x100 →
      size ≠ .word ∨ ((addr : Int) - s.params.csrBase) % 4 ≠ 0 →
      s.inputs = ⟨.after 0, .memory (.store size addr v)⟩ :: rest ∨
        s.inputs = ⟨.after 0, .memory (.load size addr)⟩ :: rest →
      slot s = .ok () s) ∧
    (∀ (n : Nat) (e : Event), s.inputs = ⟨.after (n + 1), e⟩ :: rest →
      slot s = .ok () { s with inputs := ⟨.after n, e⟩ :: rest }) ∧
    (s.hostQuiet = true → slot s = .ok () s)

/-- R54, R39 to R43, R46, R47: a host write to an idle block. STATUS clears its W1C fields, a value register stores the
value (B5 and TFINE also become valid), a read-only register and a reserved offset ignore it. A store at a host address
(R80) is the write at its offset, or none of the block's. The model's choices: offsets of 0x100 and above are ignored too
and a store outside the 256 bytes does nothing (log 9, DEDUCED); host addresses are unbounded natural numbers (log 25); a step
takes one input (log 1). -/
def Obligations.IdleWriteGoesWhereTheMapSays : Prop :=
  (∀ (s : State) (ar : Arrival) (off v : Word) (rest : List Input),
    s.seq = none → off.extractLsb' 0 2 = 0#2 → s.inputs = ⟨ar, .access (.write .word off v)⟩ :: rest →
    (off = 0x004 →
      step s = .next { s with
        inputs := rest
        done := s.done && !v.getLsbD 1
        ovf := s.ovf && !v.getLsbD 16
        overrun := s.overrun && !v.getLsbD 17
        buserrSeen := s.buserrSeen && !v.getLsbD 18 }) ∧
    (off = 0x020 → step s = .next { s with inputs := rest, valT1 := v }) ∧
    (off = 0x024 → step s = .next { s with inputs := rest, valP := v }) ∧
    (off = 0x028 → step s = .next { s with inputs := rest, valT2 := v }) ∧
    (off = 0x02C → step s = .next { s with inputs := rest, valH := v }) ∧
    (off = 0x030 → step s = .next { s with inputs := rest, rawT := v }) ∧
    (off = 0x034 → step s = .next { s with inputs := rest, rawP := v }) ∧
    (off = 0x038 → step s = .next { s with inputs := rest, b5 := v, b5Valid := true }) ∧
    (off = 0x03C → step s = .next { s with inputs := rest, tfine := v, tfineValid := true }) ∧
    (off = 0x008 ∨ off = 0x00C ∨ off = 0x010 ∨ off = 0x014 ∨ off = 0x018 ∨ off = 0x01C ∨ 0x040 ≤ off.toNat →
      step s = .next { s with inputs := rest })) ∧
  (∀ (s : State) (ar : Arrival) (size : AccessSize) (addr : Nat) (v : Word) (rest : List Input),
    s.seq = none → s.inputs = ⟨ar, .memory (.store size addr v)⟩ :: rest →
    (∀ off : Word, off.toNat < 0x100 → addr = s.params.csrBase + off.toNat →
      step s = step { s with inputs := ⟨ar, .access (.write size off v)⟩ :: rest }) ∧
    (addr + size.bytes ≤ s.params.csrBase ∨ s.params.csrBase + 0x100 ≤ addr →
      step s = .next { s with inputs := rest }))

/-- R32, R89: a host read of an idle block changes nothing of the block and returns the register of R32's map, 0 at a
reserved offset. A load at a host address (R80) is the read at its offset, or none of the block's. The model's choices:
offsets of 0x100 and above read 0 too and a load outside the 256 bytes does nothing (log 9, DEDUCED); host addresses are
unbounded natural numbers (log 25); the value goes to the host log (log 11); a step takes one input (log 1). -/
def Obligations.HostReadReturnsTheMappedRegister : Prop :=
  (∀ (s : State) (ar : Arrival) (off : Word) (rest : List Input),
    s.seq = none → off.extractLsb' 0 2 = 0#2 → s.inputs = ⟨ar, .access (.read .word off)⟩ :: rest →
    step s = .next { s with inputs := rest, hostLog := s.hostLog ++ [(off, hostReadValue s off)] }) ∧
  (∀ (s : State) (off : Word), off.extractLsb' 0 2 = 0#2 →
    let v := hostReadValue s off
    (off = 0x000 → v = s.cmd) ∧ (off = 0x004 → v = statusWord s) ∧ (off = 0x008 → v = s.result) ∧
    (off = 0x00C → v = s.buscode) ∧ (off = 0x010 → v = osscfgWord s) ∧
    (off = 0x014 → v = 0#24 ++ s.id) ∧ (off = 0x020 → v = s.valT1) ∧ (off = 0x024 → v = s.valP) ∧
    (off = 0x028 → v = s.valT2) ∧ (off = 0x02C → v = s.valH) ∧ (off = 0x030 → v = s.rawT) ∧
    (off = 0x034 → v = s.rawP) ∧ (off = 0x038 → v = s.b5) ∧ (off = 0x03C → v = s.tfine) ∧
    (∀ i, i < 11 → off.toNat = 0x040 + 4 * i → v = 0#16 ++ s.calA.words.getD i 0) ∧
    (∀ i, i < 12 → off.toNat = 0x080 + 4 * i → v = 0#16 ++ s.calB.words.getD i 0) ∧
    (∀ j, j < 4 → off.toNat = 0x0C0 + 4 * j →
      v = s.frameByte (4 * j + 3) ++ s.frameByte (4 * j + 2) ++ s.frameByte (4 * j + 1) ++ s.frameByte (4 * j)) ∧
    (off = 0x0D0 → v = s.resp.r3 ++ s.resp.r2 ++ s.resp.r1 ++ s.resp.r0) ∧
    (off = 0x0D4 → v = 0#16 ++ s.resp.r5 ++ s.resp.r4) ∧
    (off = 0x018 ∨ off = 0x01C ∨ (0x06C ≤ off.toNat ∧ off.toNat < 0x080) ∨
      (0x0B0 ≤ off.toNat ∧ off.toNat < 0x0C0) ∨ 0x0D8 ≤ off.toNat → v = 0)) ∧
  (∀ (s : State) (ar : Arrival) (size : AccessSize) (addr : Nat) (rest : List Input),
    s.seq = none → s.inputs = ⟨ar, .memory (.load size addr)⟩ :: rest →
    (∀ off : Word, off.toNat < 0x100 → addr = s.params.csrBase + off.toNat →
      step s = step { s with inputs := ⟨ar, .access (.read size off)⟩ :: rest }) ∧
    (addr + size.bytes ≤ s.params.csrBase ∨ s.params.csrBase + 0x100 ≤ addr →
      step s = .next { s with inputs := rest }))

/-- R33, R37, R58, R350: where each field stands in the STATUS and OSSCFG words, the codes of ERR and FAMILY, and that
reserved bits read 0. -/
def Obligations.StatusWordHoldsItsFields : Prop :=
  ∀ s : State,
    (statusWord s).getLsbD 0 = s.seq.isSome ∧ (statusWord s).getLsbD 1 = s.done ∧
    (statusWord s).extractLsb' 2 2 = 0 ∧
    (statusWord s).extractLsb' 4 4 = (match s.err with
      | none => 0
      | some .busNack => 1
      | some .protocolMismatch => 2
      | some .checksumMismatch => 3
      | some .calibrationFault => 4
      | some .divideByZeroGuard => 5
      | some .divideByZero => 6
      | some .noTemperature => 7
      | some .illegalCommand => 8
      | some .pollTimeout => 9 : BitVec 4) ∧
    (statusWord s).getLsbD 8 = s.calValidA ∧ (statusWord s).getLsbD 9 = s.calValidB ∧
    (statusWord s).getLsbD 10 = s.calFaultA ∧ (statusWord s).getLsbD 11 = s.calFaultB ∧
    (statusWord s).extractLsb' 12 2 = (match s.family with
      | .notProbed => 0
      | .familyA => 1
      | .familyB => 2
      | .unknown => 3 : BitVec 2) ∧
    (statusWord s).getLsbD 14 = s.b5Valid ∧
    (statusWord s).getLsbD 15 = s.tfineValid ∧ (statusWord s).getLsbD 16 = s.ovf ∧
    (statusWord s).getLsbD 17 = s.overrun ∧ (statusWord s).getLsbD 18 = s.buserrSeen ∧
    (statusWord s).extractLsb' 19 13 = 0 ∧
    (osscfgWord s).extractLsb' 0 2 = s.ossCode ∧ (osscfgWord s).extractLsb' 8 8 = s.waitPMs ∧
    (osscfgWord s).extractLsb' 2 6 = 0 ∧ (osscfgWord s).extractLsb' 16 16 = 0

/-! ## Encoding -/

/-- Headline (a): decoding the encoding of any well-formed command gives the command back, and each legal word is the
encoding of the command it decodes to: no bit of a word is dropped. -/
def Obligations.DecodeAndEncodeAgree : Prop :=
  (∀ i : Instr, i.wf = true → decode (encode i) = .ok i) ∧
  (∀ (w : Word) (i : Instr), decode w = .ok i → encode i = w)

/-- R123: a word is a command if and only if it belongs to exactly one row, and that row is the command's. -/
def Obligations.LegalWordsMatchExactlyOneRow : Prop :=
  (∀ w : Word, (∃ i, decode w = .ok i) ↔ (opTable.filter fun r => r.accepts w).length = 1) ∧
  (∀ (w : Word) (i : Instr), decode w = .ok i → i.row.accepts w = true)

/-- R128: the assembler refuses exactly the operands that do not fit their field, truncates none, and every command has
a source it accepts. -/
def Obligations.AssemblerRefusesOperandsThatDoNotFit : Prop :=
  (∀ dev reg : Nat, assemble (.regRead dev reg) = none ↔ 0x7F < dev ∨ 0xFF < reg) ∧
  (∀ dev reg data : Nat, assemble (.regWrite dev reg data) = none ↔ 0x7F < dev ∨ 0xFF < reg ∨ 0xFF < data) ∧
  (∀ dev reg : Nat, assemble (.framedRead dev reg) = none ↔ 0x7F < dev ∨ 0xFF < reg) ∧
  (∀ setting : Nat, assemble (.calLoadA setting) = none ↔ 0xFF < setting) ∧
  (∀ i : Instr, assemble i.source = some i) ∧
  (∀ (src : Source) (i : Instr), assemble src = some i → i.source = src)

/-- The word of every command and words to decode, written out from the tables of R121 and R123, and the examples of R128 as text. -/
def Obligations.StatedWordsDecode : Prop :=
  (∀ (dev : Dev) (reg data : Byte),
    encode (.regRead dev reg) = 0x01#8 ++ 0#1 ++ dev ++ reg ++ 0#8 ∧
    encode (.regWrite dev reg data) = 0x02#8 ++ 0#1 ++ dev ++ reg ++ data ∧
    encode (.framedRead dev reg) = 0x10#8 ++ 0#1 ++ dev ++ reg ++ 0#8 ∧
    encode (.calLoadA data) = 0x20#8 ++ 0#16 ++ data) ∧
  encode .nop = 0x00000000 ∧ encode .comboTemp = 0x11000000 ∧ encode .comboHum = 0x12000000 ∧
  encode .rawtA = 0x21000000 ∧ encode .rawpA = 0x22000000 ∧ encode .comptA = 0x23000000 ∧
  encode .comppA = 0x24000000 ∧ encode .tempA = 0x25000000 ∧ encode .presA = 0x26000000 ∧
  encode .calLoadB = 0x30000000 ∧ encode .rawtB = 0x31000000 ∧ encode .rawpB = 0x32000000 ∧
  encode .comptB = 0x33000000 ∧ encode .comppB = 0x34000000 ∧ encode .tempB = 0x35000000 ∧
  encode .presB = 0x36000000 ∧ encode .frameEncode = 0x40000000 ∧
  decode 0x00000000 = .ok .nop ∧ decode 0x0177D000 = .ok (.regRead 0x77 0xD0) ∧
  decode 0x0277F42E = .ok (.regWrite 0x77 0xF4 0x2E) ∧ decode 0x105C0200 = .ok (.framedRead 0x5C 0x02) ∧
  decode 0x20000003 = .ok (.calLoadA 3) ∧ decode 0x25000000 = .ok .tempA ∧ decode 0x36000000 = .ok .presB ∧
  decode 0x40000000 = .ok .frameEncode ∧ decode 0x0180D000 = .error (.reservedBits 0x01) ∧
  decode 0x30000001 = .error (.reservedBits 0x30) ∧ decode 0x03000000 = .error (.reservedOpcode 0x03) ∧
  assembleLine "REG_READ 0x77, 0xD0" = some 0x0177D000 ∧
  assembleLine "REG_WRITE 0x77, 0xF4, 0x2E" = some 0x0277F42E ∧
  assembleLine "FRAMED_READ 0x5C, 0x02" = some 0x105C0200 ∧ assembleLine "CAL_LOAD_A 3" = some 0x20000003

/-! ## The register transaction client -/

/-- R127: NOP on any idle block, whatever its inputs. -/
def Obligations.NopOnlyCompletes : Prop :=
  ∀ s : State, s.seq = none →
    exec .nop s = .next { s with cmd := 0x00000000, done := true, err := none, buscode := 0 }

/-- R160, R16, R86: REG_READ, on an acknowledged and on a refused transaction: one event in the trace, and BUSERR_SEEN
set by the Nack. An answer to a read of n bytes carries n bytes (R85), which the statements that read them take by index;
that a Nack carries bytes too is the model's choice (log 4). That a laid-down answer is used up is the model's choice (log 3). -/
def Obligations.RegReadReturnsTheByte : Prop :=
  ∀ (s : State) (dev : Dev) (reg : Byte), s.ready = true →
    (∀ b, busAnswer dev [reg] 1 s = .ack b →
      exec (.regRead dev reg) s = .next { s with
        answers := s.answers.tail, trace := s.trace ++ [.xfer dev [reg] 1 (.ack b)]
        cmd := encode (.regRead dev reg), done := true, err := none, buscode := 0, result := 0#24 ++ b.getD 0 0 }) ∧
    (∀ c b, busAnswer dev [reg] 1 s = .nack c b →
      exec (.regRead dev reg) s = .next { s with
        answers := s.answers.tail, trace := s.trace ++ [.xfer dev [reg] 1 (.nack c b)], buserrSeen := true
        cmd := encode (.regRead dev reg), done := true, err := some .busNack, buscode := c }) ∧
    (∀ (w : List Byte) (n : Nat), (answerBytes (busAnswer dev w n s)).length = n) ∧
    (∀ (b : List Byte) (c : Word) (k : Nat),
      answerByte (.ack b) k = b.getD k 0 ∧ answerByte (.nack c b) k = b.getD k 0 ∧
      answerBytes (.ack b) = b ∧ answerBytes (.nack c b) = b ∧
      isNack (.ack b) = false ∧ isNack (.nack c b) = true)

/-- R161, R16, R86: REG_WRITE, on an acknowledged and on a refused transaction. That a laid-down answer is used up is the
model's choice (log 3). -/
def Obligations.RegWriteMakesOneTransaction : Prop :=
  ∀ (s : State) (dev : Dev) (reg data : Byte), s.ready = true →
    (∀ b, busAnswer dev [reg, data] 0 s = .ack b →
      exec (.regWrite dev reg data) s = .next { s with
        answers := s.answers.tail, trace := s.trace ++ [.xfer dev [reg, data] 0 (.ack b)]
        cmd := encode (.regWrite dev reg data), done := true, err := none, buscode := 0 }) ∧
    (∀ c b, busAnswer dev [reg, data] 0 s = .nack c b →
      exec (.regWrite dev reg data) s = .next { s with
        answers := s.answers.tail, trace := s.trace ++ [.xfer dev [reg, data] 0 (.nack c b)], buserrSeen := true
        cmd := encode (.regWrite dev reg data), done := true, err := some .busNack, buscode := c })

/-! ## The framed read -/

/-- R163: the checksum of nothing is the initial value, a further byte takes the eight iterations written out, the check
value is 0x4B37, and the checksum of a whole frame, its own checksum sent low byte first, is 0. -/
def Obligations.ChecksumOfAWholeFrameIsZero : Prop :=
  crc16 [] = 0xFFFF ∧ crc16 [0x31, 0x32, 0x33, 0x34, 0x35, 0x36, 0x37, 0x38, 0x39] = 0x4B37 ∧
  (∀ (b : List Byte) (x : Byte),
    crc16 (b ++ [x]) =
      (List.range 8).foldl (fun (c : Half) _ => if c.getLsbD 0 then (c >>> 1) ^^^ 0xA001 else c >>> 1)
        (crc16 b ^^^ x.setWidth 16)) ∧
  ∀ b : List Byte, crc16 (b ++ [(crc16 b).extractLsb' 0 8, (crc16 b).extractLsb' 8 8]) = 0

/-- R195, R353, R354: what Validate answers for every six bytes. -/
def Obligations.ValidateClassifiesEveryResponse : Prop :=
  ∀ b0 b1 b2 b3 b4 b5 : Byte,
    let crcOk := crc16 [b0, b1, b2, b3] = b4.setWidth 16 ||| (b5.setWidth 16 <<< 8)
    (b0 = 0x03 ∧ b1 = 0x02 ∧ crcOk →
      validateResponse [b0, b1, b2, b3, b4, b5] = .ok ((b2.setWidth 16 <<< 8) ||| b3.setWidth 16)) ∧
    (b0 ≠ 0x03 ∨ b1 ≠ 0x02 → validateResponse [b0, b1, b2, b3, b4, b5] = .error .protocolMismatch) ∧
    (b0 = 0x03 → b1 = 0x02 → ¬crcOk → validateResponse [b0, b1, b2, b3, b4, b5] = .error .checksumMismatch)

/-- R196, R197: the decoders as sign-magnitude and plain values, their ranges, and that a register holds them whole. -/
def Obligations.ComboDecodersAreExact : Prop :=
  ∀ v : Half,
    (v.toNat < 0x8000 → tempDecode v = 10 * (v.toNat : Int)) ∧
    (0x8000 ≤ v.toNat → tempDecode v = -(10 * ((v.toNat : Int) - 0x8000))) ∧
    -327670 ≤ tempDecode v ∧ tempDecode v ≤ 327670 ∧ humDecode v = 10 * (v.toNat : Int) ∧
    (BitVec.ofInt 32 (tempDecode v)).toInt = tempDecode v ∧ (BitVec.ofInt 32 (humDecode v)).toInt = humDecode v

/-- R191, R192: from every state the framed read takes one of its five ways, and only one. -/
def Obligations.FramedReadTakesExactlyOnePath : Prop :=
  ∀ (dev : Dev) (reg : Byte) (s : State),
    (∃ t f log, FramedPath dev reg s t f log) ∧
    (∀ t f log t' f' log', FramedPath dev reg s t f log → FramedPath dev reg s t' f' log' →
      t = t' ∧ f = f' ∧ log = log')

/-- R193: FRAMED_READ on each way through the protocol. What each way returns, RESP[k] = byte k of a response that arrived
among it (R49, R201), is written out in `FramedPath`. The protocol log is the model's own observation (log 11). -/
def Obligations.FramedReadCommitsItsPath : Prop :=
  ∀ (s : State) (dev : Dev) (reg : Byte) (t : State) (f : Framed) (log : List FrState),
    s.ready = true → FramedPath dev reg s t f log →
    exec (.framedRead dev reg) s = .next { t with
      cmd := encode (.framedRead dev reg), done := true
      err := f.e.map Prod.fst, buscode := (f.e.bind Prod.snd).getD 0
      result := 0#16 ++ f.v, resp := f.b.getD s.resp, frLog := s.frLog ++ log ++ [.idle] }

/-- R198, R199: COMBO_TEMP and COMBO_HUM on each way through the protocol: the value register takes the decoded word or
−1000. The protocol log is the model's own observation (log 11). -/
def Obligations.ComboReadersCommitTheirPath : Prop :=
  ∀ (s t : State) (f : Framed) (log : List FrState), s.ready = true →
    (FramedPath 0x5C s.params.regTempC s t f log →
      exec .comboTemp s = .next { t with
        cmd := 0x11000000, done := true
        err := f.e.map Prod.fst, buscode := (f.e.bind Prod.snd).getD 0
        result := 0#16 ++ f.v, resp := f.b.getD s.resp, frLog := s.frLog ++ log ++ [.idle]
        valT2 := if f.e = none then BitVec.ofInt 32 (tempDecode f.v) else BitVec.ofInt 32 (-1000) }) ∧
    (FramedPath 0x5C s.params.regHumC s t f log →
      exec .comboHum s = .next { t with
        cmd := 0x12000000, done := true
        err := f.e.map Prod.fst, buscode := (f.e.bind Prod.snd).getD 0
        result := 0#16 ++ f.v, resp := f.b.getD s.resp, frLog := s.frLog ++ log ++ [.idle]
        valH := if f.e = none then BitVec.ofInt 32 (humDecode f.v) else BitVec.ofInt 32 (-1000) })

/-- R192: whatever the host does meanwhile (but for a reset), the protocol states a command passes follow the
transitions, from Idle and back to Idle; a command that runs no framed read passes none. The log of the states passed is
the model's own observation (log 11). -/
def Obligations.ProtocolStatesFollowTheTransitions : Prop :=
  ∀ (i : Instr) (s t : State), s.seq = none → s.noReset = true → exec i s = .next t →
    ∃ log, t.frLog = s.frLog ++ log ∧ frFollows .idle log = true ∧
      (log = [] ∨ log.getLast? = some .idle) ∧
      ((∃ dev reg, i = .framedRead dev reg) ∨ i = .comboTemp ∨ i = .comboHum ↔ log ≠ [])

/-! ## Calibration -/

/-- R231, R232, R233: the classifications of a load, on every operand; and how a coefficient comes from its two bytes under
each order (R84) and which coefficient each word is (R44, R45). -/
def Obligations.LoadClassificationsAreTotal : Prop :=
  (∀ setting : Byte,
    (setting.toNat ≤ 3 → ossCodeOf setting = BitVec.ofNat 2 setting.toNat) ∧
    (4 ≤ setting.toNat → ossCodeOf setting = 1) ∧
    (ossWaitOf setting).toNat = [5, 8, 14, 26].getD (ossCodeOf setting).toNat 0) ∧
  (∀ id : Byte, (id = 0x55 → classify id = .familyA) ∧ (id = 0x58 → classify id = .familyB) ∧
    (id ≠ 0x55 → id ≠ 0x58 → classify id = .unknown)) ∧
  (∀ words : List Half, calFault words = true ↔ ∃ w ∈ words, w = 0x0000 ∨ w = 0xFFFF) ∧
  (∀ b0 b1 : Byte, calWord .big [b0, b1] = b0 ++ b1 ∧ calWord .little [b0, b1] = b1 ++ b0 ∧
    calFault [calWord .big [b0, b1]] = calFault [calWord .little [b0, b1]]) ∧
  (∀ code : BitVec 2, (waitA code).toNat = [5, 8, 14, 26].getD code.toNat 0) ∧
  (∀ w0 w1 w2 w3 w4 w5 w6 w7 w8 w9 w10 w11 : Half,
    (CalA.ofWords [w0, w1, w2, w3, w4, w5, w6, w7, w8, w9, w10] =
      { ac1 := w0, ac2 := w1, ac3 := w2, ac4 := w3, ac5 := w4, ac6 := w5, b1 := w6, b2 := w7, mb := w8, mc := w9
        md := w10 }) ∧
    (CalB.ofWords [w0, w1, w2, w3, w4, w5, w6, w7, w8, w9, w10, w11] =
      { t1 := w0, t2 := w1, t3 := w2, p1 := w3, p2 := w4, p3 := w5, p4 := w6, p5 := w7, p6 := w8, p7 := w9
        p8 := w10, p9 := w11 })) ∧
  (∀ c : CalA, c.words = [c.ac1, c.ac2, c.ac3, c.ac4, c.ac5, c.ac6, c.b1, c.b2, c.mb, c.mc, c.md]) ∧
  (∀ c : CalB, c.words = [c.t1, c.t2, c.t3, c.p1, c.p2, c.p3, c.p4, c.p5, c.p6, c.p7, c.p8, c.p9])

/-- R230: CAL_LOAD_A when every transaction goes on, fault pattern or not; CAL_A[i] is the two bytes of the i-th coefficient
read, in CAL_ORDER_A (R84). -/
def Obligations.CalLoadAReplacesTheStore : Prop :=
  ∀ (s t : State) (setting : Byte) (a0 : BusAnswer) (as : List BusAnswer),
    s.ready = true → runOps (calLoadAOps s.params) s = (a0 :: as, t) →
    (∀ a ∈ a0 :: as, goesOn s.params a = true) →
    let words := as.map fun a => calWord s.params.calOrderA (answerBytes a)
    let fault := calFault words
    ((CalA.ofWords words).words = words ∧ words.length = 11 ∧
      ∀ (i : Nat) (a : BusAnswer), as[i]? = some a → words[i]? = some (match s.params.calOrderA with
        | .big => answerByte a 0 ++ answerByte a 1
        | .little => answerByte a 1 ++ answerByte a 0)) ∧
    exec (.calLoadA setting) s = .next { t with
      cmd := encode (.calLoadA setting), done := true, buscode := 0
      err := if fault then some .calibrationFault else none
      id := answerByte a0 0, result := 0#24 ++ answerByte a0 0, family := classify (answerByte a0 0)
      calA := CalA.ofWords words, ossCode := ossCodeOf setting, waitPMs := waitA (ossCodeOf setting)
      calValidA := !fault, calFaultA := fault, b5Valid := false }

/-- R280: CAL_LOAD_B when every transaction goes on, fault pattern or not; CAL_B[i] is the two bytes of the i-th coefficient
read, in CAL_ORDER_B (R84). -/
def Obligations.CalLoadBReplacesTheStore : Prop :=
  ∀ (s t : State) (a0 : BusAnswer) (as : List BusAnswer),
    s.ready = true → runOps (calLoadBOps s.params) s = (a0 :: as, t) →
    (∀ a ∈ a0 :: as, goesOn s.params a = true) →
    let words := as.map fun a => calWord s.params.calOrderB (answerBytes a)
    let fault := calFault words
    ((CalB.ofWords words).words = words ∧ words.length = 12 ∧
      ∀ (i : Nat) (a : BusAnswer), as[i]? = some a → words[i]? = some (match s.params.calOrderB with
        | .big => answerByte a 0 ++ answerByte a 1
        | .little => answerByte a 1 ++ answerByte a 0)) ∧
    exec .calLoadB s = .next { t with
      cmd := 0x30000000, done := true, buscode := 0
      err := if fault then some .calibrationFault else none
      id := answerByte a0 0, result := 0#24 ++ answerByte a0 0, family := classify (answerByte a0 0)
      calB := CalB.ofWords words, calValidB := !fault, calFaultB := fault, tfineValid := false }

/-- R230, R280, R361: a Nack under ABORT at any transaction of a load ends it, and only the VALID bits are cleared. -/
def Obligations.NackInALoadClearsOnlyValidBits : Prop :=
  ∀ (s t : State) (setting : Byte) (pre : List BusOp) (reg : Byte) (n : Nat) (post : List BusOp)
    (as : List BusAnswer) (c : Word) (b : List Byte),
    s.ready = true → s.params.abBusPolicy = .abort →
    runOps pre s = (as, t) → (∀ a ∈ as, goesOn s.params a = true) →
    busAnswer 0x77 [reg] n t = .nack c b →
    (calLoadAOps s.params = pre ++ readOp reg n :: post →
      exec (.calLoadA setting) s = .next { afterXfer 0x77 [reg] n t with
        cmd := encode (.calLoadA setting), done := true, err := some .busNack, buscode := c
        calValidA := false, b5Valid := false }) ∧
    (calLoadBOps s.params = pre ++ readOp reg n :: post →
      exec .calLoadB s = .next { afterXfer 0x77 [reg] n t with
        cmd := 0x30000000, done := true, err := some .busNack, buscode := c
        calValidB := false, tfineValid := false })

/-! ## Raw acquisition -/

/-- R235, R236, R282: RAWT_A, RAWP_A and RAWP_B when every transaction goes on: the big-endian 16-bit code, the 24-bit
code without its (8 − oss) low bits, and the 24-bit code shifted right by 4; and the bus events and the delay each makes
(R86, R87). -/
def Obligations.AcquisitionsStoreTheirCodes : Prop :=
  ∀ (s t : State) (a0 a1 a2 a3 : BusAnswer), s.ready = true →
    (∀ a ∈ [a0, a1, a2, a3], goesOn s.params a = true) →
    (runOps (rawtAOps s.params) s = ([a0, a1, a2], t) →
      exec .rawtA s = .next { t with
        cmd := 0x21000000, done := true, err := none, buscode := 0
        rawT := 0#16 ++ answerByte a1 0 ++ answerByte a2 0 } ∧
      t.trace = s.trace ++ [.xfer 0x77 [s.params.regCtrlA, s.params.cmdTempA] 0 a0, .delay 5,
        .xfer 0x77 [s.params.regDataA] 1 a1, .xfer 0x77 [s.params.regDataA + 1] 1 a2] ∧
      t.buserrSeen = (s.buserrSeen || isNack a0 || isNack a1 || isNack a2)) ∧
    (runOps (rawpAOps s) s = ([a0, a1, a2, a3], t) →
      exec .rawpA s = .next { t with
        cmd := 0x22000000, done := true, err := none, buscode := 0
        rawP := (0#8 ++ answerByte a1 0 ++ answerByte a2 0 ++ answerByte a3 0) >>> (8 - s.ossCode.toNat) } ∧
      t.trace = s.trace ++ [
        .xfer 0x77 [s.params.regCtrlA, [s.params.cmdPresA0, s.params.cmdPresA1, s.params.cmdPresA2,
          s.params.cmdPresA3].getD s.ossCode.toNat 0] 0 a0,
        .delay s.waitPMs.toNat,
        .xfer 0x77 [s.params.regDataA] 1 a1, .xfer 0x77 [s.params.regDataA + 1] 1 a2,
        .xfer 0x77 [s.params.regDataA + 2] 1 a3] ∧
      t.buserrSeen = (s.buserrSeen || isNack a0 || isNack a1 || isNack a2 || isNack a3)) ∧
    (runOps (rawpBOps s.params) s = ([a0, a1, a2], t) →
      exec .rawpB s = .next { t with
        cmd := 0x32000000, done := true, err := none, buscode := 0
        rawP := (0#8 ++ answerByte a0 0 ++ answerByte a1 0 ++ answerByte a2 0) >>> 4 } ∧
      t.trace = s.trace ++ [.xfer 0x77 [s.params.regPresB] 1 a0, .xfer 0x77 [s.params.regPresB + 1] 1 a1,
        .xfer 0x77 [s.params.regPresB + 2] 1 a2] ∧
      t.buserrSeen = (s.buserrSeen || isNack a0 || isNack a1 || isNack a2))

/-- R281: RAWT_B when n polls find the measuring bit set and the next finds it clear, the answers laid down beforehand
reaching that far: how many polls one step makes is the model's choice (log 6). -/
def Obligations.RawtBStoresTheCodeAfterPolling : Prop :=
  ∀ (s u t : State) (n : Nat) (polls : List BusAnswer) (a0 a1 a2 : BusAnswer),
    s.ready = true → runOps (pollingOps s.params n) s = (polls, u) → pollsClearAfter s.params n polls →
    n + 1 < s.answers.length ∨ n = 0 → belowLimit s.params n = true ∨ n = 0 →
    runOps (rawtBDataOps s.params) u = ([a0, a1, a2], t) → (∀ a ∈ [a0, a1, a2], goesOn s.params a = true) →
    exec .rawtB s = .next { t with
      cmd := 0x31000000, done := true, err := none, buscode := 0
      rawT := (0#8 ++ answerByte a0 0 ++ answerByte a1 0 ++ answerByte a2 0) >>> 4 }

/-- R281, R287, R288: however many polls it takes, RAWT_B, TEMP_B and PRES_B end with what they commit within n + 1 steps
of the block (steps: log 6). -/
def Obligations.PollingCommandsEndOnceTheBitClears : Prop :=
  ∀ (s u t : State) (n : Nat) (polls : List BusAnswer) (a0 a1 a2 : BusAnswer),
    s.ready = true → runOps (pollingOps s.params n) s = (polls, u) → pollsClearAfter s.params n polls →
    belowLimit s.params n = true ∨ n = 0 →
    runOps (rawtBDataOps s.params) u = ([a0, a1, a2], t) → (∀ a ∈ [a0, a1, a2], goesOn s.params a = true) →
    let rawT := (0#8 ++ answerByte a0 0 ++ answerByte a1 0 ++ answerByte a2 0) >>> 4
    (∃ k, k ≤ n ∧ Host.Core.run Sys2Proof.core (k + 1) (s.withFetchWord 32 0x31000000) = .next { t with
      cmd := 0x31000000, done := true, err := none, buscode := 0, rawT := rawT }) ∧
    (∃ tf t1 o, compTBOf s.params.divPow2 s.calB rawT [] = .ok (tf, t1) o ∧
      (∃ k, k ≤ n ∧ Host.Core.run Sys2Proof.core (k + 1) (s.withFetchWord 32 0x35000000) = .next { t with
        cmd := 0x35000000, done := true, err := none, buscode := 0, ovf := s.ovf || overflowed o
        rawT := rawT, tfine := tf, tfineValid := true, valT1 := t1 }) ∧
      (∀ (v : State) (p0 p1 p2 : BusAnswer), runOps (rawpBOps s.params) t = ([p0, p1, p2], v) →
        (∀ a ∈ [p0, p1, p2], goesOn s.params a = true) →
        let rawP := (0#8 ++ answerByte p0 0 ++ answerByte p1 0 ++ answerByte p2 0) >>> 4
        ∃ p guard o', compPBOf s.params.divPow2 s.calB rawP tf [] = .ok (p, guard) o' ∧ (guard = true → p = 0) ∧
          ∃ k, k ≤ n ∧ Host.Core.run Sys2Proof.core (k + 1) (s.withFetchWord 32 0x36000000) = .next { v with
            cmd := 0x36000000, done := true, err := if guard then some .divideByZeroGuard else none, buscode := 0
            ovf := s.ovf || overflowed o || overflowed o', rawT := rawT, tfine := tf, tfineValid := true
            valT1 := t1, rawP := rawP, valP := p }))

/-- R359: with a finite POLL_LIMIT, that many polls with the measuring bit set end the command with PollTimeout, with no
further transaction and nothing committed: within that many steps wherever the answers come from, and in one step where
they are laid down beforehand (steps: log 6). -/
def Obligations.PollLimitEndsInPollTimeout : Prop :=
  ∀ (s u : State) (l : Nat) (a0 : BusAnswer) (polls : List BusAnswer),
    s.ready = true → s.params.pollLimit = some l → 0 < l →
    runOps (rawtBControlOp s.params :: List.replicate l (pollOp s.params)) s = (a0 :: polls, u) →
    goesOn s.params a0 = true → (∀ a ∈ polls, pollBusy s.params a = true) →
    ∀ i : Instr, i = .rawtB ∨ i = .tempB ∨ i = .presB →
      (l < s.answers.length → exec i s = .next { u with
        cmd := encode i, done := true, err := some .pollTimeout, buscode := 0 }) ∧
      ∃ k, k < l ∧ Host.Core.run Sys2Proof.core (k + 1) (s.withFetchWord 32 (encode i).toNat) = .next { u with
        cmd := encode i, done := true, err := some .pollTimeout, buscode := 0 }

/-- R358: a block that polls, with at most one answer laid down beforehand, whose poll finds the measuring bit set and whose
limit is not reached, polls on: BUSY stays 1, DONE and ERR keep 0 and no register changes. One poll per step is the
model's choice (log 6). -/
def Obligations.StuckPollKeepsPolling : Prop :=
  ∀ (s : State) (r : Running), s.seq = some r → s.seqAtPoll = true → s.hostQuiet = true → s.answers.length ≤ 1 →
    pollBusy s.params (busAnswer 0x77 [s.params.regStatusB] 1 s) = true →
    belowLimit s.params (r.pollCount + 1) = true →
    step s = .next { afterXfer 0x77 [s.params.regStatusB] 1 s with
      seq := some { r with pollCount := r.pollCount + 1 } } ∧
    s.busy = true ∧ s.done = false ∧ s.err = none

/-- R235, R236, R242, R243, R281, R282, R287, R288, R361: a Nack under ABORT at any transaction of an acquisition ends the
command and commits nothing: of one with a fixed bus program; and of RAWT_B, TEMP_B and PRES_B, at the control write, at
any poll, at any temperature read (and, for PRES_B, at any pressure read, the overflow of its temperature computation
staying in OVF). How many steps the polls take is the model's choice (log 6). -/
def Obligations.NackInAnAcquisitionCommitsNothing : Prop :=
  (∀ (s t : State) (i : Instr) (ops pre post : List BusOp) (w : List Byte) (n : Nat)
    (as : List BusAnswer) (c : Word) (b : List Byte),
    s.ready = true → s.params.abBusPolicy = .abort →
    (i = .rawtA ∨ i = .tempA) ∧ ops = rawtAOps s.params ∨
      (i = .rawpA ∨ (i = .presA ∧ s.b5Valid = true)) ∧ ops = rawpAOps s ∨
      i = .rawpB ∧ ops = rawpBOps s.params →
    ops = pre ++ .xfer 0x77 w n :: post → runOps pre s = (as, t) →
    (∀ a ∈ as, goesOn s.params a = true) → busAnswer 0x77 w n t = .nack c b →
    exec i s = .next { afterXfer 0x77 w n t with
      cmd := encode i, done := true, err := some .busNack, buscode := c }) ∧
  (∀ (s : State) (i : Instr), s.ready = true → s.params.abBusPolicy = .abort →
    i = .rawtB ∨ i = .tempB ∨ i = .presB →
    (∀ c b, busAnswer 0x77 [s.params.regCtrlB, s.params.ctrlBValue] 0 s = .nack c b →
      exec i s = .next { afterXfer 0x77 [s.params.regCtrlB, s.params.ctrlBValue] 0 s with
        cmd := encode i, done := true, err := some .busNack, buscode := c }) ∧
    (∀ (n : Nat) (u : State) (a0 : BusAnswer) (polls : List BusAnswer) (c : Word) (b : List Byte),
      runOps (rawtBControlOp s.params :: List.replicate n (pollOp s.params)) s = (a0 :: polls, u) →
      goesOn s.params a0 = true → (∀ a ∈ polls, pollBusy s.params a = true) →
      belowLimit s.params n = true ∨ n = 0 → busAnswer 0x77 [s.params.regStatusB] 1 u = .nack c b →
      ∃ k, k ≤ n ∧ Host.Core.run Sys2Proof.core (k + 1) (s.withFetchWord 32 (encode i).toNat) =
        .next { afterXfer 0x77 [s.params.regStatusB] 1 u with
          cmd := encode i, done := true, err := some .busNack, buscode := c }) ∧
    (∀ (n : Nat) (u t : State) (polls as : List BusAnswer) (pre post : List BusOp) (reg : Byte) (c : Word)
      (b : List Byte),
      runOps (pollingOps s.params n) s = (polls, u) → pollsClearAfter s.params n polls →
      belowLimit s.params n = true ∨ n = 0 →
      runOps pre u = (as, t) → (∀ a ∈ as, goesOn s.params a = true) → busAnswer 0x77 [reg] 1 t = .nack c b →
      (rawtBDataOps s.params = pre ++ readOp reg 1 :: post →
        ∃ k, k ≤ n ∧ Host.Core.run Sys2Proof.core (k + 1) (s.withFetchWord 32 (encode i).toNat) =
          .next { afterXfer 0x77 [reg] 1 t with
            cmd := encode i, done := true, err := some .busNack, buscode := c }) ∧
      (∀ (a0 a1 a2 : BusAnswer) (more : List BusAnswer) (pre' : List BusOp), i = .presB → as = a0 :: a1 :: a2 :: more →
        pre = rawtBDataOps s.params ++ pre' → rawpBOps s.params = pre' ++ readOp reg 1 :: post →
        ∃ tf t1 o, compTBOf s.params.divPow2 s.calB
            ((0#8 ++ answerByte a0 0 ++ answerByte a1 0 ++ answerByte a2 0) >>> 4) [] = .ok (tf, t1) o ∧
          ∃ k, k ≤ n ∧ Host.Core.run Sys2Proof.core (k + 1) (s.withFetchWord 32 0x36000000) =
            .next { afterXfer 0x77 [reg] 1 t with
              cmd := 0x36000000, done := true, err := some .busNack, buscode := c, ovf := s.ovf || overflowed o })))

/-! ## Arithmetic -/

/-- R10, R11, R13, step by step of a computation (log 20): an s32 result is the exact one reduced modulo 2^32, and OVF is set
exactly when the two differ; a shift left by k is multiplication by 2^k; udiv is the u32 quotient; a u32 pattern read as s32 sets OVF exactly when it is 2^31 or more; the one overflow of
tdiv is −2^31 by −1. -/
def Obligations.OverflowIsFlaggedExactlyWhenTheValueWraps : Prop :=
  (∀ (x : Int) (o : List Bool), ∃ r : Word, narrow x o = .ok r (o ++ [decide (r.toInt ≠ x)]) ∧
    r.toInt = Int.bmod x (2 ^ 32)) ∧
  (∀ (a b : Word) (o : List Bool),
    sAdd a b o = narrow (a.toInt + b.toInt) o ∧ sSub a b o = narrow (a.toInt - b.toInt) o ∧
    sMul a b o = narrow (a.toInt * b.toInt) o) ∧
  (∀ (a : Word) (k : Nat) (o : List Bool), sShl a k o = narrow (a.toInt * 2 ^ k) o) ∧
  (∀ a b : Word, b ≠ 0 → (uDiv a b).toNat = a.toNat / b.toNat) ∧
  (∀ (u : Word) (o : List Bool), asS32 u o = .ok u (o ++ [decide (2 ^ 31 ≤ u.toNat)])) ∧
  (∀ (a b : Word), b ≠ 0 →
    ∃ r : Word, sTdiv a b [] = .ok r [a == BitVec.ofInt 32 (-2147483648) && b == BitVec.ofInt 32 (-1)] ∧
      (¬(a = BitVec.ofInt 32 (-2147483648) ∧ b = BitVec.ofInt 32 (-1)) → r.toInt = a.toInt.tdiv b.toInt) ∧
      (a = BitVec.ofInt 32 (-2147483648) → b = BitVec.ofInt 32 (-1) → r = a))

/-- R12, R13: the arithmetic right shift, both readings of a division by 2^k, and where they differ. -/
def Obligations.PdivReadingsDifferOnlyOnInexactNegatives : Prop :=
  ∀ (x : Word) (k : Nat), k ≤ 31 →
    (sar x k).toInt = x.toInt / 2 ^ k ∧ (pdiv .floor x k).toInt = x.toInt / 2 ^ k ∧ (pdiv .trunc x k).toInt = x.toInt.tdiv (2 ^ k) ∧
    (pdiv .floor x k ≠ pdiv .trunc x k ↔ x.toInt < 0 ∧ ¬(2 ^ k : Int) ∣ x.toInt)

/-! ## Compensation -/

/-- R237, R10, R245: CompTA on the pattern of RAW_T over the integers: e1 to e8 are the exact results of its s32 steps, each
reduced modulo 2^32 before it is used, and OVF is noted exactly when one of those made does not fit s32, asS32 of the
code among them. -/
def Obligations.CompTAIsTheStatedFormula : Prop :=
  ∀ (rnd : Rounding) (c : CalA) (raw : Word),
    let e1 := raw.toInt - c.ac6.toNat
    let e2 := wrapS32 e1 * c.ac5.toNat
    let x1 := intPdiv rnd (wrapS32 e2) 15
    let e3 := x1 + c.md.toInt
    let d := wrapS32 e3
    let e4 := c.mc.toInt * 2048
    let e5 := (wrapS32 e4).tdiv d
    let e6 := x1 + wrapS32 e5
    let e7 := wrapS32 e6 + 8
    let e8 := intPdiv rnd (wrapS32 e7) 4 * 10
    (d = 0 → ∃ o, compTAOf rnd c raw [] = .error .divideByZero o ∧
      (overflowed o = false ↔ allS32 [(raw.toNat : Int), e1, e2, e3])) ∧
    (d ≠ 0 → ∃ o, compTAOf rnd c raw [] = .ok (BitVec.ofInt 32 e6, BitVec.ofInt 32 e8) o ∧
      (overflowed o = false ↔ allS32 [(raw.toNat : Int), e1, e2, e3, e4, e5, e6, e7, e8])) ∧
    (∀ o, compTAOf rnd c raw o = compTA rnd c raw (o ++ [decide (2 ^ 31 ≤ raw.toNat)]))

/-- R239, R10, R245: CompPA over the integers: e1 to e20 are the exact results of its s32 steps, each reduced modulo 2^32
before it is used, B4, B7 and p are u32, and OVF is noted exactly when one of the s32 steps made, or asS32 of p, does not
fit s32. -/
def Obligations.CompPAIsTheStatedFormula : Prop :=
  ∀ (rnd : Rounding) (c : CalA) (up b5 : Word) (oss : BitVec 2),
    let e1 := b5.toInt - 4000
    let b6 := wrapS32 e1
    let e2 := b6 * b6
    let sq := intPdiv rnd (wrapS32 e2) 12
    let e3 := c.b2.toInt * sq
    let e4 := c.ac2.toInt * b6
    let e5 := intPdiv rnd (wrapS32 e3) 11 + intPdiv rnd (wrapS32 e4) 11
    let e6 := c.ac1.toInt * 4
    let e7 := wrapS32 e6 + wrapS32 e5
    let e8 := wrapS32 e7 * 2 ^ oss.toNat
    let e9 := wrapS32 e8 + 2
    let b3 := (wrapS32 e9).tdiv 4
    let e10 := c.ac3.toInt * b6
    let e11 := c.b1.toInt * sq
    let e12 := intPdiv rnd (wrapS32 e10) 13 + intPdiv rnd (wrapS32 e11) 16
    let e13 := wrapS32 e12 + 2
    let x3 := (wrapS32 e13).tdiv 4
    let e14 := x3 + 32768
    let b4 : Nat := (c.ac4.toNat * (e14 % 2 ^ 32).toNat % 2 ^ 32) / 2 ^ 15
    let b7 : Nat := ((((up.toNat : Int) - b3) * ((50000 / 2 ^ oss.toNat : Nat) : Int)) % 2 ^ 32).toNat
    let pu : Nat := if b7 < 2 ^ 31 then b7 * 2 / b4 else b7 / b4 * 2 % 2 ^ 32
    let p := wrapS32 pu
    let e15 := intPdiv rnd p 8 * intPdiv rnd p 8
    let e16 := wrapS32 e15 * 3038
    let e17 := -7357 * p
    let e18 := intPdiv rnd (wrapS32 e16) 16 + intPdiv rnd (wrapS32 e17) 16
    let e19 := wrapS32 e18 + 3791
    let e20 := p + intPdiv rnd (wrapS32 e19) 4
    let head := [e1, e2, e3, e4, e5, e6, e7, e8, e9, e10, e11, e12, e13, e14]
    (b4 = 0 → ∃ o, compPA rnd c up b5 oss [] = .error .divideByZero o ∧ (overflowed o = false ↔ allS32 head)) ∧
    (b4 ≠ 0 → ∃ o, compPA rnd c up b5 oss [] = .ok (BitVec.ofInt 32 e20) o ∧
      (overflowed o = false ↔ allS32 (head ++ [(pu : Int), e15, e16, e17, e18, e19, e20])))

/-- R284, R10, R291: CompTB on the pattern of RAW_T over the integers: e1 to e9 are the exact results of its s32 steps, each
reduced modulo 2^32 before it is used, and OVF is noted exactly when one of them, or asS32 of the code, does not fit
s32. -/
def Obligations.CompTBIsTheStatedFormula : Prop :=
  ∀ (rnd : Rounding) (c : CalB) (raw : Word),
    let e1 : Int := c.t1.toNat * 2
    let e2 := raw.toInt / 2 ^ 3 - wrapS32 e1
    let e3 := wrapS32 e2 * c.t2.toInt
    let var1 := intPdiv rnd (wrapS32 e3) 11
    let e4 := raw.toInt / 2 ^ 4 - c.t1.toNat
    let e5 := wrapS32 e4 * wrapS32 e4
    let e6 := intPdiv rnd (wrapS32 e5) 12 * c.t3.toInt
    let var2 := intPdiv rnd (wrapS32 e6) 14
    let e7 := var1 + var2
    let e8 := wrapS32 e7 * 5
    let e9 := wrapS32 e8 + 128
    (∃ o, compTBOf rnd c raw [] = .ok (BitVec.ofInt 32 e7, BitVec.ofInt 32 (intPdiv rnd (wrapS32 e9) 8)) o ∧
      (overflowed o = false ↔ allS32 [(raw.toNat : Int), e1, e2, e3, e4, e5, e6, e7, e8, e9])) ∧
    (∀ o, compTBOf rnd c raw o = compTB rnd c raw (o ++ [decide (2 ^ 31 ≤ raw.toNat)]))

/-- R286, R289, R10, R291: CompPB on the pattern of RAW_P over the integers: e1 to e20 are the exact results of its s32 steps,
each reduced modulo 2^32 before it is used, p and its square are u32, and OVF is noted exactly when one of the s32 steps
made, or one of the asS32, does not fit s32. -/
def Obligations.CompPBIsTheStatedFormula : Prop :=
  ∀ (rnd : Rounding) (c : CalB) (raw tFine : Word),
    let e1 := tFine.toInt / 2 - 64000
    let var1 := wrapS32 e1
    let q := var1 / 2 ^ 2
    let e2 := q * q
    let e3 := intPdiv rnd (wrapS32 e2) 11 * c.p6.toInt
    let e4 := var1 * c.p5.toInt
    let e5 := wrapS32 e4 * 2
    let e6 := wrapS32 e3 + wrapS32 e5
    let e7 := c.p4.toInt * 2 ^ 16
    let e8 := intPdiv rnd (wrapS32 e6) 2 + wrapS32 e7
    let e9 := c.p3.toInt * intPdiv rnd (wrapS32 e2) 13
    let e10 := c.p2.toInt * var1
    let e11 := intPdiv rnd (wrapS32 e9) 3 + intPdiv rnd (wrapS32 e10) 1
    let e12 := 32768 + intPdiv rnd (wrapS32 e11) 18
    let e13 := wrapS32 e12 * c.p1.toNat
    let div := intPdiv rnd (wrapS32 e13) 15
    let divU : Nat := (div % 2 ^ 32).toNat
    let e14 := 1048576 - raw.toInt
    let e15 := wrapS32 e14 - wrapS32 e8 / 2 ^ 12
    let p0 : Nat := ((wrapS32 e15 * 3125) % 2 ^ 32).toNat
    let p : Nat := if p0 < 2 ^ 31 then p0 * 2 / divU else p0 / divU * 2 % 2 ^ 32
    let sq : Nat := p / 8 * (p / 8) % 2 ^ 32 / 2 ^ 13
    let e16 := c.p9.toInt * (sq : Int)
    let e17 := ((p / 4 : Nat) : Int) * c.p8.toInt
    let e18 := intPdiv rnd (wrapS32 e16) 12 + intPdiv rnd (wrapS32 e17) 13
    let e19 := wrapS32 e18 + c.p7.toInt
    let e20 := wrapS32 (p : Int) + wrapS32 e19 / 2 ^ 4
    let head := [(raw.toNat : Int), e1, e2, e3, e4, e5, e6, e7, e8, e9, e10, e11, e12, e13]
    (div = 0 → ∃ o, compPBOf rnd c raw tFine [] = .ok (0, true) o ∧ (overflowed o = false ↔ allS32 head)) ∧
    (div ≠ 0 → ∃ o, compPBOf rnd c raw tFine [] = .ok (BitVec.ofInt 32 e20, false) o ∧
      (overflowed o = false ↔ allS32 (head ++ [e14, e15, (sq : Int), e16, ((p / 4 : Nat) : Int), e17, (p : Int), e18,
        e19, e20]))) ∧
    (∀ o, compPBOf rnd c raw tFine o = compPB rnd c raw tFine (o ++ [decide (2 ^ 31 ≤ raw.toNat)]))

/-- R238: COMPT_A commits what CompTA computes, or DivideByZero and nothing. -/
def Obligations.ComptACommitsTheTemperature : Prop :=
  ∀ s : State, s.ready = true →
    (∀ b5 t o, compTAOf s.params.divPow2 s.calA s.rawT [] = .ok (b5, t) o →
      exec .comptA s = .next { s with
        cmd := 0x23000000, done := true, err := none, buscode := 0, ovf := s.ovf || overflowed o
        b5 := b5, b5Valid := true, valT1 := t }) ∧
    (∀ e o, compTAOf s.params.divPow2 s.calA s.rawT [] = .error e o →
      exec .comptA s = .next { s with
        cmd := 0x23000000, done := true, err := some .divideByZero, buscode := 0, ovf := s.ovf || overflowed o })

/-- R240: COMPP_A tests B5_VALID first, then commits what CompPA computes, or DivideByZero and nothing. -/
def Obligations.ComppACommitsThePressure : Prop :=
  ∀ s : State, s.ready = true →
    (s.b5Valid = false → exec .comppA s = .next { s with
      cmd := 0x24000000, done := true, err := some .noTemperature, buscode := 0 }) ∧
    (s.b5Valid = true →
      (∀ p o, compPA s.params.divPow2 s.calA s.rawP s.b5 s.ossCode [] = .ok p o →
        exec .comppA s = .next { s with
          cmd := 0x24000000, done := true, err := none, buscode := 0, ovf := s.ovf || overflowed o, valP := p }) ∧
      (∀ e o, compPA s.params.divPow2 s.calA s.rawP s.b5 s.ossCode [] = .error e o →
        exec .comppA s = .next { s with
          cmd := 0x24000000, done := true, err := some .divideByZero, buscode := 0, ovf := s.ovf || overflowed o }))

/-- R242: TEMP_A computes on the code it acquired; DivideByZero commits RAW_T only; OVF gains the computation's overflow
(log 20). -/
def Obligations.TempAAcquiresThenCompensates : Prop :=
  ∀ (s t : State) (a0 a1 a2 : BusAnswer),
    s.ready = true → runOps (rawtAOps s.params) s = ([a0, a1, a2], t) →
    (∀ a ∈ [a0, a1, a2], goesOn s.params a = true) →
    let raw := 0#16 ++ answerByte a1 0 ++ answerByte a2 0
    (∀ b5 v o, compTAOf s.params.divPow2 s.calA raw [] = .ok (b5, v) o →
      exec .tempA s = .next { t with
        cmd := 0x25000000, done := true, err := none, buscode := 0, ovf := s.ovf || overflowed o
        rawT := raw, b5 := b5, b5Valid := true, valT1 := v }) ∧
    (∀ e o, compTAOf s.params.divPow2 s.calA raw [] = .error e o →
      exec .tempA s = .next { t with
        cmd := 0x25000000, done := true, err := some .divideByZero, buscode := 0
        ovf := s.ovf || overflowed o, rawT := raw })

/-- R243: PRES_A tests B5_VALID before any bus access, then computes on the code it acquired; DivideByZero commits RAW_P
only; OVF gains the computation's overflow (log 20). -/
def Obligations.PresAAcquiresThenCompensates : Prop :=
  ∀ s : State, s.ready = true →
    (s.b5Valid = false → exec .presA s = .next { s with
      cmd := 0x26000000, done := true, err := some .noTemperature, buscode := 0 }) ∧
    (∀ (t : State) (a0 a1 a2 a3 : BusAnswer), s.b5Valid = true →
      runOps (rawpAOps s) s = ([a0, a1, a2, a3], t) → (∀ a ∈ [a0, a1, a2, a3], goesOn s.params a = true) →
      let raw := (0#8 ++ answerByte a1 0 ++ answerByte a2 0 ++ answerByte a3 0) >>> (8 - s.ossCode.toNat)
      (∀ p o, compPA s.params.divPow2 s.calA raw s.b5 s.ossCode [] = .ok p o →
        exec .presA s = .next { t with
          cmd := 0x26000000, done := true, err := none, buscode := 0
          ovf := s.ovf || overflowed o, rawP := raw, valP := p }) ∧
      (∀ e o, compPA s.params.divPow2 s.calA raw s.b5 s.ossCode [] = .error e o →
        exec .presA s = .next { t with
          cmd := 0x26000000, done := true, err := some .divideByZero, buscode := 0
          ovf := s.ovf || overflowed o, rawP := raw }))

/-- R283: COMPT_B always completes without an error, with what CompTB computes. -/
def Obligations.ComptBCommitsTheTemperature : Prop :=
  ∀ s : State, s.ready = true →
    ∃ tf v o, compTBOf s.params.divPow2 s.calB s.rawT [] = .ok (tf, v) o ∧
      exec .comptB s = .next { s with
        cmd := 0x33000000, done := true, err := none, buscode := 0, ovf := s.ovf || overflowed o
        tfine := tf, tfineValid := true, valT1 := v }

/-- R285: COMPP_B tests TFINE_VALID first, then commits what CompPB computes; the guard commits VAL_P = 0. -/
def Obligations.ComppBCommitsThePressure : Prop :=
  ∀ s : State, s.ready = true →
    (s.tfineValid = false → exec .comppB s = .next { s with
      cmd := 0x34000000, done := true, err := some .noTemperature, buscode := 0 }) ∧
    (s.tfineValid = true → ∃ p guard o, compPBOf s.params.divPow2 s.calB s.rawP s.tfine [] = .ok (p, guard) o ∧
      (guard = true → p = 0) ∧
      exec .comppB s = .next { s with
        cmd := 0x34000000, done := true, err := if guard then some .divideByZeroGuard else none, buscode := 0
        ovf := s.ovf || overflowed o, valP := p })

/-- R287: TEMP_B polls, acquires, and compensates the code it acquired, the answers laid down beforehand reaching as far as
the polls do: how many polls one step makes is the model's choice (log 6). -/
def Obligations.TempBAcquiresThenCompensates : Prop :=
  ∀ (s u t : State) (n : Nat) (polls : List BusAnswer) (a0 a1 a2 : BusAnswer),
    s.ready = true → runOps (pollingOps s.params n) s = (polls, u) → pollsClearAfter s.params n polls →
    n + 1 < s.answers.length ∨ n = 0 → belowLimit s.params n = true ∨ n = 0 →
    runOps (rawtBDataOps s.params) u = ([a0, a1, a2], t) → (∀ a ∈ [a0, a1, a2], goesOn s.params a = true) →
    let raw := (0#8 ++ answerByte a0 0 ++ answerByte a1 0 ++ answerByte a2 0) >>> 4
    ∃ tf v o, compTBOf s.params.divPow2 s.calB raw [] = .ok (tf, v) o ∧
      exec .tempB s = .next { t with
        cmd := 0x35000000, done := true, err := none, buscode := 0, ovf := s.ovf || overflowed o
        rawT := raw, tfine := tf, tfineValid := true, valT1 := v }

/-- R288: PRES_B refreshes tFine from the temperature it acquires, then acquires and compensates the pressure; the guard
commits everything staged with VAL_P = 0. The answers laid down beforehand reach as far as the polls do: how many polls one
step makes is the model's choice (log 6). -/
def Obligations.PresBRefreshesTfineThenCompensates : Prop :=
  ∀ (s u t v : State) (n : Nat) (polls : List BusAnswer) (a0 a1 a2 p0 p1 p2 : BusAnswer),
    s.ready = true → runOps (pollingOps s.params n) s = (polls, u) → pollsClearAfter s.params n polls →
    n + 1 < s.answers.length ∨ n = 0 → belowLimit s.params n = true ∨ n = 0 →
    runOps (rawtBDataOps s.params) u = ([a0, a1, a2], t) → runOps (rawpBOps s.params) t = ([p0, p1, p2], v) →
    (∀ a ∈ [a0, a1, a2, p0, p1, p2], goesOn s.params a = true) →
    let rawT := (0#8 ++ answerByte a0 0 ++ answerByte a1 0 ++ answerByte a2 0) >>> 4
    let rawP := (0#8 ++ answerByte p0 0 ++ answerByte p1 0 ++ answerByte p2 0) >>> 4
    ∃ tf t1 o p guard o', compTBOf s.params.divPow2 s.calB rawT [] = .ok (tf, t1) o ∧
      compPBOf s.params.divPow2 s.calB rawP tf [] = .ok (p, guard) o' ∧ (guard = true → p = 0) ∧
      exec .presB s = .next { v with
        cmd := 0x36000000, done := true, err := if guard then some .divideByZeroGuard else none, buscode := 0
        ovf := s.ovf || overflowed o || overflowed o', rawT := rawT, tfine := tf, tfineValid := true, valT1 := t1
        rawP := rawP, valP := p }

/-- R392, R244: compensation on the reset store: both of family A's divide by zero, for every raw code, B5 and
oversampling code, and the pressure guard of family B fires for every tFine and raw code. -/
def Obligations.ResetStoreGivesNoPressure : Prop :=
  (∀ (rnd : Rounding) (raw : Word), ∃ o, compTAOf rnd CalA.zero raw [] = .error .divideByZero o) ∧
  (∀ (rnd : Rounding) (raw b5 : Word) (oss : BitVec 2),
    ∃ o, compPA rnd CalA.zero raw b5 oss [] = .error .divideByZero o) ∧
  (∀ (rnd : Rounding) (raw tFine : Word), ∃ o, compPBOf rnd CalB.zero raw tFine [] = .ok (0, true) o)

/-- R397: after a calibration load, whatever the bus and the host did meanwhile (but for a reset), the pressure commands
that need an intermediate of that family raise NoTemperature. -/
def Obligations.ReloadRequiresANewTemperature : Prop :=
  ∀ (s t : State) (setting : Byte), s.seq = none → s.noReset = true → t.ready = true →
    (exec (.calLoadA setting) s = .next t →
      exec .comppA t = .next { t with cmd := 0x24000000, done := true, err := some .noTemperature, buscode := 0 } ∧
      exec .presA t = .next { t with cmd := 0x26000000, done := true, err := some .noTemperature, buscode := 0 }) ∧
    (exec .calLoadB s = .next t →
      exec .comppB t = .next { t with cmd := 0x34000000, done := true, err := some .noTemperature, buscode := 0 })

/-! ## The frame -/

/-- R334, R330, R331: FRAME_ENCODE writes the low bytes of the four values at their offsets, little-endian, and leaves
every other frame byte. -/
def Obligations.FrameEncodePacksTheValues : Prop :=
  ∀ s : State, s.ready = true →
    ∃ t, exec .frameEncode s = .next t ∧
      t = { s with cmd := 0x40000000, done := true, err := none, buscode := 0, frame := t.frame } ∧
      t.frameByte 4 = s.valT1.extractLsb' 0 8 ∧ t.frameByte 5 = s.valT1.extractLsb' 8 8 ∧
      t.frameByte 7 = s.valP.extractLsb' 0 8 ∧ t.frameByte 8 = s.valP.extractLsb' 8 8 ∧
      t.frameByte 9 = s.valP.extractLsb' 16 8 ∧
      t.frameByte 11 = s.valT2.extractLsb' 0 8 ∧ t.frameByte 12 = s.valT2.extractLsb' 8 8 ∧
      t.frameByte 14 = s.valH.extractLsb' 0 8 ∧ t.frameByte 15 = s.valH.extractLsb' 8 8 ∧
      ∀ a, a ∉ [4, 5, 7, 8, 9, 11, 12, 14, 15] → t.frameByte a = s.frameByte a

/-- R97: MemWrite writes n bytes little-endian from offset i and no other byte; MemRead reads them back. -/
def Obligations.FrameWriteThenReadIsLittleEndian : Prop :=
  ∀ (p : Params) (m : Memory) (i n : Nat) (v : Word), 1 ≤ n → n ≤ 3 → i + n ≤ 16 →
    (∀ k, k < n → Memory.read p (Memory.writeLE p i n v m) (i + k) = v.extractLsb' (8 * k) 8) ∧
    (∀ a, a < i ∨ i + n ≤ a → Memory.read p (Memory.writeLE p i n v m) a = Memory.read p m a) ∧
    Memory.readLE p (Memory.writeLE p i n v m) i n = v &&& BitVec.ofNat 32 (2 ^ (8 * n) - 1)

/-! ## The block as a whole -/

/-- Headline (b): the frame stays canonical and its header and tag bytes stay as reset set them (R331). The canonical form
is the model's representation (log 12). -/
def Obligations.StepKeepsTheFrameIntact : Prop :=
  ∀ s t : State, s.seqAtPoll = true → s.frameIntact = true → step s = .next t → t.frameIntact = true

/-- Headline (b): WAIT_P_MS = WAIT_A[OSS_CODE] (R37). -/
def Obligations.StepKeepsWaitMatchingCode : Prop :=
  ∀ s t : State, s.seqAtPoll = true → s.waitMatchesCode = true → step s = .next t → t.waitMatchesCode = true

/-- Headline (b): between steps the sequencer is idle or stands at a status poll with nothing staged, DONE = 0, ERR = 0,
BUSCODE = 0 and CMD the command's word (R34, R50, R358). Standing between steps only at a poll is the model's choice
(log 6). -/
def Obligations.StepKeepsSequencerAtPoll : Prop :=
  ∀ s t : State, s.seqAtPoll = true → step s = .next t → t.seqAtPoll = true

/-- Headline (b): BUSCODE is 0 unless the last command ended with BusNack (R36). -/
def Obligations.StepKeepsBuscodeMatchingErr : Prop :=
  ∀ s t : State, s.seqAtPoll = true → s.buscodeMatchesErr = true → step s = .next t → t.buscodeMatchesErr = true

/-- Headline (b): a valid store holds no fault pattern, and FAMILY classifies ID once a load committed (R33, R58). -/
def Obligations.StepKeepsStoresClassified : Prop :=
  ∀ s t : State, s.seqAtPoll = true → s.storesClassified = true → step s = .next t → t.storesClassified = true

/-- The invariants hold at reset, for every choice of the parameters. -/
def Obligations.ResetMeetsTheInvariants : Prop :=
  ∀ p : Params, (State.resetWith p).invariant = true

/-- R363, R82: no step faults where the sequencer is as a run leaves it (log 7), and the only refusal is that of a host access
of the CSR space to an idle block that is not an aligned 32-bit one, at an offset or at a host address (R80). The model's
choices: the refusal is that of the step, which takes one input (log 1), and only at an idle block, a running command going
on (log 15, DEDUCED); an access that reaches into the CSR space from below or past its end is refused, and host addresses are unbounded
natural numbers (log 25); a narrow or misaligned access at an offset of 0x100 or above is refused too (log 27). -/
def Obligations.StepStopsOnlyOnUnsupportedAccess : Prop :=
  (∀ s : State, s.seqAtPoll = true →
    (∃ t, step s = .next t) ∨
      (step s = .refused .unsupportedHostAccess ∧ s.seq = none ∧
        ∃ ar e a rest, s.inputs = ⟨ar, e⟩ :: rest ∧ e.reach s.params = .csr a ∧ a.supported = false)) ∧
  (∀ (s : State) (ar : Arrival) (a : HostAccess) (rest : List Input),
    s.seq = none → s.inputs = ⟨ar, .access a⟩ :: rest →
    (∃ size off, (a = .read size off ∨ ∃ v, a = .write size off v) ∧ (size ≠ .word ∨ off.extractLsb' 0 2 ≠ 0#2)) →
    step s = .refused .unsupportedHostAccess) ∧
  (∀ (s : State) (ar : Arrival) (m : MemAccess) (rest : List Input) (size : AccessSize) (addr : Nat),
    s.seq = none → s.inputs = ⟨ar, .memory m⟩ :: rest → (m = .load size addr ∨ ∃ v, m = .store size addr v) →
    s.params.csrBase < addr + size.bytes → addr < s.params.csrBase + 0x100 →
    (size ≠ .word ∨ ((addr : Int) - s.params.csrBase) % 4 ≠ 0) →
    step s = .refused .unsupportedHostAccess)

/-- R125, R358: whatever the bus answers and the host does meanwhile (but for a reset), a command launched at an idle
block is in CMD, and either it has committed (BUSY = 0, DONE = 1) or it is one of the three that poll (log 6). -/
def Obligations.CommandCommitsOrPolls : Prop :=
  ∀ (i : Instr) (s : State), s.seq = none → s.noReset = true →
    ∃ t, exec i s = .next t ∧ t.cmd = encode i ∧
      (t.seq = none ∧ t.done = true ∨
        (∃ r, t.seq = some r ∧ r.cmd = i) ∧ t.seqAtPoll = true ∧ (i = .rawtB ∨ i = .tempB ∨ i = .presB))

/-- R37, R38, R44, R45, R48, R49: which commands write the stores, OSSCFG, ID, FAMILY, the frame and RESP, whatever the
bus answers and the host does meanwhile (but for a reset). -/
def Obligations.OnlyTheirCommandsWriteTheStores : Prop :=
  ∀ (i : Instr) (s t : State), s.seq = none → s.noReset = true → exec i s = .next t →
    ((∀ setting, i ≠ .calLoadA setting) → t.calA = s.calA ∧ t.ossCode = s.ossCode ∧ t.waitPMs = s.waitPMs ∧
      t.calValidA = s.calValidA ∧ t.calFaultA = s.calFaultA) ∧
    (i ≠ .calLoadB → t.calB = s.calB ∧ t.calValidB = s.calValidB ∧ t.calFaultB = s.calFaultB) ∧
    ((∀ setting, i ≠ .calLoadA setting) → i ≠ .calLoadB → t.id = s.id ∧ t.family = s.family) ∧
    (i ≠ .frameEncode → t.frame = s.frame) ∧
    ((∀ dev reg, i ≠ .framedRead dev reg) → i ≠ .comboTemp → i ≠ .comboHum → t.resp = s.resp) ∧
    t.params = s.params

/-- R86, R92: a step only adds to the bus trace, and takes one of the answers laid down beforehand from the front for each
transaction it adds (the answer list is the model's own field, log 3). That a platform reset keeps the trace and the
answers to come is the model's choice (log 16). -/
def Obligations.TraceOnlyGrows : Prop :=
  ∀ s t : State, step s = .next t →
    ∃ events, t.trace = s.trace ++ events ∧ t.answers = s.answers.drop (events.countP isXferEvent)
end

