-- ==== Sys2Proof/Laws/Arith.lean ====
section
/-! SUPPORT. How a computation of the compensation engines runs, one lemma for each s32 operation (R10 to R13), and
the appended forms of the assembled words. -/

namespace Sys2Proof.Machine

/-! ## Sequencing -/

theorem calc_bind_ok {α β : Type} {x : Calc α} {f : α → Calc β} {o o' : List Bool} {a : α} (h : x o = .ok a o') :
    (x >>= f) o = f a o' := by simp [bind, EStateM.bind, h]

theorem calc_bind_error {α β : Type} {x : Calc α} {f : α → Calc β} {o o' : List Bool} {e : ErrorKind}
    (h : x o = .error e o') : (x >>= f) o = .error e o' := by simp [bind, EStateM.bind, h]

theorem calc_bind_assoc {α β γ : Type} (x : Calc α) (f : α → Calc β) (g : β → Calc γ) :
    (x >>= f) >>= g = x >>= fun a => f a >>= g := by
  funext o; simp only [bind, EStateM.bind]; cases x o <;> rfl

@[simp] theorem calc_pure {α : Type} (a : α) (o : List Bool) : (pure a : Calc α) o = .ok a o := rfl

@[simp] theorem calc_throw {α : Type} (e : ErrorKind) (o : List Bool) : (throw e : Calc α) o = .error e o := rfl

/-! ## The operations -/

section
variable {β : Type} (a b : Word) (k : Nat) (o : List Bool) (g : Word → Calc β)

theorem narrow_bind (x : Int) : (narrow x >>= g) o = g (BitVec.ofInt 32 x) (o ++ [!inS32 x]) := rfl
theorem sAdd_bind : (sAdd a b >>= g) o =
    g (BitVec.ofInt 32 (a.toInt + b.toInt)) (o ++ [!inS32 (a.toInt + b.toInt)]) := rfl
theorem sSub_bind : (sSub a b >>= g) o =
    g (BitVec.ofInt 32 (a.toInt - b.toInt)) (o ++ [!inS32 (a.toInt - b.toInt)]) := rfl
theorem sMul_bind : (sMul a b >>= g) o =
    g (BitVec.ofInt 32 (a.toInt * b.toInt)) (o ++ [!inS32 (a.toInt * b.toInt)]) := rfl
theorem sShl_bind : (sShl a k >>= g) o =
    g (BitVec.ofInt 32 (a.toInt * 2 ^ k)) (o ++ [!inS32 (a.toInt * 2 ^ k)]) := rfl
theorem sTdiv_bind : (sTdiv a b >>= g) o =
    g (BitVec.ofInt 32 (a.toInt.tdiv b.toInt)) (o ++ [!inS32 (a.toInt.tdiv b.toInt)]) := rfl
theorem asS32_bind : (asS32 a >>= g) o = g a (o ++ [a.msb]) := rfl

end

/-! ## Which steps overflowed -/

@[simp] theorem overflowed_nil : overflowed [] = false := rfl
@[simp] theorem overflowed_cons (o : Bool) (steps : List Bool) : overflowed (o :: steps) = (o || overflowed steps) := rfl
@[simp] theorem overflowed_append (l m : List Bool) : overflowed (l ++ m) = (overflowed l || overflowed m) := by
  simp [overflowed]

/-- In range nothing is flagged and nothing is lost (R10). -/
theorem inS32_iff (x : Int) : inS32 x = true ↔ -2147483648 ≤ x ∧ x ≤ 2147483647 := by
  simp [inS32]

theorem toInt_ofInt_of_inS32 {x : Int} (h : inS32 x = true) : (BitVec.ofInt 32 x).toInt = x := by
  rw [inS32_iff] at h
  rw [BitVec.toInt_ofInt, Int.bmod_eq_of_le (by omega) (by omega)]

/-! ## A computation that can only divide by zero, or only answer -/

/-- The computation raises nothing but e. -/
def Calc.raisesOnly {α : Type} (e : ErrorKind) (c : Calc α) : Prop := ∀ o e' o', c o = .error e' o' → e' = e

theorem raisesOnly_bind {α β : Type} {e : ErrorKind} {x : Calc α} {f : α → Calc β} (hx : x.raisesOnly e)
    (hf : ∀ a, (f a).raisesOnly e) : (x >>= f : Calc β).raisesOnly e := by
  intro o e' o' h
  cases hc : x o with
  | ok a o1 => rw [calc_bind_ok hc] at h; exact hf a _ _ _ h
  | error e1 o1 => rw [calc_bind_error hc] at h; cases h; exact hx _ _ _ hc

theorem raisesOnly_pure {α : Type} (e : ErrorKind) (a : α) : (pure a : Calc α).raisesOnly e := by
  intro o e' o' h; cases h

theorem raisesOnly_throw {α : Type} (e : ErrorKind) : (throw e : Calc α).raisesOnly e := by
  intro o e' o' h; cases h; rfl

theorem raisesOnly_narrow (e : ErrorKind) (x : Int) : (narrow x).raisesOnly e := by
  intro o e' o' h; cases h

theorem raisesOnly_asS32 (e : ErrorKind) (u : Word) : (asS32 u).raisesOnly e := by
  intro o e' o' h; cases h

/-- A computation that answers does so whatever overflowed before it. -/
def Calc.answers {α : Type} (c : Calc α) : Prop := ∀ o, ∃ a o', c o = .ok a o'

theorem answers_bind {α β : Type} {x : Calc α} {f : α → Calc β} (hx : x.answers) (hf : ∀ a, (f a).answers) :
    (x >>= f : Calc β).answers := by
  intro o
  obtain ⟨a, o1, h⟩ := hx o
  rw [calc_bind_ok h]
  exact hf a o1

theorem answers_pure {α : Type} (a : α) : (pure a : Calc α).answers := fun o => ⟨a, o, rfl⟩
theorem answers_narrow (x : Int) : (narrow x).answers := fun _ => ⟨_, _, rfl⟩
theorem answers_asS32 (u : Word) : (asS32 u).answers := fun _ => ⟨_, _, rfl⟩

/-! ## The assembled words, as fields side by side (R9, R84) -/

theorem u16_eq_append (h : Half) : u16 h = 0#16 ++ h := by
  apply BitVec.eq_of_toNat_eq
  refine Eq.trans ?_ (BitVec.toNat_append (0#16) h).symm
  simp [u16]; omega

theorem byte_eq_append (b : Byte) : b.setWidth 32 = 0#24 ++ b := by
  apply BitVec.eq_of_toNat_eq
  refine Eq.trans ?_ (BitVec.toNat_append (0#24) b).symm
  simp; omega

theorem raw16_eq_append (m l : Byte) : raw16 m l = 0#16 ++ m ++ l := by
  apply BitVec.eq_of_getLsbD_eq
  intro i hi
  refine Eq.trans ?_ (BitVec.getLsbD_append (x := 0#16 ++ m) (y := l)).symm
  simp only [raw16, BitVec.getLsbD_setWidth, BitVec.getLsbD_append, BitVec.getLsbD_zero, hi, decide_true,
    Bool.true_and]
  grind

theorem raw24_eq_append (m l x : Byte) : raw24 m l x = 0#8 ++ m ++ l ++ x := by
  apply BitVec.eq_of_getLsbD_eq
  intro i hi
  refine Eq.trans ?_ (BitVec.getLsbD_append (x := 0#8 ++ m ++ l) (y := x)).symm
  simp only [raw24, BitVec.getLsbD_setWidth, BitVec.getLsbD_append, BitVec.getLsbD_zero, hi, decide_true,
    Bool.true_and]
  grind

end Sys2Proof.Machine
end

