-- ==== Sys2Proof/Laws/State.lean ====
section
/-! SUPPORT. One lemma per field per named update of the state, each true by rfl, so that no later proof unfolds a
record update. -/

namespace Sys2Proof.Machine

/-! ## dropWrite -/

@[simp] theorem dropWrite_params (s : State) : (dropWrite s).params = s.params := rfl
@[simp] theorem dropWrite_cmd (s : State) : (dropWrite s).cmd = s.cmd := rfl
@[simp] theorem dropWrite_done (s : State) : (dropWrite s).done = s.done := rfl
@[simp] theorem dropWrite_err (s : State) : (dropWrite s).err = s.err := rfl
@[simp] theorem dropWrite_calValidA (s : State) : (dropWrite s).calValidA = s.calValidA := rfl
@[simp] theorem dropWrite_calValidB (s : State) : (dropWrite s).calValidB = s.calValidB := rfl
@[simp] theorem dropWrite_calFaultA (s : State) : (dropWrite s).calFaultA = s.calFaultA := rfl
@[simp] theorem dropWrite_calFaultB (s : State) : (dropWrite s).calFaultB = s.calFaultB := rfl
@[simp] theorem dropWrite_family (s : State) : (dropWrite s).family = s.family := rfl
@[simp] theorem dropWrite_b5Valid (s : State) : (dropWrite s).b5Valid = s.b5Valid := rfl
@[simp] theorem dropWrite_tfineValid (s : State) : (dropWrite s).tfineValid = s.tfineValid := rfl
@[simp] theorem dropWrite_ovf (s : State) : (dropWrite s).ovf = s.ovf := rfl
@[simp] theorem dropWrite_overrun (s : State) : (dropWrite s).overrun = true := rfl
@[simp] theorem dropWrite_buserrSeen (s : State) : (dropWrite s).buserrSeen = s.buserrSeen := rfl
@[simp] theorem dropWrite_result (s : State) : (dropWrite s).result = s.result := rfl
@[simp] theorem dropWrite_buscode (s : State) : (dropWrite s).buscode = s.buscode := rfl
@[simp] theorem dropWrite_ossCode (s : State) : (dropWrite s).ossCode = s.ossCode := rfl
@[simp] theorem dropWrite_waitPMs (s : State) : (dropWrite s).waitPMs = s.waitPMs := rfl
@[simp] theorem dropWrite_id (s : State) : (dropWrite s).id = s.id := rfl
@[simp] theorem dropWrite_valT1 (s : State) : (dropWrite s).valT1 = s.valT1 := rfl
@[simp] theorem dropWrite_valP (s : State) : (dropWrite s).valP = s.valP := rfl
@[simp] theorem dropWrite_valT2 (s : State) : (dropWrite s).valT2 = s.valT2 := rfl
@[simp] theorem dropWrite_valH (s : State) : (dropWrite s).valH = s.valH := rfl
@[simp] theorem dropWrite_rawT (s : State) : (dropWrite s).rawT = s.rawT := rfl
@[simp] theorem dropWrite_rawP (s : State) : (dropWrite s).rawP = s.rawP := rfl
@[simp] theorem dropWrite_b5 (s : State) : (dropWrite s).b5 = s.b5 := rfl
@[simp] theorem dropWrite_tfine (s : State) : (dropWrite s).tfine = s.tfine := rfl
@[simp] theorem dropWrite_calA (s : State) : (dropWrite s).calA = s.calA := rfl
@[simp] theorem dropWrite_calB (s : State) : (dropWrite s).calB = s.calB := rfl
@[simp] theorem dropWrite_frame (s : State) : (dropWrite s).frame = s.frame := rfl
@[simp] theorem dropWrite_resp (s : State) : (dropWrite s).resp = s.resp := rfl
@[simp] theorem dropWrite_seq (s : State) : (dropWrite s).seq = s.seq := rfl
@[simp] theorem dropWrite_inputs (s : State) : (dropWrite s).inputs = s.inputs := rfl
@[simp] theorem dropWrite_answers (s : State) : (dropWrite s).answers = s.answers := rfl
@[simp] theorem dropWrite_trace (s : State) : (dropWrite s).trace = s.trace := rfl
@[simp] theorem dropWrite_frLog (s : State) : (dropWrite s).frLog = s.frLog := rfl
@[simp] theorem dropWrite_hostLog (s : State) : (dropWrite s).hostLog = s.hostLog := rfl

/-! ## hostRead -/

@[simp] theorem hostRead_params (off : Word) (s : State) : (hostRead off s).params = s.params := rfl
@[simp] theorem hostRead_cmd (off : Word) (s : State) : (hostRead off s).cmd = s.cmd := rfl
@[simp] theorem hostRead_done (off : Word) (s : State) : (hostRead off s).done = s.done := rfl
@[simp] theorem hostRead_err (off : Word) (s : State) : (hostRead off s).err = s.err := rfl
@[simp] theorem hostRead_calValidA (off : Word) (s : State) : (hostRead off s).calValidA = s.calValidA := rfl
@[simp] theorem hostRead_calValidB (off : Word) (s : State) : (hostRead off s).calValidB = s.calValidB := rfl
@[simp] theorem hostRead_calFaultA (off : Word) (s : State) : (hostRead off s).calFaultA = s.calFaultA := rfl
@[simp] theorem hostRead_calFaultB (off : Word) (s : State) : (hostRead off s).calFaultB = s.calFaultB := rfl
@[simp] theorem hostRead_family (off : Word) (s : State) : (hostRead off s).family = s.family := rfl
@[simp] theorem hostRead_b5Valid (off : Word) (s : State) : (hostRead off s).b5Valid = s.b5Valid := rfl
@[simp] theorem hostRead_tfineValid (off : Word) (s : State) : (hostRead off s).tfineValid = s.tfineValid := rfl
@[simp] theorem hostRead_ovf (off : Word) (s : State) : (hostRead off s).ovf = s.ovf := rfl
@[simp] theorem hostRead_overrun (off : Word) (s : State) : (hostRead off s).overrun = s.overrun := rfl
@[simp] theorem hostRead_buserrSeen (off : Word) (s : State) : (hostRead off s).buserrSeen = s.buserrSeen := rfl
@[simp] theorem hostRead_result (off : Word) (s : State) : (hostRead off s).result = s.result := rfl
@[simp] theorem hostRead_buscode (off : Word) (s : State) : (hostRead off s).buscode = s.buscode := rfl
@[simp] theorem hostRead_ossCode (off : Word) (s : State) : (hostRead off s).ossCode = s.ossCode := rfl
@[simp] theorem hostRead_waitPMs (off : Word) (s : State) : (hostRead off s).waitPMs = s.waitPMs := rfl
@[simp] theorem hostRead_id (off : Word) (s : State) : (hostRead off s).id = s.id := rfl
@[simp] theorem hostRead_valT1 (off : Word) (s : State) : (hostRead off s).valT1 = s.valT1 := rfl
@[simp] theorem hostRead_valP (off : Word) (s : State) : (hostRead off s).valP = s.valP := rfl
@[simp] theorem hostRead_valT2 (off : Word) (s : State) : (hostRead off s).valT2 = s.valT2 := rfl
@[simp] theorem hostRead_valH (off : Word) (s : State) : (hostRead off s).valH = s.valH := rfl
@[simp] theorem hostRead_rawT (off : Word) (s : State) : (hostRead off s).rawT = s.rawT := rfl
@[simp] theorem hostRead_rawP (off : Word) (s : State) : (hostRead off s).rawP = s.rawP := rfl
@[simp] theorem hostRead_b5 (off : Word) (s : State) : (hostRead off s).b5 = s.b5 := rfl
@[simp] theorem hostRead_tfine (off : Word) (s : State) : (hostRead off s).tfine = s.tfine := rfl
@[simp] theorem hostRead_calA (off : Word) (s : State) : (hostRead off s).calA = s.calA := rfl
@[simp] theorem hostRead_calB (off : Word) (s : State) : (hostRead off s).calB = s.calB := rfl
@[simp] theorem hostRead_frame (off : Word) (s : State) : (hostRead off s).frame = s.frame := rfl
@[simp] theorem hostRead_resp (off : Word) (s : State) : (hostRead off s).resp = s.resp := rfl
@[simp] theorem hostRead_seq (off : Word) (s : State) : (hostRead off s).seq = s.seq := rfl
@[simp] theorem hostRead_inputs (off : Word) (s : State) : (hostRead off s).inputs = s.inputs := rfl
@[simp] theorem hostRead_answers (off : Word) (s : State) : (hostRead off s).answers = s.answers := rfl
@[simp] theorem hostRead_trace (off : Word) (s : State) : (hostRead off s).trace = s.trace := rfl
@[simp] theorem hostRead_frLog (off : Word) (s : State) : (hostRead off s).frLog = s.frLog := rfl
@[simp] theorem hostRead_hostLog (off : Word) (s : State) : (hostRead off s).hostLog = s.hostLog ++ [(off, hostReadValue s off)] := rfl

/-! ## clearW1C -/

@[simp] theorem clearW1C_params (v : Word) (s : State) : (clearW1C v s).params = s.params := rfl
@[simp] theorem clearW1C_cmd (v : Word) (s : State) : (clearW1C v s).cmd = s.cmd := rfl
@[simp] theorem clearW1C_done (v : Word) (s : State) : (clearW1C v s).done = (s.done && !v.getLsbD 1) := rfl
@[simp] theorem clearW1C_err (v : Word) (s : State) : (clearW1C v s).err = s.err := rfl
@[simp] theorem clearW1C_calValidA (v : Word) (s : State) : (clearW1C v s).calValidA = s.calValidA := rfl
@[simp] theorem clearW1C_calValidB (v : Word) (s : State) : (clearW1C v s).calValidB = s.calValidB := rfl
@[simp] theorem clearW1C_calFaultA (v : Word) (s : State) : (clearW1C v s).calFaultA = s.calFaultA := rfl
@[simp] theorem clearW1C_calFaultB (v : Word) (s : State) : (clearW1C v s).calFaultB = s.calFaultB := rfl
@[simp] theorem clearW1C_family (v : Word) (s : State) : (clearW1C v s).family = s.family := rfl
@[simp] theorem clearW1C_b5Valid (v : Word) (s : State) : (clearW1C v s).b5Valid = s.b5Valid := rfl
@[simp] theorem clearW1C_tfineValid (v : Word) (s : State) : (clearW1C v s).tfineValid = s.tfineValid := rfl
@[simp] theorem clearW1C_ovf (v : Word) (s : State) : (clearW1C v s).ovf = (s.ovf && !v.getLsbD 16) := rfl
@[simp] theorem clearW1C_overrun (v : Word) (s : State) : (clearW1C v s).overrun = (s.overrun && !v.getLsbD 17) := rfl
@[simp] theorem clearW1C_buserrSeen (v : Word) (s : State) : (clearW1C v s).buserrSeen = (s.buserrSeen && !v.getLsbD 18) := rfl
@[simp] theorem clearW1C_result (v : Word) (s : State) : (clearW1C v s).result = s.result := rfl
@[simp] theorem clearW1C_buscode (v : Word) (s : State) : (clearW1C v s).buscode = s.buscode := rfl
@[simp] theorem clearW1C_ossCode (v : Word) (s : State) : (clearW1C v s).ossCode = s.ossCode := rfl
@[simp] theorem clearW1C_waitPMs (v : Word) (s : State) : (clearW1C v s).waitPMs = s.waitPMs := rfl
@[simp] theorem clearW1C_id (v : Word) (s : State) : (clearW1C v s).id = s.id := rfl
@[simp] theorem clearW1C_valT1 (v : Word) (s : State) : (clearW1C v s).valT1 = s.valT1 := rfl
@[simp] theorem clearW1C_valP (v : Word) (s : State) : (clearW1C v s).valP = s.valP := rfl
@[simp] theorem clearW1C_valT2 (v : Word) (s : State) : (clearW1C v s).valT2 = s.valT2 := rfl
@[simp] theorem clearW1C_valH (v : Word) (s : State) : (clearW1C v s).valH = s.valH := rfl
@[simp] theorem clearW1C_rawT (v : Word) (s : State) : (clearW1C v s).rawT = s.rawT := rfl
@[simp] theorem clearW1C_rawP (v : Word) (s : State) : (clearW1C v s).rawP = s.rawP := rfl
@[simp] theorem clearW1C_b5 (v : Word) (s : State) : (clearW1C v s).b5 = s.b5 := rfl
@[simp] theorem clearW1C_tfine (v : Word) (s : State) : (clearW1C v s).tfine = s.tfine := rfl
@[simp] theorem clearW1C_calA (v : Word) (s : State) : (clearW1C v s).calA = s.calA := rfl
@[simp] theorem clearW1C_calB (v : Word) (s : State) : (clearW1C v s).calB = s.calB := rfl
@[simp] theorem clearW1C_frame (v : Word) (s : State) : (clearW1C v s).frame = s.frame := rfl
@[simp] theorem clearW1C_resp (v : Word) (s : State) : (clearW1C v s).resp = s.resp := rfl
@[simp] theorem clearW1C_seq (v : Word) (s : State) : (clearW1C v s).seq = s.seq := rfl
@[simp] theorem clearW1C_inputs (v : Word) (s : State) : (clearW1C v s).inputs = s.inputs := rfl
@[simp] theorem clearW1C_answers (v : Word) (s : State) : (clearW1C v s).answers = s.answers := rfl
@[simp] theorem clearW1C_trace (v : Word) (s : State) : (clearW1C v s).trace = s.trace := rfl
@[simp] theorem clearW1C_frLog (v : Word) (s : State) : (clearW1C v s).frLog = s.frLog := rfl
@[simp] theorem clearW1C_hostLog (v : Word) (s : State) : (clearW1C v s).hostLog = s.hostLog := rfl

/-! ## afterXfer -/

@[simp] theorem afterXfer_params (dev : Dev) (w : List Byte) (n : Nat) (s : State) : (afterXfer dev w n s).params = s.params := rfl
@[simp] theorem afterXfer_cmd (dev : Dev) (w : List Byte) (n : Nat) (s : State) : (afterXfer dev w n s).cmd = s.cmd := rfl
@[simp] theorem afterXfer_done (dev : Dev) (w : List Byte) (n : Nat) (s : State) : (afterXfer dev w n s).done = s.done := rfl
@[simp] theorem afterXfer_err (dev : Dev) (w : List Byte) (n : Nat) (s : State) : (afterXfer dev w n s).err = s.err := rfl
@[simp] theorem afterXfer_calValidA (dev : Dev) (w : List Byte) (n : Nat) (s : State) : (afterXfer dev w n s).calValidA = s.calValidA := rfl
@[simp] theorem afterXfer_calValidB (dev : Dev) (w : List Byte) (n : Nat) (s : State) : (afterXfer dev w n s).calValidB = s.calValidB := rfl
@[simp] theorem afterXfer_calFaultA (dev : Dev) (w : List Byte) (n : Nat) (s : State) : (afterXfer dev w n s).calFaultA = s.calFaultA := rfl
@[simp] theorem afterXfer_calFaultB (dev : Dev) (w : List Byte) (n : Nat) (s : State) : (afterXfer dev w n s).calFaultB = s.calFaultB := rfl
@[simp] theorem afterXfer_family (dev : Dev) (w : List Byte) (n : Nat) (s : State) : (afterXfer dev w n s).family = s.family := rfl
@[simp] theorem afterXfer_b5Valid (dev : Dev) (w : List Byte) (n : Nat) (s : State) : (afterXfer dev w n s).b5Valid = s.b5Valid := rfl
@[simp] theorem afterXfer_tfineValid (dev : Dev) (w : List Byte) (n : Nat) (s : State) : (afterXfer dev w n s).tfineValid = s.tfineValid := rfl
@[simp] theorem afterXfer_ovf (dev : Dev) (w : List Byte) (n : Nat) (s : State) : (afterXfer dev w n s).ovf = s.ovf := rfl
@[simp] theorem afterXfer_overrun (dev : Dev) (w : List Byte) (n : Nat) (s : State) : (afterXfer dev w n s).overrun = s.overrun := rfl
@[simp] theorem afterXfer_buserrSeen (dev : Dev) (w : List Byte) (n : Nat) (s : State) : (afterXfer dev w n s).buserrSeen = (s.buserrSeen || isNack (busAnswer dev w n s)) := rfl
@[simp] theorem afterXfer_result (dev : Dev) (w : List Byte) (n : Nat) (s : State) : (afterXfer dev w n s).result = s.result := rfl
@[simp] theorem afterXfer_buscode (dev : Dev) (w : List Byte) (n : Nat) (s : State) : (afterXfer dev w n s).buscode = s.buscode := rfl
@[simp] theorem afterXfer_ossCode (dev : Dev) (w : List Byte) (n : Nat) (s : State) : (afterXfer dev w n s).ossCode = s.ossCode := rfl
@[simp] theorem afterXfer_waitPMs (dev : Dev) (w : List Byte) (n : Nat) (s : State) : (afterXfer dev w n s).waitPMs = s.waitPMs := rfl
@[simp] theorem afterXfer_id (dev : Dev) (w : List Byte) (n : Nat) (s : State) : (afterXfer dev w n s).id = s.id := rfl
@[simp] theorem afterXfer_valT1 (dev : Dev) (w : List Byte) (n : Nat) (s : State) : (afterXfer dev w n s).valT1 = s.valT1 := rfl
@[simp] theorem afterXfer_valP (dev : Dev) (w : List Byte) (n : Nat) (s : State) : (afterXfer dev w n s).valP = s.valP := rfl
@[simp] theorem afterXfer_valT2 (dev : Dev) (w : List Byte) (n : Nat) (s : State) : (afterXfer dev w n s).valT2 = s.valT2 := rfl
@[simp] theorem afterXfer_valH (dev : Dev) (w : List Byte) (n : Nat) (s : State) : (afterXfer dev w n s).valH = s.valH := rfl
@[simp] theorem afterXfer_rawT (dev : Dev) (w : List Byte) (n : Nat) (s : State) : (afterXfer dev w n s).rawT = s.rawT := rfl
@[simp] theorem afterXfer_rawP (dev : Dev) (w : List Byte) (n : Nat) (s : State) : (afterXfer dev w n s).rawP = s.rawP := rfl
@[simp] theorem afterXfer_b5 (dev : Dev) (w : List Byte) (n : Nat) (s : State) : (afterXfer dev w n s).b5 = s.b5 := rfl
@[simp] theorem afterXfer_tfine (dev : Dev) (w : List Byte) (n : Nat) (s : State) : (afterXfer dev w n s).tfine = s.tfine := rfl
@[simp] theorem afterXfer_calA (dev : Dev) (w : List Byte) (n : Nat) (s : State) : (afterXfer dev w n s).calA = s.calA := rfl
@[simp] theorem afterXfer_calB (dev : Dev) (w : List Byte) (n : Nat) (s : State) : (afterXfer dev w n s).calB = s.calB := rfl
@[simp] theorem afterXfer_frame (dev : Dev) (w : List Byte) (n : Nat) (s : State) : (afterXfer dev w n s).frame = s.frame := rfl
@[simp] theorem afterXfer_resp (dev : Dev) (w : List Byte) (n : Nat) (s : State) : (afterXfer dev w n s).resp = s.resp := rfl
@[simp] theorem afterXfer_seq (dev : Dev) (w : List Byte) (n : Nat) (s : State) : (afterXfer dev w n s).seq = s.seq := rfl
@[simp] theorem afterXfer_inputs (dev : Dev) (w : List Byte) (n : Nat) (s : State) : (afterXfer dev w n s).inputs = s.inputs := rfl
@[simp] theorem afterXfer_answers (dev : Dev) (w : List Byte) (n : Nat) (s : State) : (afterXfer dev w n s).answers = s.answers.tail := rfl
@[simp] theorem afterXfer_trace (dev : Dev) (w : List Byte) (n : Nat) (s : State) : (afterXfer dev w n s).trace = s.trace ++ [.xfer dev w n (busAnswer dev w n s)] := rfl
@[simp] theorem afterXfer_frLog (dev : Dev) (w : List Byte) (n : Nat) (s : State) : (afterXfer dev w n s).frLog = s.frLog := rfl
@[simp] theorem afterXfer_hostLog (dev : Dev) (w : List Byte) (n : Nat) (s : State) : (afterXfer dev w n s).hostLog = s.hostLog := rfl

/-! ## afterDelay -/

@[simp] theorem afterDelay_params (ms : Nat) (s : State) : (afterDelay ms s).params = s.params := rfl
@[simp] theorem afterDelay_cmd (ms : Nat) (s : State) : (afterDelay ms s).cmd = s.cmd := rfl
@[simp] theorem afterDelay_done (ms : Nat) (s : State) : (afterDelay ms s).done = s.done := rfl
@[simp] theorem afterDelay_err (ms : Nat) (s : State) : (afterDelay ms s).err = s.err := rfl
@[simp] theorem afterDelay_calValidA (ms : Nat) (s : State) : (afterDelay ms s).calValidA = s.calValidA := rfl
@[simp] theorem afterDelay_calValidB (ms : Nat) (s : State) : (afterDelay ms s).calValidB = s.calValidB := rfl
@[simp] theorem afterDelay_calFaultA (ms : Nat) (s : State) : (afterDelay ms s).calFaultA = s.calFaultA := rfl
@[simp] theorem afterDelay_calFaultB (ms : Nat) (s : State) : (afterDelay ms s).calFaultB = s.calFaultB := rfl
@[simp] theorem afterDelay_family (ms : Nat) (s : State) : (afterDelay ms s).family = s.family := rfl
@[simp] theorem afterDelay_b5Valid (ms : Nat) (s : State) : (afterDelay ms s).b5Valid = s.b5Valid := rfl
@[simp] theorem afterDelay_tfineValid (ms : Nat) (s : State) : (afterDelay ms s).tfineValid = s.tfineValid := rfl
@[simp] theorem afterDelay_ovf (ms : Nat) (s : State) : (afterDelay ms s).ovf = s.ovf := rfl
@[simp] theorem afterDelay_overrun (ms : Nat) (s : State) : (afterDelay ms s).overrun = s.overrun := rfl
@[simp] theorem afterDelay_buserrSeen (ms : Nat) (s : State) : (afterDelay ms s).buserrSeen = s.buserrSeen := rfl
@[simp] theorem afterDelay_result (ms : Nat) (s : State) : (afterDelay ms s).result = s.result := rfl
@[simp] theorem afterDelay_buscode (ms : Nat) (s : State) : (afterDelay ms s).buscode = s.buscode := rfl
@[simp] theorem afterDelay_ossCode (ms : Nat) (s : State) : (afterDelay ms s).ossCode = s.ossCode := rfl
@[simp] theorem afterDelay_waitPMs (ms : Nat) (s : State) : (afterDelay ms s).waitPMs = s.waitPMs := rfl
@[simp] theorem afterDelay_id (ms : Nat) (s : State) : (afterDelay ms s).id = s.id := rfl
@[simp] theorem afterDelay_valT1 (ms : Nat) (s : State) : (afterDelay ms s).valT1 = s.valT1 := rfl
@[simp] theorem afterDelay_valP (ms : Nat) (s : State) : (afterDelay ms s).valP = s.valP := rfl
@[simp] theorem afterDelay_valT2 (ms : Nat) (s : State) : (afterDelay ms s).valT2 = s.valT2 := rfl
@[simp] theorem afterDelay_valH (ms : Nat) (s : State) : (afterDelay ms s).valH = s.valH := rfl
@[simp] theorem afterDelay_rawT (ms : Nat) (s : State) : (afterDelay ms s).rawT = s.rawT := rfl
@[simp] theorem afterDelay_rawP (ms : Nat) (s : State) : (afterDelay ms s).rawP = s.rawP := rfl
@[simp] theorem afterDelay_b5 (ms : Nat) (s : State) : (afterDelay ms s).b5 = s.b5 := rfl
@[simp] theorem afterDelay_tfine (ms : Nat) (s : State) : (afterDelay ms s).tfine = s.tfine := rfl
@[simp] theorem afterDelay_calA (ms : Nat) (s : State) : (afterDelay ms s).calA = s.calA := rfl
@[simp] theorem afterDelay_calB (ms : Nat) (s : State) : (afterDelay ms s).calB = s.calB := rfl
@[simp] theorem afterDelay_frame (ms : Nat) (s : State) : (afterDelay ms s).frame = s.frame := rfl
@[simp] theorem afterDelay_resp (ms : Nat) (s : State) : (afterDelay ms s).resp = s.resp := rfl
@[simp] theorem afterDelay_seq (ms : Nat) (s : State) : (afterDelay ms s).seq = s.seq := rfl
@[simp] theorem afterDelay_inputs (ms : Nat) (s : State) : (afterDelay ms s).inputs = s.inputs := rfl
@[simp] theorem afterDelay_answers (ms : Nat) (s : State) : (afterDelay ms s).answers = s.answers := rfl
@[simp] theorem afterDelay_trace (ms : Nat) (s : State) : (afterDelay ms s).trace = s.trace ++ [.delay ms] := rfl
@[simp] theorem afterDelay_frLog (ms : Nat) (s : State) : (afterDelay ms s).frLog = s.frLog := rfl
@[simp] theorem afterDelay_hostLog (ms : Nat) (s : State) : (afterDelay ms s).hostLog = s.hostLog := rfl

/-! ## onSeq -/

@[simp] theorem onSeq_params (f : Running → Running) (s : State) : (onSeq f s).params = s.params := rfl
@[simp] theorem onSeq_cmd (f : Running → Running) (s : State) : (onSeq f s).cmd = s.cmd := rfl
@[simp] theorem onSeq_done (f : Running → Running) (s : State) : (onSeq f s).done = s.done := rfl
@[simp] theorem onSeq_err (f : Running → Running) (s : State) : (onSeq f s).err = s.err := rfl
@[simp] theorem onSeq_calValidA (f : Running → Running) (s : State) : (onSeq f s).calValidA = s.calValidA := rfl
@[simp] theorem onSeq_calValidB (f : Running → Running) (s : State) : (onSeq f s).calValidB = s.calValidB := rfl
@[simp] theorem onSeq_calFaultA (f : Running → Running) (s : State) : (onSeq f s).calFaultA = s.calFaultA := rfl
@[simp] theorem onSeq_calFaultB (f : Running → Running) (s : State) : (onSeq f s).calFaultB = s.calFaultB := rfl
@[simp] theorem onSeq_family (f : Running → Running) (s : State) : (onSeq f s).family = s.family := rfl
@[simp] theorem onSeq_b5Valid (f : Running → Running) (s : State) : (onSeq f s).b5Valid = s.b5Valid := rfl
@[simp] theorem onSeq_tfineValid (f : Running → Running) (s : State) : (onSeq f s).tfineValid = s.tfineValid := rfl
@[simp] theorem onSeq_ovf (f : Running → Running) (s : State) : (onSeq f s).ovf = s.ovf := rfl
@[simp] theorem onSeq_overrun (f : Running → Running) (s : State) : (onSeq f s).overrun = s.overrun := rfl
@[simp] theorem onSeq_buserrSeen (f : Running → Running) (s : State) : (onSeq f s).buserrSeen = s.buserrSeen := rfl
@[simp] theorem onSeq_result (f : Running → Running) (s : State) : (onSeq f s).result = s.result := rfl
@[simp] theorem onSeq_buscode (f : Running → Running) (s : State) : (onSeq f s).buscode = s.buscode := rfl
@[simp] theorem onSeq_ossCode (f : Running → Running) (s : State) : (onSeq f s).ossCode = s.ossCode := rfl
@[simp] theorem onSeq_waitPMs (f : Running → Running) (s : State) : (onSeq f s).waitPMs = s.waitPMs := rfl
@[simp] theorem onSeq_id (f : Running → Running) (s : State) : (onSeq f s).id = s.id := rfl
@[simp] theorem onSeq_valT1 (f : Running → Running) (s : State) : (onSeq f s).valT1 = s.valT1 := rfl
@[simp] theorem onSeq_valP (f : Running → Running) (s : State) : (onSeq f s).valP = s.valP := rfl
@[simp] theorem onSeq_valT2 (f : Running → Running) (s : State) : (onSeq f s).valT2 = s.valT2 := rfl
@[simp] theorem onSeq_valH (f : Running → Running) (s : State) : (onSeq f s).valH = s.valH := rfl
@[simp] theorem onSeq_rawT (f : Running → Running) (s : State) : (onSeq f s).rawT = s.rawT := rfl
@[simp] theorem onSeq_rawP (f : Running → Running) (s : State) : (onSeq f s).rawP = s.rawP := rfl
@[simp] theorem onSeq_b5 (f : Running → Running) (s : State) : (onSeq f s).b5 = s.b5 := rfl
@[simp] theorem onSeq_tfine (f : Running → Running) (s : State) : (onSeq f s).tfine = s.tfine := rfl
@[simp] theorem onSeq_calA (f : Running → Running) (s : State) : (onSeq f s).calA = s.calA := rfl
@[simp] theorem onSeq_calB (f : Running → Running) (s : State) : (onSeq f s).calB = s.calB := rfl
@[simp] theorem onSeq_frame (f : Running → Running) (s : State) : (onSeq f s).frame = s.frame := rfl
@[simp] theorem onSeq_resp (f : Running → Running) (s : State) : (onSeq f s).resp = s.resp := rfl
@[simp] theorem onSeq_seq (f : Running → Running) (s : State) : (onSeq f s).seq = s.seq.map f := rfl
@[simp] theorem onSeq_inputs (f : Running → Running) (s : State) : (onSeq f s).inputs = s.inputs := rfl
@[simp] theorem onSeq_answers (f : Running → Running) (s : State) : (onSeq f s).answers = s.answers := rfl
@[simp] theorem onSeq_trace (f : Running → Running) (s : State) : (onSeq f s).trace = s.trace := rfl
@[simp] theorem onSeq_frLog (f : Running → Running) (s : State) : (onSeq f s).frLog = s.frLog := rfl
@[simp] theorem onSeq_hostLog (f : Running → Running) (s : State) : (onSeq f s).hostLog = s.hostLog := rfl

/-! ## noteOvf -/

@[simp] theorem noteOvf_params (o : Bool) (s : State) : (noteOvf o s).params = s.params := rfl
@[simp] theorem noteOvf_cmd (o : Bool) (s : State) : (noteOvf o s).cmd = s.cmd := rfl
@[simp] theorem noteOvf_done (o : Bool) (s : State) : (noteOvf o s).done = s.done := rfl
@[simp] theorem noteOvf_err (o : Bool) (s : State) : (noteOvf o s).err = s.err := rfl
@[simp] theorem noteOvf_calValidA (o : Bool) (s : State) : (noteOvf o s).calValidA = s.calValidA := rfl
@[simp] theorem noteOvf_calValidB (o : Bool) (s : State) : (noteOvf o s).calValidB = s.calValidB := rfl
@[simp] theorem noteOvf_calFaultA (o : Bool) (s : State) : (noteOvf o s).calFaultA = s.calFaultA := rfl
@[simp] theorem noteOvf_calFaultB (o : Bool) (s : State) : (noteOvf o s).calFaultB = s.calFaultB := rfl
@[simp] theorem noteOvf_family (o : Bool) (s : State) : (noteOvf o s).family = s.family := rfl
@[simp] theorem noteOvf_b5Valid (o : Bool) (s : State) : (noteOvf o s).b5Valid = s.b5Valid := rfl
@[simp] theorem noteOvf_tfineValid (o : Bool) (s : State) : (noteOvf o s).tfineValid = s.tfineValid := rfl
@[simp] theorem noteOvf_ovf (o : Bool) (s : State) : (noteOvf o s).ovf = (s.ovf || o) := rfl
@[simp] theorem noteOvf_overrun (o : Bool) (s : State) : (noteOvf o s).overrun = s.overrun := rfl
@[simp] theorem noteOvf_buserrSeen (o : Bool) (s : State) : (noteOvf o s).buserrSeen = s.buserrSeen := rfl
@[simp] theorem noteOvf_result (o : Bool) (s : State) : (noteOvf o s).result = s.result := rfl
@[simp] theorem noteOvf_buscode (o : Bool) (s : State) : (noteOvf o s).buscode = s.buscode := rfl
@[simp] theorem noteOvf_ossCode (o : Bool) (s : State) : (noteOvf o s).ossCode = s.ossCode := rfl
@[simp] theorem noteOvf_waitPMs (o : Bool) (s : State) : (noteOvf o s).waitPMs = s.waitPMs := rfl
@[simp] theorem noteOvf_id (o : Bool) (s : State) : (noteOvf o s).id = s.id := rfl
@[simp] theorem noteOvf_valT1 (o : Bool) (s : State) : (noteOvf o s).valT1 = s.valT1 := rfl
@[simp] theorem noteOvf_valP (o : Bool) (s : State) : (noteOvf o s).valP = s.valP := rfl
@[simp] theorem noteOvf_valT2 (o : Bool) (s : State) : (noteOvf o s).valT2 = s.valT2 := rfl
@[simp] theorem noteOvf_valH (o : Bool) (s : State) : (noteOvf o s).valH = s.valH := rfl
@[simp] theorem noteOvf_rawT (o : Bool) (s : State) : (noteOvf o s).rawT = s.rawT := rfl
@[simp] theorem noteOvf_rawP (o : Bool) (s : State) : (noteOvf o s).rawP = s.rawP := rfl
@[simp] theorem noteOvf_b5 (o : Bool) (s : State) : (noteOvf o s).b5 = s.b5 := rfl
@[simp] theorem noteOvf_tfine (o : Bool) (s : State) : (noteOvf o s).tfine = s.tfine := rfl
@[simp] theorem noteOvf_calA (o : Bool) (s : State) : (noteOvf o s).calA = s.calA := rfl
@[simp] theorem noteOvf_calB (o : Bool) (s : State) : (noteOvf o s).calB = s.calB := rfl
@[simp] theorem noteOvf_frame (o : Bool) (s : State) : (noteOvf o s).frame = s.frame := rfl
@[simp] theorem noteOvf_resp (o : Bool) (s : State) : (noteOvf o s).resp = s.resp := rfl
@[simp] theorem noteOvf_seq (o : Bool) (s : State) : (noteOvf o s).seq = s.seq := rfl
@[simp] theorem noteOvf_inputs (o : Bool) (s : State) : (noteOvf o s).inputs = s.inputs := rfl
@[simp] theorem noteOvf_answers (o : Bool) (s : State) : (noteOvf o s).answers = s.answers := rfl
@[simp] theorem noteOvf_trace (o : Bool) (s : State) : (noteOvf o s).trace = s.trace := rfl
@[simp] theorem noteOvf_frLog (o : Bool) (s : State) : (noteOvf o s).frLog = s.frLog := rfl
@[simp] theorem noteOvf_hostLog (o : Bool) (s : State) : (noteOvf o s).hostLog = s.hostLog := rfl

/-! ## passFr -/

@[simp] theorem passFr_params (f : FrState) (s : State) : (passFr f s).params = s.params := rfl
@[simp] theorem passFr_cmd (f : FrState) (s : State) : (passFr f s).cmd = s.cmd := rfl
@[simp] theorem passFr_done (f : FrState) (s : State) : (passFr f s).done = s.done := rfl
@[simp] theorem passFr_err (f : FrState) (s : State) : (passFr f s).err = s.err := rfl
@[simp] theorem passFr_calValidA (f : FrState) (s : State) : (passFr f s).calValidA = s.calValidA := rfl
@[simp] theorem passFr_calValidB (f : FrState) (s : State) : (passFr f s).calValidB = s.calValidB := rfl
@[simp] theorem passFr_calFaultA (f : FrState) (s : State) : (passFr f s).calFaultA = s.calFaultA := rfl
@[simp] theorem passFr_calFaultB (f : FrState) (s : State) : (passFr f s).calFaultB = s.calFaultB := rfl
@[simp] theorem passFr_family (f : FrState) (s : State) : (passFr f s).family = s.family := rfl
@[simp] theorem passFr_b5Valid (f : FrState) (s : State) : (passFr f s).b5Valid = s.b5Valid := rfl
@[simp] theorem passFr_tfineValid (f : FrState) (s : State) : (passFr f s).tfineValid = s.tfineValid := rfl
@[simp] theorem passFr_ovf (f : FrState) (s : State) : (passFr f s).ovf = s.ovf := rfl
@[simp] theorem passFr_overrun (f : FrState) (s : State) : (passFr f s).overrun = s.overrun := rfl
@[simp] theorem passFr_buserrSeen (f : FrState) (s : State) : (passFr f s).buserrSeen = s.buserrSeen := rfl
@[simp] theorem passFr_result (f : FrState) (s : State) : (passFr f s).result = s.result := rfl
@[simp] theorem passFr_buscode (f : FrState) (s : State) : (passFr f s).buscode = s.buscode := rfl
@[simp] theorem passFr_ossCode (f : FrState) (s : State) : (passFr f s).ossCode = s.ossCode := rfl
@[simp] theorem passFr_waitPMs (f : FrState) (s : State) : (passFr f s).waitPMs = s.waitPMs := rfl
@[simp] theorem passFr_id (f : FrState) (s : State) : (passFr f s).id = s.id := rfl
@[simp] theorem passFr_valT1 (f : FrState) (s : State) : (passFr f s).valT1 = s.valT1 := rfl
@[simp] theorem passFr_valP (f : FrState) (s : State) : (passFr f s).valP = s.valP := rfl
@[simp] theorem passFr_valT2 (f : FrState) (s : State) : (passFr f s).valT2 = s.valT2 := rfl
@[simp] theorem passFr_valH (f : FrState) (s : State) : (passFr f s).valH = s.valH := rfl
@[simp] theorem passFr_rawT (f : FrState) (s : State) : (passFr f s).rawT = s.rawT := rfl
@[simp] theorem passFr_rawP (f : FrState) (s : State) : (passFr f s).rawP = s.rawP := rfl
@[simp] theorem passFr_b5 (f : FrState) (s : State) : (passFr f s).b5 = s.b5 := rfl
@[simp] theorem passFr_tfine (f : FrState) (s : State) : (passFr f s).tfine = s.tfine := rfl
@[simp] theorem passFr_calA (f : FrState) (s : State) : (passFr f s).calA = s.calA := rfl
@[simp] theorem passFr_calB (f : FrState) (s : State) : (passFr f s).calB = s.calB := rfl
@[simp] theorem passFr_frame (f : FrState) (s : State) : (passFr f s).frame = s.frame := rfl
@[simp] theorem passFr_resp (f : FrState) (s : State) : (passFr f s).resp = s.resp := rfl
@[simp] theorem passFr_seq (f : FrState) (s : State) : (passFr f s).seq = s.seq := rfl
@[simp] theorem passFr_inputs (f : FrState) (s : State) : (passFr f s).inputs = s.inputs := rfl
@[simp] theorem passFr_answers (f : FrState) (s : State) : (passFr f s).answers = s.answers := rfl
@[simp] theorem passFr_trace (f : FrState) (s : State) : (passFr f s).trace = s.trace := rfl
@[simp] theorem passFr_frLog (f : FrState) (s : State) : (passFr f s).frLog = s.frLog ++ [f] := rfl
@[simp] theorem passFr_hostLog (f : FrState) (s : State) : (passFr f s).hostLog = s.hostLog := rfl

/-! ## setInputs -/

@[simp] theorem setInputs_params (l : List Input) (s : State) : (setInputs l s).params = s.params := rfl
@[simp] theorem setInputs_cmd (l : List Input) (s : State) : (setInputs l s).cmd = s.cmd := rfl
@[simp] theorem setInputs_done (l : List Input) (s : State) : (setInputs l s).done = s.done := rfl
@[simp] theorem setInputs_err (l : List Input) (s : State) : (setInputs l s).err = s.err := rfl
@[simp] theorem setInputs_calValidA (l : List Input) (s : State) : (setInputs l s).calValidA = s.calValidA := rfl
@[simp] theorem setInputs_calValidB (l : List Input) (s : State) : (setInputs l s).calValidB = s.calValidB := rfl
@[simp] theorem setInputs_calFaultA (l : List Input) (s : State) : (setInputs l s).calFaultA = s.calFaultA := rfl
@[simp] theorem setInputs_calFaultB (l : List Input) (s : State) : (setInputs l s).calFaultB = s.calFaultB := rfl
@[simp] theorem setInputs_family (l : List Input) (s : State) : (setInputs l s).family = s.family := rfl
@[simp] theorem setInputs_b5Valid (l : List Input) (s : State) : (setInputs l s).b5Valid = s.b5Valid := rfl
@[simp] theorem setInputs_tfineValid (l : List Input) (s : State) : (setInputs l s).tfineValid = s.tfineValid := rfl
@[simp] theorem setInputs_ovf (l : List Input) (s : State) : (setInputs l s).ovf = s.ovf := rfl
@[simp] theorem setInputs_overrun (l : List Input) (s : State) : (setInputs l s).overrun = s.overrun := rfl
@[simp] theorem setInputs_buserrSeen (l : List Input) (s : State) : (setInputs l s).buserrSeen = s.buserrSeen := rfl
@[simp] theorem setInputs_result (l : List Input) (s : State) : (setInputs l s).result = s.result := rfl
@[simp] theorem setInputs_buscode (l : List Input) (s : State) : (setInputs l s).buscode = s.buscode := rfl
@[simp] theorem setInputs_ossCode (l : List Input) (s : State) : (setInputs l s).ossCode = s.ossCode := rfl
@[simp] theorem setInputs_waitPMs (l : List Input) (s : State) : (setInputs l s).waitPMs = s.waitPMs := rfl
@[simp] theorem setInputs_id (l : List Input) (s : State) : (setInputs l s).id = s.id := rfl
@[simp] theorem setInputs_valT1 (l : List Input) (s : State) : (setInputs l s).valT1 = s.valT1 := rfl
@[simp] theorem setInputs_valP (l : List Input) (s : State) : (setInputs l s).valP = s.valP := rfl
@[simp] theorem setInputs_valT2 (l : List Input) (s : State) : (setInputs l s).valT2 = s.valT2 := rfl
@[simp] theorem setInputs_valH (l : List Input) (s : State) : (setInputs l s).valH = s.valH := rfl
@[simp] theorem setInputs_rawT (l : List Input) (s : State) : (setInputs l s).rawT = s.rawT := rfl
@[simp] theorem setInputs_rawP (l : List Input) (s : State) : (setInputs l s).rawP = s.rawP := rfl
@[simp] theorem setInputs_b5 (l : List Input) (s : State) : (setInputs l s).b5 = s.b5 := rfl
@[simp] theorem setInputs_tfine (l : List Input) (s : State) : (setInputs l s).tfine = s.tfine := rfl
@[simp] theorem setInputs_calA (l : List Input) (s : State) : (setInputs l s).calA = s.calA := rfl
@[simp] theorem setInputs_calB (l : List Input) (s : State) : (setInputs l s).calB = s.calB := rfl
@[simp] theorem setInputs_frame (l : List Input) (s : State) : (setInputs l s).frame = s.frame := rfl
@[simp] theorem setInputs_resp (l : List Input) (s : State) : (setInputs l s).resp = s.resp := rfl
@[simp] theorem setInputs_seq (l : List Input) (s : State) : (setInputs l s).seq = s.seq := rfl
@[simp] theorem setInputs_inputs (l : List Input) (s : State) : (setInputs l s).inputs = l := rfl
@[simp] theorem setInputs_answers (l : List Input) (s : State) : (setInputs l s).answers = s.answers := rfl
@[simp] theorem setInputs_trace (l : List Input) (s : State) : (setInputs l s).trace = s.trace := rfl
@[simp] theorem setInputs_frLog (l : List Input) (s : State) : (setInputs l s).frLog = s.frLog := rfl
@[simp] theorem setInputs_hostLog (l : List Input) (s : State) : (setInputs l s).hostLog = s.hostLog := rfl

/-! ## takeBuscode -/

@[simp] theorem takeBuscode_params (info : Option Word) (s : State) : (takeBuscode info s).params = s.params := rfl
@[simp] theorem takeBuscode_cmd (info : Option Word) (s : State) : (takeBuscode info s).cmd = s.cmd := rfl
@[simp] theorem takeBuscode_done (info : Option Word) (s : State) : (takeBuscode info s).done = s.done := rfl
@[simp] theorem takeBuscode_err (info : Option Word) (s : State) : (takeBuscode info s).err = s.err := rfl
@[simp] theorem takeBuscode_calValidA (info : Option Word) (s : State) : (takeBuscode info s).calValidA = s.calValidA := rfl
@[simp] theorem takeBuscode_calValidB (info : Option Word) (s : State) : (takeBuscode info s).calValidB = s.calValidB := rfl
@[simp] theorem takeBuscode_calFaultA (info : Option Word) (s : State) : (takeBuscode info s).calFaultA = s.calFaultA := rfl
@[simp] theorem takeBuscode_calFaultB (info : Option Word) (s : State) : (takeBuscode info s).calFaultB = s.calFaultB := rfl
@[simp] theorem takeBuscode_family (info : Option Word) (s : State) : (takeBuscode info s).family = s.family := rfl
@[simp] theorem takeBuscode_b5Valid (info : Option Word) (s : State) : (takeBuscode info s).b5Valid = s.b5Valid := rfl
@[simp] theorem takeBuscode_tfineValid (info : Option Word) (s : State) : (takeBuscode info s).tfineValid = s.tfineValid := rfl
@[simp] theorem takeBuscode_ovf (info : Option Word) (s : State) : (takeBuscode info s).ovf = s.ovf := rfl
@[simp] theorem takeBuscode_overrun (info : Option Word) (s : State) : (takeBuscode info s).overrun = s.overrun := rfl
@[simp] theorem takeBuscode_buserrSeen (info : Option Word) (s : State) : (takeBuscode info s).buserrSeen = s.buserrSeen := rfl
@[simp] theorem takeBuscode_result (info : Option Word) (s : State) : (takeBuscode info s).result = s.result := rfl
@[simp] theorem takeBuscode_buscode (info : Option Word) (s : State) : (takeBuscode info s).buscode = info.getD s.buscode := rfl
@[simp] theorem takeBuscode_ossCode (info : Option Word) (s : State) : (takeBuscode info s).ossCode = s.ossCode := rfl
@[simp] theorem takeBuscode_waitPMs (info : Option Word) (s : State) : (takeBuscode info s).waitPMs = s.waitPMs := rfl
@[simp] theorem takeBuscode_id (info : Option Word) (s : State) : (takeBuscode info s).id = s.id := rfl
@[simp] theorem takeBuscode_valT1 (info : Option Word) (s : State) : (takeBuscode info s).valT1 = s.valT1 := rfl
@[simp] theorem takeBuscode_valP (info : Option Word) (s : State) : (takeBuscode info s).valP = s.valP := rfl
@[simp] theorem takeBuscode_valT2 (info : Option Word) (s : State) : (takeBuscode info s).valT2 = s.valT2 := rfl
@[simp] theorem takeBuscode_valH (info : Option Word) (s : State) : (takeBuscode info s).valH = s.valH := rfl
@[simp] theorem takeBuscode_rawT (info : Option Word) (s : State) : (takeBuscode info s).rawT = s.rawT := rfl
@[simp] theorem takeBuscode_rawP (info : Option Word) (s : State) : (takeBuscode info s).rawP = s.rawP := rfl
@[simp] theorem takeBuscode_b5 (info : Option Word) (s : State) : (takeBuscode info s).b5 = s.b5 := rfl
@[simp] theorem takeBuscode_tfine (info : Option Word) (s : State) : (takeBuscode info s).tfine = s.tfine := rfl
@[simp] theorem takeBuscode_calA (info : Option Word) (s : State) : (takeBuscode info s).calA = s.calA := rfl
@[simp] theorem takeBuscode_calB (info : Option Word) (s : State) : (takeBuscode info s).calB = s.calB := rfl
@[simp] theorem takeBuscode_frame (info : Option Word) (s : State) : (takeBuscode info s).frame = s.frame := rfl
@[simp] theorem takeBuscode_resp (info : Option Word) (s : State) : (takeBuscode info s).resp = s.resp := rfl
@[simp] theorem takeBuscode_seq (info : Option Word) (s : State) : (takeBuscode info s).seq = s.seq := rfl
@[simp] theorem takeBuscode_inputs (info : Option Word) (s : State) : (takeBuscode info s).inputs = s.inputs := rfl
@[simp] theorem takeBuscode_answers (info : Option Word) (s : State) : (takeBuscode info s).answers = s.answers := rfl
@[simp] theorem takeBuscode_trace (info : Option Word) (s : State) : (takeBuscode info s).trace = s.trace := rfl
@[simp] theorem takeBuscode_frLog (info : Option Word) (s : State) : (takeBuscode info s).frLog = s.frLog := rfl
@[simp] theorem takeBuscode_hostLog (info : Option Word) (s : State) : (takeBuscode info s).hostLog = s.hostLog := rfl

/-! ## accept -/

@[simp] theorem accept_params (i : Instr) (s : State) : (accept i s).params = s.params := rfl
@[simp] theorem accept_cmd (i : Instr) (s : State) : (accept i s).cmd = encode i := rfl
@[simp] theorem accept_done (i : Instr) (s : State) : (accept i s).done = false := rfl
@[simp] theorem accept_err (i : Instr) (s : State) : (accept i s).err = none := rfl
@[simp] theorem accept_calValidA (i : Instr) (s : State) : (accept i s).calValidA = s.calValidA := rfl
@[simp] theorem accept_calValidB (i : Instr) (s : State) : (accept i s).calValidB = s.calValidB := rfl
@[simp] theorem accept_calFaultA (i : Instr) (s : State) : (accept i s).calFaultA = s.calFaultA := rfl
@[simp] theorem accept_calFaultB (i : Instr) (s : State) : (accept i s).calFaultB = s.calFaultB := rfl
@[simp] theorem accept_family (i : Instr) (s : State) : (accept i s).family = s.family := rfl
@[simp] theorem accept_b5Valid (i : Instr) (s : State) : (accept i s).b5Valid = s.b5Valid := rfl
@[simp] theorem accept_tfineValid (i : Instr) (s : State) : (accept i s).tfineValid = s.tfineValid := rfl
@[simp] theorem accept_ovf (i : Instr) (s : State) : (accept i s).ovf = s.ovf := rfl
@[simp] theorem accept_overrun (i : Instr) (s : State) : (accept i s).overrun = s.overrun := rfl
@[simp] theorem accept_buserrSeen (i : Instr) (s : State) : (accept i s).buserrSeen = s.buserrSeen := rfl
@[simp] theorem accept_result (i : Instr) (s : State) : (accept i s).result = s.result := rfl
@[simp] theorem accept_buscode (i : Instr) (s : State) : (accept i s).buscode = 0 := rfl
@[simp] theorem accept_ossCode (i : Instr) (s : State) : (accept i s).ossCode = s.ossCode := rfl
@[simp] theorem accept_waitPMs (i : Instr) (s : State) : (accept i s).waitPMs = s.waitPMs := rfl
@[simp] theorem accept_id (i : Instr) (s : State) : (accept i s).id = s.id := rfl
@[simp] theorem accept_valT1 (i : Instr) (s : State) : (accept i s).valT1 = s.valT1 := rfl
@[simp] theorem accept_valP (i : Instr) (s : State) : (accept i s).valP = s.valP := rfl
@[simp] theorem accept_valT2 (i : Instr) (s : State) : (accept i s).valT2 = s.valT2 := rfl
@[simp] theorem accept_valH (i : Instr) (s : State) : (accept i s).valH = s.valH := rfl
@[simp] theorem accept_rawT (i : Instr) (s : State) : (accept i s).rawT = s.rawT := rfl
@[simp] theorem accept_rawP (i : Instr) (s : State) : (accept i s).rawP = s.rawP := rfl
@[simp] theorem accept_b5 (i : Instr) (s : State) : (accept i s).b5 = s.b5 := rfl
@[simp] theorem accept_tfine (i : Instr) (s : State) : (accept i s).tfine = s.tfine := rfl
@[simp] theorem accept_calA (i : Instr) (s : State) : (accept i s).calA = s.calA := rfl
@[simp] theorem accept_calB (i : Instr) (s : State) : (accept i s).calB = s.calB := rfl
@[simp] theorem accept_frame (i : Instr) (s : State) : (accept i s).frame = s.frame := rfl
@[simp] theorem accept_resp (i : Instr) (s : State) : (accept i s).resp = s.resp := rfl
@[simp] theorem accept_seq (i : Instr) (s : State) : (accept i s).seq = some ⟨i, 0, .idle, [], 0⟩ := rfl
@[simp] theorem accept_inputs (i : Instr) (s : State) : (accept i s).inputs = s.inputs := rfl
@[simp] theorem accept_answers (i : Instr) (s : State) : (accept i s).answers = s.answers := rfl
@[simp] theorem accept_trace (i : Instr) (s : State) : (accept i s).trace = s.trace := rfl
@[simp] theorem accept_frLog (i : Instr) (s : State) : (accept i s).frLog = s.frLog := rfl
@[simp] theorem accept_hostLog (i : Instr) (s : State) : (accept i s).hostLog = s.hostLog := rfl

/-! ## illegalCommand -/

@[simp] theorem illegalCommand_params (w : Word) (s : State) : (illegalCommand w s).params = s.params := rfl
@[simp] theorem illegalCommand_cmd (w : Word) (s : State) : (illegalCommand w s).cmd = w := rfl
@[simp] theorem illegalCommand_done (w : Word) (s : State) : (illegalCommand w s).done = true := rfl
@[simp] theorem illegalCommand_err (w : Word) (s : State) : (illegalCommand w s).err = some .illegalCommand := rfl
@[simp] theorem illegalCommand_calValidA (w : Word) (s : State) : (illegalCommand w s).calValidA = s.calValidA := rfl
@[simp] theorem illegalCommand_calValidB (w : Word) (s : State) : (illegalCommand w s).calValidB = s.calValidB := rfl
@[simp] theorem illegalCommand_calFaultA (w : Word) (s : State) : (illegalCommand w s).calFaultA = s.calFaultA := rfl
@[simp] theorem illegalCommand_calFaultB (w : Word) (s : State) : (illegalCommand w s).calFaultB = s.calFaultB := rfl
@[simp] theorem illegalCommand_family (w : Word) (s : State) : (illegalCommand w s).family = s.family := rfl
@[simp] theorem illegalCommand_b5Valid (w : Word) (s : State) : (illegalCommand w s).b5Valid = s.b5Valid := rfl
@[simp] theorem illegalCommand_tfineValid (w : Word) (s : State) : (illegalCommand w s).tfineValid = s.tfineValid := rfl
@[simp] theorem illegalCommand_ovf (w : Word) (s : State) : (illegalCommand w s).ovf = s.ovf := rfl
@[simp] theorem illegalCommand_overrun (w : Word) (s : State) : (illegalCommand w s).overrun = s.overrun := rfl
@[simp] theorem illegalCommand_buserrSeen (w : Word) (s : State) : (illegalCommand w s).buserrSeen = s.buserrSeen := rfl
@[simp] theorem illegalCommand_result (w : Word) (s : State) : (illegalCommand w s).result = s.result := rfl
@[simp] theorem illegalCommand_buscode (w : Word) (s : State) : (illegalCommand w s).buscode = 0 := rfl
@[simp] theorem illegalCommand_ossCode (w : Word) (s : State) : (illegalCommand w s).ossCode = s.ossCode := rfl
@[simp] theorem illegalCommand_waitPMs (w : Word) (s : State) : (illegalCommand w s).waitPMs = s.waitPMs := rfl
@[simp] theorem illegalCommand_id (w : Word) (s : State) : (illegalCommand w s).id = s.id := rfl
@[simp] theorem illegalCommand_valT1 (w : Word) (s : State) : (illegalCommand w s).valT1 = s.valT1 := rfl
@[simp] theorem illegalCommand_valP (w : Word) (s : State) : (illegalCommand w s).valP = s.valP := rfl
@[simp] theorem illegalCommand_valT2 (w : Word) (s : State) : (illegalCommand w s).valT2 = s.valT2 := rfl
@[simp] theorem illegalCommand_valH (w : Word) (s : State) : (illegalCommand w s).valH = s.valH := rfl
@[simp] theorem illegalCommand_rawT (w : Word) (s : State) : (illegalCommand w s).rawT = s.rawT := rfl
@[simp] theorem illegalCommand_rawP (w : Word) (s : State) : (illegalCommand w s).rawP = s.rawP := rfl
@[simp] theorem illegalCommand_b5 (w : Word) (s : State) : (illegalCommand w s).b5 = s.b5 := rfl
@[simp] theorem illegalCommand_tfine (w : Word) (s : State) : (illegalCommand w s).tfine = s.tfine := rfl
@[simp] theorem illegalCommand_calA (w : Word) (s : State) : (illegalCommand w s).calA = s.calA := rfl
@[simp] theorem illegalCommand_calB (w : Word) (s : State) : (illegalCommand w s).calB = s.calB := rfl
@[simp] theorem illegalCommand_frame (w : Word) (s : State) : (illegalCommand w s).frame = s.frame := rfl
@[simp] theorem illegalCommand_resp (w : Word) (s : State) : (illegalCommand w s).resp = s.resp := rfl
@[simp] theorem illegalCommand_seq (w : Word) (s : State) : (illegalCommand w s).seq = s.seq := rfl
@[simp] theorem illegalCommand_inputs (w : Word) (s : State) : (illegalCommand w s).inputs = s.inputs := rfl
@[simp] theorem illegalCommand_answers (w : Word) (s : State) : (illegalCommand w s).answers = s.answers := rfl
@[simp] theorem illegalCommand_trace (w : Word) (s : State) : (illegalCommand w s).trace = s.trace := rfl
@[simp] theorem illegalCommand_frLog (w : Word) (s : State) : (illegalCommand w s).frLog = s.frLog := rfl
@[simp] theorem illegalCommand_hostLog (w : Word) (s : State) : (illegalCommand w s).hostLog = s.hostLog := rfl

/-! ## applyWrites: what no register write of a command touches -/

@[simp] theorem applyWrites_nil (s : State) : applyWrites [] s = s := rfl
@[simp] theorem applyWrites_cons (w : RegWrite) (ws : List RegWrite) (s : State) :
    applyWrites (w :: ws) s = applyWrites ws (applyWrite s w) := rfl
@[simp] theorem applyWrite_params (w : RegWrite) (s : State) : (applyWrite s w).params = s.params := by cases w <;> rfl
@[simp] theorem applyWrite_cmd (w : RegWrite) (s : State) : (applyWrite s w).cmd = s.cmd := by cases w <;> rfl
@[simp] theorem applyWrite_done (w : RegWrite) (s : State) : (applyWrite s w).done = s.done := by cases w <;> rfl
@[simp] theorem applyWrite_err (w : RegWrite) (s : State) : (applyWrite s w).err = s.err := by cases w <;> rfl
@[simp] theorem applyWrite_ovf (w : RegWrite) (s : State) : (applyWrite s w).ovf = s.ovf := by cases w <;> rfl
@[simp] theorem applyWrite_overrun (w : RegWrite) (s : State) : (applyWrite s w).overrun = s.overrun := by cases w <;> rfl
@[simp] theorem applyWrite_buserrSeen (w : RegWrite) (s : State) : (applyWrite s w).buserrSeen = s.buserrSeen := by cases w <;> rfl
@[simp] theorem applyWrite_buscode (w : RegWrite) (s : State) : (applyWrite s w).buscode = s.buscode := by cases w <;> rfl
@[simp] theorem applyWrite_seq (w : RegWrite) (s : State) : (applyWrite s w).seq = s.seq := by cases w <;> rfl
@[simp] theorem applyWrite_inputs (w : RegWrite) (s : State) : (applyWrite s w).inputs = s.inputs := by cases w <;> rfl
@[simp] theorem applyWrite_answers (w : RegWrite) (s : State) : (applyWrite s w).answers = s.answers := by cases w <;> rfl
@[simp] theorem applyWrite_trace (w : RegWrite) (s : State) : (applyWrite s w).trace = s.trace := by cases w <;> rfl
@[simp] theorem applyWrite_frLog (w : RegWrite) (s : State) : (applyWrite s w).frLog = s.frLog := by cases w <;> rfl
@[simp] theorem applyWrite_hostLog (w : RegWrite) (s : State) : (applyWrite s w).hostLog = s.hostLog := by cases w <;> rfl
@[simp] theorem applyWrites_params (ws : List RegWrite) (s : State) : (applyWrites ws s).params = s.params := by
  induction ws generalizing s with
  | nil => rfl
  | cons w ws ih => simp [ih]
@[simp] theorem applyWrites_cmd (ws : List RegWrite) (s : State) : (applyWrites ws s).cmd = s.cmd := by
  induction ws generalizing s with
  | nil => rfl
  | cons w ws ih => simp [ih]
@[simp] theorem applyWrites_done (ws : List RegWrite) (s : State) : (applyWrites ws s).done = s.done := by
  induction ws generalizing s with
  | nil => rfl
  | cons w ws ih => simp [ih]
@[simp] theorem applyWrites_err (ws : List RegWrite) (s : State) : (applyWrites ws s).err = s.err := by
  induction ws generalizing s with
  | nil => rfl
  | cons w ws ih => simp [ih]
@[simp] theorem applyWrites_ovf (ws : List RegWrite) (s : State) : (applyWrites ws s).ovf = s.ovf := by
  induction ws generalizing s with
  | nil => rfl
  | cons w ws ih => simp [ih]
@[simp] theorem applyWrites_overrun (ws : List RegWrite) (s : State) : (applyWrites ws s).overrun = s.overrun := by
  induction ws generalizing s with
  | nil => rfl
  | cons w ws ih => simp [ih]
@[simp] theorem applyWrites_buserrSeen (ws : List RegWrite) (s : State) : (applyWrites ws s).buserrSeen = s.buserrSeen := by
  induction ws generalizing s with
  | nil => rfl
  | cons w ws ih => simp [ih]
@[simp] theorem applyWrites_buscode (ws : List RegWrite) (s : State) : (applyWrites ws s).buscode = s.buscode := by
  induction ws generalizing s with
  | nil => rfl
  | cons w ws ih => simp [ih]
@[simp] theorem applyWrites_seq (ws : List RegWrite) (s : State) : (applyWrites ws s).seq = s.seq := by
  induction ws generalizing s with
  | nil => rfl
  | cons w ws ih => simp [ih]
@[simp] theorem applyWrites_inputs (ws : List RegWrite) (s : State) : (applyWrites ws s).inputs = s.inputs := by
  induction ws generalizing s with
  | nil => rfl
  | cons w ws ih => simp [ih]
@[simp] theorem applyWrites_answers (ws : List RegWrite) (s : State) : (applyWrites ws s).answers = s.answers := by
  induction ws generalizing s with
  | nil => rfl
  | cons w ws ih => simp [ih]
@[simp] theorem applyWrites_trace (ws : List RegWrite) (s : State) : (applyWrites ws s).trace = s.trace := by
  induction ws generalizing s with
  | nil => rfl
  | cons w ws ih => simp [ih]
@[simp] theorem applyWrites_frLog (ws : List RegWrite) (s : State) : (applyWrites ws s).frLog = s.frLog := by
  induction ws generalizing s with
  | nil => rfl
  | cons w ws ih => simp [ih]
@[simp] theorem applyWrites_hostLog (ws : List RegWrite) (s : State) : (applyWrites ws s).hostLog = s.hostLog := by
  induction ws generalizing s with
  | nil => rfl
  | cons w ws ih => simp [ih]

/-! ## commit -/

@[simp] theorem commit_params (e : Option ErrorKind) (ws : List RegWrite) (s : State) : (commit e ws s).params = s.params := by simp [commit]
@[simp] theorem commit_cmd (e : Option ErrorKind) (ws : List RegWrite) (s : State) : (commit e ws s).cmd = s.cmd := by simp [commit]
@[simp] theorem commit_done (e : Option ErrorKind) (ws : List RegWrite) (s : State) : (commit e ws s).done = true := rfl
@[simp] theorem commit_err (e : Option ErrorKind) (ws : List RegWrite) (s : State) : (commit e ws s).err = e := rfl
@[simp] theorem commit_ovf (e : Option ErrorKind) (ws : List RegWrite) (s : State) : (commit e ws s).ovf = s.ovf := by simp [commit]
@[simp] theorem commit_overrun (e : Option ErrorKind) (ws : List RegWrite) (s : State) : (commit e ws s).overrun = s.overrun := by simp [commit]
@[simp] theorem commit_buserrSeen (e : Option ErrorKind) (ws : List RegWrite) (s : State) : (commit e ws s).buserrSeen = s.buserrSeen := by simp [commit]
@[simp] theorem commit_buscode (e : Option ErrorKind) (ws : List RegWrite) (s : State) : (commit e ws s).buscode = s.buscode := by simp [commit]
@[simp] theorem commit_seq (e : Option ErrorKind) (ws : List RegWrite) (s : State) : (commit e ws s).seq = none := rfl
@[simp] theorem commit_inputs (e : Option ErrorKind) (ws : List RegWrite) (s : State) : (commit e ws s).inputs = s.inputs := by simp [commit]
@[simp] theorem commit_answers (e : Option ErrorKind) (ws : List RegWrite) (s : State) : (commit e ws s).answers = s.answers := by simp [commit]
@[simp] theorem commit_trace (e : Option ErrorKind) (ws : List RegWrite) (s : State) : (commit e ws s).trace = s.trace := by simp [commit]
@[simp] theorem commit_frLog (e : Option ErrorKind) (ws : List RegWrite) (s : State) : (commit e ws s).frLog = frReturn s := rfl
@[simp] theorem commit_hostLog (e : Option ErrorKind) (ws : List RegWrite) (s : State) : (commit e ws s).hostLog = s.hostLog := by simp [commit]
@[simp] theorem commit_calValidA (e : Option ErrorKind) (ws : List RegWrite) (s : State) :
    (commit e ws s).calValidA = (applyWrites ws s).calValidA := rfl
@[simp] theorem commit_calValidB (e : Option ErrorKind) (ws : List RegWrite) (s : State) :
    (commit e ws s).calValidB = (applyWrites ws s).calValidB := rfl
@[simp] theorem commit_calFaultA (e : Option ErrorKind) (ws : List RegWrite) (s : State) :
    (commit e ws s).calFaultA = (applyWrites ws s).calFaultA := rfl
@[simp] theorem commit_calFaultB (e : Option ErrorKind) (ws : List RegWrite) (s : State) :
    (commit e ws s).calFaultB = (applyWrites ws s).calFaultB := rfl
@[simp] theorem commit_family (e : Option ErrorKind) (ws : List RegWrite) (s : State) :
    (commit e ws s).family = (applyWrites ws s).family := rfl
@[simp] theorem commit_b5Valid (e : Option ErrorKind) (ws : List RegWrite) (s : State) :
    (commit e ws s).b5Valid = (applyWrites ws s).b5Valid := rfl
@[simp] theorem commit_tfineValid (e : Option ErrorKind) (ws : List RegWrite) (s : State) :
    (commit e ws s).tfineValid = (applyWrites ws s).tfineValid := rfl
@[simp] theorem commit_result (e : Option ErrorKind) (ws : List RegWrite) (s : State) :
    (commit e ws s).result = (applyWrites ws s).result := rfl
@[simp] theorem commit_ossCode (e : Option ErrorKind) (ws : List RegWrite) (s : State) :
    (commit e ws s).ossCode = (applyWrites ws s).ossCode := rfl
@[simp] theorem commit_waitPMs (e : Option ErrorKind) (ws : List RegWrite) (s : State) :
    (commit e ws s).waitPMs = (applyWrites ws s).waitPMs := rfl
@[simp] theorem commit_id (e : Option ErrorKind) (ws : List RegWrite) (s : State) :
    (commit e ws s).id = (applyWrites ws s).id := rfl
@[simp] theorem commit_valT1 (e : Option ErrorKind) (ws : List RegWrite) (s : State) :
    (commit e ws s).valT1 = (applyWrites ws s).valT1 := rfl
@[simp] theorem commit_valP (e : Option ErrorKind) (ws : List RegWrite) (s : State) :
    (commit e ws s).valP = (applyWrites ws s).valP := rfl
@[simp] theorem commit_valT2 (e : Option ErrorKind) (ws : List RegWrite) (s : State) :
    (commit e ws s).valT2 = (applyWrites ws s).valT2 := rfl
@[simp] theorem commit_valH (e : Option ErrorKind) (ws : List RegWrite) (s : State) :
    (commit e ws s).valH = (applyWrites ws s).valH := rfl
@[simp] theorem commit_rawT (e : Option ErrorKind) (ws : List RegWrite) (s : State) :
    (commit e ws s).rawT = (applyWrites ws s).rawT := rfl
@[simp] theorem commit_rawP (e : Option ErrorKind) (ws : List RegWrite) (s : State) :
    (commit e ws s).rawP = (applyWrites ws s).rawP := rfl
@[simp] theorem commit_b5 (e : Option ErrorKind) (ws : List RegWrite) (s : State) :
    (commit e ws s).b5 = (applyWrites ws s).b5 := rfl
@[simp] theorem commit_tfine (e : Option ErrorKind) (ws : List RegWrite) (s : State) :
    (commit e ws s).tfine = (applyWrites ws s).tfine := rfl
@[simp] theorem commit_calA (e : Option ErrorKind) (ws : List RegWrite) (s : State) :
    (commit e ws s).calA = (applyWrites ws s).calA := rfl
@[simp] theorem commit_calB (e : Option ErrorKind) (ws : List RegWrite) (s : State) :
    (commit e ws s).calB = (applyWrites ws s).calB := rfl
@[simp] theorem commit_frame (e : Option ErrorKind) (ws : List RegWrite) (s : State) :
    (commit e ws s).frame = (applyWrites ws s).frame := rfl
@[simp] theorem commit_resp (e : Option ErrorKind) (ws : List RegWrite) (s : State) :
    (commit e ws s).resp = (applyWrites ws s).resp := rfl

end Sys2Proof.Machine
end

