-- ==== Sys2Proof/Laws/Body.lean ====
section
/-! SUPPORT. How a command's body runs: sequencing, and each primitive of Ops.lean when no input is due
(`hostQuiet`), said once. -/

namespace Sys2Proof.Machine

/-! ## Sequencing -/

theorem body_bind_ok {α β : Type} {x : Body α} {f : α → Body β} {s t : State} {a : α} (h : x s = .ok a t) :
    (x >>= f) s = f a t := by simp [bind, EStateM.bind, h]

theorem body_bind_error {α β : Type} {x : Body α} {f : α → Body β} {s t : State} {e : Unit} (h : x s = .error e t) :
    (x >>= f) s = .error e t := by simp [bind, EStateM.bind, h]

theorem body_bind_assoc {α β γ : Type} (x : Body α) (f : α → Body β) (g : β → Body γ) :
    (x >>= f) >>= g = x >>= fun a => f a >>= g := by
  funext s; simp only [bind, EStateM.bind]; cases x s <;> rfl

@[simp] theorem body_pure {α : Type} (a : α) (s : State) : (pure a : Body α) s = .ok a s := rfl

@[simp] theorem fromState_apply {α : Type} (f : State → EStateM.Result Unit State α) (s : State) :
    fromState f s = f s := rfl

@[simp] theorem regOf_apply {α : Type} (f : State → α) (s : State) : regOf f s = .ok (f s) s := rfl

@[simp] theorem change_apply (f : State → State) (s : State) : change f s = .ok () (f s) := rfl

@[simp] theorem stage_apply (w : RegWrite) (s : State) :
    stage w s = .ok () (onSeq (fun r => { r with staged := r.staged ++ [w] }) s) := rfl

@[simp] theorem regOf_bind {α β : Type} (f : State → α) (g : α → Body β) (s : State) :
    (regOf f >>= g) s = g (f s) s := rfl

@[simp] theorem change_bind {β : Type} (f : State → State) (g : Unit → Body β) (s : State) :
    (change f >>= g) s = g () (f s) := rfl

@[simp] theorem stage_bind {β : Type} (w : RegWrite) (g : Unit → Body β) (s : State) :
    (stage w >>= g) s = g () (onSeq (fun r => { r with staged := r.staged ++ [w] }) s) := rfl

@[simp] theorem setFr_bind {β : Type} (f : FrState) (g : Unit → Body β) (s : State) :
    (setFr f >>= g) s =
      g () (onSeq (fun r => { r with fr := f }) (passFr f s)) := rfl

/-- A body that ends normally in t leaves what `endBody` makes of t. -/
theorem runBody_of_ok {b : Body Unit} {s t : State} {a : Unit} (h : b s = .ok a t) :
    runBody b s = match endBody t with | .ok _ u => u | .error _ u => u := by
  have hb : (do b; endBody : Body Unit) s = endBody t := body_bind_ok h
  simp only [runBody, hb] <;> (cases endBody t <;> rfl)

/-- A body that ends for good in t leaves t. -/
theorem runBody_of_error {b : Body Unit} {s t : State} {e : Unit} (h : b s = .error e t) : runBody b s = t := by
  have hb : (do b; endBody : Body Unit) s = .error e t := body_bind_error h
  simp only [runBody, hb]

/-- A launch at an idle block runs the command from the accepted state (R124). -/
theorem launch_of_idle {i : Instr} {run : State → State} {s : State} (h : s.seq = none) :
    launch i run s = .next (run (accept i s)) := by simp [launch, State.busy, h]

/-- A launch at a busy block is dropped (R34). -/
theorem launch_of_busy {i : Instr} {run : State → State} {s : State} {r : Running} (h : s.seq = some r) :
    launch i run s = .next (dropWrite s) := by simp [launch, State.busy, h]

/-- Every launch answers a next state. -/
theorem launch_next (i : Instr) (run : State → State) (s : State) : ∃ t, launch i run s = .next t := ⟨_, rfl⟩

/-! ## When no input is due -/

/-- `hostQuiet` looks at the input list only. -/
theorem hostQuiet_congr {s t : State} (h : t.inputs = s.inputs) : t.hostQuiet = s.hostQuiet := by
  simp [State.hostQuiet, h]

@[simp] theorem hostQuiet_accept (i : Instr) (s : State) : (accept i s).hostQuiet = s.hostQuiet := rfl
@[simp] theorem hostQuiet_afterXfer (dev : Dev) (w : List Byte) (n : Nat) (s : State) :
    (afterXfer dev w n s).hostQuiet = s.hostQuiet := rfl
@[simp] theorem hostQuiet_afterDelay (ms : Nat) (s : State) : (afterDelay ms s).hostQuiet = s.hostQuiet := rfl
@[simp] theorem hostQuiet_onSeq (f : Running → Running) (s : State) : (onSeq f s).hostQuiet = s.hostQuiet := rfl
@[simp] theorem hostQuiet_advance (s : State) : (advance s).hostQuiet = s.hostQuiet := rfl
@[simp] theorem hostQuiet_noteOvf (o : Bool) (s : State) : (noteOvf o s).hostQuiet = s.hostQuiet := rfl

/-- With no input due a slot does nothing. -/
theorem slot_of_quiet {s : State} (h : s.hostQuiet = true) : slot s = .ok () s := by
  unfold slot serveInputs
  unfold State.hostQuiet at h
  split
  · rfl
  · rename_i it rest _ heq
    simp only [heq, beq_iff_eq] at h
    simp [h]

theorem xfer_of_quiet {s : State} (h : s.hostQuiet = true) (dev : Dev) (w : List Byte) (n : Nat) :
    xfer dev w n s = .ok (busAnswer dev w n s) (advance (afterXfer dev w n s)) := by
  simp only [xfer, body_bind_ok (slot_of_quiet h), fromState_apply]

theorem delay_of_quiet {s : State} (h : s.hostQuiet = true) (ms : Nat) :
    delay ms s = .ok () (advance (afterDelay ms s)) := by
  simp only [delay, body_bind_ok (slot_of_quiet h), change_apply]

theorem raise_of_quiet {α : Type} {s : State} (h : s.hostQuiet = true) (e : ErrorKind) (info : Option Word)
    (ws : List RegWrite) :
    (raise e info ws : Body α) s = .error () (commit (some e) ws (takeBuscode info s)) := by
  simp only [raise, body_bind_ok (slot_of_quiet h), fromState_apply]

theorem raiseStaged_of_quiet {α : Type} {s : State} (h : s.hostQuiet = true) (e : ErrorKind) (info : Option Word) :
    (raiseStaged e info : Body α) s =
      .error () (commit (some e) (stagedOf s) (takeBuscode info s)) := by
  simp only [raiseStaged, regOf_bind, raise_of_quiet h]

theorem endBody_of_quiet {s : State} (h : s.hostQuiet = true) :
    endBody s = .ok () (commit none (stagedOf s) s) := by
  simp only [endBody, body_bind_ok (slot_of_quiet h), change_apply]

/-- A body that ends normally, with no input due at its end, is committed. -/
theorem runBody_of_ok_quiet {b : Body Unit} {s t : State} {a : Unit} (h : b s = .ok a t) (hq : t.hostQuiet = true) :
    runBody b s = commit none (stagedOf t) t := by
  rw [runBody_of_ok h, endBody_of_quiet hq]

/-- RdAB when the command goes on: Ack, or a Nack that IGNORE swallows (R164). -/
theorem rdAB_of_goesOn {s : State} (h : s.hostQuiet = true) (reg : Byte) (n : Nat) (ws : List RegWrite)
    (hg : isNack (busAnswer pressAddr [reg] n s) = false ∨ s.params.abBusPolicy = .ignore) :
    rdAB reg n ws s =
      .ok (answerBytes (busAnswer pressAddr [reg] n s)) (advance (afterXfer pressAddr [reg] n s)) := by
  simp only [rdAB, regOf_bind, body_bind_ok (xfer_of_quiet h pressAddr [reg] n)]
  cases ha : busAnswer pressAddr [reg] n s with
  | ack b => rfl
  | nack c b => rcases hg with hg | hg <;> simp_all [isNack, answerBytes]

/-- RdAB on a Nack under ABORT (R164). -/
theorem rdAB_of_nack {s : State} (h : s.hostQuiet = true) (reg : Byte) (n : Nat) (ws : List RegWrite)
    {c : Word} {b : List Byte} (ha : busAnswer pressAddr [reg] n s = .nack c b)
    (hp : s.params.abBusPolicy = .abort) :
    rdAB reg n ws s =
      .error () (commit (some .busNack) ws (takeBuscode (some c) (advance (afterXfer pressAddr [reg] n s)))) := by
  simp only [rdAB, regOf_bind, body_bind_ok (xfer_of_quiet h pressAddr [reg] n), ha, hp]
  rw [raise_of_quiet (by simpa using h)]

/-- WrAB when the command goes on (R165). -/
theorem wrAB_of_goesOn {s : State} (h : s.hostQuiet = true) (reg v : Byte) (ws : List RegWrite)
    (hg : isNack (busAnswer pressAddr [reg, v] 0 s) = false ∨ s.params.abBusPolicy = .ignore) :
    wrAB reg v ws s = .ok () (advance (afterXfer pressAddr [reg, v] 0 s)) := by
  simp only [wrAB, regOf_bind, body_bind_ok (xfer_of_quiet h pressAddr [reg, v] 0)]
  cases ha : busAnswer pressAddr [reg, v] 0 s with
  | ack b => rfl
  | nack c b => rcases hg with hg | hg <;> simp_all [isNack]

/-- WrAB on a Nack under ABORT (R165). -/
theorem wrAB_of_nack {s : State} (h : s.hostQuiet = true) (reg v : Byte) (ws : List RegWrite)
    {c : Word} {b : List Byte} (ha : busAnswer pressAddr [reg, v] 0 s = .nack c b)
    (hp : s.params.abBusPolicy = .abort) :
    wrAB reg v ws s =
      .error () (commit (some .busNack) ws (takeBuscode (some c) (advance (afterXfer pressAddr [reg, v] 0 s)))) := by
  simp only [wrAB, regOf_bind, body_bind_ok (xfer_of_quiet h pressAddr [reg, v] 0), ha, hp]
  rw [raise_of_quiet (by simpa using h)]

@[simp] theorem noteOvf_noteOvf (o o' : Bool) (s : State) : noteOvf o' (noteOvf o s) = noteOvf (o || o') s := by
  simp only [noteOvf, Bool.or_assoc]

@[simp] theorem noteOvf_false (s : State) : noteOvf false s = s := by
  simp only [noteOvf, Bool.or_false]

/-- The steps of a computation leave OVF set if one of them overflowed (R10). -/
theorem playSteps_of_quiet {s : State} (h : s.hostQuiet = true) (steps : List Bool) :
    playSteps steps s = .ok () (noteOvf (overflowed steps) s) := by
  induction steps generalizing s with
  | nil => simp [playSteps]
  | cons o steps ih =>
    simp only [playSteps, body_bind_ok (slot_of_quiet h), change_bind]
    rw [ih (by simpa using h), noteOvf_noteOvf, overflowed_cons]

/-- A computation that answers (R10, R125). -/
theorem compute_of_ok {α : Type} {s : State} (h : s.hostQuiet = true) {c : Calc α} (ws : List RegWrite) {a : α}
    {steps : List Bool} (hc : c [] = .ok a steps) :
    compute c ws s = .ok a (advance (noteOvf (overflowed steps) s)) := by
  simp only [compute, hc, body_bind_ok (playSteps_of_quiet h steps), change_bind, body_pure]

/-- A computation that raises (R244). -/
theorem compute_of_error {α : Type} {s : State} (h : s.hostQuiet = true) {c : Calc α} (ws : List RegWrite)
    {e : ErrorKind} {steps : List Bool} (hc : c [] = .error e steps) :
    compute c ws s = .error () (commit (some e) ws (advance (noteOvf (overflowed steps) s))) := by
  simp only [compute, hc, body_bind_ok (playSteps_of_quiet h steps), change_bind]
  rw [raise_of_quiet (by simpa using h)]; rfl

/-! ## The oracle's answers depend on the answers to come and on the history only -/

theorem busAnswer_congr {s t : State} (ha : t.answers = s.answers) (ht : t.trace = s.trace) (dev : Dev)
    (w : List Byte) (n : Nat) : busAnswer dev w n t = busAnswer dev w n s := by
  simp only [busAnswer, ha, ht]

@[simp] theorem busAnswer_accept (i : Instr) (s : State) (dev : Dev) (w : List Byte) (n : Nat) :
    busAnswer dev w n (accept i s) = busAnswer dev w n s := rfl
@[simp] theorem busAnswer_onSeq (f : Running → Running) (s : State) (dev : Dev) (w : List Byte) (n : Nat) :
    busAnswer dev w n (onSeq f s) = busAnswer dev w n s := rfl
@[simp] theorem busAnswer_advance (s : State) (dev : Dev) (w : List Byte) (n : Nat) :
    busAnswer dev w n (advance s) = busAnswer dev w n s := rfl
@[simp] theorem busAnswer_noteOvf (o : Bool) (s : State) (dev : Dev) (w : List Byte) (n : Nat) :
    busAnswer dev w n (noteOvf o s) = busAnswer dev w n s := rfl

/-- An answer holds as many bytes as were asked for (R16). -/
theorem fitBytes_length (h : List BusEvent) (dev : Dev) (w : List Byte) (n : Nat) (b : List Byte) :
    (fitBytes h dev w n b).length = n := by simp [fitBytes]

theorem busAnswer_length (dev : Dev) (w : List Byte) (n : Nat) (s : State) :
    (answerBytes (busAnswer dev w n s)).length = n := by
  unfold busAnswer
  split
  · exact fitBytes_length ..
  · exact fitBytes_length ..
  · split <;> exact fitBytes_length ..

end Sys2Proof.Machine
end

