-- ==== Sys2Proof/Laws/Quiet.lean ====
section
/-! SUPPORT. Running a command with no input due: what `ready` gives, each primitive followed by the rest of the
body, and the normal form of the running state, which keeps `onSeq` and `accept` outside the bus's own updates. -/

namespace Sys2Proof.Machine

theorem seq_of_ready {s : State} (h : s.ready = true) : s.seq = none := by
  simp only [State.ready, Bool.and_eq_true, Option.isNone_iff_eq_none] at h
  exact h.1

theorem hostQuiet_of_ready {s : State} (h : s.ready = true) : s.hostQuiet = true := by
  simp only [State.ready, Bool.and_eq_true] at h
  exact h.2

/-! ## The normal form of the running state -/

/-- The state t of the registers and the bus, with the command i accepted and its sequencer at r. -/
def running (i : Instr) (r : Running) (t : State) : State :=
  { t with cmd := encode i, done := false, err := none, buscode := 0, seq := some r }

/-- Where a command's sequencer starts (R124). -/
def started (i : Instr) : Running := ⟨i, 0, .idle, [], 0⟩

section
variable (i : Instr) (r : Running) (t : State)

theorem accept_eq_running : accept i t = running i (started i) t := rfl

@[simp] theorem running_hostQuiet : (running i r t).hostQuiet = t.hostQuiet := rfl
@[simp] theorem running_params : (running i r t).params = t.params := rfl
@[simp] theorem running_answers : (running i r t).answers = t.answers := rfl
@[simp] theorem running_ossCode : (running i r t).ossCode = t.ossCode := rfl
@[simp] theorem running_waitPMs : (running i r t).waitPMs = t.waitPMs := rfl
@[simp] theorem running_valT1 : (running i r t).valT1 = t.valT1 := rfl
@[simp] theorem running_valP : (running i r t).valP = t.valP := rfl
@[simp] theorem running_valT2 : (running i r t).valT2 = t.valT2 := rfl
@[simp] theorem running_valH : (running i r t).valH = t.valH := rfl
@[simp] theorem running_rawT : (running i r t).rawT = t.rawT := rfl
@[simp] theorem running_rawP : (running i r t).rawP = t.rawP := rfl
@[simp] theorem running_b5 : (running i r t).b5 = t.b5 := rfl
@[simp] theorem running_tfine : (running i r t).tfine = t.tfine := rfl
@[simp] theorem running_b5Valid : (running i r t).b5Valid = t.b5Valid := rfl
@[simp] theorem running_tfineValid : (running i r t).tfineValid = t.tfineValid := rfl
@[simp] theorem running_calA : (running i r t).calA = t.calA := rfl
@[simp] theorem running_calB : (running i r t).calB = t.calB := rfl
@[simp] theorem running_frame : (running i r t).frame = t.frame := rfl
@[simp] theorem running_resp : (running i r t).resp = t.resp := rfl
@[simp] theorem running_trace : (running i r t).trace = t.trace := rfl
@[simp] theorem running_inputs : (running i r t).inputs = t.inputs := rfl
@[simp] theorem running_frLog : (running i r t).frLog = t.frLog := rfl
@[simp] theorem running_seq : (running i r t).seq = some r := rfl
@[simp] theorem stagedOf_running : stagedOf (running i r t) = r.staged := rfl
@[simp] theorem busAnswer_running (dev : Dev) (w : List Byte) (n : Nat) :
    busAnswer dev w n (running i r t) = busAnswer dev w n t := rfl
@[simp] theorem onSeq_running (f : Running → Running) : onSeq f (running i r t) = running i (f r) t := rfl
@[simp] theorem advance_running : advance (running i r t) = running i { r with step := r.step + 1 } t := rfl
@[simp] theorem afterXfer_running (dev : Dev) (w : List Byte) (n : Nat) :
    afterXfer dev w n (running i r t) = running i r (afterXfer dev w n t) := rfl
@[simp] theorem afterDelay_running (ms : Nat) : afterDelay ms (running i r t) = running i r (afterDelay ms t) := rfl
@[simp] theorem noteOvf_running (o : Bool) : noteOvf o (running i r t) = running i r (noteOvf o t) := rfl

end

/-- What a commit leaves of the command i, with the error e, the bus-reported code and the writes ws (R125, R19). -/
def completed (i : Instr) (fr : FrState) (e : Option ErrorKind) (info : Option Word) (ws : List RegWrite)
    (t : State) : State :=
  { applyWrites ws t with
    cmd := encode i
    done := true
    err := e
    buscode := info.getD 0
    seq := none
    frLog := if fr = .idle then t.frLog else t.frLog ++ [.idle] }

theorem applyWrites_running (i : Instr) (r : Running) (ws : List RegWrite) (t : State) :
    applyWrites ws (running i r t) = running i r (applyWrites ws t) := by
  induction ws generalizing t with
  | nil => rfl
  | cons w ws ih =>
    simp only [applyWrites_cons]
    rw [show applyWrite (running i r t) w = running i r (applyWrite t w) by cases w <;> rfl, ih]

theorem commit_running (i : Instr) (r : Running) (e : Option ErrorKind) (ws : List RegWrite) (t : State) :
    commit e ws (running i r t) = completed i r.fr e none ws t := by
  simp only [commit, applyWrites_running]
  rfl

theorem applyWrites_takeBuscode (info : Option Word) (ws : List RegWrite) (t : State) :
    applyWrites ws (takeBuscode info t) = takeBuscode info (applyWrites ws t) := by
  induction ws generalizing t with
  | nil => rfl
  | cons w ws ih =>
    simp only [applyWrites_cons]
    rw [show applyWrite (takeBuscode info t) w = takeBuscode info (applyWrite t w) by cases w <;> rfl, ih]

theorem commit_takeBuscode_running (i : Instr) (r : Running) (e : Option ErrorKind) (info : Option Word)
    (ws : List RegWrite) (t : State) :
    commit e ws (takeBuscode info (running i r t)) = completed i r.fr e info ws t := by
  simp only [commit, applyWrites_takeBuscode, applyWrites_running]
  rfl

/-! ## Each primitive, followed by the rest of the body -/

section
variable {α β : Type} {i : Instr} {r : Running} {t : State}

theorem goesOn_cases {p : Params} {a : BusAnswer} (h : goesOn p a = true) :
    isNack a = false ∨ p.abBusPolicy = .ignore := by
  simpa [goesOn] using h

theorem xfer_bind (h : t.hostQuiet = true) (dev : Dev) (w : List Byte) (n : Nat) (g : BusAnswer → Body β) :
    (xfer dev w n >>= g) (running i r t) =
      g (busAnswer dev w n t) (running i { r with step := r.step + 1 } (afterXfer dev w n t)) :=
  body_bind_ok (xfer_of_quiet (s := running i r t) h dev w n)

theorem delay_bind (h : t.hostQuiet = true) (ms : Nat) (g : Unit → Body β) :
    (delay ms >>= g) (running i r t) = g () (running i { r with step := r.step + 1 } (afterDelay ms t)) :=
  body_bind_ok (delay_of_quiet (s := running i r t) h ms)

theorem raise_bind (h : t.hostQuiet = true) (e : ErrorKind) (info : Option Word) (ws : List RegWrite)
    (g : α → Body β) :
    (raise e info ws >>= g) (running i r t) = .error () (completed i r.fr (some e) info ws t) := by
  rw [body_bind_error (raise_of_quiet (s := running i r t) h e info ws), commit_takeBuscode_running]

theorem raiseStaged_bind (h : t.hostQuiet = true) (e : ErrorKind) (info : Option Word) (g : α → Body β) :
    (raiseStaged e info >>= g) (running i r t) = .error () (completed i r.fr (some e) info r.staged t) := by
  rw [body_bind_error (raiseStaged_of_quiet (s := running i r t) h e info), commit_takeBuscode_running]
  rfl

theorem rdAB_bind (h : t.hostQuiet = true) (reg : Byte) (n : Nat) (ws : List RegWrite) (g : List Byte → Body β)
    (hg : goesOn t.params (busAnswer pressAddr [reg] n t) = true) :
    (rdAB reg n ws >>= g) (running i r t) =
      g (answerBytes (busAnswer pressAddr [reg] n t))
        (running i { r with step := r.step + 1 } (afterXfer pressAddr [reg] n t)) :=
  body_bind_ok (rdAB_of_goesOn (s := running i r t) h reg n ws (goesOn_cases hg))

theorem rdAB_bind_of_nack (h : t.hostQuiet = true) (reg : Byte) (n : Nat) (ws : List RegWrite)
    (g : List Byte → Body β) {c : Word} {b : List Byte} (ha : busAnswer pressAddr [reg] n t = .nack c b)
    (hp : t.params.abBusPolicy = .abort) :
    (rdAB reg n ws >>= g) (running i r t) =
      .error () (completed i r.fr (some .busNack) (some c) ws (afterXfer pressAddr [reg] n t)) := by
  rw [body_bind_error (rdAB_of_nack (s := running i r t) h reg n ws ha hp), afterXfer_running, advance_running,
    commit_takeBuscode_running]

theorem rdByte_bind (h : t.hostQuiet = true) (reg : Byte) (g : Byte → Body β)
    (hg : goesOn t.params (busAnswer pressAddr [reg] 1 t) = true) :
    (rdByte reg >>= g) (running i r t) =
      g (answerByte (busAnswer pressAddr [reg] 1 t) 0)
        (running i { r with step := r.step + 1 } (afterXfer pressAddr [reg] 1 t)) := by
  simp only [rdByte, body_bind_assoc, rdAB_bind h reg 1 [] _ hg]
  rfl

theorem rdByte_bind_of_nack (h : t.hostQuiet = true) (reg : Byte) (g : Byte → Body β) {c : Word} {b : List Byte}
    (ha : busAnswer pressAddr [reg] 1 t = .nack c b) (hp : t.params.abBusPolicy = .abort) :
    (rdByte reg >>= g) (running i r t) =
      .error () (completed i r.fr (some .busNack) (some c) [] (afterXfer pressAddr [reg] 1 t)) := by
  simp only [rdByte, body_bind_assoc, rdAB_bind_of_nack h reg 1 [] _ ha hp]

theorem wrAB_bind (h : t.hostQuiet = true) (reg v : Byte) (ws : List RegWrite) (g : Unit → Body β)
    (hg : goesOn t.params (busAnswer pressAddr [reg, v] 0 t) = true) :
    (wrAB reg v ws >>= g) (running i r t) =
      g () (running i { r with step := r.step + 1 } (afterXfer pressAddr [reg, v] 0 t)) :=
  body_bind_ok (wrAB_of_goesOn (s := running i r t) h reg v ws (goesOn_cases hg))

theorem wrAB_bind_of_nack (h : t.hostQuiet = true) (reg v : Byte) (ws : List RegWrite) (g : Unit → Body β)
    {c : Word} {b : List Byte} (ha : busAnswer pressAddr [reg, v] 0 t = .nack c b)
    (hp : t.params.abBusPolicy = .abort) :
    (wrAB reg v ws >>= g) (running i r t) =
      .error () (completed i r.fr (some .busNack) (some c) ws (afterXfer pressAddr [reg, v] 0 t)) := by
  rw [body_bind_error (wrAB_of_nack (s := running i r t) h reg v ws ha hp), afterXfer_running, advance_running,
    commit_takeBuscode_running]

theorem compute_bind_of_ok (h : t.hostQuiet = true) {c : Calc α} (ws : List RegWrite) {a : α}
    {steps : List Bool} (hc : c [] = .ok a steps) (g : α → Body β) :
    (compute c ws >>= g) (running i r t) =
      g a (running i { r with step := r.step + 1 } (noteOvf (overflowed steps) t)) :=
  body_bind_ok (compute_of_ok (s := running i r t) h ws hc)

theorem compute_bind_of_error (h : t.hostQuiet = true) {c : Calc α} (ws : List RegWrite) {e : ErrorKind}
    {steps : List Bool} (hc : c [] = .error e steps) (g : α → Body β) :
    (compute c ws >>= g) (running i r t) =
      .error () (completed i r.fr (some e) none ws (noteOvf (overflowed steps) t)) := by
  rw [body_bind_error (compute_of_error (s := running i r t) h ws hc), noteOvf_running, advance_running, commit_running]

/-- A body that ends normally is committed (R125). -/
theorem runBody_running_of_ok {b : Body Unit} {s : State} (h : b s = .ok () (running i r t))
    (hq : t.hostQuiet = true) : runBody b s = completed i r.fr none none r.staged t := by
  rw [runBody_of_ok_quiet h hq, stagedOf_running, commit_running]

/-- A command launched at an idle block, whose body ends normally with no input due (R124, R125). -/
theorem launch_of_ok {b : Body Unit} {s : State} (h : b (running i (started i) s) = .ok () (running i r t))
    (hs : s.seq = none) (hq : t.hostQuiet = true) :
    launch i (runBody b) s = .next (completed i r.fr none none r.staged t) := by
  rw [launch_of_idle hs, accept_eq_running, runBody_running_of_ok h hq]

/-- A command launched at an idle block, whose body ends for good in u (R124, R19). -/
theorem launch_of_error {b : Body Unit} {s u : State} (h : b (running i (started i) s) = .error () u)
    (hs : s.seq = none) : launch i (runBody b) s = .next u := by
  rw [launch_of_idle hs, accept_eq_running, runBody_of_error h]

end

end Sys2Proof.Machine
end

