-- ==== Sys2Proof/Laws/BusOps.lean ====
section
/-! SUPPORT. `runOps`, the bus's side of a sequence of transactions and delays: how it runs, and what it leaves. -/

namespace Sys2Proof.Machine

section
variable {ops : List BusOp} {s t : State} {as : List BusAnswer}

/-- A transaction, then the rest. -/
theorem runOps_xfer_iff (dev : Dev) (w : List Byte) (n : Nat) :
    runOps (.xfer dev w n :: ops) s = (as, t) ↔
      ∃ rest, as = busAnswer dev w n s :: rest ∧ runOps ops (afterXfer dev w n s) = (rest, t) := by
  simp only [runOps, Prod.ext_iff]
  constructor
  · rintro ⟨rfl, rfl⟩
    exact ⟨_, rfl, rfl, rfl⟩
  · rintro ⟨_, rfl, rfl, rfl⟩
    exact ⟨rfl, rfl⟩

/-- A delay, then the rest. -/
theorem runOps_delay_iff (ms : Nat) :
    runOps (.delay ms :: ops) s = (as, t) ↔ runOps ops (afterDelay ms s) = (as, t) := Iff.rfl

theorem runOps_nil_iff : runOps [] s = (as, t) ↔ as = [] ∧ t = s := by
  simp only [runOps, Prod.ext_iff, eq_comm]

/-- One sequence after another. -/
theorem runOps_append (post : List BusOp) :
    runOps (ops ++ post) s =
      ((runOps ops s).1 ++ (runOps post (runOps ops s).2).1, (runOps post (runOps ops s).2).2) := by
  induction ops generalizing s with
  | nil => rfl
  | cons op ops ih => cases op <;> simp [runOps, ih]

/-- Every piece of the state but the bus's own is what it was. -/
theorem runOps_keeps {β : Type} (f : State → β) (hx : ∀ d w n u, f (afterXfer d w n u) = f u)
    (hd : ∀ ms u, f (afterDelay ms u) = f u) (h : runOps ops s = (as, t)) : f t = f s := by
  induction ops generalizing s as with
  | nil => rw [runOps_nil_iff] at h; rw [h.2]
  | cons op ops ih =>
    cases op with
    | xfer d w n =>
      obtain ⟨_, _, h'⟩ := (runOps_xfer_iff d w n).mp h
      rw [ih h', hx]
    | delay ms => rw [ih ((runOps_delay_iff ms).mp h), hd]

theorem runOps_seq (h : runOps ops s = (as, t)) : t.seq = s.seq :=
  runOps_keeps State.seq (fun _ _ _ _ => rfl) (fun _ _ => rfl) h

theorem runOps_params (h : runOps ops s = (as, t)) : t.params = s.params :=
  runOps_keeps State.params (fun _ _ _ _ => rfl) (fun _ _ => rfl) h

theorem runOps_hostQuiet (h : runOps ops s = (as, t)) : t.hostQuiet = s.hostQuiet :=
  runOps_keeps State.hostQuiet (fun _ _ _ _ => rfl) (fun _ _ => rfl) h

end

end Sys2Proof.Machine
end

