-- ==== Sys2Proof/Laws/Csr.lean ====
section
/-! SUPPORT. The CSR map (R32): which offset is which register, and what an idle block makes of an access. -/

namespace Sys2Proof.Machine

/-! ## The registers by their offsets -/

@[simp] theorem csrAt_cmd : csrAt 0x000#32 = some .cmd := rfl
@[simp] theorem csrAt_status : csrAt 0x004#32 = some .status := rfl
@[simp] theorem csrAt_result : csrAt 0x008#32 = some .result := rfl
@[simp] theorem csrAt_buscode : csrAt 0x00C#32 = some .buscode := rfl
@[simp] theorem csrAt_osscfg : csrAt 0x010#32 = some .osscfg := rfl
@[simp] theorem csrAt_id : csrAt 0x014#32 = some .id := rfl
@[simp] theorem csrAt_valT1 : csrAt 0x020#32 = some .valT1 := rfl
@[simp] theorem csrAt_valP : csrAt 0x024#32 = some .valP := rfl
@[simp] theorem csrAt_valT2 : csrAt 0x028#32 = some .valT2 := rfl
@[simp] theorem csrAt_valH : csrAt 0x02C#32 = some .valH := rfl
@[simp] theorem csrAt_rawT : csrAt 0x030#32 = some .rawT := rfl
@[simp] theorem csrAt_rawP : csrAt 0x034#32 = some .rawP := rfl
@[simp] theorem csrAt_b5 : csrAt 0x038#32 = some .b5 := rfl
@[simp] theorem csrAt_tfine : csrAt 0x03C#32 = some .tfine := rfl
@[simp] theorem csrAt_respW0 : csrAt 0x0D0#32 = some .respW0 := rfl
@[simp] theorem csrAt_respW1 : csrAt 0x0D4#32 = some .respW1 := rfl

/-! ## The map as a whole -/

theorem lookup_eq_none_of_lt {m : List (Nat × Csr)} {b n : Nat} (h : ∀ p ∈ m, p.1 < b) (hn : b ≤ n) :
    m.lookup n = none := by
  induction m with
  | nil => rfl
  | cons p m ih =>
    have hp : p.1 < b := h p (by simp)
    have hne : (n == p.1) = false := by simp; omega
    rw [List.lookup_cons]; simp only [hne]
    exact ih fun q hq => h q (by simp [hq])

/-- Past the last register every offset is reserved (R32). -/
theorem csrAt_of_ge (off : Word) (h : 0x0D8 ≤ off.toNat) : csrAt off = none :=
  lookup_eq_none_of_lt (b := 0x0D8) (by decide) h

/-- A property of the map that holds at each offset below 0x0D8 and at a reserved offset holds at every offset. -/
theorem csrAt_forall {P : Nat → Option Csr → Prop} (h : ∀ n, n < 0x0D8 → P n (csrMap.lookup n))
    (hr : ∀ n, 0x0D8 ≤ n → P n none) (off : Word) : P off.toNat (csrAt off) := by
  by_cases h0 : off.toNat < 0x0D8
  · exact h _ h0
  · rw [csrAt_of_ge off (by omega)]
    exact hr _ (by omega)

/-- CMD stands at offset 0 only. -/
theorem csrAt_eq_cmd_iff (off : Word) : csrAt off = some .cmd ↔ off.toNat = 0x000 :=
  csrAt_forall (P := fun n c => c = some .cmd ↔ n = 0x000) (by decide +kernel) (fun n hn => by simp; omega) off

/-- STATUS stands at offset 4 only. -/
theorem csrAt_eq_status_iff (off : Word) : csrAt off = some .status ↔ off.toNat = 0x004 :=
  csrAt_forall (P := fun n c => c = some .status ↔ n = 0x004) (by decide +kernel) (fun n hn => by simp; omega) off

/-- The registers that ignore a host write (R32, R36 to R38, R44, R45, R48, R49). -/
def Csr.readOnly : Csr → Bool
  | .cmd => false
  | .status => false
  | .result => true
  | .buscode => true
  | .osscfg => true
  | .id => true
  | .valT1 => false
  | .valP => false
  | .valT2 => false
  | .valH => false
  | .rawT => false
  | .rawP => false
  | .b5 => false
  | .tfine => false
  | .calA _ => true
  | .calB _ => true
  | .frameW _ => true
  | .respW0 => true
  | .respW1 => true

theorem csrWriteIdle_of_readOnly {c : Csr} (h : c.readOnly = true) (v : Word) (s : State) :
    csrWriteIdle c v s = s := by cases c <;> first | rfl | simp [Csr.readOnly] at h

/-- From 0x040 on the map holds read-only registers and reserved offsets only. -/
theorem hostWriteIdle_of_ge (off v : Word) (s : State) (h : 0x040 ≤ off.toNat) : hostWriteIdle off v s = s := by
  have hc := csrAt_forall (P := fun n c => 0x040 ≤ n → c.all Csr.readOnly = true) (by decide +kernel)
    (fun _ _ _ => rfl) off h
  unfold hostWriteIdle
  split
  · rename_i c heq
    rw [heq] at hc
    exact csrWriteIdle_of_readOnly hc v s
  · rfl

/-- The holes of the map (R32). -/
theorem csrAt_of_hole (off : Word) (h : off.toNat = 0x018 ∨ off.toNat = 0x01C ∨
    (0x06C ≤ off.toNat ∧ off.toNat < 0x080) ∨ (0x0B0 ≤ off.toNat ∧ off.toNat < 0x0C0) ∨ 0x0D8 ≤ off.toNat) :
    csrAt off = none :=
  csrAt_forall (P := fun n c => (n = 0x018 ∨ n = 0x01C ∨ (0x06C ≤ n ∧ n < 0x080) ∨ (0x0B0 ≤ n ∧ n < 0x0C0) ∨
    0x0D8 ≤ n) → c = none) (by decide +kernel) (fun _ _ _ => rfl) off h

theorem csrAt_of_calA {off : Word} {i : Nat} (hi : i < 11) (h : off.toNat = 0x040 + 4 * i) :
    csrAt off = some (.calA i) := by
  unfold csrAt; rw [h]; interval_cases i <;> rfl

theorem csrAt_of_calB {off : Word} {i : Nat} (hi : i < 12) (h : off.toNat = 0x080 + 4 * i) :
    csrAt off = some (.calB i) := by
  unfold csrAt; rw [h]; interval_cases i <;> rfl

theorem csrAt_of_frameW {off : Word} {j : Nat} (hj : j < 4) (h : off.toNat = 0x0C0 + 4 * j) :
    csrAt off = some (.frameW j) := by
  unfold csrAt; rw [h]; interval_cases j <;> rfl

/-! ## A host write that reaches a running command (R53) -/

@[simp] theorem hostWriteBusy_status (v : Word) (s : State) : hostWriteBusy 0x004#32 v s = clearW1C v s := rfl

/-- Any other offset of the CSR space: the write is dropped. -/
theorem hostWriteBusy_of_ne_status {off : Word} (h : off ≠ 0x004#32) (hl : off.toNat < csrSpaceLen) (v : Word)
    (s : State) : hostWriteBusy off v s = dropWrite s := by
  have hc : csrAt off ≠ some .status := fun hc =>
    h (BitVec.eq_of_toNat_eq ((csrAt_eq_status_iff off).mp hc))
  simp only [hostWriteBusy, hc, if_false, hl, if_true]

/-- Past the end of the CSR space there is no CSR to write (R80). -/
theorem hostWriteBusy_of_ge {off : Word} (h : csrSpaceLen ≤ off.toNat) (v : Word) (s : State) :
    hostWriteBusy off v s = s := by
  have hc : csrAt off = none := csrAt_of_ge off (Nat.le_trans (by decide) h)
  simp only [hostWriteBusy, hc, reduceCtorEq, if_false, Nat.not_lt.mpr h]

/-! ## Host addresses (R80) -/

@[simp] theorem access_reach (p : Params) (a : HostAccess) : (Event.access a).reach p = .csr a := rfl
@[simp] theorem reset_reach (p : Params) : Event.reset.reach p = .reset := rfl

/-- Only a reset is a reset to the block. -/
theorem eq_reset_of_reach {p : Params} {e : Event} (h : e.reach p = .reset) : e = .reset := by
  cases e with
  | reset => rfl
  | access a => cases h
  | memory m => cases m <;> simp only [Event.reach, MemAccess.reach] at h <;> split at h <;> cases h

/-- The host address of an offset of the CSR space has that offset. -/
theorem csrOffset_of_offset (p : Params) (off : Word) : csrOffset p (p.csrBase + off.toNat) = off := by
  unfold csrOffset
  rw [show ((p.csrBase + off.toNat : Nat) : Int) - p.csrBase = (off.toNat : Int) by omega]
  exact BitVec.eq_of_toNat_eq (by simp)

/-- An access that starts in the CSR space meets it. -/
theorem meetsCsr_of_offset (p : Params) (size : AccessSize) (off : Word) (h : off.toNat < csrSpaceLen) :
    meetsCsr p size (p.csrBase + off.toNat) = true := by
  simp only [meetsCsr, Bool.and_eq_true, decide_eq_true_eq]
  cases size <;> simp only [AccessSize.bytes] <;> omega

/-- A store at the host address of an offset of the CSR space is the store at that offset (R80). -/
theorem store_reach (p : Params) (size : AccessSize) (off v : Word) (h : off.toNat < csrSpaceLen) :
    (Event.memory (.store size (p.csrBase + off.toNat) v)).reach p = .csr (.write size off v) := by
  simp only [Event.reach, MemAccess.reach, meetsCsr_of_offset p size off h, csrOffset_of_offset, if_true]

/-- A load at the host address of an offset of the CSR space is the load at that offset (R80). -/
theorem load_reach (p : Params) (size : AccessSize) (off : Word) (h : off.toNat < csrSpaceLen) :
    (Event.memory (.load size (p.csrBase + off.toNat))).reach p = .csr (.read size off) := by
  simp only [Event.reach, MemAccess.reach, meetsCsr_of_offset p size off h, csrOffset_of_offset, if_true]

/-- A host access with no byte in the CSR space is none of the block's (R80). -/
theorem meetsCsr_of_outside (p : Params) (size : AccessSize) (addr : Nat)
    (h : addr + size.bytes ≤ p.csrBase ∨ p.csrBase + csrSpaceLen ≤ addr) : meetsCsr p size addr = false := by
  simp only [meetsCsr, Bool.and_eq_false_iff, decide_eq_false_iff_not]
  omega

/-- The host addresses of R82's aligned accesses are those at offsets that are multiples of 4. -/
theorem csrOffset_aligned_iff (p : Params) (addr : Nat) :
    (csrOffset p addr).extractLsb' 0 2 = 0#2 ↔ ((addr : Int) - p.csrBase) % 4 = 0 := by
  have h : ((csrOffset p addr).toNat : Int) = ((addr : Int) - p.csrBase) % (2 ^ 32 : Nat) := by
    simp only [csrOffset, BitVec.toNat_ofInt]
    omega
  rw [← BitVec.toNat_inj, BitVec.extractLsb'_toNat]
  simp only [Nat.shiftRight_zero, BitVec.toNat_ofNat]
  omega

/-- An access with a byte in the CSR space that is not an aligned 32-bit one is an unsupported access of the CSR space
(R80, R82). -/
theorem memory_reach_unsupported (p : Params) (size : AccessSize) (addr : Nat) (v : Word)
    (hlo : p.csrBase < addr + size.bytes) (hhi : addr < p.csrBase + csrSpaceLen)
    (h : size ≠ .word ∨ ((addr : Int) - p.csrBase) % 4 ≠ 0) :
    (∃ a, (Event.memory (.store size addr v)).reach p = .csr a ∧ a.supported = false) ∧
    (∃ a, (Event.memory (.load size addr)).reach p = .csr a ∧ a.supported = false) := by
  have hm : meetsCsr p size addr = true := by simp only [meetsCsr, hlo, hhi, decide_true, Bool.and_self]
  have hs : (size == .word && (csrOffset p addr).extractLsb' 0 2 == 0#2) = false := by
    simp only [Bool.and_eq_false_iff, beq_eq_false_iff_ne]
    exact h.imp_right (mt (csrOffset_aligned_iff p addr).mp)
  exact ⟨⟨.write size (csrOffset p addr) v, by simp only [Event.reach, MemAccess.reach, hm, if_true], hs⟩,
    ⟨.read size (csrOffset p addr), by simp only [Event.reach, MemAccess.reach, hm, if_true], hs⟩⟩

/-- An unsupported access stays at the head of the list, and the running command goes on (R82,
notes/assumptions/15.md). -/
theorem slot_of_unsupported {s : State} {e : Event} {a : HostAccess} {rest : List Input}
    (hi : s.inputs = ⟨.after 0, e⟩ :: rest) (hr : e.reach s.params = .csr a) (ha : a.supported = false) :
    slot s = .ok () s := by
  simp only [slot, hi, serveInputs, hr, ha, Bool.false_eq_true, if_false]

/-! ## The idle block -/

/-- An idle block serves the head of its input list. -/
theorem idleStep_cons {s : State} {it : Input} {rest : List Input} (h : s.inputs = it :: rest) :
    idleStep s = takeInput it.event (setInputs rest s) := by simp only [idleStep, h]

/-- A supported access is an aligned 32-bit one (R82). -/
theorem supported_write (off v : Word) (h : off.extractLsb' 0 2 = 0#2) :
    (HostAccess.write .word off v).supported = true := by simp [HostAccess.supported, h]

theorem supported_read (off : Word) (h : off.extractLsb' 0 2 = 0#2) :
    (HostAccess.read .word off).supported = true := by simp [HostAccess.supported, h]

end Sys2Proof.Machine
end

