-- ==== Sys2Proof/Laws/Decode.lean ====
section
/-! SUPPORT. The fields of an encoded word in each format, a word put together from its fields, and what the opcode
table says of a format. -/

namespace Sys2Proof

open BitVec (extractLsb'_append_eq_of_le extractLsb'_append_eq_of_add_le extractLsb'_eq_self)

/-! ## The fields of an encoded word (R120 to R122) -/

section
variable (op : Byte) (dev : Dev) (reg data setting : Byte)

@[simp] theorem opField_encodeN : opField (encodeN op) = op := by
  unfold opField encodeN
  erw [extractLsb'_append_eq_of_le (by decide)]
  exact extractLsb'_eq_self

@[simp] theorem low_encodeN : (encodeN op).extractLsb' 0 24 = 0#24 := by
  unfold encodeN
  erw [extractLsb'_append_eq_of_add_le (by decide)]
  exact extractLsb'_eq_self

@[simp] theorem opField_encodeRW : opField (encodeRW op dev reg data) = op := by
  unfold opField encodeRW
  erw [extractLsb'_append_eq_of_le (by decide), extractLsb'_append_eq_of_le (by decide),
    extractLsb'_append_eq_of_le (by decide), extractLsb'_append_eq_of_le (by decide)]
  exact extractLsb'_eq_self

@[simp] theorem bit23Field_encodeRW : bit23Field (encodeRW op dev reg data) = 0#1 := by
  unfold bit23Field encodeRW
  erw [extractLsb'_append_eq_of_le (by decide), extractLsb'_append_eq_of_le (by decide),
    extractLsb'_append_eq_of_le (by decide), extractLsb'_append_eq_of_add_le (by decide)]
  exact extractLsb'_eq_self

@[simp] theorem devField_encodeRW : devField (encodeRW op dev reg data) = dev := by
  unfold devField encodeRW
  erw [extractLsb'_append_eq_of_le (by decide), extractLsb'_append_eq_of_le (by decide),
    extractLsb'_append_eq_of_add_le (by decide)]
  exact extractLsb'_eq_self

@[simp] theorem regField_encodeRW : regField (encodeRW op dev reg data) = reg := by
  unfold regField encodeRW
  erw [extractLsb'_append_eq_of_le (by decide), extractLsb'_append_eq_of_add_le (by decide)]
  exact extractLsb'_eq_self

@[simp] theorem dataField_encodeRW : dataField (encodeRW op dev reg data) = data := by
  unfold dataField encodeRW
  erw [extractLsb'_append_eq_of_add_le (by decide)]
  exact extractLsb'_eq_self

/-- Format RR is format RW with DATA = 0 (R121). -/
theorem encodeRR_eq : encodeRR op dev reg = encodeRW op dev reg 0#8 := rfl

@[simp] theorem opField_encodeCA : opField (encodeCA op setting) = op := by
  unfold opField encodeCA
  erw [extractLsb'_append_eq_of_le (by decide), extractLsb'_append_eq_of_le (by decide)]
  exact extractLsb'_eq_self

@[simp] theorem mid_encodeCA : (encodeCA op setting).extractLsb' 8 16 = 0#16 := by
  unfold encodeCA
  erw [extractLsb'_append_eq_of_le (by decide), extractLsb'_append_eq_of_add_le (by decide)]
  exact extractLsb'_eq_self

@[simp] theorem dataField_encodeCA : dataField (encodeCA op setting) = setting := by
  unfold dataField encodeCA
  erw [extractLsb'_append_eq_of_add_le (by decide)]
  exact extractLsb'_eq_self

end

/-! ## A word put together from its fields -/

/-- Two neighbouring fields of a word are one field. -/
theorem extractLsb'_split (w : Word) (lo a b : Nat) :
    w.extractLsb' lo (a + b) = w.extractLsb' (lo + b) a ++ w.extractLsb' lo b := by
  apply BitVec.eq_of_getLsbD_eq
  intro i hi
  rw [BitVec.getLsbD_append]
  simp only [BitVec.getLsbD_extractLsb', hi, decide_true, Bool.true_and]
  split
  · simp [*]
  · have h1 : i - b < a := by omega
    have h2 : lo + b + (i - b) = lo + i := by omega
    simp [h1, h2]

theorem word_eq_n (w : Word) : w = opField w ++ w.extractLsb' 0 24 :=
  extractLsb'_eq_self.symm.trans (extractLsb'_split w 0 8 24)

theorem word_eq_ca (w : Word) : w = opField w ++ w.extractLsb' 8 16 ++ dataField w :=
  extractLsb'_eq_self.symm.trans ((extractLsb'_split w 0 24 8).trans
    (congrArg (· ++ dataField w) (extractLsb'_split w 8 8 16)))

theorem word_eq_rw (w : Word) : w = opField w ++ bit23Field w ++ devField w ++ regField w ++ dataField w := by
  refine extractLsb'_eq_self.symm.trans ((extractLsb'_split w 0 24 8).trans (congrArg (· ++ dataField w) ?_))
  refine (extractLsb'_split w 8 16 8).trans (congrArg (· ++ regField w) ?_)
  refine (extractLsb'_split w 16 9 7).trans (congrArg (· ++ devField w) ?_)
  exact extractLsb'_split w 23 8 1

/-! ## The opcode table (R123) -/

/-- The commands of a format, encoded, are the words of that format with the table's opcode. -/
def Format.encodesAs (op : Byte) : Format → Prop
  | .n i => encode i = encodeN op
  | .rr f => ∀ dev reg, encode (f dev reg) = encodeRR op dev reg
  | .rw f => ∀ dev reg data, encode (f dev reg data) = encodeRW op dev reg data
  | .ca f => ∀ setting, encode (f setting) = encodeCA op setting

theorem formatOf_encodesAs {op : Byte} {f : Format} (h : formatOf op = some f) : f.encodesAs op := by
  have key : ∀ k : Nat, op.toNat = k → op = BitVec.ofNat 8 k := fun k hk => by rw [← hk]; simp
  unfold formatOf at h
  split at h <;> simp only [Option.some.injEq, reduceCtorEq] at h <;> subst h <;>
    (rename_i heq; rw [key _ heq]
     first | rfl | exact fun _ => rfl | exact fun _ _ => rfl | exact fun _ _ _ => rfl)

end Sys2Proof
end

