-- ==== Sys2Proof/Laws/Framed.lean ====
section
/-! SUPPORT. The framed read with no input due: on each of its five ways (`FramedPath`) what it answers and what it
leaves, said once for the three commands that run it. -/

namespace Sys2Proof.Machine

/-- The protocol states l added to the log of t. -/
def passAll (l : List FrState) (t : State) : State := { t with frLog := t.frLog ++ l }

section
variable (l : List FrState) (t : State)

theorem passAll_nil : passAll [] t = t := by simp [passAll]
@[simp] theorem passFr_passAll (f : FrState) : passFr f (passAll l t) = passAll (l ++ [f]) t := by
  simp [passFr, passAll]
@[simp] theorem passAll_hostQuiet : (passAll l t).hostQuiet = t.hostQuiet := rfl
@[simp] theorem passAll_params : (passAll l t).params = t.params := rfl
@[simp] theorem busAnswer_passAll (dev : Dev) (w : List Byte) (n : Nat) :
    busAnswer dev w n (passAll l t) = busAnswer dev w n t := rfl
@[simp] theorem afterXfer_passAll (dev : Dev) (w : List Byte) (n : Nat) :
    afterXfer dev w n (passAll l t) = passAll l (afterXfer dev w n t) := rfl
@[simp] theorem afterDelay_passAll (ms : Nat) : afterDelay ms (passAll l t) = passAll l (afterDelay ms t) := rfl
@[simp] theorem passFr_running (f : FrState) (i : Instr) (r : Running) :
    passFr f (running i r t) = running i r (passFr f t) := rfl

end

section
variable {i : Instr} {r : Running} {t : State} {l : List FrState} {dev : Dev} {reg : Byte}

/-- fr moves on a running command (R192). -/
theorem setFr_bind_passAll {β : Type} (f : FrState) (g : Unit → Body β) :
    (setFr f >>= g) (running i r (passAll l t)) =
      g () (running i { r with fr := f } (passAll (l ++ [f]) t)) := by
  rw [setFr_bind, passFr_running, passFr_passAll, onSeq_running]

/-- A Nack that ends the protocol (R191). -/
theorem framedNack_run (c : Word) :
    framedNack c (running i r (passAll l t)) =
      .ok ⟨0xFFFF, some (.busNack, some c), none⟩
        (running i { r with fr := .fault } (passAll (l ++ [.fault]) t)) := by
  unfold framedNack
  rw [setFr_bind_passAll]
  rfl

/-- A valid response (R191, R194). -/
theorem framedValidate_run_ok {b : List Byte} {v : Half} (h : validateResponse b = .ok v) :
    framedValidate b (running i r (passAll l t)) =
      .ok ⟨v, none, some (Resp.ofBytes b)⟩
        (running i { r with fr := .done } (passAll (l ++ [.validate, .done]) t)) := by
  unfold framedValidate
  rw [setFr_bind_passAll]
  simp only [h]
  rw [setFr_bind_passAll]
  simp

/-- A response that a check rejects (R191, R194). -/
theorem framedValidate_run_error {b : List Byte} {e : ErrorKind} (h : validateResponse b = .error e) :
    framedValidate b (running i r (passAll l t)) =
      .ok ⟨0xFFFF, some (e, none), some (Resp.ofBytes b)⟩
        (running i { r with fr := .fault } (passAll (l ++ [.validate, .fault]) t)) := by
  unfold framedValidate
  rw [setFr_bind_passAll]
  simp only [h]
  rw [setFr_bind_passAll]
  simp [sentinelRaw]

/-- The response read (R191). -/
theorem framedResponse_run (h : t.hostQuiet = true) :
    framedResponse dev (running i r (passAll l t)) =
      (match busAnswer dev [] 6 t with
        | .nack c _ => framedNack c
        | .ack b => framedValidate b : Body Framed)
        (running i ⟨r.cmd, r.step + 1, .responseRead, r.staged, r.pollCount⟩
          (passAll (l ++ [.responseRead]) (afterXfer dev [] 6 t))) := by
  unfold framedResponse
  rw [setFr_bind_passAll, xfer_bind (by simpa using h)]
  simp only [busAnswer_passAll, afterXfer_passAll] <;> (cases busAnswer dev [] 6 t <;> rfl)

/-- The command-frame write that is acknowledged, and the wait after it (R191). -/
theorem framedRequest_run_ack (h : t.hostQuiet = true) {b0 : List Byte}
    (ha : busAnswer dev [0x03, reg, 0x02] 0 t = .ack b0) :
    framedRequest dev reg (running i r (passAll l t)) =
      framedResponse dev (running i ⟨r.cmd, r.step + 1 + 1, .waitCmd, r.staged, r.pollCount⟩
        (passAll (l ++ [.commandFrameWrite, .waitCmd]) (afterDelay 2 (afterXfer dev [0x03, reg, 0x02] 0 t)))) := by
  unfold framedRequest
  have hc : [fcRead, reg, frLen] = [0x03, reg, 0x02] := rfl
  rw [setFr_bind_passAll, hc, xfer_bind (by simpa using h)]
  simp only [busAnswer_passAll, afterXfer_passAll, ha]
  rw [setFr_bind_passAll, delay_bind (by simpa using h)]
  simp [tCmdMs]

/-- The command-frame write that is refused (R191). -/
theorem framedRequest_run_nack (h : t.hostQuiet = true) {c : Word} {b : List Byte}
    (ha : busAnswer dev [0x03, reg, 0x02] 0 t = .nack c b) :
    framedRequest dev reg (running i r (passAll l t)) =
      framedNack c (running i ⟨r.cmd, r.step + 1, .commandFrameWrite, r.staged, r.pollCount⟩
        (passAll (l ++ [.commandFrameWrite]) (afterXfer dev [0x03, reg, 0x02] 0 t))) := by
  unfold framedRequest
  have hc : [fcRead, reg, frLen] = [0x03, reg, 0x02] := rfl
  rw [setFr_bind_passAll, hc, xfer_bind (by simpa using h)]
  simp only [busAnswer_passAll, afterXfer_passAll, ha]

/-- The wake write that lets the protocol go on, and the wait after it (R191). -/
theorem framedRead_run_awake (h : t.hostQuiet = true) (hw : wakeGoesOn dev t = true) :
    framedRead dev reg (running i r t) =
      framedRequest dev reg (running i ⟨r.cmd, r.step + 1 + 1, .waitWake, r.staged, r.pollCount⟩
        (passAll [.wakeWrite, .waitWake] (beforeRequest dev t))) := by
  have key : (framedAwake dev reg)
      (running i { { r with fr := .wakeWrite } with step := r.step + 1 }
        (passAll [.wakeWrite] (afterXfer dev t.params.wakeBytes 0 t))) =
      framedRequest dev reg (running i ⟨r.cmd, r.step + 1 + 1, .waitWake, r.staged, r.pollCount⟩
        (passAll [.wakeWrite, .waitWake] (beforeRequest dev t))) := by
    unfold framedAwake
    rw [setFr_bind_passAll, delay_bind (by simpa using h)]
    simp [tWakeMs, beforeRequest, afterWake]
  unfold framedRead
  rw [regOf_bind, ← passAll_nil t, setFr_bind_passAll, xfer_bind (by simpa using h)]
  simp only [running_params, busAnswer_passAll, afterXfer_passAll, List.nil_append, passAll_nil]
  unfold wakeGoesOn at hw
  cases ha : busAnswer dev t.params.wakeBytes 0 t with
  | ack b => exact key
  | nack c b =>
    have hp : t.params.wakeNackPolicy = .ignore := by simpa [ha, isNack] using hw
    simp only [hp]
    exact key

/-- FramedRead on each of its ways: what it answers, and that it leaves the bus and the protocol log as the way
says (R191, R192). -/
theorem framedRead_of_path {s : State} {f : Framed} {log : List FrState} (h : s.hostQuiet = true)
    (hp : FramedPath dev reg s t f log) :
    ∃ n fr, framedRead dev reg (running i r s) =
      .ok f (running i ⟨r.cmd, n, fr, r.staged, r.pollCount⟩ (passAll log t)) ∧ fr ≠ .idle := by
  cases hp with
  | wakeNack c b ha hw =>
    refine ⟨r.step + 1, .fault, ?_, by simp⟩
    unfold framedRead
    rw [regOf_bind, ← passAll_nil s, setFr_bind_passAll, xfer_bind (by simpa using h)]
    simp only [running_params, busAnswer_passAll, afterXfer_passAll, List.nil_append, passAll_nil,
      ha, hw]
    rw [framedNack_run]
    rfl
  | requestNack c b hw ha =>
    refine ⟨r.step + 1 + 1 + 1, .fault, ?_, by simp⟩
    rw [framedRead_run_awake h hw, framedRequest_run_nack (by exact h) ha, framedNack_run]
    rfl
  | responseNack b0 c b hw h0 ha =>
    refine ⟨r.step + 1 + 1 + 1 + 1 + 1, .fault, ?_, by simp⟩
    rw [framedRead_run_awake h hw, framedRequest_run_ack (by exact h) h0, framedResponse_run (by exact h)]
    simp only [beforeResponse, afterRequest] at ha
    simp only [ha]
    rw [framedNack_run]
    rfl
  | invalid b0 b e hw h0 ha hv =>
    refine ⟨r.step + 1 + 1 + 1 + 1 + 1, .fault, ?_, by simp⟩
    rw [framedRead_run_awake h hw, framedRequest_run_ack (by exact h) h0, framedResponse_run (by exact h)]
    simp only [beforeResponse, afterRequest] at ha
    simp only [ha]
    rw [framedValidate_run_error hv]
    rfl
  | valid b0 b v hw h0 ha hv =>
    refine ⟨r.step + 1 + 1 + 1 + 1 + 1, .done, ?_, by simp⟩
    rw [framedRead_run_awake h hw, framedRequest_run_ack (by exact h) h0, framedResponse_run (by exact h)]
    simp only [beforeResponse, afterRequest] at ha
    simp only [ha]
    rw [framedValidate_run_ok hv]
    rfl

/-- The framed read touches nothing but the bus: the trace, the answers to come, BUSERR_SEEN (R191). -/
theorem seq_of_path {s : State} {f : Framed} {log : List FrState} (hp : FramedPath dev reg s t f log) :
    t.seq = s.seq := by
  cases hp <;> simp [afterResponse, beforeResponse, afterRequest, beforeRequest, afterWake]

theorem inputs_of_path {s : State} {f : Framed} {log : List FrState} (hp : FramedPath dev reg s t f log) :
    t.inputs = s.inputs := by
  cases hp <;> simp [afterResponse, beforeResponse, afterRequest, beforeRequest, afterWake]

theorem resp_of_path {s : State} {f : Framed} {log : List FrState} (hp : FramedPath dev reg s t f log) :
    t.resp = s.resp := by
  cases hp <;> simp [afterResponse, beforeResponse, afterRequest, beforeRequest, afterWake]

theorem frLog_of_path {s : State} {f : Framed} {log : List FrState} (hp : FramedPath dev reg s t f log) :
    t.frLog = s.frLog := by
  cases hp <;> simp [afterResponse, beforeResponse, afterRequest, beforeRequest, afterWake]

theorem hostQuiet_of_path {s : State} {f : Framed} {log : List FrState} (hp : FramedPath dev reg s t f log)
    (h : s.hostQuiet = true) : t.hostQuiet = true := by
  rw [hostQuiet_congr (inputs_of_path hp), h]

/-- A framed read without an error has received a response (R191). -/
theorem resp_received_of_path {s : State} {f : Framed} {log : List FrState} (hp : FramedPath dev reg s t f log)
    (h : f.e = none) : f.b ≠ none := by
  cases hp <;> simp at h ⊢

end

end Sys2Proof.Machine
end

