-- ==== Sys2Proof/Laws/Memory.lean ====
section
/-! SUPPORT. The laws of the frame memory: a read after a write, and that every operation keeps the canonical form. -/

namespace Sys2Proof.Machine

theorem find_insert (a c : Nat) (b : Byte) (m : Memory) :
    Memory.find c (Memory.insert a b m) = if c = a then some b else Memory.find c m := by
  induction m with
  | nil => simp [Memory.insert, Memory.find, eq_comm]
  | cons h m ih =>
    obtain ⟨x, y⟩ := h
    simp only [Memory.insert]
    split
    · by_cases hc : c = a
      · simp [Memory.find, hc]
      · simp [Memory.find, hc, Ne.symm hc]
    · split
      · subst_vars
        by_cases hc : c = x
        · simp [Memory.find, hc]
        · simp [Memory.find, hc, Ne.symm hc]
      · simp only [Memory.find, ih]
        by_cases hx : x = c
        · subst hx; simp_all [eq_comm]
        · simp [hx]

theorem find_erase (a c : Nat) (m : Memory) :
    Memory.find c (Memory.erase a m) = if c = a then none else Memory.find c m := by
  induction m with
  | nil => simp [Memory.erase, Memory.find]
  | cons h m ih =>
    obtain ⟨x, y⟩ := h
    simp only [Memory.erase]
    split
    · subst_vars
      rw [ih]
      by_cases hc : c = x
      · simp [hc]
      · simp [Memory.find, hc, Ne.symm hc]
    · simp only [Memory.find, ih]
      by_cases hx : x = c
      · subst hx; simp_all
      · simp [hx]

/-- What one byte reads as after a byte is written (R97). -/
theorem read_write (p : Params) (m : Memory) (a c : Nat) (b : Byte) (ha : a < frameLen) :
    Memory.read p (Memory.write p m a b) c = if c = a then b else Memory.read p m c := by
  have h0 : ¬ frameLen ≤ a := by omega
  simp only [Memory.write, h0, if_false]
  split
  · subst_vars; simp only [Memory.read, find_erase]; by_cases hc : c = a <;> simp [hc]
  · simp only [Memory.read, find_insert]; by_cases hc : c = a <;> simp [hc]

/-- A write past the end of the frame changes nothing. -/
theorem write_outside (p : Params) (m : Memory) (a : Nat) (b : Byte) (ha : frameLen ≤ a) :
    Memory.write p m a b = m := by simp [Memory.write, ha]

theorem above_of_le {x y : Nat} {m : Memory} (h : Memory.above y m = true) (hxy : x ≤ y) :
    Memory.above x m = true := by
  induction m with
  | nil => rfl
  | cons c m ih =>
    obtain ⟨z, _⟩ := c
    simp only [Memory.above, Bool.and_eq_true, decide_eq_true_eq] at h ⊢
    exact ⟨by omega, ih h.2⟩

theorem above_insert {x a : Nat} {b : Byte} {m : Memory} (h : Memory.above x m = true) (hxa : x < a) :
    Memory.above x (Memory.insert a b m) = true := by
  induction m with
  | nil => simp [Memory.insert, Memory.above, hxa]
  | cons c m ih =>
    obtain ⟨z, _⟩ := c
    simp only [Memory.above, Bool.and_eq_true, decide_eq_true_eq] at h
    simp only [Memory.insert]
    split
    · simp [Memory.above, hxa, h.1, h.2]
    · split <;> simp [Memory.above, hxa, h.1, h.2, ih]

theorem above_erase {x a : Nat} {m : Memory} (h : Memory.above x m = true) :
    Memory.above x (Memory.erase a m) = true := by
  induction m with
  | nil => rfl
  | cons c m ih =>
    obtain ⟨z, _⟩ := c
    simp only [Memory.above, Bool.and_eq_true, decide_eq_true_eq] at h
    simp only [Memory.erase]
    split
    · exact ih h.2
    · simp [Memory.above, h.1, ih h.2]

theorem wf_insert {p : Params} {a : Nat} {b : Byte} {m : Memory} (h : Memory.wf p m = true) (ha : a < frameLen)
    (hb : b ≠ frameInit p a) : Memory.wf p (Memory.insert a b m) = true := by
  induction m with
  | nil => simp [Memory.insert, Memory.wf, Memory.above, ha, hb]
  | cons c m ih =>
    obtain ⟨z, y⟩ := c
    simp only [Memory.wf, Bool.and_eq_true, decide_eq_true_eq] at h
    obtain ⟨⟨⟨hz, hy⟩, hab⟩, hwf⟩ := h
    simp only [Memory.insert]
    split
    · rename_i hlt
      simp [Memory.wf, Memory.above, ha, hb, hz, hy, hab, hwf, hlt, above_of_le hab (Nat.le_of_lt hlt)]
    · split
      · subst_vars; simp [Memory.wf, ha, hb, hab, hwf]
      · have hlt : z < a := by omega
        simp [Memory.wf, hz, hy, ih hwf, above_insert hab hlt]

theorem wf_erase {p : Params} {a : Nat} {m : Memory} (h : Memory.wf p m = true) :
    Memory.wf p (Memory.erase a m) = true := by
  induction m with
  | nil => rfl
  | cons c m ih =>
    obtain ⟨z, y⟩ := c
    simp only [Memory.wf, Bool.and_eq_true, decide_eq_true_eq] at h
    obtain ⟨⟨⟨hz, hy⟩, hab⟩, hwf⟩ := h
    simp only [Memory.erase]
    split
    · exact ih hwf
    · simp [Memory.wf, hz, hy, ih hwf, above_erase hab]

/-- A write keeps the canonical form. -/
theorem wf_write {p : Params} {m : Memory} (a : Nat) (b : Byte) (h : Memory.wf p m = true) :
    Memory.wf p (Memory.write p m a b) = true := by
  unfold Memory.write
  split
  · exact h
  · split
    · exact wf_erase h
    · rename_i h1 h2
      exact wf_insert h (Nat.lt_of_not_le h1) h2

/-- MemWrite keeps the canonical form. -/
theorem wf_writeLE {p : Params} (i n : Nat) (v : Word) {m : Memory} (h : Memory.wf p m = true) :
    Memory.wf p (Memory.writeLE p i n v m) = true := by
  induction n generalizing i v m with
  | zero => exact h
  | succ n ih => exact ih _ _ (wf_write _ _ h)

/-- A byte that MemWrite does not write reads as before (R97). -/
theorem read_writeLE_of_outside (p : Params) (i n : Nat) (v : Word) (m : Memory) (a : Nat)
    (ha : a < i ∨ i + n ≤ a) : Memory.read p (Memory.writeLE p i n v m) a = Memory.read p m a := by
  induction n generalizing i v m with
  | zero => rfl
  | succ n ih =>
    rw [Memory.writeLE, ih _ _ _ (by omega)]
    by_cases hi : i < frameLen
    · rw [read_write _ _ _ _ _ hi, if_neg (by omega)]
    · rw [write_outside _ _ _ _ (by omega)]

/-- The reset memory is in canonical form. -/
theorem wf_reset (p : Params) : Memory.wf p (State.resetWith p).frame = true := rfl

end Sys2Proof.Machine
end

