-- ==== Sys2Proof/Laws/PerInstr.lean ====
section
/-! SUPPORT. The family EncodeRow: the word of every command has, under the mask of its row, the row's match bits
(R123). -/

namespace Sys2Proof.Laws

/-- Masking works field by field. -/
theorem and_append_fields {m n : Nat} (a c : BitVec m) (b d : BitVec n) :
    (a ++ b) &&& (c ++ d) = (a &&& c) ++ (b &&& d) := by
  ext i hi; simp only [BitVec.getElem_and, BitVec.getElem_append]; split <;> simp

theorem encodeRR_and_mask (op : Byte) (dev : Dev) (reg : Byte) :
    encodeRR op dev reg &&& 0xFF8000FF#32 = op ++ 0#1 ++ 0#7 ++ 0#8 ++ 0#8 := by
  have h : (0xFF8000FF#32) = 0xFF#8 ++ 1#1 ++ 0#7 ++ 0#8 ++ 0xFF#8 := by decide
  rw [h, encodeRR]
  erw [and_append_fields, and_append_fields, and_append_fields, and_append_fields]
  have h8 : op &&& 0xFF#8 = op := BitVec.and_allOnes
  rw [h8, BitVec.and_zero, BitVec.and_zero, BitVec.zero_and, BitVec.zero_and]

theorem encodeRW_and_mask (op : Byte) (dev : Dev) (reg data : Byte) :
    encodeRW op dev reg data &&& 0xFF800000#32 = op ++ 0#1 ++ 0#7 ++ 0#8 ++ 0#8 := by
  have h : (0xFF800000#32) = 0xFF#8 ++ 1#1 ++ 0#7 ++ 0#8 ++ 0#8 := by decide
  rw [h, encodeRW]
  erw [and_append_fields, and_append_fields, and_append_fields, and_append_fields]
  have h8 : op &&& 0xFF#8 = op := BitVec.and_allOnes
  rw [h8, BitVec.and_zero, BitVec.and_zero, BitVec.and_zero, BitVec.zero_and]

theorem encodeCA_and_mask (op setting : Byte) : encodeCA op setting &&& 0xFFFFFF00#32 = op ++ 0#16 ++ 0#8 := by
  have h : (0xFFFFFF00#32) = 0xFF#8 ++ 0xFFFF#16 ++ 0#8 := by decide
  rw [h, encodeCA]
  erw [and_append_fields, and_append_fields]
  have h8 : op &&& 0xFF#8 = op := BitVec.and_allOnes
  rw [h8, BitVec.and_zero, BitVec.zero_and]

/-- The word of the command i belongs to the row of i. -/
def EncodeRow.Statement (i : Instr) : Prop := encode i &&& i.row.mask = i.row.matchBits

theorem EncodeRow.nop : EncodeRow.Statement .nop := by unfold EncodeRow.Statement; decide
theorem EncodeRow.regRead (dev : Dev) (reg : Byte) : EncodeRow.Statement (.regRead dev reg) :=
  (encodeRR_and_mask 0x01 dev reg).trans rfl
theorem EncodeRow.regWrite (dev : Dev) (reg data : Byte) : EncodeRow.Statement (.regWrite dev reg data) :=
  (encodeRW_and_mask 0x02 dev reg data).trans rfl
theorem EncodeRow.framedRead (dev : Dev) (reg : Byte) : EncodeRow.Statement (.framedRead dev reg) :=
  (encodeRR_and_mask 0x10 dev reg).trans rfl
theorem EncodeRow.calLoadA (setting : Byte) : EncodeRow.Statement (.calLoadA setting) :=
  (encodeCA_and_mask 0x20 setting).trans rfl
theorem EncodeRow.comboTemp : EncodeRow.Statement .comboTemp := by unfold EncodeRow.Statement; decide
theorem EncodeRow.comboHum : EncodeRow.Statement .comboHum := by unfold EncodeRow.Statement; decide
theorem EncodeRow.rawtA : EncodeRow.Statement .rawtA := by unfold EncodeRow.Statement; decide
theorem EncodeRow.rawpA : EncodeRow.Statement .rawpA := by unfold EncodeRow.Statement; decide
theorem EncodeRow.comptA : EncodeRow.Statement .comptA := by unfold EncodeRow.Statement; decide
theorem EncodeRow.comppA : EncodeRow.Statement .comppA := by unfold EncodeRow.Statement; decide
theorem EncodeRow.tempA : EncodeRow.Statement .tempA := by unfold EncodeRow.Statement; decide
theorem EncodeRow.presA : EncodeRow.Statement .presA := by unfold EncodeRow.Statement; decide
theorem EncodeRow.calLoadB : EncodeRow.Statement .calLoadB := by unfold EncodeRow.Statement; decide
theorem EncodeRow.rawtB : EncodeRow.Statement .rawtB := by unfold EncodeRow.Statement; decide
theorem EncodeRow.rawpB : EncodeRow.Statement .rawpB := by unfold EncodeRow.Statement; decide
theorem EncodeRow.comptB : EncodeRow.Statement .comptB := by unfold EncodeRow.Statement; decide
theorem EncodeRow.comppB : EncodeRow.Statement .comppB := by unfold EncodeRow.Statement; decide
theorem EncodeRow.tempB : EncodeRow.Statement .tempB := by unfold EncodeRow.Statement; decide
theorem EncodeRow.presB : EncodeRow.Statement .presB := by unfold EncodeRow.Statement; decide
theorem EncodeRow.frameEncode : EncodeRow.Statement .frameEncode := by unfold EncodeRow.Statement; decide

end Sys2Proof.Laws
end

