-- ==== Sys2Proof/Laws/Sat.lean ====
section
/-! SUPPORT. Bodies under any inputs: what holds when a body goes on and what holds when it ends for good, with one
rule for each primitive of Ops.lean. -/

namespace Sys2Proof.Machine

/-- The result goes on with an answer and a state in Q, or ends for good in a state in E. -/
def Ends {α : Type} (x : EStateM.Result Unit State α) (Q : α → State → Prop) (E : State → Prop) : Prop :=
  match x with
  | .ok a t => Q a t
  | .error _ t => E t

/-- From a state with P, the body b goes on with an answer and a state in Q, or ends for good in a state in E. -/
def Sat {α : Type} (P : State → Prop) (b : Body α) (Q : α → State → Prop) (E : State → Prop) : Prop :=
  ∀ s, P s → Ends (b s) Q E

/-- A property the host cannot change while a command runs: not by the passing of its inputs, not by an access that
reaches the command (R53). -/
structure HostStable (P : State → Prop) : Prop where
  inputs : ∀ s l, P s → P (setInputs l s)
  access : ∀ a s, P s → P (hostAccessBusy a s)

section
variable {α β : Type} {P : State → Prop} {Q : α → State → Prop} {E : State → Prop}

/-! ## Sequencing -/

theorem sat_pure (a : α) (h : ∀ s, P s → Q a s) : Sat P (pure a) Q E := h

theorem sat_bind {x : Body α} {f : α → Body β} {R : β → State → Prop} (hx : Sat P x Q E)
    (hf : ∀ a, Sat (Q a) (f a) R E) : Sat P (x >>= f) R E := by
  intro s hs
  have h := hx s hs
  cases hc : x s with
  | ok a t => rw [hc] at h; rw [body_bind_ok hc]; exact hf a t h
  | error e t => rw [hc] at h; rw [body_bind_error hc]; exact h

theorem sat_mono {x : Body α} {P' : State → Prop} {Q' : α → State → Prop} {E' : State → Prop}
    (h : Sat P x Q E) (hP : ∀ s, P' s → P s) (hQ : ∀ a s, Q a s → Q' a s) (hE : ∀ s, E s → E' s) :
    Sat P' x Q' E' := by
  intro s hs
  have h' := h s (hP s hs)
  cases hc : x s with
  | ok a t => rw [hc] at h'; exact hQ a t h'
  | error e t => rw [hc] at h'; exact hE t h'

theorem sat_regOf {f : State → α} (h : ∀ s, P s → Q (f s) s) : Sat P (regOf f) Q E := h

theorem sat_change {f : State → State} {Q : Unit → State → Prop} (h : ∀ s, P s → Q () (f s)) :
    Sat P (change f) Q E := h

/-- Two ways from one place. -/
theorem sat_ite {c : Prop} [Decidable c] {x y : Body α} (hx : c → Sat P x Q E) (hy : ¬c → Sat P y Q E) :
    Sat P (if c then x else y) Q E := by
  split
  · exact hx ‹_›
  · exact hy ‹_›

/-! ## Slots (R53, R390) -/

theorem noReset_cons {it : Input} {l : List Input} (s : State) (h : s.inputs = it :: l) (hn : s.noReset = true) :
    it.event ≠ .reset ∧ (setInputs l s).noReset = true := by
  simp only [State.noReset, h, List.all_cons, Bool.and_eq_true, bne_iff_ne] at hn
  exact ⟨hn.1, hn.2⟩

@[simp] theorem hostAccessBusy_inputs (a : HostAccess) (s : State) : (hostAccessBusy a s).inputs = s.inputs := by
  cases a with
  | read _ off => rfl
  | write _ off v =>
    simp only [hostAccessBusy, hostWriteBusy]
    split
    · rfl
    · split <;> rfl

/-- What a slot does with the inputs (R53, R390): it goes on from a state the host's accesses lead to, or a reset ends
the command. -/
theorem serveInputs_cases (calm : Bool) (hP : HostStable P) (hE : calm = false → ∀ s, P s → E (platformReset s))
    (l : List Input) (s : State) (hl : s.inputs = l) (hs : P s) (hn : calm = true → s.noReset = true) :
    Ends (serveInputs l s) (fun _ t => P t ∧ (calm = true → t.noReset = true)) E := by
  induction l generalizing s with
  | nil => exact ⟨hs, hn⟩
  | cons it rest ih =>
    obtain ⟨ar, ev⟩ := it
    have hrest : calm = true → ev ≠ .reset ∧ (setInputs rest s).noReset = true :=
      fun hc => noReset_cons s hl (hn hc)
    cases ar with
    | whenIdle => exact ⟨hs, hn⟩
    | after n =>
      cases n with
      | succ n =>
        refine ⟨hP.inputs s _ hs, fun hc => ?_⟩
        simp only [State.noReset, setInputs_inputs, List.all_cons, Bool.and_eq_true, bne_iff_ne]
        exact ⟨(hrest hc).1, (hrest hc).2⟩
      | zero =>
        cases hr : ev.reach s.params with
        | reset =>
          simp only [serveInputs, hr]
          cases hcalm : calm with
          | true => exact absurd (eq_reset_of_reach hr) (hrest hcalm).1
          | false => exact hE hcalm _ (hP.inputs s rest hs)
        | elsewhere =>
          simp only [serveInputs, hr]
          exact ih _ rfl (hP.inputs s rest hs) fun hc => (hrest hc).2
        | csr a =>
          by_cases hsup : a.supported = true
          · simp only [serveInputs, hr, hsup, if_true]
            refine ih _ (hostAccessBusy_inputs a _) (hP.access a _ (hP.inputs s rest hs)) (fun hc => ?_)
            rw [State.noReset, hostAccessBusy_inputs]
            exact (hrest hc).2
          · simp only [serveInputs, hr, hsup]
            exact ⟨hs, hn⟩

/-- The inputs carry no reset, where that is assumed. -/
def Calm (calm : Bool) (s : State) : Prop := calm = true → s.noReset = true

theorem sat_slot (calm : Bool) (hP : HostStable P) (hE : calm = false → ∀ s, P s → E (platformReset s)) :
    Sat (fun s => P s ∧ Calm calm s) slot (fun _ s => P s ∧ Calm calm s) E :=
  fun s hs => serveInputs_cases calm hP hE s.inputs s rfl hs.1 hs.2

/-! ## The bus, the delay, the computations, the end -/

section
variable (calm : Bool) (hP : HostStable P) (hE : calm = false → ∀ s, P s → E (platformReset s))
include hP hE

theorem sat_xfer (dev : Dev) (w : List Byte) (n : Nat) {Q : BusAnswer → State → Prop}
    (h : ∀ s, P s → Calm calm s → Q (busAnswer dev w n s) (advance (afterXfer dev w n s))) :
    Sat (fun s => P s ∧ Calm calm s) (xfer dev w n) Q E :=
  sat_bind (sat_slot calm hP hE) fun _ s hs => h s hs.1 hs.2

theorem sat_delay (ms : Nat) {Q : Unit → State → Prop}
    (h : ∀ s, P s → Calm calm s → Q () (advance (afterDelay ms s))) :
    Sat (fun s => P s ∧ Calm calm s) (delay ms) Q E :=
  sat_bind (sat_slot calm hP hE) fun _ => sat_change fun s hs => h s hs.1 hs.2

theorem sat_raise (e : ErrorKind) (info : Option Word) (ws : List RegWrite)
    (h : ∀ s, P s → Calm calm s → E (commit (some e) ws (takeBuscode info s))) :
    Sat (fun s => P s ∧ Calm calm s) (raise e info ws : Body α) Q E :=
  sat_bind (sat_slot calm hP hE) fun _ s hs => h s hs.1 hs.2

theorem sat_endBody {Q : Unit → State → Prop} (h : ∀ s, P s → Calm calm s → Q () (commit none (stagedOf s) s)) :
    Sat (fun s => P s ∧ Calm calm s) endBody Q E :=
  sat_bind (sat_slot calm hP hE) fun _ => sat_change fun s hs => h s hs.1 hs.2

/-- The s32 steps of a computation keep what setting OVF keeps. -/
theorem sat_playSteps (hO : ∀ o s, P s → P (noteOvf o s)) (steps : List Bool) :
    Sat (fun s => P s ∧ Calm calm s) (playSteps steps) (fun _ s => P s ∧ Calm calm s) E := by
  induction steps with
  | nil => exact sat_pure () fun _ hs => hs
  | cons o steps ih =>
    exact sat_bind (sat_slot calm hP hE) fun _ =>
      sat_bind (Q := fun _ s => P s ∧ Calm calm s) (sat_change fun s hs => ⟨hO o s hs.1, hs.2⟩) fun _ => ih

theorem sat_compute (hO : ∀ o s, P s → P (noteOvf o s)) (c : Calc α) (ws : List RegWrite)
    (hok : ∀ a steps s, c [] = .ok a steps → P s → Calm calm s → Q a (advance s))
    {R : State → Prop} (hR : HostStable R) (hRE : calm = false → ∀ s, R s → E (platformReset s))
    (herr : ∀ e steps s, c [] = .error e steps → P s → Calm calm s → R (advance s))
    (hend : ∀ e steps s, c [] = .error e steps → R s → Calm calm s →
      E (commit (some e) ws (takeBuscode none s))) :
    Sat (fun s => P s ∧ Calm calm s) (compute c ws) Q E := by
  unfold compute
  cases hc : c [] with
  | ok a steps =>
    exact sat_bind (sat_playSteps calm hP hE hO steps) fun _ =>
      sat_bind (Q := fun _ s => Q a s) (sat_change fun s hs => hok a steps s hc hs.1 hs.2) fun _ =>
        sat_pure a fun _ h => h
  | error e steps =>
    exact sat_bind (sat_playSteps calm hP hE hO steps) fun _ =>
      sat_bind (Q := fun _ s => R s ∧ Calm calm s)
        (sat_change fun s hs => ⟨herr e steps s hc hs.1 hs.2, hs.2⟩) fun _ =>
          sat_raise calm hR hRE e none ws fun s h1 h2 => hend e steps s hc h1 h2

/-- RdAB (R164): what it goes on with, and the commit of a Nack under ABORT. -/
theorem sat_rdAB (reg : Byte) (n : Nat) (ws : List RegWrite) {R : State → Prop} {Q : List Byte → State → Prop}
    (hR : HostStable R) (hRE : calm = false → ∀ s, R s → E (platformReset s))
    (hx : ∀ s, P s → R (advance (afterXfer pressAddr [reg] n s)))
    (hgo : ∀ b s, R s → Calm calm s → Q b s)
    (hnack : ∀ c s, R s → Calm calm s → E (commit (some .busNack) ws (takeBuscode (some c) s))) :
    Sat (fun s => P s ∧ Calm calm s) (rdAB reg n ws) Q E := by
  refine sat_bind (Q := fun _ s => P s ∧ Calm calm s) (sat_regOf fun s hs => hs) fun p => ?_
  refine sat_bind (sat_xfer calm hP hE pressAddr [reg] n (Q := fun _ s => R s ∧ Calm calm s)
    fun s h1 h2 => ⟨hx s h1, h2⟩) fun a => ?_
  cases a with
  | ack b => exact sat_pure b fun s hs => hgo b s hs.1 hs.2
  | nack c b =>
    cases p.abBusPolicy with
    | abort => exact sat_raise calm hR hRE _ _ ws fun s h1 h2 => hnack c s h1 h2
    | ignore => exact sat_pure b fun s hs => hgo b s hs.1 hs.2

/-- WrAB (R165): what it goes on with, and the commit of a Nack under ABORT. -/
theorem sat_wrAB (reg v : Byte) (ws : List RegWrite) {R : State → Prop} {Q : Unit → State → Prop}
    (hR : HostStable R) (hRE : calm = false → ∀ s, R s → E (platformReset s))
    (hx : ∀ s, P s → R (advance (afterXfer pressAddr [reg, v] 0 s)))
    (hgo : ∀ s, R s → Calm calm s → Q () s)
    (hnack : ∀ c s, R s → Calm calm s → E (commit (some .busNack) ws (takeBuscode (some c) s))) :
    Sat (fun s => P s ∧ Calm calm s) (wrAB reg v ws) Q E := by
  refine sat_bind (Q := fun _ s => P s ∧ Calm calm s) (sat_regOf fun s hs => hs) fun p => ?_
  refine sat_bind (sat_xfer calm hP hE pressAddr [reg, v] 0 (Q := fun _ s => R s ∧ Calm calm s)
    fun s h1 h2 => ⟨hx s h1, h2⟩) fun a => ?_
  cases a with
  | ack b => exact sat_pure () fun s hs => hgo s hs.1 hs.2
  | nack c b =>
    cases p.abBusPolicy with
    | abort => exact sat_raise calm hR hRE _ _ ws fun s h1 h2 => hnack c s h1 h2
    | ignore => exact sat_pure () fun s hs => hgo s hs.1 hs.2

end

/-- What a whole body leaves: its last state satisfies E whether it ends normally or for good. -/
theorem runBody_sat {b : Body Unit} {s : State} (h : Sat P (do b; endBody) (fun _ => E) E) (hs : P s) :
    E (runBody b s) := by
  have h' := h s hs
  unfold runBody
  revert h'
  cases (do b; endBody : Body Unit) s <;> exact id

end

end Sys2Proof.Machine
end

