-- ==== Sys2Proof/Tests/Slice0.lean ====
section
/-! SUPPORT. Tests: the assembler's refusals, command words written out from the spec's encoding, one-step runs of the
vectors of 95_test_vectors.md, and for each statement with hypotheses a concrete state that meets them. -/

namespace Sys2Proof.Tests

open Sys2Proof Sys2Proof.Machine

/-! ## The assembler refuses operands that do not fit (R128) -/

theorem test_refuse_regRead_dev : assemble (.regRead 0x80 0xD0) = none := by decide
theorem test_refuse_regRead_reg : assemble (.regRead 0x77 0x100) = none := by decide
theorem test_refuse_regWrite_dev : assemble (.regWrite 0x80 0xF4 0x2E) = none := by decide
theorem test_refuse_regWrite_reg : assemble (.regWrite 0x77 0x100 0x2E) = none := by decide
theorem test_refuse_regWrite_data : assemble (.regWrite 0x77 0xF4 0x100) = none := by decide
theorem test_refuse_framedRead_dev : assemble (.framedRead 0x80 0x02) = none := by decide
theorem test_refuse_framedRead_reg : assemble (.framedRead 0x5C 0x100) = none := by decide
theorem test_refuse_calLoadA : assemble (.calLoadA 256) = none := by decide
theorem test_accept_bounds : assemble (.regWrite 0x7F 0xFF 0xFF) = some (.regWrite 0x7F 0xFF 0xFF) := by decide

/-- The examples of R128, and lines it refuses. -/
theorem test_assembleLine :
    assembleLine "REG_READ 0x77, 0xD0" = some 0x0177D000 ∧ assembleLine "REG_WRITE 0x77, 0xF4, 0x2E" = some 0x0277F42E ∧
    assembleLine "FRAMED_READ 0x5C, 0x02" = some 0x105C0200 ∧ assembleLine "CAL_LOAD_A 3" = some 0x20000003 ∧
    assembleLine "PRES_B" = some 0x36000000 ∧ assembleLine "CAL_LOAD_A 010" = some 0x20000008 ∧
    assembleLine "REG_READ 0x80, 0xD0" = none ∧ assembleLine "NOP 1" = none ∧ assembleLine "CAL_LOAD_A 256" = none := by
  decide +kernel

/-! ## Command words written out field by field (R120 to R123): OP, then bit 23, DEV, REG and DATA or zeros -/

theorem test_decode_nop : decode 0b00000000_00000000_00000000_00000000 = .ok .nop := by decide
theorem test_decode_regRead : decode 0b00000001_0_1110111_11010000_00000000 = .ok (.regRead 0x77 0xD0) := by decide
theorem test_decode_regWrite :
    decode 0b00000010_0_1110111_11110100_00101110 = .ok (.regWrite 0x77 0xF4 0x2E) := by decide
theorem test_decode_framedRead :
    decode 0b00010000_0_1011100_00000010_00000000 = .ok (.framedRead 0x5C 0x02) := by decide
theorem test_decode_comboTemp : decode 0b00010001_00000000_00000000_00000000 = .ok .comboTemp := by decide
theorem test_decode_comboHum : decode 0b00010010_00000000_00000000_00000000 = .ok .comboHum := by decide
theorem test_decode_calLoadA : decode 0b00100000_0000000000000000_11111111 = .ok (.calLoadA 255) := by decide
theorem test_decode_rawtA : decode 0b00100001_00000000_00000000_00000000 = .ok .rawtA := by decide
theorem test_decode_rawpA : decode 0b00100010_00000000_00000000_00000000 = .ok .rawpA := by decide
theorem test_decode_comptA : decode 0b00100011_00000000_00000000_00000000 = .ok .comptA := by decide
theorem test_decode_comppA : decode 0b00100100_00000000_00000000_00000000 = .ok .comppA := by decide
theorem test_decode_tempA : decode 0b00100101_00000000_00000000_00000000 = .ok .tempA := by decide
theorem test_decode_presA : decode 0b00100110_00000000_00000000_00000000 = .ok .presA := by decide
theorem test_decode_calLoadB : decode 0b00110000_00000000_00000000_00000000 = .ok .calLoadB := by decide
theorem test_decode_rawtB : decode 0b00110001_00000000_00000000_00000000 = .ok .rawtB := by decide
theorem test_decode_rawpB : decode 0b00110010_00000000_00000000_00000000 = .ok .rawpB := by decide
theorem test_decode_comptB : decode 0b00110011_00000000_00000000_00000000 = .ok .comptB := by decide
theorem test_decode_comppB : decode 0b00110100_00000000_00000000_00000000 = .ok .comppB := by decide
theorem test_decode_tempB : decode 0b00110101_00000000_00000000_00000000 = .ok .tempB := by decide
theorem test_decode_presB : decode 0b00110110_00000000_00000000_00000000 = .ok .presB := by decide
theorem test_decode_frameEncode : decode 0b01000000_00000000_00000000_00000000 = .ok .frameEncode := by decide

/-- E-3 to E-5, E-9, E-12, E-16, E-18: a reserved bit that is 1. -/
theorem test_decode_reserved_bits :
    decode 0x01F7D000 = .error (.reservedBits 0x01) ∧ decode 0x0177D001 = .error (.reservedBits 0x01) ∧
    decode 0x0180D000 = .error (.reservedBits 0x01) ∧ decode 0x02FFFFFF = .error (.reservedBits 0x02) ∧
    decode 0x11000001 = .error (.reservedBits 0x11) ∧ decode 0x20000100 = .error (.reservedBits 0x20) ∧
    decode 0x30000001 = .error (.reservedBits 0x30) := by decide

/-- E-21 to E-24: a reserved OP. -/
theorem test_decode_reserved_op :
    decode 0x03000000 = .error (.reservedOpcode 0x03) ∧ decode 0x27000000 = .error (.reservedOpcode 0x27) ∧
    decode 0x41000000 = .error (.reservedOpcode 0x41) ∧ decode 0xFFFFFFFF = .error (.reservedOpcode 0xFF) := by
  decide

/-! ## The states of the tests -/

/-- The default parameters, the two OPEN ones chosen. -/
def params0 : Params := { defaultParams with ctrlBValue := 0x25, csrBase := 0x40000000 }

/-- The block after reset, with the bus's answers laid down. -/
def block (answers : List BusAnswer) : State := { State.resetWith params0 with answers := answers }

/-- Acknowledged bytes. -/
def acks (l : List (List Byte)) : List BusAnswer := l.map .ack

/-- CAL_A of vector A-CAL-1. -/
def calA1 : CalA :=
  ⟨0x0198, 0xFFB8, 0xC7D1, 0x7FE5, 0x7FF5, 0x5A71, 0x182E, 0x0004, 0x8000, 0xDDF9, 0x0B34⟩

/-- CAL_B of the family-B vectors. -/
def calB1 : CalB :=
  ⟨0x6B70, 0x6743, 0xFC18, 0x8E7D, 0xD643, 0x0BD0, 0x0B27, 0x008C, 0xFFF9, 0x3C8C, 0xC6F8, 0x1770⟩

/-- The bytes of vector A-CAL-1 in bus order. -/
def calABytes : List (List Byte) :=
  [[0x55], [0x01, 0x98], [0xFF, 0xB8], [0xC7, 0xD1], [0x7F, 0xE5], [0x7F, 0xF5], [0x5A, 0x71], [0x18, 0x2E],
    [0x00, 0x04], [0x80, 0x00], [0xDD, 0xF9], [0x0B, 0x34]]

/-- The bytes of the family-B calibration vector in bus order. -/
def calBBytes : List (List Byte) :=
  [[0x58], [0x70, 0x6B], [0x43, 0x67], [0x18, 0xFC], [0x7D, 0x8E], [0x43, 0xD6], [0xD0, 0x0B], [0x27, 0x0B],
    [0x8C, 0x00], [0xF9, 0xFF], [0x8C, 0x3C], [0xF8, 0xC6], [0x70, 0x17]]

/-- A family-A block with the store of A-CAL-1, OSS 0 and B5 = 2400. -/
def blockA (answers : List BusAnswer) : State :=
  { block answers with calA := calA1, ossCode := 0, waitPMs := 5, b5 := 2400, b5Valid := true }

/-- A family-B block with tFine = 128422. -/
def blockB (answers : List BusAnswer) : State :=
  { block answers with calB := calB1, tfine := 128422, tfineValid := true }

/-- The framed read's answers: wake, request, response. -/
def framed (response : List Byte) : List BusAnswer := acks [[], [], response]

/-- exec answers a next state with the property p. -/
def leads (i : Instr) (s : State) (p : State → Bool) : Bool :=
  match exec i s with
  | .next t => p t
  | .fault _ => false
  | .refused _ => false

/-! ## One step of each command, on the vectors of the spec -/

theorem test_nop : leads .nop (block []) (fun t => t.done && t.err == none) = true := by decide +kernel

/-- BC-1. -/
theorem test_regRead : leads (.regRead 0x77 0xD0) (block (acks [[0x55]])) (fun t => t.result == 0x55) = true := by
  decide +kernel
/-- BC-2. -/
theorem test_regRead_nack : leads (.regRead 0x77 0xD0) (block [.nack 2 []])
    (fun t => t.err == some .busNack && t.buscode == 2) = true := by decide +kernel

/-- BC-5. -/
theorem test_regWrite_nack : leads (.regWrite 0x77 0xF4 0x2E) (block [.nack 0xDEADBEEF []])
    (fun t => t.buscode == 0xDEADBEEF && t.buserrSeen) = true := by decide +kernel

/-- FR-1. -/
theorem test_framedRead : leads (.framedRead 0x5C 0x02) (block (framed [0x03, 0x02, 0x01, 0x2C, 0xA1, 0xED]))
    (fun t => t.result == 0x12C && t.resp == ⟨0x03, 0x02, 0x01, 0x2C, 0xA1, 0xED⟩) = true := by decide +kernel

/-- FR-14: a genuine −10.0 degrees, equal to the sentinel, without an error. -/
theorem test_comboTemp : leads .comboTemp (block (framed [0x03, 0x02, 0x80, 0x64, 0xC1, 0x8B]))
    (fun t => t.valT2.toInt == -1000 && t.err == none) = true := by decide +kernel
/-- FR-3. -/
theorem test_comboTemp_protocol : leads .comboTemp (block (framed [0x04, 0x02, 0x01, 0x2C, 0xA0, 0x99]))
    (fun t => t.valT2.toInt == -1000 && t.err == some .protocolMismatch) = true := by decide +kernel

/-- FR-15. -/
theorem test_comboHum : leads .comboHum (block (framed [0x03, 0x02, 0x02, 0x8A, 0x21, 0x67]))
    (fun t => t.valH == 6500) = true := by decide +kernel
/-- FR-6: the checksum's bytes swapped. -/
theorem test_comboHum_checksum : leads .comboHum (block (framed [0x03, 0x02, 0x01, 0x2C, 0xED, 0xA1]))
    (fun t => t.err == some .checksumMismatch && t.result == 0xFFFF) = true := by decide +kernel

/-- A-CAL-1. -/
theorem test_calLoadA : leads (.calLoadA 0) (block (acks calABytes))
    (fun t => t.calA == calA1 && statusWord t == 0x00001102) = true := by decide +kernel
/-- A-CAL-5: the 6th coefficient read is refused. -/
theorem test_calLoadA_nack : leads (.calLoadA 0) (blockA (acks (calABytes.take 6) ++ [.nack 9 []]))
    (fun t => t.buscode == 9 && !t.b5Valid && t.ossCode == 0) = true := by decide +kernel

/-- A-RAW-1. -/
theorem test_rawtA : leads .rawtA (block (acks [[], [0x6C], [0xFA]])) (fun t => t.rawT == 27898) = true := by
  decide +kernel

/-- The row of A-RAW-2 with oss 3 and data 5D 23 FF. -/
theorem test_rawpA : leads .rawpA { block (acks [[], [0x5D], [0x23], [0xFF]]) with ossCode := 3 }
    (fun t => t.rawP == 190751) = true := by decide +kernel

/-- A-T-3. -/
theorem test_comptA : leads .comptA { blockA [] with rawT := 15000 }
    (fun t => t.b5.toInt == -4775 && t.valT1.toInt == -2980) = true := by decide +kernel
/-- A-E-3. -/
theorem test_comptA_divide : leads .comptA (block []) (fun t => t.err == some .divideByZero) = true := by
  decide +kernel

/-- A-P-6: the branch of B7 ≥ 2^31. -/
theorem test_comppA : leads .comppA { blockA [] with rawP := 300 }
    (fun t => t.valP == 253625 && t.ovf) = true := by decide +kernel
/-- A-E-4. -/
theorem test_comppA_needs_b5 : leads .comppA (block []) (fun t => t.err == some .noTemperature) = true := by
  decide +kernel

/-- A-T-1 through TEMP_A. -/
theorem test_tempA : leads .tempA (blockA (acks [[], [0x6C], [0xFA]]))
    (fun t => t.b5 == 2400 && t.valT1 == 1500) = true := by decide +kernel
/-- A-E-8. -/
theorem test_tempA_divide : leads .tempA { blockA (acks [[], [0x6C], [0xFA]]) with calA := { calA1 with md := 0xED79 } }
    (fun t => t.err == some .divideByZero && t.rawT == 27898) = true := by decide +kernel

/-- A-P-1 through PRES_A. -/
theorem test_presA : leads .presA (blockA (acks [[], [0x5D], [0x23], [0x00]]))
    (fun t => t.rawP == 23843 && t.valP == 69964) = true := by decide +kernel

/-- The family-B calibration vector. -/
theorem test_calLoadB : leads .calLoadB (block (acks calBBytes))
    (fun t => t.calB == calB1 && t.family == .familyB && t.calValidB) = true := by decide +kernel

/-- B-RAW-1. -/
theorem test_rawtB : leads .rawtB (block (acks [[], [0x08], [0x00], [0x7E], [0xED], [0x00]]))
    (fun t => t.rawT == 519888 && t.seq == none) = true := by decide +kernel
/-- B-RAW-4: POLL_LIMIT 3. -/
theorem test_rawtB_limit :
    leads .rawtB { block (acks [[], [0x08], [0x08], [0x08]]) with params := { params0 with pollLimit := some 3 } }
      (fun t => t.err == some .pollTimeout && t.trace.length == 4) = true := by decide +kernel

theorem test_rawpB : leads .rawpB (block (acks [[0x65], [0x5A], [0xC0]])) (fun t => t.rawP == 415148) = true := by
  decide +kernel

/-- B-T-2. -/
theorem test_comptB : leads .comptB { blockB [] with rawT := 400000 }
    (fun t => t.tfine.toInt == -64736 && t.valT1.toInt == -1264) = true := by decide +kernel

/-- B-P-3: the branch of p ≥ 2^31. -/
theorem test_comppB : leads .comppB { blockB [] with rawP := 1048575 } (fun t => t.valP == 231379) = true := by
  decide +kernel
/-- B-E-1. -/
theorem test_comppB_guard : leads .comppB { blockB [] with calB := { calB1 with p1 := 0 }, rawP := 415148, valP := 7 }
    (fun t => t.err == some .divideByZeroGuard && t.valP == 0) = true := by decide +kernel

theorem test_tempB : leads .tempB (blockB (acks [[], [0x00], [0x7E], [0xED], [0x00]]))
    (fun t => t.tfine == 128422 && t.valT1 == 2508) = true := by decide +kernel

theorem test_presB :
    leads .presB (blockB (acks [[], [0x08], [0x00], [0x7E], [0xED], [0x00], [0x65], [0x5A], [0xC0]]))
      (fun t => t.tfine == 128422 && t.valP == 100656) = true := by decide +kernel
/-- B-E-5: the second poll is refused. -/
theorem test_presB_nack : leads .presB (blockB (acks [[], [0x08]] ++ [.nack 6 []]))
    (fun t => t.buscode == 6 && t.rawT == 0) = true := by decide +kernel

/-- F-3: the truncation of R334. -/
theorem test_frameEncode :
    leads .frameEncode { block [] with
        valT1 := BitVec.ofInt 32 (-1000), valP := 0x01234567, valT2 := 0, valH := 655350 }
      (fun t => frameWord t 1 == 0x6704FC18 && frameWord t 3 == 0xFFF60300) = true := by decide +kernel

/-! ## The checksum and the host port -/

/-- The check value of R163's table. -/
theorem test_crc16 :
    crc16 [0x31, 0x32, 0x33, 0x34, 0x35, 0x36, 0x37, 0x38, 0x39] = 0x4B37 ∧ crc16 [] = 0xFFFF := by decide +kernel

/-- The step of a freshly reset block that takes this input. -/
def afterInput (it : Input) (p : State → Bool) : Bool :=
  match step { block [] with inputs := [it] } with
  | .next t => p t
  | .fault _ => false
  | .refused _ => false

/-- A host that writes the word w at an offset of a freshly reset block. -/
def afterWrite (off w : Word) (p : State → Bool) : Bool := afterInput (csrw off w) p

/-- H-5. -/
theorem test_host_writes_b5 : afterWrite 0x038 0xFFFFE7B4 (fun t => t.b5.toInt == -6220 && statusWord t == 0x4000)
    = true := by decide +kernel
/-- H-3, H-4. -/
theorem test_host_write_ignored :
    afterWrite 0x014 0x55 (fun t => t.id == 0) = true ∧ afterWrite 0x100 0x12345678 (fun t => t.cmd == 0) = true := by
  decide +kernel
/-- R351: an illegal word. -/
theorem test_illegal_word : afterWrite 0x000 0x0180D000 (fun t => statusWord t == 0x00000082) = true := by
  decide +kernel
/-- H-8: a write to VAL_H before the first transaction of a running command. -/
theorem test_write_while_busy :
    leads (.regRead 0x77 0xD0) { block (acks [[0x55]]) with inputs := [csrwDuring 0 0x02C 0x1234] }
      (fun t => t.valH == 0 && t.overrun) = true := by decide +kernel
/-- R80: a store at CSR_BASE + 0x038 is the write of B5; one past CSR_BASE + 0xFF reaches no CSR. -/
theorem test_store_at_host_address :
    afterInput (storeAt 0x40000038 0xFFFFE7B4) (fun t => t.b5.toInt == -6220 && t.b5Valid) = true ∧
    afterInput (storeAt 0x40000138 0xFFFFE7B4) (fun t => t.b5 == 0 && !t.b5Valid) = true ∧
    afterInput (storeAt 0x3FFFFF38 0xFFFFE7B4) (fun t => t.b5 == 0 && !t.overrun) = true := by decide +kernel
/-- R53 within R80's CSR space: offset 0xFC is one of its, 0x100 is not. -/
theorem test_busy_write_at_the_end :
    leads .rawtA { block (acks [[], [0x6C], [0xFA]]) with inputs := [csrwDuring 0 0x0FC 1] } State.overrun = true ∧
    leads .rawtA { block (acks [[], [0x6C], [0xFA]]) with inputs := [csrwDuring 0 0x100 1] } (fun t => !t.overrun)
      = true := by decide +kernel
/-- E-ACC-3: no host write meets NOP. -/
theorem test_nop_is_never_busy :
    leads .nop { block [] with inputs := [csrwDuring 0 0x02C 0x1234] } (fun t => t.done && !t.overrun) = true := by
  decide +kernel
/-- R10, R125: OVF is set by each step that overflows, so a clear between two of them does not last. -/
theorem test_ovf_set_again_after_a_clear :
    leads .comptA { blockA [] with rawT := 0x80000000, inputs := [csrwDuring 2 0x004 0x10000] } State.ovf = true ∧
    leads .comptA { blockA [] with rawT := 0x80000000, inputs := [csrwDuring 9 0x004 0x10000] } (fun t => !t.ovf)
      = true := by decide +kernel

/-- Log 28: a reset inside the 5 ms delay of RAWT_A leaves the control write alone in the trace, one after it the delay. -/
theorem test_reset_inside_a_delay :
    leads .rawtA { block (acks [[], [0x6C], [0xFA]]) with inputs := [⟨.after 1, .reset⟩] }
      (fun t => t.trace.length == 1 && t.seq == none) = true ∧
    leads .rawtA { block (acks [[], [0x6C], [0xFA]]) with inputs := [⟨.after 2, .reset⟩] }
      (fun t => t.trace.length == 2 && t.seq == none) = true := by decide +kernel

/-- The counts and delays of R403's table that R87 and the bodies agree on, and those of the polling commands, where
the body of R281 makes one transaction more than the table (notes/assumptions/26.md): RAWT_B with two polls makes 6, and
PRES_B 9, as 95_test_vectors.md has it. -/
theorem test_transaction_counts :
    (transactionCount (calLoadAOps params0), transactionCount (calLoadBOps params0)) = (12, 13) ∧
    (transactionCount (rawtAOps params0), delaySum (rawtAOps params0)) = (3, 5) ∧
    (transactionCount (rawpAOps (blockA [])), delaySum (rawpAOps (blockA []))) = (4, 5) ∧
    transactionCount (rawpBOps params0) = 3 ∧ transactionCount (pollingOps params0 1 ++ rawtBDataOps params0) = 6 ∧
    transactionCount (pollingOps params0 1 ++ rawtBDataOps params0 ++ rawpBOps params0) = 9 := by decide +kernel

theorem test_withFetchWord_runs :
    step ((block []).withFetchWord 32 0x40000000) = exec .frameEncode (block []) := by rfl

/-! ## For each statement with hypotheses, states and operands that meet them -/

/-- A run of operations whose answers are as stated. -/
theorem runs {ops : List BusOp} {s : State} {as : List BusAnswer} (h : (runOps ops s).1 = as) :
    runOps ops s = (as, (runOps ops s).2) := by rw [← h]

/-- The input at the head of the list, for an idle block. -/
def withInput (it : Input) (s : State) : State := { s with inputs := [it] }

/-- A block that polls: RAWT_B at the head of its poll loop after one poll. -/
def polling (answers : List BusAnswer) : State :=
  { block answers with cmd := 0x31000000, seq := some ⟨.rawtB, 1, .idle, [], 1⟩ }

/-- A block whose COMBO_TEMP has staged its result and stands before its commit. -/
def staging : State :=
  { block [] with cmd := 0x11000000, seq := some ⟨.comboTemp, 5, .done, [.result 300, .valT2 3000], 0⟩ }

theorem witness_ResetAbandonsTheRunningCommand :
    ((block []).seq = none ∧ (withInput ⟨.whenIdle, .reset⟩ (block [])).inputs = ⟨.whenIdle, .reset⟩ :: []) ∧
    (Instr.rawtA ≠ .nop ∧ (block []).seq = none ∧
      (withInput ⟨.after 0, .reset⟩ (block [])).inputs = ⟨.after 0, .reset⟩ :: []) ∧
    (withInput ⟨.after 0, .reset⟩ (polling [])).seq = some ⟨.rawtB, 1, .idle, [], 1⟩ ∧
    (withInput ⟨.after 0, .reset⟩ (polling [])).seqAtPoll = true ∧
    (withInput ⟨.after 0, .reset⟩ (polling [])).inputs = ⟨.after 0, .reset⟩ :: [] ∧
    (withInput ⟨.after 0, .reset⟩ staging).seq = some ⟨.comboTemp, 5, .done, [.result 300, .valT2 3000], 0⟩ ∧
    (withInput ⟨.after 0, .reset⟩ staging).inputs = ⟨.after 0, .reset⟩ :: [] := by decide +kernel

theorem witness_StepRunsTheDecodedCommand :
    (withInput (csrw 0x000 0x40000000) (block [])).seq = none ∧
    (withInput (csrw 0x000 0x40000000) (block [])).inputs =
      ⟨.whenIdle, .access (.write .word 0x000 0x40000000)⟩ :: [] ∧
    decode 0x40000000 = .ok .frameEncode ∧ decode (encode .frameEncode) = .ok .frameEncode := by decide +kernel

theorem witness_IllegalWordIsRecordedOrDropped :
    decode 0x03000000 = .error (.reservedOpcode 0x03) ∧
    ((withInput (csrw 0x000 0x03000000) (block [])).seq = none ∧
      (withInput (csrw 0x000 0x03000000) (block [])).inputs =
        ⟨.whenIdle, .access (.write .word 0x000 0x03000000)⟩ :: []) ∧
    (withInput (csrwDuring 0 0x000 0x03000000) (polling [])).seq = some ⟨.rawtB, 1, .idle, [], 1⟩ ∧
    (withInput (csrwDuring 0 0x000 0x03000000) (polling [])).inputs =
      ⟨.after 0, .access (.write .word 0x000 0x03000000)⟩ :: [] := by decide +kernel

theorem witness_BusyBlockDropsWrites :
    (polling []).seq = some ⟨.rawtB, 1, .idle, [], 1⟩ ∧
    ([0x000#32, 0x004#32, 0x008#32, 0x0FC#32, 0x100#32, 0xFFFFFFFC#32].all fun off => decide (off.extractLsb' 0 2 = 0#2 ∧
      (withInput (csrwDuring 0 off 5) (polling [])).inputs = ⟨.after 0, .access (.write .word off 5)⟩ :: [] ∧
      (withInput (csrrDuring 0 off) (polling [])).inputs = ⟨.after 0, .access (.read .word off)⟩ :: [])) = true ∧
    (0x0FC#32).toNat < 0x100 ∧ 0x100 ≤ (0x100#32).toNat ∧
    (withInput ⟨.after 0, .memory (.store .word (0x40000000 + 0x0FC) 5)⟩ (polling [])).inputs =
      ⟨.after 0, .memory (.store .word (params0.csrBase + (0x0FC#32).toNat) 5)⟩ :: [] ∧
    (withInput ⟨.after 0, .memory (.load .word 0x40000000)⟩ (polling [])).inputs =
      ⟨.after 0, .memory (.load .word (params0.csrBase + (0x000#32).toNat))⟩ :: [] ∧
    0x3FFFFFFC + AccessSize.word.bytes ≤ params0.csrBase ∧ params0.csrBase + 0x100 ≤ 0x40000100 ∧
    (AccessSize.half ≠ .word ∧ (0x002#32).extractLsb' 0 2 ≠ 0#2) ∧
    (withInput ⟨.after 0, .access (.write .half 0x000 5)⟩ (polling [])).inputs =
      ⟨.after 0, .access (.write .half 0x000 5)⟩ :: [] ∧
    (withInput ⟨.after 0, .access (.write .word 0x102 5)⟩ (polling [])).inputs =
      ⟨.after 0, .access (.write .word 0x102 5)⟩ :: [] ∧ (0x102#32).extractLsb' 0 2 ≠ 0#2 ∧
    ([(AccessSize.half, 0x40000000), (.byte, 0x400000FF), (.word, 0x400000FE), (.word, 0x3FFFFFFE),
        (.double, 0x3FFFFFF9)].all fun (size, addr) => decide (
      params0.csrBase < addr + size.bytes ∧ addr < params0.csrBase + 0x100 ∧
      (size ≠ .word ∨ ((addr : Int) - params0.csrBase) % 4 ≠ 0) ∧
      (withInput ⟨.after 0, .memory (.store size addr 5)⟩ (polling [])).inputs =
        ⟨.after 0, .memory (.store size addr 5)⟩ :: [] ∧
      (withInput ⟨.after 0, .memory (.load size addr)⟩ (polling [])).inputs =
        ⟨.after 0, .memory (.load size addr)⟩ :: [])) = true ∧
    (withInput (csrrDuring 1 0x000) (polling [])).inputs = ⟨.after (0 + 1), .access (.read .word 0x000)⟩ :: [] ∧
    (withInput (csrr 0x000) (polling [])).hostQuiet = true ∧ (polling []).hostQuiet = true := by
  decide +kernel

theorem witness_IdleWriteGoesWhereTheMapSays :
    (block []).seq = none ∧
    ([0x004#32, 0x020#32, 0x024#32, 0x028#32, 0x02C#32, 0x030#32, 0x034#32, 0x038#32, 0x03C#32, 0x008#32,
        0x01C#32, 0x040#32, 0xFFFFFFFC#32].all fun off =>
      decide (off.extractLsb' 0 2 = 0#2 ∧
        (withInput (csrw off 5) (block [])).inputs = ⟨.whenIdle, .access (.write .word off 5)⟩ :: [])) = true ∧
    (withInput (storeAt 0x40000038 5) (block [])).inputs =
      ⟨.whenIdle, .memory (.store .word (params0.csrBase + (0x038#32).toNat) 5)⟩ :: [] ∧
    0x3FFFFFFC + AccessSize.word.bytes ≤ params0.csrBase ∧ params0.csrBase + 0x100 ≤ 0x40000100 := by
  decide +kernel

theorem witness_HostReadReturnsTheMappedRegister :
    (block []).seq = none ∧
    ([0x000#32, 0x03C#32, 0x040#32, 0x068#32, 0x06C#32, 0x07C#32, 0x080#32, 0x0AC#32, 0x0B0#32, 0x0BC#32,
        0x0C0#32, 0x0CC#32, 0x0D0#32, 0x0D4#32, 0x0D8#32, 0xFFFFFFFC#32].all fun off =>
      decide (off.extractLsb' 0 2 = 0#2 ∧
        (withInput (csrr off) (block [])).inputs = ⟨.whenIdle, .access (.read .word off)⟩ :: [])) = true ∧
    (withInput (loadAt 0x400000FC) (block [])).inputs =
      ⟨.whenIdle, .memory (.load .word (params0.csrBase + (0x0FC#32).toNat))⟩ :: [] ∧
    0x3FFFFFFC + AccessSize.word.bytes ≤ params0.csrBase ∧ params0.csrBase + 0x100 ≤ 0x40000100 := by
  decide +kernel

theorem witness_DecodeAndEncodeAgree :
    (Instr.regWrite 0x7F 0xFF 0xFF).wf = true ∧ decode 0x027FFFFF = .ok (.regWrite 0x7F 0xFF 0xFF) := by decide

theorem witness_LegalWordsMatchExactlyOneRow : decode 0x20000003 = .ok (.calLoadA 3) := by decide

theorem witness_AssemblerRefusesOperandsThatDoNotFit :
    assemble (.framedRead 0x5C 0x02) = some (.framedRead 0x5C 0x02) := by decide

theorem witness_NopOnlyCompletes : (block []).seq = none := by decide +kernel

theorem witness_RegReadReturnsTheByte :
    (block (acks [[0x55]])).ready = true ∧ busAnswer 0x77 [0xD0] 1 (block (acks [[0x55]])) = .ack [0x55] ∧
    (block [.nack 2 [0x00]]).ready = true ∧ busAnswer 0x77 [0xD0] 1 (block [.nack 2 [0x00]]) = .nack 2 [0x00] :=
  ⟨by decide +kernel, by rfl, by decide +kernel, by rfl⟩

theorem witness_RegWriteMakesOneTransaction :
    (block (acks [[]])).ready = true ∧ busAnswer 0x77 [0xF4, 0x2E] 0 (block (acks [[]])) = .ack [] ∧
    (block [.nack 2 []]).ready = true ∧ busAnswer 0x77 [0xF4, 0x2E] 0 (block [.nack 2 []]) = .nack 2 [] :=
  ⟨by decide +kernel, by rfl, by decide +kernel, by rfl⟩

/-- Responses under each clause: valid, a wrong function code, a wrong length, a wrong checksum. -/
theorem witness_ValidateClassifiesEveryResponse :
    crc16 [0x03, 0x02, 0x01, 0x2C] = (0xA1#8).setWidth 16 ||| ((0xED#8).setWidth 16 <<< 8) ∧
    ((0x04#8) ≠ 0x03#8) ∧ ((0x03#8) ≠ 0x02#8) ∧
    ¬ crc16 [0x03, 0x02, 0x80, 0x32] = (0x00#8).setWidth 16 ||| ((0x00#8).setWidth 16 <<< 8) := by decide +kernel

theorem witness_ComboDecodersAreExact :
    (0x7FFF#16).toNat < 0x8000 ∧ 0x8000 ≤ (0x8000#16).toNat := by decide

/-- A state for each of the five ways of the framed read. -/
theorem witness_FramedReadTakesExactlyOnePath :
    (∃ t f log, FramedPath 0x5C 0x02 (block [.nack 7 []]) t f log ∧ log = [.wakeWrite, .fault]) ∧
    (∃ t f log, FramedPath 0x5C 0x02 (block [.ack [], .nack 3 []]) t f log ∧ f.b = none) ∧
    (∃ t f log, FramedPath 0x5C 0x02 (block [.ack [], .ack [], .nack 4 [0, 0, 0, 0, 0, 0]]) t f log ∧ f.b = none) ∧
    (∃ t f log, FramedPath 0x5C 0x02 (block (framed [0x04, 0x02, 0x01, 0x2C, 0xA0, 0x99])) t f log ∧
      f.e = some (.protocolMismatch, none)) ∧
    (∃ t f log, FramedPath 0x5C 0x02 (block (framed [0x03, 0x02, 0x01, 0x2C, 0xA1, 0xED])) t f log ∧
      f.e = none) :=
  ⟨⟨_, _, _, .wakeNack 7 [] (by rfl) (by rfl), rfl⟩,
    ⟨_, _, _, .requestNack 3 [] (by decide +kernel) (by rfl), rfl⟩,
    ⟨_, _, _, .responseNack [] 4 [0, 0, 0, 0, 0, 0] (by decide +kernel) (by rfl) (by rfl), rfl⟩,
    ⟨_, _, _, .invalid [] [0x04, 0x02, 0x01, 0x2C, 0xA0, 0x99] .protocolMismatch (by decide +kernel) (by rfl) (by rfl)
      (by decide +kernel), rfl⟩,
    ⟨_, _, _, .valid [] [0x03, 0x02, 0x01, 0x2C, 0xA1, 0xED] 0x012C (by decide +kernel) (by rfl) (by rfl)
      (by decide +kernel), rfl⟩⟩

/-- The states of the framed-read commands are ready; COMBO_TEMP reads register 0x02 and COMBO_HUM 0x00. -/
theorem witness_FramedReadCommitsItsPath :
    (block [.nack 7 []]).ready = true ∧ (block (framed [0x03, 0x02, 0x01, 0x2C, 0xA1, 0xED])).ready = true := by
  decide +kernel

theorem witness_ComboReadersCommitTheirPath :
    (block (framed [0x03, 0x02, 0x01, 0x2C, 0xA1, 0xED])).ready = true ∧
    (∃ t f log, FramedPath 0x5C params0.regTempC (block (framed [0x03, 0x02, 0x01, 0x2C, 0xA1, 0xED])) t f log) ∧
    (∃ t f log, FramedPath 0x5C params0.regHumC (block [.nack 7 []]) t f log) :=
  ⟨by decide +kernel,
    ⟨_, _, _, .valid [] [0x03, 0x02, 0x01, 0x2C, 0xA1, 0xED] 0x012C (by decide +kernel) (by rfl) (by rfl)
      (by decide +kernel)⟩,
    ⟨_, _, _, .wakeNack 7 [] (by rfl) (by rfl)⟩⟩

theorem witness_ProtocolStatesFollowTheTransitions :
    (block [.nack 7 []]).seq = none ∧ (block [.nack 7 []]).noReset = true ∧
    ∃ t, exec .comboTemp (block [.nack 7 []]) = .next t := ⟨by decide +kernel, by decide +kernel, _, rfl⟩

theorem witness_LoadClassificationsAreTotal :
    (3#8).toNat ≤ 3 ∧ 4 ≤ (4#8).toNat ∧ (0x60#8 ≠ 0x55#8 ∧ 0x60#8 ≠ 0x58#8) := by decide

theorem witness_CalLoadAReplacesTheStore :
    (block (acks calABytes)).ready = true ∧
    (∃ t, runOps (calLoadAOps params0) (block (acks calABytes)) = (.ack [0x55] :: acks calABytes.tail, t)) ∧
    (∀ a ∈ BusAnswer.ack [0x55] :: acks calABytes.tail, goesOn params0 a = true) :=
  ⟨by decide +kernel, ⟨_, runs (by decide +kernel)⟩, by decide +kernel⟩

theorem witness_CalLoadBReplacesTheStore :
    (block (acks calBBytes)).ready = true ∧
    (∃ t, runOps (calLoadBOps params0) (block (acks calBBytes)) = (.ack [0x58] :: acks calBBytes.tail, t)) ∧
    (∀ a ∈ BusAnswer.ack [0x58] :: acks calBBytes.tail, goesOn params0 a = true) :=
  ⟨by decide +kernel, ⟨_, runs (by decide +kernel)⟩, by decide +kernel⟩

/-- The identity read is acknowledged and the first coefficient read refused. -/
theorem witness_NackInALoadClearsOnlyValidBits :
    (block [.ack [0x55], .nack 9 [0, 0]]).ready = true ∧ params0.abBusPolicy = .abort ∧
    (∃ t, runOps [readOp params0.regId 1] (block [.ack [0x55], .nack 9 [0, 0]]) = ([.ack [0x55]], t) ∧
      busAnswer 0x77 [params0.calBaseA] 2 t = .nack 9 [0, 0] ∧ busAnswer 0x77 [params0.calBaseB] 2 t = .nack 9 [0, 0]) ∧
    (∃ post, calLoadAOps params0 = [readOp params0.regId 1] ++ readOp params0.calBaseA 2 :: post) ∧
    (∃ post, calLoadBOps params0 = [readOp params0.regId 1] ++ readOp params0.calBaseB 2 :: post) :=
  ⟨by decide +kernel, by decide +kernel, ⟨_, runs (by decide +kernel), by decide +kernel, by decide +kernel⟩,
    ⟨_, rfl⟩, ⟨_, rfl⟩⟩

/-- The hypotheses of the acquisition statements on a run whose transactions go on. -/
def acquires (ops : List BusOp) (answers : List (List Byte)) : Prop :=
  (blockA (acks answers)).ready = true ∧ (∃ t, runOps ops (blockA (acks answers)) = (acks answers, t)) ∧
    ∀ a ∈ acks answers, goesOn params0 a = true

theorem witness_AcquisitionsStoreTheirCodes :
    acquires (rawtAOps params0) [[], [0x6C], [0xFA]] ∧ acquires (rawpAOps (blockA [])) [[], [0x5D], [0x23], [0x00]] ∧
    acquires (rawpBOps params0) [[0x65], [0x5A], [0xC0]] :=
  ⟨⟨by decide +kernel, ⟨_, runs (by decide +kernel)⟩, by decide +kernel⟩,
    ⟨by decide +kernel, ⟨_, runs (by decide +kernel)⟩, by decide +kernel⟩,
    ⟨by decide +kernel, ⟨_, runs (by decide +kernel)⟩, by decide +kernel⟩⟩

/-- The bytes of a run of RAWT_B that polls twice, then those of RAWP_B. -/
def pollBytes : List (List Byte) := [[], [0x08], [0x00], [0x7E], [0xED], [0x00], [0x65], [0x5A], [0xC0]]

/-- One poll that finds the measuring bit set and one that finds it clear, then the data: n = 1. -/
theorem witness_RawtBStoresTheCodeAfterPolling :
    (blockB (acks pollBytes)).ready = true ∧
    (∃ u t v, runOps (pollingOps params0 1) (blockB (acks pollBytes)) = (acks [[], [0x08], [0x00]], u) ∧
      runOps (rawtBDataOps params0) u = (acks [[0x7E], [0xED], [0x00]], t) ∧
      runOps (rawpBOps params0) t = (acks [[0x65], [0x5A], [0xC0]], v)) ∧
    pollsClearAfter params0 1 (acks [[], [0x08], [0x00]]) ∧ 1 + 1 < (blockB (acks pollBytes)).answers.length ∧
    belowLimit params0 1 = true ∧ (∀ a ∈ acks pollBytes, goesOn params0 a = true) :=
  ⟨by decide +kernel, ⟨_, _, _, runs (by decide +kernel), runs (by decide +kernel), runs (by decide +kernel)⟩,
    ⟨.ack [], [.ack [0x08]], .ack [0x00], by decide +kernel⟩, by decide +kernel, by decide +kernel, by decide +kernel⟩

/-- The bit already clear at the first poll, n = 0; and set at the first, clear at the second, n = 1. -/
theorem witness_PollingCommandsEndOnceTheBitClears :
    (blockB (acks [[], [0x00], [0x7E], [0xED], [0x00], [0x65], [0x5A], [0xC0]])).ready = true ∧
    (∃ u t v, runOps (pollingOps params0 0) (blockB (acks [[], [0x00], [0x7E], [0xED], [0x00], [0x65], [0x5A], [0xC0]])) =
        (acks [[], [0x00]], u) ∧
      runOps (rawtBDataOps params0) u = (acks [[0x7E], [0xED], [0x00]], t) ∧
      runOps (rawpBOps params0) t = (acks [[0x65], [0x5A], [0xC0]], v)) ∧
    pollsClearAfter params0 0 (acks [[], [0x00]]) ∧
    (∀ a ∈ acks [[0x7E], [0xED], [0x00], [0x65], [0x5A], [0xC0]], goesOn params0 a = true) ∧
    (∃ u, runOps (pollingOps params0 1) (blockB (acks pollBytes)) = (acks [[], [0x08], [0x00]], u)) ∧
    pollsClearAfter params0 1 (acks [[], [0x08], [0x00]]) ∧ belowLimit params0 1 = true :=
  ⟨by decide +kernel, ⟨_, _, _, runs (by decide +kernel), runs (by decide +kernel), runs (by decide +kernel)⟩,
    ⟨.ack [], [], .ack [0x00], by decide +kernel⟩, by decide +kernel, ⟨_, runs (by decide +kernel)⟩,
    ⟨.ack [], [.ack [0x08]], .ack [0x00], by decide +kernel⟩, by decide +kernel⟩

/-- A block with POLL_LIMIT 3 and three polls that find the measuring bit set. -/
def limited : State := { block (acks [[], [0x08], [0x08], [0x08]]) with params := { params0 with pollLimit := some 3 } }

theorem witness_PollLimitEndsInPollTimeout :
    limited.ready = true ∧ limited.params.pollLimit = some 3 ∧ 3 < limited.answers.length ∧
    (∃ u, runOps (rawtBControlOp limited.params :: List.replicate 3 (pollOp limited.params)) limited =
      (.ack [] :: acks [[0x08], [0x08], [0x08]], u)) ∧
    (∀ a ∈ acks [[0x08], [0x08], [0x08]], pollBusy limited.params a = true) :=
  ⟨by decide +kernel, by decide +kernel, by decide +kernel, ⟨_, runs (by decide +kernel)⟩, by decide +kernel⟩

theorem witness_StuckPollKeepsPolling :
    (polling (acks [[0x08]])).seq = some ⟨.rawtB, 1, .idle, [], 1⟩ ∧ (polling (acks [[0x08]])).seqAtPoll = true ∧
    (polling (acks [[0x08]])).hostQuiet = true ∧ (polling (acks [[0x08]])).answers.length ≤ 1 ∧
    pollBusy params0 (busAnswer 0x77 [params0.regStatusB] 1 (polling (acks [[0x08]]))) = true ∧
    belowLimit params0 2 = true := by decide +kernel

theorem witness_NackInAnAcquisitionCommitsNothing :
    (blockA [.nack 9 [0]]).ready = true ∧ (blockA [.nack 9 [0]]).b5Valid = true ∧ params0.abBusPolicy = .abort ∧
    (∃ post, rawtAOps params0 = [] ++ .xfer 0x77 [0xF4, 0x2E] 0 :: post) ∧
    (∃ post, rawpAOps (blockA [.nack 9 [0]]) = [] ++ .xfer 0x77 [0xF4, 0x34] 0 :: post) ∧
    (∃ post, rawpBOps params0 = [] ++ .xfer 0x77 [0xF7] 1 :: post) ∧
    busAnswer 0x77 [0xF4, 0x2E] 0 (blockA [.nack 9 [0]]) = .nack 9 [] ∧
    busAnswer 0x77 [0xF4, 0x34] 0 (blockA [.nack 9 [0]]) = .nack 9 [] ∧
    busAnswer 0x77 [0xF7] 1 (blockA [.nack 9 [0]]) = .nack 9 [0] :=
  ⟨by decide +kernel, by decide +kernel, rfl, ⟨_, by rfl⟩, ⟨_, by rfl⟩, ⟨_, by rfl⟩, by rfl, by rfl, by rfl⟩

/-- Under ABORT: the control write refused; the second poll refused (B-E-5); the second temperature read; the first
pressure read. -/
theorem witness_NackInAPollingCommandCommitsNothing :
    (blockB [.nack 9 []]).ready = true ∧ (blockB [.nack 9 []]).params.abBusPolicy = .abort ∧
    busAnswer 0x77 [params0.regCtrlB, params0.ctrlBValue] 0 (blockB [.nack 9 []]) = .nack 9 [] ∧
    (∃ u, runOps (rawtBControlOp params0 :: List.replicate 1 (pollOp params0))
        (blockB (acks [[], [0x08]] ++ [.nack 6 [0]])) = (.ack [] :: acks [[0x08]], u) ∧
      busAnswer 0x77 [params0.regStatusB] 1 u = .nack 6 [0]) ∧
    (∀ a ∈ acks [[0x08]], pollBusy params0 a = true) ∧ belowLimit params0 1 = true ∧
    (∃ u t, runOps (pollingOps params0 0) (blockB (acks [[], [0x00], [0x7E]] ++ [.nack 6 [0]])) =
        (acks [[], [0x00]], u) ∧
      runOps [readOp params0.regTempB 1] u = (acks [[0x7E]], t) ∧
      busAnswer 0x77 [params0.regTempB + 1] 1 t = .nack 6 [0]) ∧
    pollsClearAfter params0 0 (acks [[], [0x00]]) ∧
    (∃ post, rawtBDataOps params0 = [readOp params0.regTempB 1] ++ readOp (params0.regTempB + 1) 1 :: post) ∧
    (∃ u t, runOps (pollingOps params0 0) (blockB (acks [[], [0x00], [0x7E], [0xED], [0x00]] ++ [.nack 6 [0]])) =
        (acks [[], [0x00]], u) ∧
      runOps (rawtBDataOps params0 ++ []) u = (acks [[0x7E], [0xED], [0x00]], t) ∧
      busAnswer 0x77 [params0.regPresB] 1 t = .nack 6 [0]) ∧
    (∃ post, rawpBOps params0 = [] ++ readOp params0.regPresB 1 :: post) :=
  ⟨by decide +kernel, rfl, by rfl, ⟨_, runs (by decide +kernel), by decide +kernel⟩, by decide +kernel, by decide +kernel,
    ⟨_, _, runs (by decide +kernel), runs (by decide +kernel), by decide +kernel⟩,
    ⟨.ack [], [], .ack [0x00], by decide +kernel⟩, ⟨_, rfl⟩,
    ⟨_, _, runs (by decide +kernel), runs (by decide +kernel), by decide +kernel⟩, ⟨_, rfl⟩⟩

theorem witness_OverflowIsFlaggedExactlyWhenTheValueWraps :
    (BitVec.ofInt 32 (-1) ≠ 0#32) ∧ (5#32 ≠ 0#32) := by decide

theorem witness_PdivReadingsDifferOnlyOnInexactNegatives : (31 : Nat) ≤ 31 := by decide

/-- X1 + MD of CompTA, the divisor that CompTAIsTheStatedFormula tests. -/
def divisorTA (rnd : Rounding) (c : CalA) (raw : Word) : Int :=
  wrapS32 (intPdiv rnd (wrapS32 (wrapS32 (raw.toInt - c.ac6.toNat) * c.ac5.toNat)) 15 + c.md.toInt)

/-- The vector A-T-1; MD = 0xED79, for which the divisor is 0; and a code of 2^31, for which steps overflow. -/
theorem witness_CompTAIsTheStatedFormula :
    divisorTA .floor calA1 27898 ≠ 0 ∧ divisorTA .floor { calA1 with md := 0xED79 } 27898 = 0 ∧
    divisorTA .trunc calA1 0x80000000 ≠ 0 := by decide +kernel

/-- B4 of CompPA, the divisor that CompPAIsTheStatedFormula tests. -/
def divisorPA (rnd : Rounding) (c : CalA) (b5 : Word) : Nat :=
  let b6 := wrapS32 (b5.toInt - 4000)
  let sq := intPdiv rnd (wrapS32 (b6 * b6)) 12
  let e12 := intPdiv rnd (wrapS32 (c.ac3.toInt * b6)) 13 + intPdiv rnd (wrapS32 (c.b1.toInt * sq)) 16
  (c.ac4.toNat * (((wrapS32 (wrapS32 e12 + 2)).tdiv 4 + 32768) % 2 ^ 32).toNat % 2 ^ 32) / 2 ^ 15

/-- The vector A-P-1, whose B4 is 33457, with the operands of A-P-5, at which X1 * 3038 overflows; AC4 = 0, for which B4 is
0; and AC4 = 1 with every other coefficient 0, for which B4 is 1 and at the code 0x0C7AE148 R239's doubling wraps. -/
theorem witness_CompPAIsTheStatedFormula :
    divisorPA .floor calA1 2400 = 33457 ∧ divisorPA .floor { calA1 with ac4 := 0 } 2400 = 0 ∧
    divisorPA .floor { CalA.zero with ac4 := 1 } 4000 = 1 ∧
    (∃ o, compPA .floor calA1 0 2400 0 [] = .ok 252712 o ∧ overflowed o = true) ∧
    (∃ o, compPA .floor { CalA.zero with ac4 := 1 } 0x0C7AE148 4000 0 [] = .ok 32057 o ∧ overflowed o = false) :=
  ⟨by decide +kernel, by decide +kernel, by decide +kernel, ⟨_, by rfl, by decide +kernel⟩,
    ⟨_, by rfl, by decide +kernel⟩⟩

/-- The vector B-T-1, and a code of 2^31, which overflows. -/
theorem witness_CompTBIsTheStatedFormula :
    (∃ o, compTBOf .floor calB1 519888 [] = .ok (128422, 2508) o ∧ overflowed o = false) ∧
    (∃ r o, compTBOf .floor calB1 0x80000000 [] = .ok r o ∧ overflowed o = true) :=
  ⟨⟨_, by rfl, by decide +kernel⟩, ⟨_, _, by rfl, by decide +kernel⟩⟩

/-- The guard divisor of CompPB, which CompPBIsTheStatedFormula tests. -/
def divisorPB (rnd : Rounding) (c : CalB) (tFine : Word) : Int :=
  let var1 := wrapS32 (tFine.toInt / 2 - 64000)
  let q := var1 / 2 ^ 2
  let e11 := intPdiv rnd (wrapS32 (c.p3.toInt * intPdiv rnd (wrapS32 (q * q)) 13)) 3 +
    intPdiv rnd (wrapS32 (c.p2.toInt * var1)) 1
  intPdiv rnd (wrapS32 (wrapS32 (32768 + intPdiv rnd (wrapS32 e11) 18) * c.p1.toNat)) 15

/-- The vector B-P-1; and P1 = 0, for which the divisor is 0. -/
theorem witness_CompPBIsTheStatedFormula :
    divisorPB .floor calB1 128422 ≠ 0 ∧ divisorPB .floor { calB1 with p1 := 0 } 128422 = 0 ∧
    (∃ o, compPBOf .floor calB1 415148 128422 [] = .ok (100656, false) o ∧ overflowed o = false) :=
  ⟨by decide +kernel, by decide +kernel, ⟨_, by rfl, by decide +kernel⟩⟩

/-- A computation ends with a value, without overflow before it. -/
def succeeds {α : Type} (c : Calc α) : Bool :=
  match c [] with
  | .ok _ _ => true
  | .error _ _ => false

theorem ok_of_succeeds {α : Type} {c : Calc α} (h : succeeds c = true) : ∃ a o, c [] = .ok a o := by
  unfold succeeds at h; split at h
  · exact ⟨_, _, by assumption⟩
  · cases h

theorem error_of_fails {α : Type} {c : Calc α} (h : succeeds c = false) : ∃ e o, c [] = .error e o := by
  unfold succeeds at h; split at h
  · cases h
  · exact ⟨_, _, by assumption⟩

/-- Both ends of CompTA and of CompPA, on a ready block; and B5_VALID = 0 on the reset one. -/
theorem witness_ComptACommitsTheTemperature :
    (blockA []).ready = true ∧ (∃ r o, compTAOf params0.divPow2 calA1 27898 [] = .ok r o) ∧
    (block []).ready = true ∧ (∃ e o, compTAOf params0.divPow2 (block []).calA (block []).rawT [] = .error e o) :=
  ⟨by decide +kernel, ok_of_succeeds (by decide +kernel), by decide +kernel, error_of_fails (by decide +kernel)⟩

theorem witness_ComppACommitsThePressure :
    (block []).b5Valid = false ∧ (blockA []).b5Valid = true ∧
    (∃ p o, compPA params0.divPow2 calA1 23843 2400 0 [] = .ok p o) ∧
    (∃ e o, compPA params0.divPow2 { calA1 with ac4 := 0 } 23843 2400 0 [] = .error e o) :=
  ⟨by decide +kernel, by decide +kernel, ok_of_succeeds (by decide +kernel), error_of_fails (by decide +kernel)⟩

/-- The run of RAWT_A of A-T-1, and CompTA on its code 27898 with MD as it is and with MD = 0xED79. -/
theorem witness_TempAAcquiresThenCompensates :
    acquires (rawtAOps params0) [[], [0x6C], [0xFA]] ∧
    (0#16 ++ answerByte (.ack [0x6C]) 0 ++ answerByte (.ack [0xFA]) 0 : Word) = 27898 ∧
    (∃ r o, compTAOf params0.divPow2 calA1 27898 [] = .ok r o) ∧
    (∃ e o, compTAOf params0.divPow2 { calA1 with md := 0xED79 } 27898 [] = .error e o) :=
  ⟨⟨by decide +kernel, ⟨_, runs (by decide +kernel)⟩, by decide +kernel⟩, by decide +kernel, ok_of_succeeds (by decide +kernel),
    error_of_fails (by decide +kernel)⟩

/-- The run of RAWP_A of A-P-1 with B5 valid; CompPA's two ends are those of COMPP_A's witness. -/
theorem witness_PresAAcquiresThenCompensates :
    acquires (rawpAOps (blockA [])) [[], [0x5D], [0x23], [0x00]] ∧ (blockA []).b5Valid = true ∧
    (block []).ready = true ∧ (block []).b5Valid = false ∧
    (0#8 ++ answerByte (.ack [0x5D]) 0 ++ answerByte (.ack [0x23]) 0 ++ answerByte (.ack [0x00]) 0 : Word) >>> 8
      = 23843 :=
  ⟨⟨by decide +kernel, ⟨_, runs (by decide +kernel)⟩, by decide +kernel⟩, by decide +kernel,
    by decide +kernel, by decide +kernel, by decide +kernel⟩

theorem witness_ComptBCommitsTheTemperature : (blockB []).ready = true := by decide +kernel

theorem witness_ComppBCommitsThePressure :
    (block []).ready = true ∧ (block []).tfineValid = false ∧ (blockB []).ready = true ∧ (blockB []).tfineValid = true := by
  decide +kernel

/-- The bit set at the first poll and clear at the second, then the temperature's bytes. -/
theorem witness_TempBAcquiresThenCompensates :
    (blockB (acks pollBytes)).ready = true ∧
    (∃ u t, runOps (pollingOps params0 1) (blockB (acks pollBytes)) = (acks [[], [0x08], [0x00]], u) ∧
      runOps (rawtBDataOps params0) u = (acks [[0x7E], [0xED], [0x00]], t)) ∧
    pollsClearAfter params0 1 (acks [[], [0x08], [0x00]]) ∧ 1 + 1 < (blockB (acks pollBytes)).answers.length ∧
    belowLimit params0 1 = true ∧ (∀ a ∈ acks [[0x7E], [0xED], [0x00]], goesOn params0 a = true) :=
  ⟨by decide +kernel, ⟨_, _, runs (by decide +kernel), runs (by decide +kernel)⟩,
    ⟨.ack [], [.ack [0x08]], .ack [0x00], by decide +kernel⟩, by decide +kernel, by decide +kernel, by decide +kernel⟩

/-- The bit set at the first poll and clear at the second, then the temperature's bytes and the pressure's. -/
theorem witness_PresBRefreshesTfineThenCompensates :
    (blockB (acks pollBytes)).ready = true ∧
    (∃ u t v, runOps (pollingOps params0 1) (blockB (acks pollBytes)) = (acks [[], [0x08], [0x00]], u) ∧
      runOps (rawtBDataOps params0) u = (acks [[0x7E], [0xED], [0x00]], t) ∧
      runOps (rawpBOps params0) t = (acks [[0x65], [0x5A], [0xC0]], v)) ∧
    pollsClearAfter params0 1 (acks [[], [0x08], [0x00]]) ∧ 1 + 1 < (blockB (acks pollBytes)).answers.length ∧
    belowLimit params0 1 = true ∧ (∀ a ∈ acks pollBytes, goesOn params0 a = true) :=
  witness_RawtBStoresTheCodeAfterPolling

/-- A load of a block that then stays ready. -/
theorem witness_ReloadRequiresANewTemperature :
    (blockA (acks calABytes)).seq = none ∧ (blockA (acks calABytes)).noReset = true ∧
    leads (.calLoadA 0) (blockA (acks calABytes)) State.ready = true ∧
    leads .calLoadB (blockB (acks calBBytes)) State.ready = true := by decide +kernel

theorem witness_FrameEncodePacksTheValues : (blockB []).ready = true := by decide +kernel

theorem witness_FrameWriteThenReadIsLittleEndian :
    (1 ≤ 1 ∧ 1 ≤ 3 ∧ 15 + 1 ≤ 16) ∧ (1 ≤ 3 ∧ 3 ≤ 3 ∧ 13 + 3 ≤ 16) := by decide

/-- An idle block about to run a command and a block that polls: every invariant holds and the step goes on. -/
theorem witness_StepKeeps :
    (withInput (csrw 0x000 0x40000000) (blockB [])).seqAtPoll = true ∧
    (withInput (csrw 0x000 0x40000000) (block [])).invariant = true ∧
    (∃ t, step (withInput (csrw 0x000 0x40000000) (block [])) = .next t) ∧
    (polling (acks [[0x08]])).invariant = true ∧ (∃ t, step (polling (acks [[0x08]])) = .next t) :=
  ⟨by decide +kernel, by decide +kernel, ⟨_, rfl⟩, by decide +kernel, ⟨_, rfl⟩⟩

theorem witness_StepStopsOnlyOnUnsupportedAccess :
    (withInput ⟨.whenIdle, .access (.write .half 0x000 0)⟩ (block [])).seqAtPoll = true ∧
    (withInput ⟨.whenIdle, .access (.write .half 0x000 0)⟩ (block [])).seq = none ∧
    ((0x002#32).extractLsb' 0 2 ≠ 0#2) ∧
    (withInput ⟨.whenIdle, .memory (.store .half 0x40000000 0)⟩ (block [])).seq = none ∧
    ([(AccessSize.half, 0x40000000), (.word, 0x40000002), (.word, 0x3FFFFFFE), (.word, 0x400000FE)].all
      fun (size, addr) => decide (params0.csrBase < addr + size.bytes ∧ addr < params0.csrBase + 0x100 ∧
        (size ≠ .word ∨ ((addr : Int) - params0.csrBase) % 4 ≠ 0))) = true := by decide +kernel

theorem witness_CommandCommitsOrPolls :
    (block (acks [[], [0x08]])).seq = none ∧ (block (acks [[], [0x08]])).noReset = true ∧
    leads .rawtB (block (acks [[], [0x08]])) (fun t => t.seq.isSome && t.seqAtPoll) = true ∧
    leads .nop (block []) (fun t => t.seq.isNone) = true := by decide +kernel

theorem witness_OnlyTheirCommandsWriteTheStores :
    (block (acks calABytes)).seq = none ∧ (block (acks calABytes)).noReset = true ∧
    (∃ t, exec (.calLoadA 0) (block (acks calABytes)) = .next t) ∧ (∃ t, exec .rawtA (block []) = .next t) :=
  ⟨by decide +kernel, by decide +kernel, ⟨_, rfl⟩, ⟨_, rfl⟩⟩

/-- A step that makes a transaction, and a step that resets the block. -/
theorem witness_TraceOnlyGrows :
    (∃ t, step (withInput (csrw 0x000 0x0177D000) (block (acks [[0x55]]))) = .next t ∧ t.trace.length = 1) ∧
    (∃ t, step (withInput ⟨.whenIdle, .reset⟩ (polling [])) = .next t) :=
  ⟨⟨_, rfl, by decide +kernel⟩, ⟨_, rfl⟩⟩

end Sys2Proof.Tests
end

