-- ==== Sys2Proof/Proofs/Arithmetic.lean ====
section
/-! LAW. The s32 operations against exact integer arithmetic: what a narrowed result reads as and when it is flagged
(R10), when a truncated quotient leaves the range of s32 (R11), and the two readings of a division by 2^k (R12, R13). -/

namespace Sys2Proof.Machine

/-! ## Narrowing -/

theorem toInt_ofInt_eq_wrapS32 (x : Int) : (BitVec.ofInt 32 x).toInt = wrapS32 x :=
  BitVec.toInt_ofInt x

theorem inS32_toInt (a : Word) : inS32 a.toInt = true := by
  have hlow := a.le_toInt
  have hhigh := a.toInt_lt
  rw [inS32_iff]
  omega

/-- Narrowing keeps exactly the values in range: what it answers is itself in range. -/
theorem toInt_ofInt_eq_self_iff (x : Int) : (BitVec.ofInt 32 x).toInt = x ↔ inS32 x = true := by
  constructor
  · intro h
    rw [← h]
    exact inS32_toInt _
  · exact toInt_ofInt_of_inS32

theorem narrow_eq (x : Int) (o : List Bool) :
    narrow x o = .ok (BitVec.ofInt 32 x) (o ++ [decide ((BitVec.ofInt 32 x).toInt ≠ x)]) := by
  have hflag : (!inS32 x) = decide ((BitVec.ofInt 32 x).toInt ≠ x) := by
    rw [Bool.eq_iff_iff, Bool.not_eq_true', ← Bool.not_eq_true, decide_eq_true_iff, Ne, toInt_ofInt_eq_self_iff]
  rw [narrow, hflag]

theorem asS32_eq (u : Word) (o : List Bool) : asS32 u o = .ok u (o ++ [decide (2 ^ 31 ≤ u.toNat)]) := by
  rw [asS32, BitVec.msb_eq_decide]

/-! ## The truncated quotient -/

/-- No divisor but -1 takes -2^31 out of range: 0 and 1 answer 0 and the dividend, and any other divisor at least
halves the magnitude. -/
theorem inS32_tdiv {x y : Int} (hx : inS32 x = true) (h : ¬(x = -2147483648 ∧ y = -1)) :
    inS32 (x.tdiv y) = true := by
  rw [inS32_iff] at hx ⊢
  obtain rfl | rfl | rfl | hy : y = -1 ∨ y = 0 ∨ y = 1 ∨ 2 ≤ y.natAbs := by omega
  · rw [Int.tdiv_neg, Int.tdiv_one]
    omega
  · simp
  · simpa using hx
  · have hquot : (x.tdiv y).natAbs = x.natAbs / y.natAbs := Int.natAbs_tdiv x y
    have hhalf : x.natAbs / y.natAbs ≤ x.natAbs / 2 := Nat.div_le_div_left hy (by decide)
    omega

theorem inS32_tdiv_toInt_iff (a b : Word) : inS32 (a.toInt.tdiv b.toInt) = true ↔
    ¬(a = BitVec.ofInt 32 (-2147483648) ∧ b = BitVec.ofInt 32 (-1)) := by
  constructor
  · rintro h ⟨rfl, rfl⟩
    revert h
    decide
  · intro h
    apply inS32_tdiv (inS32_toInt a)
    rintro ⟨ha, hb⟩
    exact h ⟨by rw [← ha, BitVec.ofInt_toInt], by rw [← hb, BitVec.ofInt_toInt]⟩

theorem sTdiv_eq (a b : Word) (o : List Bool) : sTdiv a b o =
    .ok (BitVec.ofInt 32 (a.toInt.tdiv b.toInt))
      (o ++ [a == BitVec.ofInt 32 (-2147483648) && b == BitVec.ofInt 32 (-1)]) := by
  have hflag : (!inS32 (a.toInt.tdiv b.toInt)) =
      (a == BitVec.ofInt 32 (-2147483648) && b == BitVec.ofInt 32 (-1)) := by
    rw [Bool.eq_iff_iff, Bool.not_eq_true', ← Bool.not_eq_true, inS32_tdiv_toInt_iff, not_not, Bool.and_eq_true,
      beq_iff_eq, beq_iff_eq]
  rw [sTdiv, narrow, hflag]

/-! ## Division by 2^k -/

theorem toInt_sar (x : Word) (k : Nat) : (sar x k).toInt = x.toInt / 2 ^ k := by
  rw [sar, BitVec.toInt_sshiftRight, Int.shiftRight_eq_div_pow]
  norm_cast

/-- Both readings are the integer quotient: a positive divisor never takes it out of range. -/
theorem toInt_pdiv (rnd : Rounding) (x : Word) (k : Nat) : (pdiv rnd x k).toInt = intPdiv rnd x.toInt k := by
  cases rnd with
  | floor => exact toInt_sar x k
  | trunc =>
    have hpos : (0 : Int) < 2 ^ k := by positivity
    exact toInt_ofInt_of_inS32 (inS32_tdiv (inS32_toInt x) (by omega))

/-- Truncation rounds up where the floor rounds down: below 0, when the division leaves a remainder. -/
theorem ediv_ne_tdiv_iff {x m : Int} (hm : 0 < m) : x / m ≠ x.tdiv m ↔ x < 0 ∧ ¬m ∣ x := by
  rw [Int.tdiv_eq_ediv, Int.sign_eq_one_of_pos hm]
  split <;> omega

theorem pdiv_floor_ne_trunc_iff (x : Word) (k : Nat) :
    pdiv .floor x k ≠ pdiv .trunc x k ↔ x.toInt < 0 ∧ ¬(2 ^ k : Int) ∣ x.toInt := by
  rw [Ne, ← BitVec.toInt_inj, toInt_pdiv, toInt_pdiv]
  exact ediv_ne_tdiv_iff (by positivity)

/-! ## The statements -/

/-- Settles O33: each operation is a narrowed exact result, and `narrow_eq` and `sTdiv_eq` say when it is flagged. -/
theorem overflowIsFlaggedExactlyWhenTheValueWraps : Obligations.OverflowIsFlaggedExactlyWhenTheValueWraps := by
  refine ⟨fun x o => ⟨_, narrow_eq x o, toInt_ofInt_eq_wrapS32 x⟩, fun _ _ _ => ⟨rfl, rfl, rfl⟩, fun _ _ _ => rfl,
    fun _ _ _ => BitVec.toNat_udiv, asS32_eq, fun a b _ => ⟨_, sTdiv_eq a b [], fun h => ?_, ?_⟩⟩
  · exact toInt_ofInt_of_inS32 ((inS32_tdiv_toInt_iff a b).2 h)
  · rintro rfl rfl
    decide

/-- Settles O34: both readings are the integer quotients, which differ as `pdiv_floor_ne_trunc_iff` says. -/
theorem pdivReadingsDifferOnlyOnInexactNegatives : Obligations.PdivReadingsDifferOnlyOnInexactNegatives :=
  fun x k _ => ⟨toInt_sar x k, toInt_pdiv .floor x k, toInt_pdiv .trunc x k, pdiv_floor_ne_trunc_iff x k⟩

end Sys2Proof.Machine
end

