-- ==== Sys2Proof/Proofs/CommandRun.lean ====
section
/-! LAW. What a running command keeps and how it can end, whatever the bus answers and the host does: the registers
that only a commit or a reset writes (R18, R390), and one rule for each piece of a body. -/

namespace Sys2Proof.Machine

/-! ## The registers that only a commit or a reset writes -/

/-- The parameters, and the registers that neither a host access nor a body under way changes (R18, R53). -/
structure Stores where
  params : Params
  calA : CalA
  calB : CalB
  calValidA : Bool
  calValidB : Bool
  calFaultA : Bool
  calFaultB : Bool
  ossCode : BitVec 2
  waitPMs : Byte
  id : Byte
  family : Family
  frame : Memory
  resp : Resp

/-- The stores of the block. -/
def State.stores (s : State) : Stores :=
  ⟨s.params, s.calA, s.calB, s.calValidA, s.calValidB, s.calFaultA, s.calFaultB, s.ossCode, s.waitPMs, s.id, s.family,
    s.frame, s.resp⟩

/-- The stores but RESP: what a framed read leaves. -/
def State.storesButResp (s : State) : Stores := { s.stores with resp := Resp.zero }

theorem stores_of_storesButResp {s t : State} (h : t.storesButResp = s.storesButResp) :
    t.stores = { s.stores with resp := t.resp } :=
  congrArg (fun st : Stores => { st with resp := t.resp }) h

theorem commit_stores (e : Option ErrorKind) (ws : List RegWrite) (s : State) :
    (commit e ws s).stores = (applyWrites ws s).stores := rfl

/-- A host access of an idle block reaches no store (R32). -/
theorem csrWriteIdle_stores (c : Csr) (v : Word) (s : State) : (csrWriteIdle c v s).stores = s.stores := by
  cases c <;> rfl

/-- What a host write of an idle block that launches nothing leaves, if every register write it can make does. -/
theorem hostWriteIdle_keeps {β : Type} {f : State → β} (hf : ∀ c v s, f (csrWriteIdle c v s) = f s) (off v : Word)
    (s : State) : f (hostWriteIdle off v s) = f s := by
  unfold hostWriteIdle
  split
  · exact hf _ v s
  · rfl

/-- What a supported access while a command runs leaves, if its three effects do (R53). -/
theorem hostAccessBusy_keeps {P : State → Prop} (hread : ∀ off s, P s → P (hostRead off s))
    (hclear : ∀ v s, P s → P (clearW1C v s)) (hdrop : ∀ s, P s → P (dropWrite s)) (a : HostAccess) (s : State)
    (h : P s) : P (hostAccessBusy a s) := by
  cases a with
  | read _ off => exact hread off s h
  | write _ off v =>
    simp only [hostAccessBusy, hostWriteBusy]
    split
    · exact hclear v s h
    · split
      · exact hdrop s h
      · exact h

/-! ## Lists of writes that leave a part of the state alone -/

/-- The writes ws leave f as it was, from every state. -/
def Keeps {β : Type} (f : State → β) (ws : List RegWrite) : Prop := ∀ s, f (applyWrites ws s) = f s

section
variable {β : Type} {f : State → β}

theorem keeps_nil : Keeps f [] := fun _ => rfl

theorem applyWrites_append (ws vs : List RegWrite) (s : State) :
    applyWrites (ws ++ vs) s = applyWrites vs (applyWrites ws s) := List.foldl_append

theorem Keeps.append {ws vs : List RegWrite} (hw : Keeps f ws) (hv : Keeps f vs) : Keeps f (ws ++ vs) := fun s => by
  rw [applyWrites_append, hv, hw]

end

/-! ## A command under way -/

/-- A command runs: the stores are st, DONE, ERR and BUSCODE as accept left them, CMD holds its word, and R holds of its
sequencer (R50, R124). -/
structure Underway (st : Stores) (R : Running → Prop) (s : State) : Prop where
  stores : s.stores = st
  done : s.done = false
  err : s.err = none
  buscode : s.buscode = 0
  seq : ∃ r, s.seq = some r ∧ s.cmd = encode r.cmd ∧ R r

/-- A command runs, and the inputs carry no reset, where that is assumed. -/
def Going (calm : Bool) (st : Stores) (R : Running → Prop) (s : State) : Prop := Underway st R s ∧ Calm calm s

/-- What one sequence of steps of the sequencer can leave of a command that ran at the stores st and may commit the
lists of writes in W: a reset, a commit (with the bus's code for a BusNack only), or a poll. -/
inductive Ended (calm : Bool) (st : Stores) (W : List RegWrite → Prop) (t : State) : Prop where
  | reset (u : State) (hcalm : calm = false) (hstores : u.stores = st) (ht : t = platformReset u)
  | committed (e : Option ErrorKind) (ws : List RegWrite) (u : State) (hstores : u.stores = st) (hws : W ws)
      (hcode : e = some .busNack ∨ u.buscode = 0) (ht : t = commit e ws u)
  | polling (hstores : t.stores = st) (hpoll : t.seqAtPoll = true) (hseq : t.seq.isSome = true)

/-- A property of the sequencer that does not look at the position of the body. -/
def StepFree (R : Running → Prop) : Prop := ∀ r n, R r → R { r with step := n }

section
variable {calm : Bool} {st : Stores} {W : List RegWrite → Prop} {R R' : Running → Prop} {s : State} {α : Type}

theorem Underway.mono (h : Underway st R s) (hR : ∀ r, R r → R' r) : Underway st R' s := by
  obtain ⟨r, hr, hcmd, hRr⟩ := h.seq
  exact ⟨h.stores, h.done, h.err, h.buscode, r, hr, hcmd, hR r hRr⟩

theorem Going.mono (h : Going calm st R s) (hR : ∀ r, R r → R' r) : Going calm st R' s := ⟨h.1.mono hR, h.2⟩

theorem underway_hostStable : HostStable (Underway st R) where
  inputs _ _ h := ⟨h.stores, h.done, h.err, h.buscode, h.seq⟩
  access := hostAccessBusy_keeps
    (fun _ _ h => ⟨h.stores, h.done, h.err, h.buscode, h.seq⟩)
    (fun v s h => ⟨h.stores, by rw [clearW1C_done, h.done, Bool.false_and], h.err, h.buscode, h.seq⟩)
    (fun _ h => ⟨h.stores, h.done, h.err, h.buscode, h.seq⟩)

theorem Underway.afterXfer (h : Underway st R s) {dev : Dev} {w : List Byte} {n : Nat} :
    Underway st R (afterXfer dev w n s) := ⟨h.stores, h.done, h.err, h.buscode, h.seq⟩

theorem Underway.afterDelay (h : Underway st R s) {ms : Nat} : Underway st R (afterDelay ms s) :=
  ⟨h.stores, h.done, h.err, h.buscode, h.seq⟩

theorem Underway.noteOvf (h : Underway st R s) {o : Bool} : Underway st R (noteOvf o s) :=
  ⟨h.stores, h.done, h.err, h.buscode, h.seq⟩

theorem Underway.passFr (h : Underway st R s) (fr : FrState) : Underway st R (passFr fr s) :=
  ⟨h.stores, h.done, h.err, h.buscode, h.seq⟩

theorem Underway.onSeq (h : Underway st R s) {f : Running → Running} (hcmd : ∀ r, (f r).cmd = r.cmd)
    (hR : ∀ r, R r → R' (f r)) : Underway st R' (onSeq f s) := by
  obtain ⟨r, hr, hc, hRr⟩ := h.seq
  refine ⟨h.stores, h.done, h.err, h.buscode, f r, ?_, ?_, hR r hRr⟩
  · rw [onSeq_seq, hr, Option.map_some]
  · rw [onSeq_cmd, hcmd, hc]

theorem Underway.advance (h : Underway st R s) (hR : StepFree R) : Underway st R (advance s) :=
  h.onSeq (fun _ => rfl) fun r => hR r _

theorem Underway.stagedOf (h : Underway st R s) (hR : ∀ r, R r → W r.staged) : W (stagedOf s) := by
  obtain ⟨r, hr, -, hRr⟩ := h.seq
  rw [Machine.stagedOf, hr]
  exact hR r hRr

/-- A reset can end a running command, where the inputs may carry one (R390). -/
theorem ended_of_reset (hcalm : calm = false) (s : State) (h : Underway st R s) :
    Ended calm st W (platformReset s) := .reset s hcalm h.stores rfl

/-- An error ends a running command (R19); only a BusNack brings a code. -/
theorem Underway.ended_raise (h : Underway st R s) {e : ErrorKind} {info : Option Word} {ws : List RegWrite}
    (hws : W ws) (hinfo : e = .busNack ∨ info = none) : Ended calm st W (commit (some e) ws (takeBuscode info s)) := by
  refine .committed (some e) ws (takeBuscode info s) h.stores hws ?_ rfl
  obtain rfl | rfl := hinfo
  · exact .inl rfl
  · exact .inr h.buscode

/-! ## One rule for each piece of a body -/

/-- A fact that holds before the body runs. -/
theorem sat_of_pre {c : Prop} {P : State → Prop} {b : Body α} {Q : α → State → Prop} {E : State → Prop}
    (h : c → Sat P b Q E) : Sat (fun s => c ∧ P s) b Q E := fun s hs => h hs.1 s hs.2

/-- A body needs no more of the sequencer than it is proved for. -/
theorem going_of_imp {b : Body α} {Q : α → State → Prop} {E : State → Prop} (h : Sat (Going calm st R') b Q E)
    (hR : ∀ r, R r → R' r) : Sat (Going calm st R) b Q E :=
  sat_mono h (fun _ hs => hs.mono hR) (fun _ _ hs => hs) fun _ hs => hs

theorem going_regOf (f : State → α) {E : State → Prop} :
    Sat (Going calm st R) (regOf f) (fun _ => Going calm st R) E := sat_regOf fun _ h => h

theorem going_xfer (hR : StepFree R) (dev : Dev) (w : List Byte) (n : Nat) :
    Sat (Going calm st R) (xfer dev w n) (fun _ => Going calm st R) (Ended calm st W) :=
  sat_xfer calm underway_hostStable ended_of_reset dev w n fun _ h hc => ⟨h.afterXfer.advance hR, hc⟩

theorem going_delay (hR : StepFree R) (ms : Nat) :
    Sat (Going calm st R) (delay ms) (fun _ => Going calm st R) (Ended calm st W) :=
  sat_delay calm underway_hostStable ended_of_reset ms fun _ h hc => ⟨h.afterDelay.advance hR, hc⟩

theorem going_raise {Q : α → State → Prop} {e : ErrorKind} {info : Option Word} {ws : List RegWrite} (hws : W ws)
    (hinfo : e = .busNack ∨ info = none) : Sat (Going calm st R) (raise e info ws : Body α) Q (Ended calm st W) :=
  sat_raise calm underway_hostStable ended_of_reset e info ws fun _ h _ => h.ended_raise hws hinfo

theorem going_raiseStaged {Q : α → State → Prop} {e : ErrorKind} {info : Option Word}
    (hR : ∀ r, R r → W r.staged) (hinfo : e = .busNack ∨ info = none) :
    Sat (Going calm st R) (raiseStaged e info : Body α) Q (Ended calm st W) :=
  sat_bind (Q := fun ws s => W ws ∧ Going calm st R s) (sat_regOf fun _ h => ⟨h.1.stagedOf hR, h⟩) fun _ =>
    sat_of_pre fun hws => going_raise hws hinfo

theorem going_endBody (hR : ∀ r, R r → W r.staged) :
    Sat (Going calm st R) endBody (fun _ => Ended calm st W) (Ended calm st W) :=
  sat_endBody calm underway_hostStable ended_of_reset fun s h _ =>
    .committed none _ s h.stores (h.stagedOf hR) (.inr h.buscode) rfl

theorem going_stage {w : RegWrite} {E : State → Prop} (hR : ∀ r, R r → R' { r with staged := r.staged ++ [w] }) :
    Sat (Going calm st R) (stage w) (fun _ => Going calm st R') E :=
  sat_change fun _ h => ⟨h.1.onSeq (fun _ => rfl) hR, h.2⟩

theorem going_rdAB (hR : StepFree R) (reg : Byte) (n : Nat) {ws : List RegWrite} (hws : W ws) :
    Sat (Going calm st R) (rdAB reg n ws) (fun _ => Going calm st R) (Ended calm st W) :=
  sat_rdAB calm underway_hostStable ended_of_reset reg n ws underway_hostStable ended_of_reset
    (fun _ h => h.afterXfer.advance hR)
    (fun _ _ h hc => ⟨h, hc⟩) fun _ _ h _ => h.ended_raise hws (.inl rfl)

theorem going_wrAB (hR : StepFree R) (reg v : Byte) {ws : List RegWrite} (hws : W ws) :
    Sat (Going calm st R) (wrAB reg v ws) (fun _ => Going calm st R) (Ended calm st W) :=
  sat_wrAB calm underway_hostStable ended_of_reset reg v ws underway_hostStable ended_of_reset
    (fun _ h => h.afterXfer.advance hR)
    (fun _ h hc => ⟨h, hc⟩) fun _ _ h _ => h.ended_raise hws (.inl rfl)

theorem going_rdByte (hR : StepFree R) (reg : Byte) (hnil : W []) :
    Sat (Going calm st R) (rdByte reg) (fun _ => Going calm st R) (Ended calm st W) :=
  sat_bind (going_rdAB hR reg 1 hnil) fun _ => sat_pure _ fun _ h => h

theorem going_compute (hR : StepFree R) (c : Calc α) {ws : List RegWrite} (hws : W ws) :
    Sat (Going calm st R) (compute c ws) (fun _ => Going calm st R) (Ended calm st W) :=
  sat_compute calm underway_hostStable ended_of_reset
    (fun _ _ h => h.noteOvf) c ws
    (fun _ _ _ _ h hc => ⟨h.advance hR, hc⟩) underway_hostStable ended_of_reset
    (fun _ _ _ _ h _ => h.advance hR) fun _ _ _ _ h _ => h.ended_raise hws (.inr rfl)

/-- A body whose normal end is committed leaves the block as `Ended` says. -/
theorem runBody_ended {b : Body Unit}
    (hb : Sat (Going calm st R) b (fun _ => Going calm st fun r => W r.staged) (Ended calm st W))
    (h : Going calm st R s) : Ended calm st W (runBody b s) :=
  runBody_sat (sat_bind hb fun _ => going_endBody fun _ hr => hr) h

/-- An accepted command starts with nothing staged (R124). -/
theorem accept_underway (i : Instr) (s : State) : Underway s.stores (· = started i) (accept i s) :=
  ⟨rfl, rfl, rfl, rfl, _, rfl, rfl, rfl⟩

/-- A launch at an idle block leaves what its body does. -/
theorem launch_ended {i : Instr} {b : Body Unit} {t : State}
    (hb : Sat (Going calm s.stores R) b (fun _ => Going calm s.stores fun r => W r.staged) (Ended calm s.stores W))
    (hR : R (started i)) (hs : s.seq = none) (hc : Calm calm s) (h : launch i (runBody b) s = .next t) :
    Ended calm s.stores W t := by
  rw [launch_of_idle hs] at h
  cases h
  exact runBody_ended hb ⟨(accept_underway i s).mono fun r hr => hr ▸ hR, hc⟩

end

/-! ## Bodies that stage only writes which leave f alone -/

/-- Everything staged leaves f alone. -/
def Collects {β : Type} (f : State → β) (r : Running) : Prop := Keeps f r.staged

/-- The body b, run with everything staged leaving f alone, goes on so with an answer in V, and commits only writes that
leave f alone. -/
def Spares {α β : Type} (f : State → β) (V : α → Prop) (b : Body α) : Prop :=
  ∀ calm st, Sat (Going calm st (Collects f)) b (fun a s => V a ∧ Going calm st (Collects f) s)
    (Ended calm st (Keeps f))

/-- Any answer. -/
def Any {α : Type} (_ : α) : Prop := True

section
variable {α β γ : Type} {f : State → β} {V : α → Prop}

theorem collects_stepFree : StepFree (Collects f) := fun _ _ h => h

theorem Spares.of_going {b : Body α} (h : ∀ calm st, Sat (Going calm st (Collects f)) b
    (fun _ => Going calm st (Collects f)) (Ended calm st (Keeps f))) : Spares f Any b := fun calm st =>
  sat_mono (h calm st) (fun _ hs => hs) (fun _ _ hs => ⟨trivial, hs⟩) fun _ hs => hs

theorem Spares.going {b : Body α} (h : Spares f V b) (calm : Bool) (st : Stores) :
    Sat (Going calm st (Collects f)) b (fun _ => Going calm st (Collects f)) (Ended calm st (Keeps f)) :=
  sat_mono (h calm st) (fun _ hs => hs) (fun _ _ hs => hs.2) fun _ hs => hs

theorem Spares.bind {x : Body α} {g : α → Body γ} {V' : γ → Prop} (hx : Spares f V x)
    (hg : ∀ a, V a → Spares f V' (g a)) : Spares f V' (x >>= g) := fun calm st =>
  sat_bind (hx calm st) fun a => sat_of_pre fun ha => hg a ha calm st

theorem spares_pure {a : α} (ha : V a) : Spares f V (pure a) := fun _ _ => sat_pure a fun _ h => ⟨ha, h⟩

theorem spares_regOf (g : State → α) : Spares f Any (regOf g) := fun _ _ => sat_regOf fun _ h => ⟨trivial, h⟩

theorem spares_xfer (dev : Dev) (w : List Byte) (n : Nat) : Spares f Any (xfer dev w n) :=
  .of_going fun _ _ => going_xfer collects_stepFree dev w n

theorem spares_delay (ms : Nat) : Spares f Any (delay ms) := .of_going fun _ _ => going_delay collects_stepFree ms

theorem spares_raise {e : ErrorKind} {info : Option Word} {ws : List RegWrite} (hws : Keeps f ws)
    (hinfo : e = .busNack ∨ info = none) : Spares f V (raise e info ws : Body α) := fun _ _ => going_raise hws hinfo

theorem spares_raiseStaged {e : ErrorKind} {info : Option Word} (hinfo : e = .busNack ∨ info = none) :
    Spares f V (raiseStaged e info : Body α) := fun _ _ => going_raiseStaged (fun _ h => h) hinfo

theorem spares_stage {w : RegWrite} (hw : Keeps f [w]) : Spares f Any (stage w) :=
  .of_going fun _ _ => going_stage fun _ h => Keeps.append h hw

theorem spares_setFr (fr : FrState) : Spares f Any (setFr fr) := .of_going fun _ _ => sat_change fun _ h =>
  ⟨(h.1.passFr fr).onSeq (f := fun r => { r with fr := fr }) (fun _ => rfl) fun _ hr => hr, h.2⟩

theorem spares_rdByte (reg : Byte) : Spares f Any (rdByte reg) :=
  .of_going fun _ _ => going_rdByte collects_stepFree reg keeps_nil

theorem spares_wrAB (reg v : Byte) : Spares f Any (wrAB reg v []) :=
  .of_going fun _ _ => going_wrAB collects_stepFree reg v keeps_nil

theorem spares_compute (c : Calc α) {ws : List RegWrite} (hws : Keeps f ws) : Spares f Any (compute c ws) :=
  .of_going fun _ _ => going_compute collects_stepFree c hws

theorem spares_ite {c : Prop} [Decidable c] {x y : Body α} (hx : Spares f V x) (hy : Spares f V y) :
    Spares f V (if c then x else y) := fun calm st => sat_ite (fun _ => hx calm st) fun _ => hy calm st

/-- A command whose body spares f, launched at an idle block. -/
theorem launch_ended_of_spares {i : Instr} {b : Body Unit} {V : Unit → Prop} (hb : Spares f V b) {calm : Bool}
    {s t : State} (hs : s.seq = none) (hc : Calm calm s) (h : launch i (runBody b) s = .next t) :
    Ended calm s.stores (Keeps f) t :=
  launch_ended (hb.going calm s.stores) keeps_nil hs hc h

end

end Sys2Proof.Machine
end

