-- ==== Sys2Proof/Proofs/CommandEnds.lean ====
section
/-! LAW. How each command ends and which lists of writes it can commit (R18), whatever the bus answers and the host
does: its body, piece by piece, under the rules of CommandRun. -/

namespace Sys2Proof.Machine

/-! ## What a command can commit -/

/-- What a completed load of family A commits, from the identification byte and the eleven words (R230). -/
def calLoadAWrites (setting id : Byte) (words : List Half) : List RegWrite :=
  [.id id, .result (id.setWidth 32), .family (classify id), .calA (CalA.ofWords words), .ossCode (ossCodeOf setting),
    .waitPMs (ossWaitOf setting), .calValidA (!calFault words), .calFaultA (calFault words), .b5Valid false]

/-- What a completed load of family B commits, from the identification byte and the twelve words (R280). -/
def calLoadBWrites (id : Byte) (words : List Half) : List RegWrite :=
  [.id id, .result (id.setWidth 32), .family (classify id), .calB (CalB.ofWords words), .calValidB (!calFault words),
    .calFaultB (calFault words), .tfineValid false]

/-- What FRAME_ENCODE commits, from the four values (R334). -/
def frameEncodeWrites (t1 p t2 h : Word) : List RegWrite :=
  [.frame 4 2 t1, .frame 7 3 p, .frame 11 2 t2, .frame 14 2 h]

/-- The lists of writes a command can commit: a load its nine or seven writes, or two VALID bits on a Nack (R361);
FRAME_ENCODE the four value fields; any other command nothing of the stores, but for the RESP of a framed read. -/
def mayCommit (i : Instr) (ws : List RegWrite) : Prop :=
  match i with
  | .calLoadA setting =>
    ws = calLoadANack ∨ ∃ id words, words.length = 11 ∧ ws = calLoadAWrites setting id words
  | .calLoadB => ws = calLoadBNack ∨ ∃ id words, words.length = 12 ∧ ws = calLoadBWrites id words
  | .frameEncode => ∃ t1 p t2 h, ws = frameEncodeWrites t1 p t2 h
  | .framedRead _ _ | .comboTemp | .comboHum => Keeps State.storesButResp ws
  | .nop | .regRead _ _ | .regWrite _ _ _ | .rawtA | .rawpA | .comptA | .comppA | .tempA | .presA
  | .rawtB | .rawpB | .comptB | .comppB | .tempB | .presB => Keeps State.stores ws

/-! ## The register transaction client -/

theorem regReadBody_spares (dev : Dev) (reg : Byte) : Spares State.stores Any (regReadBody dev reg) :=
  .bind (spares_xfer _ _ _) fun r _ => by
    cases r with
    | nack c b => exact spares_raise keeps_nil (.inl rfl)
    | ack b => exact spares_stage fun _ => rfl

theorem regWriteBody_spares (dev : Dev) (reg data : Byte) : Spares State.stores Any (regWriteBody dev reg data) :=
  .bind (spares_xfer _ _ _) fun r _ => by
    cases r with
    | nack c b => exact spares_raise keeps_nil (.inl rfl)
    | ack b => exact spares_pure trivial

/-! ## The framed read -/

/-- Only a BusNack brings a bus-reported code (R191). -/
def Framed.codeFits (f : Framed) : Prop := ∀ e info, f.e = some (e, info) → e = .busNack ∨ info = none

section
variable {β : Type} {f : State → β}

theorem framedNack_spares (c : Word) : Spares f Framed.codeFits (framedNack c) :=
  .bind (spares_setFr _) fun _ _ => spares_pure fun _ _ h => by cases h; exact .inl rfl

theorem framedValidate_spares (b : List Byte) : Spares f Framed.codeFits (framedValidate b) :=
  .bind (spares_setFr _) fun _ _ => by
    cases validateResponse b with
    | ok v => exact .bind (spares_setFr _) fun _ _ => spares_pure fun _ _ h => by cases h
    | error e => exact .bind (spares_setFr _) fun _ _ => spares_pure fun _ _ h => by cases h; exact .inr rfl

theorem framedResponse_spares (dev : Dev) : Spares f Framed.codeFits (framedResponse dev) :=
  .bind (spares_setFr _) fun _ _ => .bind (spares_xfer _ _ _) fun r _ => by
    cases r with
    | nack c b => exact framedNack_spares c
    | ack b => exact framedValidate_spares b

theorem framedRequest_spares (dev : Dev) (reg : Byte) : Spares f Framed.codeFits (framedRequest dev reg) :=
  .bind (spares_setFr _) fun _ _ => .bind (spares_xfer _ _ _) fun r _ => by
    cases r with
    | nack c b => exact framedNack_spares c
    | ack b =>
      exact .bind (spares_setFr _) fun _ _ => .bind (spares_delay _) fun _ _ => framedResponse_spares dev

theorem framedAwake_spares (dev : Dev) (reg : Byte) : Spares f Framed.codeFits (framedAwake dev reg) :=
  .bind (spares_setFr _) fun _ _ => .bind (spares_delay _) fun _ _ => framedRequest_spares dev reg

theorem framedRead_spares (dev : Dev) (reg : Byte) : Spares f Framed.codeFits (framedRead dev reg) :=
  .bind (spares_regOf _) fun p _ => .bind (spares_setFr _) fun _ _ => .bind (spares_xfer _ _ _) fun r _ => by
    cases r with
    | ack b => exact framedAwake_spares dev reg
    | nack c b =>
      cases p.wakeNackPolicy with
      | error => exact framedNack_spares c
      | ignore => exact framedAwake_spares dev reg

end

theorem stageFramed_spares (f : Framed) : Spares State.storesButResp Any (stageFramed f) :=
  .bind (spares_stage fun _ => rfl) fun _ _ => by
    cases f.b with
    | some r => exact spares_stage fun _ => rfl
    | none => exact spares_pure trivial

theorem framedReadBody_spares (dev : Dev) (reg : Byte) : Spares State.storesButResp Any (framedReadBody dev reg) :=
  .bind (framedRead_spares dev reg) fun f hf => .bind (stageFramed_spares f) fun _ _ => by
    cases he : f.e with
    | some e => exact spares_raiseStaged (hf e.1 e.2 he)
    | none => exact spares_pure trivial

theorem comboBody_spares (reg : Params → Byte) (decodeWord : Half → Int) (target : Word → RegWrite)
    (ht : ∀ v, Keeps State.storesButResp [target v]) :
    Spares State.storesButResp Any (comboBody reg decodeWord target) :=
  .bind (spares_regOf _) fun _ _ => .bind (framedRead_spares _ _) fun f hf => .bind (stageFramed_spares f) fun _ _ => by
    cases he : f.e with
    | some e => exact .bind (spares_stage (ht _)) fun _ _ => spares_raiseStaged (hf e.1 e.2 he)
    | none => exact spares_stage (ht _)

/-! ## Family A -/

theorem rawtABody_spares : Spares State.stores Any rawtABody :=
  .bind (spares_regOf _) fun _ _ => .bind (spares_wrAB _ _) fun _ _ => .bind (spares_delay _) fun _ _ =>
    .bind (spares_rdByte _) fun _ _ => .bind (spares_rdByte _) fun _ _ =>
      .bind (spares_stage fun _ => rfl) fun _ _ => spares_pure trivial

theorem rawpABody_spares : Spares State.stores Any rawpABody :=
  .bind (spares_regOf _) fun _ _ => .bind (spares_regOf _) fun _ _ => .bind (spares_regOf _) fun _ _ =>
    .bind (spares_wrAB _ _) fun _ _ => .bind (spares_delay _) fun _ _ => .bind (spares_rdByte _) fun _ _ =>
      .bind (spares_rdByte _) fun _ _ => .bind (spares_rdByte _) fun _ _ =>
        .bind (spares_stage fun _ => rfl) fun _ _ => spares_pure trivial

theorem comptABody_spares (raw : Word) {ws : List RegWrite} (hws : Keeps State.stores ws) :
    Spares State.stores Any (comptABody raw ws) :=
  .bind (spares_regOf _) fun _ _ => .bind (spares_regOf _) fun _ _ => .bind (spares_compute _ hws) fun _ _ =>
    .bind (spares_stage fun _ => rfl) fun _ _ => .bind (spares_stage fun _ => rfl) fun _ _ => spares_stage fun _ => rfl

theorem comppABody_spares (raw : Word) {ws : List RegWrite} (hws : Keeps State.stores ws) :
    Spares State.stores Any (comppABody raw ws) :=
  .bind (spares_regOf _) fun _ _ => .bind (spares_regOf _) fun _ _ => .bind (spares_regOf _) fun _ _ =>
    .bind (spares_regOf _) fun _ _ => .bind (spares_compute _ hws) fun _ _ => spares_stage fun _ => rfl

theorem needB5_spares : Spares State.stores Any needB5 :=
  .bind (spares_regOf _) fun _ _ => spares_ite (spares_pure trivial) (spares_raise keeps_nil (.inr rfl))

/-! ## Family B but for the poll -/

theorem rawpBBody_spares : Spares State.stores Any rawpBBody :=
  .bind (spares_regOf _) fun _ _ => .bind (spares_rdByte _) fun _ _ => .bind (spares_rdByte _) fun _ _ =>
    .bind (spares_rdByte _) fun _ _ => .bind (spares_stage fun _ => rfl) fun _ _ => spares_pure trivial

theorem comptBBody_spares (raw : Word) : Spares State.stores Any (comptBBody raw) :=
  .bind (spares_regOf _) fun _ _ => .bind (spares_regOf _) fun _ _ => .bind (spares_compute _ keeps_nil) fun _ _ =>
    .bind (spares_stage fun _ => rfl) fun _ _ => .bind (spares_stage fun _ => rfl) fun _ _ =>
      .bind (spares_stage fun _ => rfl) fun _ _ => spares_pure trivial

theorem comppBBody_spares (raw tFine : Word) : Spares State.stores Any (comppBBody raw tFine) :=
  .bind (spares_regOf _) fun _ _ => .bind (spares_regOf _) fun _ _ => .bind (spares_compute _ keeps_nil) fun _ _ =>
    .bind (spares_stage fun _ => rfl) fun _ _ => spares_ite (spares_raiseStaged (.inr rfl)) (spares_pure trivial)

theorem needTfine_spares : Spares State.stores Any needTfine :=
  .bind (spares_regOf _) fun _ _ => spares_ite (spares_pure trivial) (spares_raise keeps_nil (.inr rfl))

theorem comppBFull_spares : Spares State.stores Any comppBFull :=
  .bind needTfine_spares fun _ _ => .bind (spares_regOf _) fun _ _ => .bind (spares_regOf _) fun _ _ =>
    comppBBody_spares _ _

/-! ## The status poll (R281) -/

/-- The sequencer of a polling command before its data reads: nothing staged, no framed read. -/
def Polls (r : Running) : Prop := (pollRest r.cmd).isSome = true ∧ r.fr = .idle ∧ r.staged = []

/-- The sequencer at the loop's head after a poll that found the measuring bit set (log 6). -/
def AtHead (limit : Option Nat) (r : Running) : Prop :=
  Polls r ∧ r.step = pollHead ∧ 1 ≤ r.pollCount ∧ limitReached limit r.pollCount = false

theorem polls_stepFree : StepFree Polls := fun _ _ h => h

theorem collects_of_polls {r : Running} (h : Polls r) : Collects State.stores r := by
  obtain ⟨-, -, hstaged⟩ := h
  rw [Collects, hstaged]
  exact keeps_nil

theorem Underway.seqAtPoll {st : Stores} {s : State} (h : Underway st (AtHead st.params.pollLimit) s) :
    s.seqAtPoll = true := by
  obtain ⟨r, hr, hcmd, ⟨hrest, hfr, hstaged⟩, hstep, hcount, hlimit⟩ := h.seq
  have hparams : s.params = st.params := congrArg Stores.params h.stores
  simp only [State.seqAtPoll, hr, hrest, hstep, hfr, hstaged, hcount, hparams, hlimit, h.done, h.err, h.buscode, hcmd,
    beq_self_eq_true, decide_true, Bool.not_false, Bool.and_self]

theorem underway_of_seqAtPoll {s : State} {r : Running} (hr : s.seq = some r) (h : s.seqAtPoll = true) :
    Underway s.stores Polls s := by
  simp only [State.seqAtPoll, hr, Bool.and_eq_true, beq_iff_eq, Bool.not_eq_true'] at h
  obtain ⟨⟨⟨⟨⟨⟨⟨⟨⟨hrest, -⟩, hfr⟩, hstaged⟩, -⟩, -⟩, hdone⟩, herr⟩, hcode⟩, hcmd⟩ := h
  exact ⟨rfl, hdone, herr, hcode, r, hr, hcmd, hrest, hfr, hstaged⟩

section
variable {calm : Bool} {st : Stores}

/-- A poll that finds the measuring bit set counts, and reaches the loop's head if the limit is not reached. -/
theorem pollLoop_succ {k : Nat}
    (h : Sat (Going calm st (AtHead st.params.pollLimit)) (pollLoop k) (fun _ => Going calm st Polls)
      (Ended calm st (Keeps State.stores))) :
    Sat (Going calm st Polls) (pollLoop (k + 1)) (fun _ => Going calm st Polls) (Ended calm st (Keeps State.stores)) := by
  refine sat_bind (Q := fun p s => p = st.params ∧ Going calm st Polls s)
    (sat_regOf fun s hs => ⟨congrArg Stores.params hs.1.stores, hs⟩) fun p => sat_of_pre fun hp => ?_
  refine sat_bind (going_rdByte polls_stepFree _ keeps_nil) fun b => ?_
  refine sat_bind (Q := fun _ => Going calm st fun r => Polls r ∧ 1 ≤ r.pollCount)
    (sat_change fun s hs => ⟨hs.1.onSeq (fun _ => rfl) fun _ hr => ⟨hr, Nat.le_add_left ..⟩, hs.2⟩) fun _ => ?_
  refine sat_ite (fun _ => sat_pure _ fun s hs => hs.mono fun _ hr => hr.1) fun _ => ?_
  refine sat_bind (Q := fun n => Going calm st fun r => (Polls r ∧ 1 ≤ r.pollCount) ∧ r.pollCount = n)
    (sat_regOf fun s hs => ⟨?_, hs.2⟩) fun n => ?_
  · obtain ⟨r, hr, hcmd, hR⟩ := hs.1.seq
    exact ⟨hs.1.stores, hs.1.done, hs.1.err, hs.1.buscode, r, hr, hcmd, hR, by rw [State.pollCount, hr]⟩
  · refine sat_ite (fun _ => going_raise keeps_nil (.inr rfl)) fun hlimit => ?_
    refine sat_bind (Q := fun _ => Going calm st (AtHead st.params.pollLimit)) (sat_change fun s hs => ?_) fun _ => h
    refine ⟨hs.1.onSeq (fun _ => rfl) fun r hr => ⟨hr.1.1, rfl, hr.1.2, ?_⟩, hs.2⟩
    simpa [hp, hr.2] using hlimit

theorem pollLoop_going (k : Nat) :
    Sat (Going calm st (AtHead st.params.pollLimit)) (pollLoop k) (fun _ => Going calm st Polls)
      (Ended calm st (Keeps State.stores)) := by
  induction k with
  | zero =>
    intro s hs
    obtain ⟨r, hr, -⟩ := hs.1.seq
    exact .polling hs.1.stores hs.1.seqAtPoll (by rw [hr]; rfl)
  | succ k ih => exact going_of_imp (pollLoop_succ ih) fun _ h => h.1

theorem pollStatus_going :
    Sat (Going calm st Polls) pollStatus (fun _ => Going calm st Polls) (Ended calm st (Keeps State.stores)) :=
  sat_bind (going_regOf _) fun k => by
    obtain ⟨n, hn⟩ : ∃ n, max k 1 = n + 1 := ⟨max k 1 - 1, by omega⟩
    rw [hn]
    exact pollLoop_succ (pollLoop_going n)

theorem rawtBPolling_going : Sat (Going calm st Polls) rawtBPolling (fun _ => Going calm st (Collects State.stores))
    (Ended calm st (Keeps State.stores)) :=
  sat_bind pollStatus_going fun _ => going_of_imp (hR := fun _ => collects_of_polls) <| Spares.going (V := Any)
    (.bind (spares_regOf _) fun _ _ => .bind (spares_rdByte _) fun _ _ => .bind (spares_rdByte _) fun _ _ =>
      .bind (spares_rdByte _) fun _ _ => .bind (spares_stage fun _ => rfl) fun _ _ => spares_pure trivial) calm st

theorem rawtBStart_going :
    Sat (Going calm st Polls) rawtBStart (fun _ => Going calm st Polls) (Ended calm st (Keeps State.stores)) :=
  sat_bind (going_regOf _) fun _ => going_wrAB polls_stepFree _ _ keeps_nil

/-- What is left of a polling command at the loop's head ends as the command does. -/
theorem pollRest_going {i : Instr} {b : Body Unit} (h : pollRest i = some b) :
    Sat (Going calm st Polls) b (fun _ => Going calm st (Collects State.stores)) (Ended calm st (Keeps State.stores)) ∧
      mayCommit i = Keeps State.stores := by
  cases i with
  | rawtB =>
    cases h
    exact ⟨sat_bind rawtBPolling_going fun _ => sat_pure _ fun _ hs => hs, rfl⟩
  | tempB =>
    cases h
    exact ⟨sat_bind rawtBPolling_going fun raw => (Spares.bind (comptBBody_spares raw) fun _ _ =>
      spares_pure (V := Any) trivial).going calm st, rfl⟩
  | presB =>
    cases h
    exact ⟨sat_bind rawtBPolling_going fun raw => (Spares.bind (comptBBody_spares raw) fun _ _ =>
      .bind rawpBBody_spares fun _ _ => comppBBody_spares _ _).going calm st, rfl⟩
  | _ => cases h

/-! ## The loads and FRAME_ENCODE, whose lists of writes are fixed -/

/-- The sequencer with exactly the writes l staged. -/
def Staged (l : List RegWrite) (r : Running) : Prop := r.staged = l

theorem staged_stepFree (l : List RegWrite) : StepFree (Staged l) := fun _ _ h => h

/-- A write staged, then the rest of the body. -/
theorem staged_stage_bind {α : Type} {l : List RegWrite} {w : RegWrite} {g : Unit → Body α}
    {Q : α → State → Prop} {E : State → Prop} (h : Sat (Going calm st (Staged (l ++ [w]))) (g ()) Q E) :
    Sat (Going calm st (Staged l)) (stage w >>= g) Q E :=
  sat_bind (Q := fun _ => Going calm st (Staged (l ++ [w])))
    (going_stage fun _ hr => congrArg (· ++ [w]) hr) fun _ => h

/-- The load's words are as many as the indices read (R230, R280). -/
theorem readCalWords_going {W : List RegWrite → Prop} (order : ByteOrder) (base : Byte) {ws : List RegWrite}
    (hws : W ws) (is : List Nat) :
    Sat (Going calm st (Staged [])) (readCalWords order base ws is)
      (fun words s => words.length = is.length ∧ Going calm st (Staged []) s) (Ended calm st W) := by
  induction is with
  | nil => exact sat_pure _ fun _ hs => ⟨rfl, hs⟩
  | cons i is ih =>
    exact sat_bind (going_rdAB (staged_stepFree _) _ _ hws) fun b => sat_bind ih fun words =>
      sat_of_pre fun hlen => sat_pure _ fun _ hs => ⟨congrArg Nat.succ hlen, hs⟩

/-- A load's end: with everything staged, CalibrationFault or the normal end (R234). -/
theorem calFault_going {W : List RegWrite → Prop} {l : List RegWrite} (hl : W l) (fault : Bool) :
    Sat (Going calm st (Staged l)) (if fault then raiseStaged .calibrationFault none else pure () : Body Unit)
      (fun _ => Going calm st fun r => W r.staged) (Ended calm st W) :=
  have hstaged : ∀ r, Staged l r → W r.staged := fun _ hr => hr ▸ hl
  sat_ite (fun _ => going_raiseStaged hstaged (.inr rfl)) fun _ => sat_pure _ fun _ hs => hs.mono hstaged

theorem calLoadABody_going (setting : Byte) :
    Sat (Going calm st (Staged [])) (calLoadABody setting)
      (fun _ => Going calm st fun r => mayCommit (.calLoadA setting) r.staged)
      (Ended calm st (mayCommit (.calLoadA setting))) := by
  have hnack : mayCommit (.calLoadA setting) calLoadANack := .inl rfl
  refine sat_bind (going_regOf _) fun p => ?_
  refine sat_bind (going_rdAB (staged_stepFree _) _ _ hnack) fun idb => ?_
  refine sat_bind (readCalWords_going _ _ hnack _) fun words => sat_of_pre fun hlen => ?_
  iterate 9 refine staged_stage_bind ?_
  exact calFault_going (.inr ⟨byteAt idb 0, words, hlen, rfl⟩) _

theorem calLoadBBody_going :
    Sat (Going calm st (Staged [])) calLoadBBody (fun _ => Going calm st fun r => mayCommit .calLoadB r.staged)
      (Ended calm st (mayCommit .calLoadB)) := by
  have hnack : mayCommit .calLoadB calLoadBNack := .inl rfl
  refine sat_bind (going_regOf _) fun p => ?_
  refine sat_bind (going_rdAB (staged_stepFree _) _ _ hnack) fun idb => ?_
  refine sat_bind (readCalWords_going _ _ hnack _) fun words => sat_of_pre fun hlen => ?_
  iterate 7 refine staged_stage_bind ?_
  exact calFault_going (.inr ⟨byteAt idb 0, words, hlen, rfl⟩) _

theorem frameEncodeBody_going :
    Sat (Going calm st (Staged [])) frameEncodeBody
      (fun _ => Going calm st fun r => mayCommit .frameEncode r.staged)
      (Ended calm st (mayCommit .frameEncode)) := by
  refine sat_bind (going_regOf _) fun t1 => ?_
  refine sat_bind (going_regOf _) fun p => ?_
  refine sat_bind (going_regOf _) fun t2 => ?_
  refine sat_bind (going_regOf _) fun h => ?_
  iterate 3 refine staged_stage_bind ?_
  exact going_stage fun r hr => ⟨t1, p, t2, h, congrArg (· ++ [.frame 14 2 h]) hr⟩

end

/-! ## Every command -/

/-- Every command launched at an idle block is reset, commits one of its lists of writes, or stands at its poll. -/
theorem exec_ended {i : Instr} {calm : Bool} {s t : State} (hs : s.seq = none) (hc : Calm calm s)
    (h : exec i s = .next t) : Ended calm s.stores (mayCommit i) t := by
  have hpolls : ∀ {b : Body Unit}, pollRest i = some b →
      Sat (Going calm s.stores Polls) (do rawtBStart; b) (fun _ => Going calm s.stores (Collects State.stores))
        (Ended calm s.stores (Keeps State.stores)) := fun hb =>
    sat_bind rawtBStart_going fun _ => (pollRest_going hb).1
  cases i with
  | nop =>
    rw [show exec .nop s = launch .nop (commit none []) s from rfl, launch_of_idle hs] at h
    cases h
    exact .committed none [] (accept .nop s) rfl keeps_nil (.inr rfl) rfl
  | regRead dev reg => exact launch_ended_of_spares (regReadBody_spares dev reg) hs hc h
  | regWrite dev reg data => exact launch_ended_of_spares (regWriteBody_spares dev reg data) hs hc h
  | framedRead dev reg => exact launch_ended_of_spares (framedReadBody_spares dev reg) hs hc h
  | comboTemp => exact launch_ended_of_spares (comboBody_spares _ _ _ fun _ _ => rfl) hs hc h
  | comboHum => exact launch_ended_of_spares (comboBody_spares _ _ _ fun _ _ => rfl) hs hc h
  | calLoadA setting => exact launch_ended (calLoadABody_going setting) rfl hs hc h
  | calLoadB => exact launch_ended calLoadBBody_going rfl hs hc h
  | frameEncode => exact launch_ended frameEncodeBody_going rfl hs hc h
  | rawtA => exact launch_ended_of_spares (.bind rawtABody_spares fun _ _ => spares_pure (V := Any) trivial) hs hc h
  | rawpA => exact launch_ended_of_spares (.bind rawpABody_spares fun _ _ => spares_pure (V := Any) trivial) hs hc h
  | comptA =>
    exact launch_ended_of_spares (.bind (spares_regOf _) fun raw _ => comptABody_spares raw keeps_nil) hs hc h
  | comppA =>
    exact launch_ended_of_spares (.bind needB5_spares fun _ _ => .bind (spares_regOf _) fun raw _ =>
      comppABody_spares raw keeps_nil) hs hc h
  | tempA =>
    exact launch_ended_of_spares (.bind rawtABody_spares fun raw _ => comptABody_spares raw fun _ => rfl) hs hc h
  | presA =>
    exact launch_ended_of_spares (.bind needB5_spares fun _ _ => .bind rawpABody_spares fun raw _ =>
      comppABody_spares raw fun _ => rfl) hs hc h
  | rawpB => exact launch_ended_of_spares (.bind rawpBBody_spares fun _ _ => spares_pure (V := Any) trivial) hs hc h
  | comptB =>
    exact launch_ended_of_spares (.bind (spares_regOf _) fun raw _ => .bind (comptBBody_spares raw) fun _ _ =>
      spares_pure (V := Any) trivial) hs hc h
  | comppB => exact launch_ended_of_spares comppBFull_spares hs hc h
  | rawtB => exact launch_ended (hpolls rfl) ⟨rfl, rfl, rfl⟩ hs hc h
  | tempB => exact launch_ended (hpolls rfl) ⟨rfl, rfl, rfl⟩ hs hc h
  | presB => exact launch_ended (hpolls rfl) ⟨rfl, rfl, rfl⟩ hs hc h

/-- A command that polls on ends like one launched (R358). -/
theorem resumePolling_ended {r : Running} {calm : Bool} {s t : State} (hr : s.seq = some r)
    (hp : s.seqAtPoll = true) (hc : Calm calm s) (h : resumePolling r s = .next t) :
    Ended calm s.stores (mayCommit r.cmd) t := by
  unfold resumePolling at h
  split at h
  · rename_i b hb
    obtain ⟨hgoing, hcommits⟩ := pollRest_going (calm := calm) (st := s.stores) hb
    split at h
    · cases h
      rw [hcommits]
      exact runBody_ended hgoing ⟨underway_of_seqAtPoll hr hp, hc⟩
    · cases h
  · cases h

end Sys2Proof.Machine
end

