-- ==== Sys2Proof/Proofs/StateInvariants.lean ====
section
/-! LAW. What one step can do to the stores, ERR, BUSCODE and the sequencer, said once, and the invariants of the block
from it (R33, R36, R37, R58, R358). -/

namespace Sys2Proof.Machine

/-! ## What one step can do -/

/-- One step from s to t: a reset, a host access or an illegal word at an idle block, or a command run or resumed. -/
inductive Stepped (s t : State) : Prop where
  | reset (u : State) (ht : t = platformReset u)
  | host (hstores : t.stores = s.stores) (hseq : t.seq = none)
      (hcode : t.err = s.err ∧ t.buscode = s.buscode ∨ t.buscode = 0)
  | command (i : Instr) (h : Ended false s.stores (mayCommit i) t)

theorem commandWrite_cases {w : Word} {s t : State} (hs : s.seq = none) (h : commandWrite w s = .next t) :
    Stepped s t := by
  unfold commandWrite at h
  split at h
  · rename_i i _
    exact .command i (exec_ended hs (fun hc => by cases hc) h)
  · cases h
    exact .host rfl hs (.inr rfl)

theorem hostAccess_cases {a : HostAccess} {s t : State} (hs : s.seq = none) (h : hostAccess a s = .next t) :
    Stepped s t := by
  unfold hostAccess at h
  split at h
  · cases a with
    | read size off =>
      cases h
      exact .host rfl hs (.inl ⟨rfl, rfl⟩)
    | write size off v =>
      simp only [hostWrite] at h
      split at h
      · exact commandWrite_cases hs h
      · cases h
        refine .host (hostWriteIdle_keeps csrWriteIdle_stores off v s) ?_ (.inl ⟨?_, ?_⟩)
        · rw [hostWriteIdle_keeps (f := State.seq) (fun c _ _ => by cases c <;> rfl), hs]
        · exact hostWriteIdle_keeps (f := State.err) (fun c _ _ => by cases c <;> rfl) off v s
        · exact hostWriteIdle_keeps (f := State.buscode) (fun c _ _ => by cases c <;> rfl) off v s
  · cases h

/-- What an idle block does with an input; the input list itself is no part of the claim. -/
theorem takeInput_cases {e : Event} {s t : State} (hs : s.seq = none) (h : takeInput e s = .next t) :
    Stepped s t := by
  unfold takeInput at h
  split at h
  · cases h
    exact .reset s rfl
  · cases h
    exact .host rfl hs (.inl ⟨rfl, rfl⟩)
  · exact hostAccess_cases hs h

theorem Stepped.of_setInputs {l : List Input} {s t : State} (h : Stepped (setInputs l s) t) : Stepped s t := by
  cases h with
  | reset u ht => exact .reset u ht
  | host hstores hseq hcode => exact .host hstores hseq hcode
  | command i h => exact .command i h

/-- Everything a step can do. -/
theorem step_cases {s t : State} (hp : s.seqAtPoll = true) (h : step s = .next t) : Stepped s t := by
  unfold step at h
  split at h
  · rename_i r hr
    exact .command r.cmd (resumePolling_ended hr hp (fun hc => by cases hc) h)
  · rename_i hs
    unfold idleStep at h
    split at h
    · cases h
      exact .host rfl hs (.inl ⟨rfl, rfl⟩)
    · rename_i it rest _
      exact (takeInput_cases (s := setInputs rest s) hs h).of_setInputs

/-! ## What a command can do to the stores -/

/-- The stores a command i can make of the stores a: those of a load (R230, R280) or of its Nack (R361), a written frame
(R334), the response of a framed read (R49), or a itself. -/
inductive Committed : Instr → Stores → Stores → Prop where
  | kept (i : Instr) (a : Stores) : Committed i a a
  | loadANack (setting : Byte) (a : Stores) : Committed (.calLoadA setting) a { a with calValidA := false }
  | loadA (setting id : Byte) (words : List Half) (hlen : words.length = 11) (a : Stores) :
      Committed (.calLoadA setting) a { a with
        id := id
        family := classify id
        calA := CalA.ofWords words
        ossCode := ossCodeOf setting
        waitPMs := waitA (ossCodeOf setting)
        calValidA := !calFault words
        calFaultA := calFault words }
  | loadBNack (a : Stores) : Committed .calLoadB a { a with calValidB := false }
  | loadB (id : Byte) (words : List Half) (hlen : words.length = 12) (a : Stores) :
      Committed .calLoadB a { a with
        id := id
        family := classify id
        calB := CalB.ofWords words
        calValidB := !calFault words
        calFaultB := calFault words }
  | frame (m : Memory) (a : Stores) : Committed .frameEncode a { a with frame := m }
  | framedRead (dev : Dev) (reg : Byte) (r : Resp) (a : Stores) : Committed (.framedRead dev reg) a { a with resp := r }
  | comboTemp (r : Resp) (a : Stores) : Committed .comboTemp a { a with resp := r }
  | comboHum (r : Resp) (a : Stores) : Committed .comboHum a { a with resp := r }

theorem calLoadANack_stores (s : State) :
    (applyWrites calLoadANack s).stores = { s.stores with calValidA := false } := rfl

theorem calLoadBNack_stores (s : State) :
    (applyWrites calLoadBNack s).stores = { s.stores with calValidB := false } := rfl

theorem calLoadAWrites_stores (setting id : Byte) (words : List Half) (s : State) :
    (applyWrites (calLoadAWrites setting id words) s).stores = { s.stores with
      id := id
      family := classify id
      calA := CalA.ofWords words
      ossCode := ossCodeOf setting
      waitPMs := waitA (ossCodeOf setting)
      calValidA := !calFault words
      calFaultA := calFault words } := by
  simp only [calLoadAWrites, applyWrites_cons, applyWrites_nil, applyWrite, State.stores, ossWaitOf]

theorem calLoadBWrites_stores (id : Byte) (words : List Half) (s : State) :
    (applyWrites (calLoadBWrites id words) s).stores = { s.stores with
      id := id
      family := classify id
      calB := CalB.ofWords words
      calValidB := !calFault words
      calFaultB := calFault words } := by
  simp only [calLoadBWrites, applyWrites_cons, applyWrites_nil, applyWrite, State.stores]

theorem frameEncodeWrites_stores (t1 p t2 h : Word) (s : State) :
    (applyWrites (frameEncodeWrites t1 p t2 h) s).stores =
      { s.stores with frame := (applyWrites (frameEncodeWrites t1 p t2 h) s).frame } := by
  simp only [frameEncodeWrites, applyWrites_cons, applyWrites_nil, applyWrite, State.stores]

/-- A command's own lists of writes do nothing else to the stores. -/
theorem committed_of_mayCommit {i : Instr} {ws : List RegWrite} (h : mayCommit i ws) (s : State) :
    Committed i s.stores (applyWrites ws s).stores := by
  cases i with
  | calLoadA setting =>
    obtain rfl | ⟨id, words, hlen, rfl⟩ := h
    · rw [calLoadANack_stores]
      exact .loadANack setting _
    · rw [calLoadAWrites_stores]
      exact .loadA setting id words hlen _
  | calLoadB =>
    obtain rfl | ⟨id, words, hlen, rfl⟩ := h
    · rw [calLoadBNack_stores]
      exact .loadBNack _
    · rw [calLoadBWrites_stores]
      exact .loadB id words hlen _
  | frameEncode =>
    obtain ⟨t1, p, t2, v, rfl⟩ := h
    rw [frameEncodeWrites_stores]
    exact .frame _ _
  | framedRead dev reg =>
    rw [stores_of_storesButResp (h s)]
    exact .framedRead dev reg _ _
  | comboTemp =>
    rw [stores_of_storesButResp (h s)]
    exact .comboTemp _ _
  | comboHum =>
    rw [stores_of_storesButResp (h s)]
    exact .comboHum _ _
  | _ =>
    rw [h s]
    exact .kept _ _

/-- How a command that ended without a reset left the stores. -/
theorem Ended.committed_or_reset {calm : Bool} {i : Instr} {a : Stores} {t : State}
    (h : Ended calm a (mayCommit i) t) : Committed i a t.stores ∨ calm = false ∧ ∃ u, t = platformReset u := by
  cases h with
  | reset u hcalm _ ht => exact .inr ⟨hcalm, u, ht⟩
  | committed e ws u hu hws _ ht =>
    rw [ht, commit_stores, ← hu]
    exact .inl (committed_of_mayCommit hws u)
  | polling hsame =>
    rw [hsame]
    exact .inl (.kept i a)

/-- An invariant of the stores that holds at reset and that every command's commit keeps is kept by every step. -/
theorem step_keeps_stores {I : Stores → Prop} (hreset : ∀ p, I (State.resetWith p).stores)
    (hcommit : ∀ {i a b}, Committed i a b → I a → I b) {s t : State} (hp : s.seqAtPoll = true)
    (hs : I s.stores) (h : step s = .next t) : I t.stores := by
  cases step_cases hp h with
  | reset u ht =>
    rw [ht]
    exact hreset u.params
  | host hsame => rwa [hsame]
  | command i hend =>
    obtain hcom | ⟨-, u, ht⟩ := hend.committed_or_reset
    · exact hcommit hcom hs
    · rw [ht]
      exact hreset u.params

/-! ## The sequencer, ERR and BUSCODE -/

theorem seqAtPoll_of_idle {s : State} (h : s.seq = none) : s.seqAtPoll = true := by rw [State.seqAtPoll, h]

/-- Settles O53: a command that ends or is reset leaves the sequencer idle, and one that does not stands at its poll. -/
theorem stepKeepsSequencerAtPoll : Obligations.StepKeepsSequencerAtPoll := by
  intro s t hp h
  cases step_cases hp h with
  | reset u ht => exact seqAtPoll_of_idle (by rw [ht]; rfl)
  | host _ hseq => exact seqAtPoll_of_idle hseq
  | command i hend =>
    cases hend with
    | reset u _ _ ht => exact seqAtPoll_of_idle (by rw [ht]; rfl)
    | committed e ws u _ _ _ ht => exact seqAtPoll_of_idle (by rw [ht, commit_seq])
    | polling _ hpoll => exact hpoll

theorem buscodeMatchesErr_iff (s : State) :
    s.buscodeMatchesErr = true ↔ s.err = some .busNack ∨ s.buscode = 0 := by
  rw [State.buscodeMatchesErr, Bool.or_eq_true, beq_iff_eq, beq_iff_eq]

theorem buscodeMatchesErr_of_polling {s : State} (hp : s.seqAtPoll = true) (hs : s.seq.isSome = true) :
    s.buscodeMatchesErr = true := by
  obtain ⟨r, hr⟩ := Option.isSome_iff_exists.mp hs
  exact (buscodeMatchesErr_iff s).mpr (.inr (underway_of_seqAtPoll hr hp).buscode)

/-- Settles O54: accept clears BUSCODE, and only the commit of a BusNack sets it. -/
theorem stepKeepsBuscodeMatchingErr : Obligations.StepKeepsBuscodeMatchingErr := by
  intro s t hp hs h
  cases step_cases hp h with
  | reset u ht => rw [ht]; rfl
  | host _ _ hcode =>
    rw [buscodeMatchesErr_iff] at hs ⊢
    obtain ⟨herr, hbus⟩ | hzero := hcode
    · rwa [herr, hbus]
    · exact .inr hzero
  | command i hend =>
    cases hend with
    | reset u _ _ ht => rw [ht]; rfl
    | committed e ws u _ _ hcode ht => rwa [ht, buscodeMatchesErr_iff, commit_err, commit_buscode]
    | polling _ hpoll hseq => exact buscodeMatchesErr_of_polling hpoll hseq

/-! ## OSSCFG -/

/-- WAIT_P_MS is the wait of OSS_CODE (R37). -/
def Stores.WaitMatches (a : Stores) : Prop := a.waitPMs = waitA a.ossCode

theorem waitMatchesCode_iff (s : State) : s.waitMatchesCode = true ↔ s.stores.WaitMatches := beq_iff_eq

/-- CAL_LOAD_A commits the code and its wait together, and nothing else writes either. -/
theorem Committed.waitMatches {i : Instr} {a b : Stores} (h : Committed i a b) (ha : a.WaitMatches) :
    b.WaitMatches := by
  cases h with
  | loadA => rfl
  | _ => exact ha

/-- Settles O52: it holds at reset, and every command's commit keeps it. -/
theorem stepKeepsWaitMatchingCode : Obligations.StepKeepsWaitMatchingCode := by
  intro s t hp hs h
  rw [waitMatchesCode_iff] at hs ⊢
  exact step_keeps_stores (fun _ => rfl) Committed.waitMatches hp hs h

/-! ## The calibration stores and FAMILY -/

theorem calA_words_ofWords {words : List Half} (h : words.length = 11) : (CalA.ofWords words).words = words := by
  match words, h with
  | [_, _, _, _, _, _, _, _, _, _, _], _ => rfl

theorem calB_words_ofWords {words : List Half} (h : words.length = 12) : (CalB.ofWords words).words = words := by
  match words, h with
  | [_, _, _, _, _, _, _, _, _, _, _, _], _ => rfl

/-- A valid store holds no fault pattern and no fault bit, and FAMILY is the class of ID once a load has committed (R33,
R58, R233). -/
structure Stores.Classified (a : Stores) : Prop where
  validA : a.calValidA = true → calFault a.calA.words = false ∧ a.calFaultA = false
  validB : a.calValidB = true → calFault a.calB.words = false ∧ a.calFaultB = false
  family : a.family = .notProbed ∨ a.family = classify a.id

theorem storesClassified_iff (s : State) : s.storesClassified = true ↔ s.stores.Classified := by
  have hvalid : ∀ v f g : Bool, (!v || (!f && !g)) = true ↔ (v = true → f = false ∧ g = false) := by decide
  rw [State.storesClassified, Bool.and_eq_true, Bool.and_eq_true, hvalid, hvalid, Bool.or_eq_true, beq_iff_eq,
    beq_iff_eq]
  exact ⟨fun ⟨⟨hA, hB⟩, hfamily⟩ => ⟨hA, hB, hfamily⟩, fun ⟨hA, hB, hfamily⟩ => ⟨⟨hA, hB⟩, hfamily⟩⟩

/-- A load's VALID bit says that its words show no fault, and so do the words stored. -/
theorem no_fault_of_valid {stored words : List Half} (hstored : stored = words) (h : (!calFault words) = true) :
    calFault stored = false ∧ calFault words = false := by
  rw [Bool.not_eq_true'] at h
  exact ⟨hstored ▸ h, h⟩

/-- A load sets VALID exactly when its words show no fault, and commits ID with its class; a Nack clears VALID. -/
theorem Committed.classified {i : Instr} {a b : Stores} (h : Committed i a b) (ha : a.Classified) :
    b.Classified := by
  cases h with
  | loadANack => exact ⟨nofun, ha.validB, ha.family⟩
  | loadA _ _ _ hlen => exact ⟨no_fault_of_valid (calA_words_ofWords hlen), ha.validB, .inr rfl⟩
  | loadBNack => exact ⟨ha.validA, nofun, ha.family⟩
  | loadB _ _ hlen => exact ⟨ha.validA, no_fault_of_valid (calB_words_ofWords hlen), .inr rfl⟩
  | _ => exact ⟨ha.validA, ha.validB, ha.family⟩

theorem reset_classified (p : Params) : (State.resetWith p).stores.Classified :=
  ⟨nofun, nofun, .inl rfl⟩

/-- Settles O55: it holds at reset, and every command's commit keeps it. -/
theorem stepKeepsStoresClassified : Obligations.StepKeepsStoresClassified := by
  intro s t hp hs h
  rw [storesClassified_iff] at hs ⊢
  exact step_keeps_stores reset_classified Committed.classified hp hs h

/-! ## Which commands write the stores -/

section
variable {i : Instr} {a b : Stores}

theorem Committed.keeps_calA (h : Committed i a b) (hi : ∀ setting, i ≠ .calLoadA setting) :
    b.calA = a.calA ∧ b.ossCode = a.ossCode ∧ b.waitPMs = a.waitPMs ∧ b.calValidA = a.calValidA ∧
      b.calFaultA = a.calFaultA := by
  cases h with
  | loadANack setting => exact absurd rfl (hi setting)
  | loadA setting => exact absurd rfl (hi setting)
  | _ => exact ⟨rfl, rfl, rfl, rfl, rfl⟩

theorem Committed.keeps_calB (h : Committed i a b) (hi : i ≠ .calLoadB) :
    b.calB = a.calB ∧ b.calValidB = a.calValidB ∧ b.calFaultB = a.calFaultB := by
  cases h with
  | loadBNack => exact absurd rfl hi
  | loadB => exact absurd rfl hi
  | _ => exact ⟨rfl, rfl, rfl⟩

theorem Committed.keeps_id (h : Committed i a b) (hA : ∀ setting, i ≠ .calLoadA setting) (hB : i ≠ .calLoadB) :
    b.id = a.id ∧ b.family = a.family := by
  cases h with
  | loadA setting => exact absurd rfl (hA setting)
  | loadB => exact absurd rfl hB
  | _ => exact ⟨rfl, rfl⟩

theorem Committed.keeps_frame (h : Committed i a b) (hi : i ≠ .frameEncode) : b.frame = a.frame := by
  cases h with
  | frame => exact absurd rfl hi
  | _ => rfl

theorem Committed.keeps_resp (h : Committed i a b) (hread : ∀ dev reg, i ≠ .framedRead dev reg)
    (htemp : i ≠ .comboTemp) (hhum : i ≠ .comboHum) : b.resp = a.resp := by
  cases h with
  | framedRead dev reg => exact absurd rfl (hread dev reg)
  | comboTemp => exact absurd rfl htemp
  | comboHum => exact absurd rfl hhum
  | _ => rfl

theorem Committed.keeps_params (h : Committed i a b) : b.params = a.params := by cases h <;> rfl

end

/-- Settles O59: without a reset a command leaves the stores as `Committed` says, and each of its cases changes the
registers of its own command only. -/
theorem onlyTheirCommandsWriteTheStores : Obligations.OnlyTheirCommandsWriteTheStores := by
  intro i s t hs hn h
  obtain hcom | ⟨hcalm, -⟩ := (exec_ended (calm := true) hs (fun _ => hn) h).committed_or_reset
  · exact ⟨hcom.keeps_calA, hcom.keeps_calB, hcom.keeps_id, hcom.keeps_frame, hcom.keeps_resp, hcom.keeps_params⟩
  · cases hcalm

end Sys2Proof.Machine
end

