-- ==== Sys2Proof/Proofs/HostPort.lean ====
section
/-! LAW. The host's side of the block: what an input of the list does at a slot of a running command (R53) and at an idle
block (R32, R54, R89), and what the map's offsets read as. -/

namespace Sys2Proof.Machine

/-! ## An input that is due at a slot -/

section
variable {s : State} {e : Event} {rest : List Input}

theorem slot_of_csr (hi : s.inputs = ⟨.after 0, e⟩ :: rest) {a : HostAccess} (hr : e.reach s.params = .csr a)
    (ha : a.supported = true) : slot s = slot (hostAccessBusy a (setInputs rest s)) := by
  simp only [slot, hi, serveInputs, hr, ha, if_true, hostAccessBusy_inputs, setInputs_inputs]

theorem slot_of_elsewhere (hi : s.inputs = ⟨.after 0, e⟩ :: rest) (hr : e.reach s.params = .elsewhere) :
    slot s = slot (setInputs rest s) := by
  simp only [slot, hi, serveInputs, hr, setInputs_inputs]

/-- Two events that are the same supported access of the CSR space are served alike. -/
theorem slot_congr_reach (hi : s.inputs = ⟨.after 0, e⟩ :: rest) {e' : Event} {a : HostAccess}
    (hr : e.reach s.params = .csr a) (hr' : e'.reach s.params = .csr a) (ha : a.supported = true) :
    slot s = slot (setInputs (⟨.after 0, e'⟩ :: rest) s) :=
  (slot_of_csr hi hr ha).trans (slot_of_csr (s := setInputs (⟨.after 0, e'⟩ :: rest) s) rfl hr' ha).symm

/-- An input that is due later comes a slot nearer (notes/assumptions/5.md). -/
theorem slot_of_later {n : Nat} (hi : s.inputs = ⟨.after (n + 1), e⟩ :: rest) :
    slot s = .ok () (setInputs (⟨.after n, e⟩ :: rest) s) := by
  simp only [slot, hi, serveInputs]

end

/-! ## Host addresses with no byte in the CSR space, and unsupported accesses -/

section
variable {p : Params} {size : AccessSize} {addr : Nat}

theorem store_reach_elsewhere (h : addr + size.bytes ≤ p.csrBase ∨ p.csrBase + csrSpaceLen ≤ addr) (v : Word) :
    (Event.memory (.store size addr v)).reach p = .elsewhere := by
  simp only [Event.reach, MemAccess.reach, meetsCsr_of_outside p size addr h, Bool.false_eq_true, if_false]

theorem load_reach_elsewhere (h : addr + size.bytes ≤ p.csrBase ∨ p.csrBase + csrSpaceLen ≤ addr) :
    (Event.memory (.load size addr)).reach p = .elsewhere := by
  simp only [Event.reach, MemAccess.reach, meetsCsr_of_outside p size addr h, Bool.false_eq_true, if_false]

theorem unsupported_iff (off : Word) :
    (size == .word && off.extractLsb' 0 2 == 0#2) = false ↔ size ≠ .word ∨ off.extractLsb' 0 2 ≠ 0#2 := by
  rw [Bool.and_eq_false_iff, beq_eq_false_iff_ne, beq_eq_false_iff_ne]

end

/-- With a command running, every launch is dropped (R34, R53). -/
theorem exec_of_busy (i : Instr) {s : State} {r : Running} (hr : s.seq = some r) : exec i s = .next (dropWrite s) := by
  cases i <;> exact launch_of_busy hr

/-- Settles O5: each kind of input at the head of the list has its rule, and a write to a running command is one of
`hostWriteBusy`'s three. -/
theorem busyBlockDropsWrites : Obligations.BusyBlockDropsWrites := by
  intro s r off v rest hr hal
  have hwrite : s.inputs = ⟨.after 0, .access (.write .word off v)⟩ :: rest →
      slot s = slot (hostWriteBusy off v (setInputs rest s)) := fun hi =>
    slot_of_csr hi rfl (supported_write off v hal)
  refine ⟨fun i => exec_of_busy i hr, fun hi hne hlt => ?_, fun hi hge => ?_, fun hi hst => ?_, fun hi => ?_,
    fun hlt => ⟨fun hi => ?_, fun hi => ?_⟩, fun size addr hout hi => ?_, fun size off' hun hi => ?_,
    fun size addr hlo hhi hun hi => ?_, fun n e hi => slot_of_later hi, slot_of_quiet⟩
  · rw [hwrite hi, hostWriteBusy_of_ne_status hne hlt]
    rfl
  · rw [hwrite hi, hostWriteBusy_of_ge hge]
    rfl
  · subst hst
    exact (hwrite hi).trans (congrArg slot (hostWriteBusy_status v _))
  · exact slot_of_csr hi rfl (supported_read off hal)
  · exact slot_congr_reach hi (store_reach s.params .word off v hlt) rfl (supported_write off v hal)
  · exact slot_congr_reach hi (load_reach s.params .word off hlt) rfl (supported_read off hal)
  · obtain hi | hi := hi
    · exact slot_of_elsewhere hi (store_reach_elsewhere hout v)
    · exact slot_of_elsewhere hi (load_reach_elsewhere hout)
  · obtain hi | hi := hi
    · exact slot_of_unsupported hi rfl ((unsupported_iff off').mpr hun)
    · exact slot_of_unsupported hi rfl ((unsupported_iff off').mpr hun)
  · obtain ⟨⟨a, hstore, ha⟩, ⟨b, hload, hb⟩⟩ := memory_reach_unsupported s.params size addr v hlo hhi hun
    obtain hi | hi := hi
    · exact slot_of_unsupported hi hstore ha
    · exact slot_of_unsupported hi hload hb

/-! ## An idle block -/

section
variable {s : State} {ar : Arrival} {e : Event} {rest : List Input}

theorem step_of_idle (hs : s.seq = none) (hi : s.inputs = ⟨ar, e⟩ :: rest) :
    step s = takeInput e (setInputs rest s) := by
  simp only [step, hs]
  exact idleStep_cons hi

/-- An idle block takes two events alike that are the same to it (R80). -/
theorem step_congr_reach (hs : s.seq = none) (hi : s.inputs = ⟨ar, e⟩ :: rest) {e' : Event}
    (h : e.reach s.params = e'.reach s.params) : step s = step (setInputs (⟨ar, e'⟩ :: rest) s) := by
  rw [step_of_idle hs hi, step_of_idle (s := setInputs (⟨ar, e'⟩ :: rest) s) hs rfl]
  simp only [takeInput, setInputs_params, h]
  rfl

theorem step_of_elsewhere (hs : s.seq = none) (hi : s.inputs = ⟨ar, e⟩ :: rest)
    (h : e.reach s.params = .elsewhere) : step s = .next (setInputs rest s) := by
  simp only [step_of_idle hs hi, takeInput, setInputs_params, h]

theorem step_of_access (hs : s.seq = none) {a : HostAccess} (hi : s.inputs = ⟨ar, .access a⟩ :: rest) :
    step s = hostAccess a (setInputs rest s) := step_of_idle hs hi

/-- A read never fails and changes nothing but the host's log (R89). -/
theorem step_of_read (hs : s.seq = none) {off : Word} (hal : off.extractLsb' 0 2 = 0#2)
    (hi : s.inputs = ⟨ar, .access (.read .word off)⟩ :: rest) :
    step s = .next (hostRead off (setInputs rest s)) := by
  simp only [step_of_access hs hi, hostAccess, supported_read off hal, if_true]

/-- A write to any offset but CMD's. -/
theorem step_of_write (hs : s.seq = none) {off v : Word} (hal : off.extractLsb' 0 2 = 0#2)
    (hi : s.inputs = ⟨ar, .access (.write .word off v)⟩ :: rest) (hcmd : csrAt off ≠ some .cmd) :
    step s = .next (hostWriteIdle off v (setInputs rest s)) := by
  simp only [step_of_access hs hi, hostAccess, supported_write off v hal, if_true, hostWrite, hcmd, if_false]

end

theorem hostWriteIdle_of_csrAt {off : Word} {c : Csr} (h : csrAt off = some c) (v : Word) (s : State) :
    hostWriteIdle off v s = csrWriteIdle c v s := by rw [hostWriteIdle, h]

/-- A reserved offset ignores a write (R54). -/
theorem hostWriteIdle_of_hole {off : Word} (h : csrAt off = none) (v : Word) (s : State) :
    hostWriteIdle off v s = s := by rw [hostWriteIdle, h]

/-- Settles O6: the write of the register that stands at each offset of the map, and `step_congr_reach` for host
addresses. -/
theorem idleWriteGoesWhereTheMapSays : Obligations.IdleWriteGoesWhereTheMapSays := by
  refine ⟨fun s ar off v rest hs hal hi => ?_,
    fun s ar size addr v rest hs hi => ⟨fun off hlt haddr => ?_, fun hout => ?_⟩⟩
  · have hreg : ∀ {k : Word} {c : Csr}, csrAt k = some c → c ≠ .cmd → off = k →
        step s = .next (csrWriteIdle c v (setInputs rest s)) := by
      rintro k c hc hne rfl
      rw [step_of_write hs hal hi fun hcmd => hne (Option.some.inj (hc.symm.trans hcmd)), hostWriteIdle_of_csrAt hc]
    have hhole : csrAt off = none → step s = .next (setInputs rest s) := fun hc => by
      rw [step_of_write hs hal hi (by rw [hc]; nofun), hostWriteIdle_of_hole hc]
    refine ⟨hreg csrAt_status nofun, hreg csrAt_valT1 nofun, hreg csrAt_valP nofun, hreg csrAt_valT2 nofun,
      hreg csrAt_valH nofun, hreg csrAt_rawT nofun, hreg csrAt_rawP nofun, hreg csrAt_b5 nofun,
      hreg csrAt_tfine nofun, ?_⟩
    rintro (h | h | h | h | h | h | hge)
    · exact hreg csrAt_result nofun h
    · exact hreg csrAt_buscode nofun h
    · exact hreg csrAt_osscfg nofun h
    · exact hreg csrAt_id nofun h
    · exact hhole (csrAt_of_hole off (.inl (congrArg BitVec.toNat h)))
    · exact hhole (csrAt_of_hole off (.inr (.inl (congrArg BitVec.toNat h))))
    · have hcmd : csrAt off ≠ some .cmd := fun hcmd => by
        rw [(csrAt_eq_cmd_iff off).mp hcmd] at hge
        exact absurd hge (by decide)
      rw [step_of_write hs hal hi hcmd, hostWriteIdle_of_ge off v _ hge]
      rfl
  · subst haddr
    exact step_congr_reach hs hi (store_reach s.params size off v hlt)
  · exact step_of_elsewhere hs hi (store_reach_elsewhere hout v)

/-! ## What an offset reads as -/

/-- The value of the register at an offset. -/
theorem hostReadValue_of_csrAt {off : Word} {c : Csr} (h : csrAt off = some c) (s : State) :
    hostReadValue s off = csrRead s c := by rw [hostReadValue, h]

theorem hostReadValue_of_hole {off : Word} (h : csrAt off = none) (s : State) : hostReadValue s off = 0 := by
  rw [hostReadValue, h]

/-- Settles O7: `step_of_read`, and the register that stands at each offset of the map. -/
theorem hostReadReturnsTheMappedRegister : Obligations.HostReadReturnsTheMappedRegister := by
  refine ⟨fun s ar off rest hs hal hi => step_of_read hs hal hi, fun s off _ => ?_,
    fun s ar size addr rest hs hi => ⟨fun off hlt haddr => ?_, fun hout => ?_⟩⟩
  · have hreg : ∀ {k : Word} {c : Csr}, csrAt k = some c → off = k → hostReadValue s off = csrRead s c :=
      fun hc hk => hostReadValue_of_csrAt (hk ▸ hc) s
    refine ⟨hreg csrAt_cmd, hreg csrAt_status, hreg csrAt_result, hreg csrAt_buscode, hreg csrAt_osscfg,
      fun h => (hreg csrAt_id h).trans (byte_eq_append s.id), hreg csrAt_valT1, hreg csrAt_valP, hreg csrAt_valT2,
      hreg csrAt_valH, hreg csrAt_rawT, hreg csrAt_rawP, hreg csrAt_b5, hreg csrAt_tfine, fun i hi h => ?_,
      fun i hi h => ?_, fun j hj h => ?_, hreg csrAt_respW0, hreg csrAt_respW1, fun h => ?_⟩
    · rw [hostReadValue_of_csrAt (csrAt_of_calA hi h), csrRead, u16_eq_append]
    · rw [hostReadValue_of_csrAt (csrAt_of_calB hi h), csrRead, u16_eq_append]
    · exact hostReadValue_of_csrAt (csrAt_of_frameW hj h) s
    · exact hostReadValue_of_hole (csrAt_of_hole off
        (h.imp (congrArg BitVec.toNat) (Or.imp_left (congrArg BitVec.toNat)))) s
  · subst haddr
    exact step_congr_reach hs hi (load_reach s.params size off hlt)
  · exact step_of_elsewhere hs hi (load_reach_elsewhere hout)

/-! ## The fields of STATUS and OSSCFG -/

section
variable (s : State)

/-- A bit of a word is its field of width one. -/
theorem getLsbD_of_extract {w : Word} {k : Nat} {b : Bool} (h : w.extractLsb' k 1 = BitVec.ofBool b) :
    w.getLsbD k = b := by
  simpa using congrArg (fun x => BitVec.getLsbD x 0) h

/-- STATUS as the concatenation it is, its width the sum of its fields' widths. -/
theorem statusWord_extract (k n : Nat) : (statusWord s).extractLsb' k n =
    BitVec.extractLsb' k n (0#13 ++ BitVec.ofBool s.buserrSeen ++ BitVec.ofBool s.overrun ++ BitVec.ofBool s.ovf
      ++ BitVec.ofBool s.tfineValid ++ BitVec.ofBool s.b5Valid ++ familyCode s.family ++ BitVec.ofBool s.calFaultB
      ++ BitVec.ofBool s.calFaultA ++ BitVec.ofBool s.calValidB ++ BitVec.ofBool s.calValidA ++ errCode s.err ++ 0#2
      ++ BitVec.ofBool s.done ++ BitVec.ofBool s.busy) := rfl

/-- OSSCFG as the concatenation it is. -/
theorem osscfgWord_extract (k n : Nat) : (osscfgWord s).extractLsb' k n =
    BitVec.extractLsb' k n (0#16 ++ s.waitPMs ++ 0#6 ++ s.ossCode) := rfl

theorem statusWord_err : (statusWord s).extractLsb' 4 4 = errCode s.err := by
  rw [statusWord_extract]
  simp [-Nat.reduceAdd, BitVec.extractLsb'_append_eq_ite]

theorem statusWord_family : (statusWord s).extractLsb' 12 2 = familyCode s.family := by
  rw [statusWord_extract]
  simp [-Nat.reduceAdd, BitVec.extractLsb'_append_eq_ite]

end

/-- Settles O8: each field is cut out of the concatenation at its place, and the codes are read off by cases. -/
theorem statusWordHoldsItsFields : Obligations.StatusWordHoldsItsFields := by
  intro s
  refine ⟨getLsbD_of_extract ?_, getLsbD_of_extract ?_, ?_, (statusWord_err s).trans ?_, getLsbD_of_extract ?_,
    getLsbD_of_extract ?_, getLsbD_of_extract ?_, getLsbD_of_extract ?_, (statusWord_family s).trans ?_,
    getLsbD_of_extract ?_, getLsbD_of_extract ?_, getLsbD_of_extract ?_, getLsbD_of_extract ?_, getLsbD_of_extract ?_,
    ?_, ?_, ?_, ?_, ?_⟩
  case refine_4 =>
    cases s.err with
    | none => rfl
    | some e => cases e <;> rfl
  case refine_9 => cases s.family <;> rfl
  iterate 13
    rw [statusWord_extract]
    simp [-Nat.reduceAdd, BitVec.extractLsb'_append_eq_ite, State.busy]
  iterate 4
    rw [osscfgWord_extract]
    simp [-Nat.reduceAdd, BitVec.extractLsb'_append_eq_ite]

/-! ## Reset -/

/-- A frame that lists nothing reads as its reset bytes (R332). -/
theorem frameByte_reset (p : Params) (a : Nat) : (State.resetWith p).frameByte a = frameInit p a := rfl

theorem statusWord_reset (p : Params) : statusWord (State.resetWith p) = 0 := by
  have hword : statusWord State.reset = 0 := by decide
  exact hword

theorem osscfgWord_reset (p : Params) : osscfgWord (State.resetWith p) = 0x00000801 := by
  have hword : osscfgWord State.reset = 0x00000801 := by decide
  exact hword

theorem zero_of_mem_calA_zero : ∀ w ∈ CalA.zero.words, w = 0 := by simp [CalA.zero, CalA.words]

theorem zero_of_mem_calB_zero : ∀ w ∈ CalB.zero.words, w = 0 := by simp [CalB.zero, CalB.words]

theorem zero_of_mem_resp_zero : ∀ b ∈ Resp.zero.bytes, b = 0x00 := by simp [Resp.zero, Resp.bytes]

/-- Settles O1: the reset values by computation, the frame from `frameInit`. -/
theorem resetLeavesStatedValues : Obligations.ResetLeavesStatedValues := by
  refine ⟨rfl, fun p => ⟨rfl, statusWord_reset p, rfl, rfl, rfl, rfl, rfl, osscfgWord_reset p, rfl, rfl, rfl, rfl, rfl,
    rfl, rfl, rfl, zero_of_mem_calA_zero, zero_of_mem_calB_zero, rfl, rfl, rfl, rfl, rfl, rfl, rfl, fun a ha => ?_,
    zero_of_mem_resp_zero, rfl, by decide, by decide, by decide, by decide⟩⟩
  have hzero : ∀ a ∈ [4, 5, 7, 8, 9, 11, 12, 14, 15], frameInit p a = 0x00 := by simp [frameInit]
  rw [frameByte_reset, hzero a ha]

/-- The header and the tags of a frame that lists nothing are intact. -/
theorem frameIntact_reset (p : Params) : (State.resetWith p).frameIntact = true := by
  rw [State.frameIntact, Bool.and_eq_true, List.all_eq_true]
  exact ⟨wf_reset p, fun a _ => beq_iff_eq.mpr (frameByte_reset p a)⟩

/-- Settles O56: an idle block at the reset values. -/
theorem resetMeetsTheInvariants : Obligations.ResetMeetsTheInvariants := by
  intro p
  have hwait : (State.resetWith p).waitMatchesCode = true := rfl
  have hcode : (State.resetWith p).buscodeMatchesErr = true := rfl
  rw [State.invariant, seqAtPoll_of_idle rfl, hwait, frameIntact_reset, hcode,
    (storesClassified_iff _).mpr (reset_classified p)]
  rfl

end Sys2Proof.Machine
end

