-- ==== Sys2Proof/Proofs/FrameMemory.lean ====
section
/-! LAW. MemWrite and MemRead of the frame (R97): the bytes MemWrite writes, and the value MemRead puts together from
little-endian bytes. -/

namespace Sys2Proof.Machine

/-! ## MemWrite -/

/-- Byte k + 1 of a value is byte k of the value without its low byte. -/
theorem extractLsb'_succ_byte (v : Word) (k : Nat) :
    v.extractLsb' (8 * (k + 1)) 8 = (v >>> 8).extractLsb' (8 * k) 8 := by
  ext j hj
  simp only [BitVec.getElem_extractLsb', BitVec.getLsbD_ushiftRight]
  congr 1
  omega

/-- The bytes that MemWrite writes (R97). -/
theorem read_writeLE_of_inside (p : Params) {i n k : Nat} (v : Word) (m : Memory) (hk : k < n)
    (hfit : i + n ≤ frameLen) :
    Memory.read p (Memory.writeLE p i n v m) (i + k) = v.extractLsb' (8 * k) 8 := by
  induction n generalizing i k v m with
  | zero => omega
  | succ n ih =>
    rw [Memory.writeLE]
    cases k with
    | zero =>
      rw [read_writeLE_of_outside _ _ _ _ _ _ (by omega), read_write _ _ _ _ _ (by omega), if_pos (Nat.add_zero i)]
      exact BitVec.setWidth_eq_extractLsb' (by decide)
    | succ k =>
      rw [extractLsb'_succ_byte, ← ih (v >>> 8) _ (by omega : k < n) (by omega : i + 1 + n ≤ frameLen)]
      congr 1
      omega

/-! ## MemRead -/

/-- The low 8(n + 1) bits of a value are its low byte below the low 8n bits of the rest. -/
theorem low_bytes_succ (v : Word) (n : Nat) :
    v &&& BitVec.ofNat 32 (2 ^ (8 * (n + 1)) - 1) =
      (v.extractLsb' 0 8).setWidth 32 ||| ((v >>> 8 &&& BitVec.ofNat 32 (2 ^ (8 * n) - 1)) <<< 8) := by
  apply BitVec.eq_of_getLsbD_eq
  intro j hj
  simp only [BitVec.getLsbD_and, BitVec.getLsbD_or, BitVec.getLsbD_ofNat, BitVec.getLsbD_setWidth,
    BitVec.getLsbD_extractLsb', BitVec.getLsbD_shiftLeft, BitVec.getLsbD_ushiftRight, Nat.testBit_two_pow_sub_one, hj,
    decide_true, Bool.true_and]
  by_cases hlow : j < 8
  · have hmask : j < 8 * (n + 1) := by omega
    simp [hlow, hmask]
  · have hmask : j < 8 * (n + 1) ↔ j - 8 < 8 * n := by omega
    have hshift : 8 + (j - 8) = j := by omega
    have hfits : j - 8 < 32 := by omega
    simp [hlow, hmask, hshift, hfits]

/-- MemRead over the bytes of a value gives its low 8n bits (R97). -/
theorem readLE_of_bytes (p : Params) (m : Memory) {i n : Nat} {v : Word}
    (h : ∀ k, k < n → Memory.read p m (i + k) = v.extractLsb' (8 * k) 8) :
    Memory.readLE p m i n = v &&& BitVec.ofNat 32 (2 ^ (8 * n) - 1) := by
  induction n generalizing i v with
  | zero => simp [Memory.readLE]
  | succ n ih =>
    have hfirst : Memory.read p m i = v.extractLsb' 0 8 := h 0 (by omega)
    have hrest : ∀ k, k < n → Memory.read p m (i + 1 + k) = (v >>> 8).extractLsb' (8 * k) 8 := fun k hk => by
      rw [← extractLsb'_succ_byte, ← h (k + 1) (by omega)]
      congr 1
      omega
    rw [Memory.readLE, hfirst, ih hrest, low_bytes_succ]

/-- Settles O50: the bytes inside by induction on n, and MemRead from those bytes. -/
theorem frameWriteThenReadIsLittleEndian : Obligations.FrameWriteThenReadIsLittleEndian := by
  intro p m i n v _ _ hfit
  have hinside : ∀ k, k < n → Memory.read p (Memory.writeLE p i n v m) (i + k) = v.extractLsb' (8 * k) 8 :=
    fun k hk => read_writeLE_of_inside p v m hk hfit
  exact ⟨hinside, fun a ha => read_writeLE_of_outside p i n v m a ha, readLE_of_bytes p _ hinside⟩

end Sys2Proof.Machine
end

