-- ==== Sys2Proof/Proofs/BusTrace.lean ====
section
/-! LAW. The bus trace (R86, R92): every piece of a body, every command and every step only adds events to the trace and
takes one answer from the front for each transaction it adds (log 3). -/

namespace Sys2Proof.Machine

/-! ## A longer trace -/

/-- The trace of t is that of s followed by new events, and t has used one answer of s for each transaction among them
(R86, log 3). -/
def Grows (s t : State) : Prop :=
  ∃ events, t.trace = s.trace ++ events ∧ t.answers = s.answers.drop (events.countP isXferEvent)

/-- The bus's side of the state, the trace and the answers to come, is that of s. -/
def SameBus (s t : State) : Prop := t.trace = s.trace ∧ t.answers = s.answers

section
variable {s t u : State}

theorem Grows.of_sameBus (h : SameBus s t) : Grows s t := by
  obtain ⟨htrace, hanswers⟩ := h
  exact ⟨[], by rw [htrace, List.append_nil], hanswers⟩

theorem Grows.trans (hst : Grows s t) (htu : Grows t u) : Grows s u := by
  obtain ⟨first, htrace, hanswers⟩ := hst
  obtain ⟨second, htrace', hanswers'⟩ := htu
  refine ⟨first ++ second, ?_, ?_⟩
  · rw [htrace', htrace, List.append_assoc]
  · rw [hanswers', hanswers, List.drop_drop, List.countP_append]

theorem Grows.then_sameBus (h : Grows s t) (hsame : SameBus t u) : Grows s u := h.trans (.of_sameBus hsame)

/-- A transaction is one event and uses one answer (R16, R86). -/
theorem grows_afterXfer (dev : Dev) (w : List Byte) (n : Nat) (s : State) : Grows s (afterXfer dev w n s) :=
  ⟨[.xfer dev w n (busAnswer dev w n s)], rfl, List.drop_one.symm⟩

/-- A delay is one event and uses no answer (R17, R86). -/
theorem grows_afterDelay (ms : Nat) (s : State) : Grows s (afterDelay ms s) := ⟨[.delay ms], rfl, rfl⟩

end

/-! ## What leaves the bus alone -/

theorem sameBus_hostAccessBusy (a : HostAccess) (s : State) : SameBus s (hostAccessBusy a s) :=
  hostAccessBusy_keeps (P := SameBus s) (fun _ _ h => h) (fun _ _ h => h) (fun _ h => h) a s ⟨rfl, rfl⟩

theorem sameBus_hostWriteIdle (off v : Word) (s : State) : SameBus s (hostWriteIdle off v s) :=
  ⟨hostWriteIdle_keeps (f := State.trace) (fun c _ _ => by cases c <;> rfl) off v s,
    hostWriteIdle_keeps (f := State.answers) (fun c _ _ => by cases c <;> rfl) off v s⟩

/-- That a reset keeps the trace and the answers to come is the model's choice (log 16). -/
theorem sameBus_platformReset (s : State) : SameBus s (platformReset s) := ⟨rfl, rfl⟩

theorem sameBus_commit (e : Option ErrorKind) (ws : List RegWrite) (s : State) : SameBus s (commit e ws s) :=
  ⟨commit_trace e ws s, commit_answers e ws s⟩

/-! ## One rule for each piece of a body -/

/-- From every state the body b leads only to states whose trace has grown, whether it goes on or ends for good. -/
def Records {α : Type} (b : Body α) : Prop := ∀ s, Sat (Grows s) b (fun _ => Grows s) (Grows s)

section
variable {α β : Type} (s : State)

theorem grows_hostStable : HostStable (Grows s) where
  inputs _ _ h := h
  access a t h := h.then_sameBus (sameBus_hostAccessBusy a t)

/-- The rules of Laws/Sat.lean for inputs that may carry a reset, without their premise on the inputs. -/
theorem sat_of_calm {b : Body α} (h : Sat (fun t => Grows s t ∧ Calm false t) b (fun _ => Grows s) (Grows s)) :
    Sat (Grows s) b (fun _ => Grows s) (Grows s) :=
  sat_mono h (fun _ ht => ⟨ht, nofun⟩) (fun _ _ ht => ht) fun _ ht => ht

theorem grows_of_reset (t : State) (h : Grows s t) : Grows s (platformReset t) :=
  h.then_sameBus (sameBus_platformReset t)

theorem grows_commit (e : Option ErrorKind) (ws : List RegWrite) (info : Option Word) (t : State) (h : Grows s t) :
    Grows s (commit e ws (takeBuscode info t)) := h.then_sameBus (sameBus_commit e ws (takeBuscode info t))

/-! ### Sequencing, and the pieces that leave the bus alone -/

theorem Records.bind {x : Body α} {g : α → Body β} (hx : Records x) (hg : ∀ a, Records (g a)) : Records (x >>= g) :=
  fun s => sat_bind (hx s) fun a => hg a s

theorem records_pure (a : α) : Records (pure a : Body α) := fun _ => sat_pure a fun _ h => h

theorem records_ite {c : Prop} [Decidable c] {x y : Body α} (hx : Records x) (hy : Records y) :
    Records (if c then x else y) := fun s => sat_ite (fun _ => hx s) fun _ => hy s

theorem records_regOf (f : State → α) : Records (regOf f) := fun _ => sat_regOf fun _ h => h

theorem records_change {f : State → State} (hf : ∀ t, SameBus t (f t)) : Records (change f) := fun _ =>
  sat_change fun t h => h.then_sameBus (hf t)

theorem records_stage (w : RegWrite) : Records (stage w) := records_change fun _ => ⟨rfl, rfl⟩

theorem records_setFr (fr : FrState) : Records (setFr fr) := records_change fun _ => ⟨rfl, rfl⟩

/-! ### The bus, the delay, the computations and the ends of a command -/

theorem records_xfer (dev : Dev) (w : List Byte) (n : Nat) : Records (xfer dev w n) := fun s =>
  sat_of_calm s <| sat_xfer false (grows_hostStable s) (fun _ => grows_of_reset s) dev w n fun t h _ =>
    h.trans (grows_afterXfer dev w n t)

theorem records_delay (ms : Nat) : Records (delay ms) := fun s =>
  sat_of_calm s <| sat_delay false (grows_hostStable s) (fun _ => grows_of_reset s) ms fun t h _ =>
    h.trans (grows_afterDelay ms t)

theorem records_raise (e : ErrorKind) (info : Option Word) (ws : List RegWrite) :
    Records (raise e info ws : Body α) := fun s =>
  sat_of_calm s <| sat_raise false (grows_hostStable s) (fun _ => grows_of_reset s) e info ws fun t h _ =>
    grows_commit s (some e) ws info t h

theorem records_raiseStaged (e : ErrorKind) (info : Option Word) : Records (raiseStaged e info : Body α) :=
  .bind (records_regOf _) fun ws => records_raise e info ws

theorem records_endBody : Records endBody := fun s =>
  sat_of_calm s <| sat_endBody false (grows_hostStable s) (fun _ => grows_of_reset s) fun t h _ =>
    h.then_sameBus (sameBus_commit none (stagedOf t) t)

theorem records_compute (c : Calc α) (ws : List RegWrite) : Records (compute c ws) := fun s =>
  sat_of_calm s <| sat_compute false (grows_hostStable s) (fun _ => grows_of_reset s) (fun _ _ h => h) c ws
    (fun _ _ _ _ h _ => h) (grows_hostStable s) (fun _ => grows_of_reset s) (fun _ _ _ _ h _ => h)
    fun e _ t _ h _ => grows_commit s (some e) ws none t h

theorem records_rdAB (reg : Byte) (n : Nat) (ws : List RegWrite) : Records (rdAB reg n ws) := fun s =>
  sat_of_calm s <| sat_rdAB false (grows_hostStable s) (fun _ => grows_of_reset s) reg n ws (grows_hostStable s)
    (fun _ => grows_of_reset s) (fun t h => h.trans (grows_afterXfer pressAddr [reg] n t)) (fun _ _ h _ => h)
    fun c t h _ => grows_commit s (some .busNack) ws (some c) t h

theorem records_wrAB (reg v : Byte) (ws : List RegWrite) : Records (wrAB reg v ws) := fun s =>
  sat_of_calm s <| sat_wrAB false (grows_hostStable s) (fun _ => grows_of_reset s) reg v ws (grows_hostStable s)
    (fun _ => grows_of_reset s) (fun t h => h.trans (grows_afterXfer pressAddr [reg, v] 0 t)) (fun _ h _ => h)
    fun c t h _ => grows_commit s (some .busNack) ws (some c) t h

theorem records_rdByte (reg : Byte) : Records (rdByte reg) :=
  .bind (records_rdAB _ _ _) fun _ => records_pure _

end

/-! ## The register transaction client -/

theorem regReadBody_records (dev : Dev) (reg : Byte) : Records (regReadBody dev reg) :=
  .bind (records_xfer _ _ _) fun r => by
    cases r with
    | nack c b => exact records_raise _ _ _
    | ack b => exact records_stage _

theorem regWriteBody_records (dev : Dev) (reg data : Byte) : Records (regWriteBody dev reg data) :=
  .bind (records_xfer _ _ _) fun r => by
    cases r with
    | nack c b => exact records_raise _ _ _
    | ack b => exact records_pure ()

/-! ## The framed read -/

theorem framedNack_records (c : Word) : Records (framedNack c) := .bind (records_setFr _) fun _ => records_pure _

theorem framedValidate_records (b : List Byte) : Records (framedValidate b) :=
  .bind (records_setFr _) fun _ => by
    cases validateResponse b with
    | ok v => exact .bind (records_setFr _) fun _ => records_pure _
    | error e => exact .bind (records_setFr _) fun _ => records_pure _

theorem framedResponse_records (dev : Dev) : Records (framedResponse dev) :=
  .bind (records_setFr _) fun _ => .bind (records_xfer _ _ _) fun r => by
    cases r with
    | nack c b => exact framedNack_records c
    | ack b => exact framedValidate_records b

theorem framedRequest_records (dev : Dev) (reg : Byte) : Records (framedRequest dev reg) :=
  .bind (records_setFr _) fun _ => .bind (records_xfer _ _ _) fun r => by
    cases r with
    | nack c b => exact framedNack_records c
    | ack b => exact .bind (records_setFr _) fun _ => .bind (records_delay _) fun _ => framedResponse_records dev

theorem framedAwake_records (dev : Dev) (reg : Byte) : Records (framedAwake dev reg) :=
  .bind (records_setFr _) fun _ => .bind (records_delay _) fun _ => framedRequest_records dev reg

theorem framedRead_records (dev : Dev) (reg : Byte) : Records (framedRead dev reg) :=
  .bind (records_regOf _) fun p => .bind (records_setFr _) fun _ => .bind (records_xfer _ _ _) fun r => by
    cases r with
    | ack b => exact framedAwake_records dev reg
    | nack c b =>
      cases p.wakeNackPolicy with
      | error => exact framedNack_records c
      | ignore => exact framedAwake_records dev reg

theorem stageFramed_records (f : Framed) : Records (stageFramed f) :=
  .bind (records_stage _) fun _ => by
    cases f.b with
    | some r => exact records_stage _
    | none => exact records_pure ()

theorem framedReadBody_records (dev : Dev) (reg : Byte) : Records (framedReadBody dev reg) :=
  .bind (framedRead_records dev reg) fun f => .bind (stageFramed_records f) fun _ => by
    cases f.e with
    | some e => exact records_raiseStaged e.1 e.2
    | none => exact records_pure ()

theorem comboBody_records (reg : Params → Byte) (decodeWord : Half → Int) (target : Word → RegWrite) :
    Records (comboBody reg decodeWord target) :=
  .bind (records_regOf _) fun _ => .bind (framedRead_records _ _) fun f => .bind (stageFramed_records f) fun _ => by
    cases f.e with
    | some e => exact .bind (records_stage _) fun _ => records_raiseStaged e.1 e.2
    | none => exact records_stage _

/-! ## The loads and FRAME_ENCODE -/

theorem readCalWords_records (order : ByteOrder) (base : Byte) (ws : List RegWrite) (is : List Nat) :
    Records (readCalWords order base ws is) := by
  induction is with
  | nil => exact records_pure _
  | cons i is ih => exact .bind (records_rdAB _ _ _) fun _ => .bind ih fun _ => records_pure _

/-- A load's end: CalibrationFault or the normal end (R234). -/
theorem calFault_records (fault : Bool) :
    Records (if fault then raiseStaged .calibrationFault none else pure () : Body Unit) :=
  records_ite (records_raiseStaged _ _) (records_pure ())

/-- A write staged, then the rest of the body. -/
theorem Records.stage_bind {α : Type} {w : RegWrite} {g : Unit → Body α} (h : Records (g ())) :
    Records (stage w >>= g) := .bind (records_stage w) fun _ => h

theorem calLoadABody_records (setting : Byte) : Records (calLoadABody setting) := by
  refine .bind (records_regOf _) fun p => .bind (records_rdAB _ _ _) fun idb =>
    .bind (readCalWords_records _ _ _ _) fun words => ?_
  iterate 9 refine .stage_bind ?_
  exact calFault_records _

theorem calLoadBBody_records : Records calLoadBBody := by
  refine .bind (records_regOf _) fun p => .bind (records_rdAB _ _ _) fun idb =>
    .bind (readCalWords_records _ _ _ _) fun words => ?_
  iterate 7 refine .stage_bind ?_
  exact calFault_records _

theorem frameEncodeBody_records : Records frameEncodeBody :=
  .bind (records_regOf _) fun _ => .bind (records_regOf _) fun _ => .bind (records_regOf _) fun _ =>
    .bind (records_regOf _) fun _ => .stage_bind <| .stage_bind <| .stage_bind <| records_stage _

/-! ## Family A -/

theorem rawtABody_records : Records rawtABody :=
  .bind (records_regOf _) fun _ => .bind (records_wrAB _ _ _) fun _ => .bind (records_delay _) fun _ =>
    .bind (records_rdByte _) fun _ => .bind (records_rdByte _) fun _ => .stage_bind (records_pure _)

theorem rawpABody_records : Records rawpABody :=
  .bind (records_regOf _) fun _ => .bind (records_regOf _) fun _ => .bind (records_regOf _) fun _ =>
    .bind (records_wrAB _ _ _) fun _ => .bind (records_delay _) fun _ => .bind (records_rdByte _) fun _ =>
      .bind (records_rdByte _) fun _ => .bind (records_rdByte _) fun _ => .stage_bind (records_pure _)

theorem comptABody_records (raw : Word) (ws : List RegWrite) : Records (comptABody raw ws) :=
  .bind (records_regOf _) fun _ => .bind (records_regOf _) fun _ => .bind (records_compute _ ws) fun _ =>
    .stage_bind <| .stage_bind <| records_stage _

theorem comppABody_records (raw : Word) (ws : List RegWrite) : Records (comppABody raw ws) :=
  .bind (records_regOf _) fun _ => .bind (records_regOf _) fun _ => .bind (records_regOf _) fun _ =>
    .bind (records_regOf _) fun _ => .bind (records_compute _ ws) fun _ => records_stage _

theorem needB5_records : Records needB5 :=
  .bind (records_regOf _) fun _ => records_ite (records_pure ()) (records_raise _ _ _)

/-! ## Family B -/

theorem rawpBBody_records : Records rawpBBody :=
  .bind (records_regOf _) fun _ => .bind (records_rdByte _) fun _ => .bind (records_rdByte _) fun _ =>
    .bind (records_rdByte _) fun _ => .stage_bind (records_pure _)

theorem comptBBody_records (raw : Word) : Records (comptBBody raw) :=
  .bind (records_regOf _) fun _ => .bind (records_regOf _) fun _ => .bind (records_compute _ _) fun _ =>
    .stage_bind <| .stage_bind <| .stage_bind <| records_pure _

theorem comppBBody_records (raw tFine : Word) : Records (comppBBody raw tFine) :=
  .bind (records_regOf _) fun _ => .bind (records_regOf _) fun _ => .bind (records_compute _ _) fun _ =>
    .stage_bind <| records_ite (records_raiseStaged _ _) (records_pure ())

theorem needTfine_records : Records needTfine :=
  .bind (records_regOf _) fun _ => records_ite (records_pure ()) (records_raise _ _ _)

theorem comppBFull_records : Records comppBFull :=
  .bind needTfine_records fun _ => .bind (records_regOf _) fun _ => .bind (records_regOf _) fun _ =>
    comppBBody_records _ _

/-- However many polls a step may still make (R281, log 6). -/
theorem pollLoop_records (k : Nat) : Records (pollLoop k) := by
  induction k with
  | zero => exact fun _ _ h => h
  | succ k ih =>
    refine .bind (records_regOf _) fun p => .bind (records_rdByte _) fun st =>
      .bind (records_change fun _ => ⟨rfl, rfl⟩) fun _ => records_ite (records_pure ()) ?_
    exact .bind (records_regOf _) fun n => records_ite (records_raise _ _ _)
      (.bind (records_change fun _ => ⟨rfl, rfl⟩) fun _ => ih)

theorem pollStatus_records : Records pollStatus := .bind (records_regOf _) fun _ => pollLoop_records _

theorem rawtBPolling_records : Records rawtBPolling :=
  .bind pollStatus_records fun _ => .bind (records_regOf _) fun _ =>
    .bind (records_rdByte _) fun _ => .bind (records_rdByte _) fun _ => .bind (records_rdByte _) fun _ =>
      .stage_bind (records_pure _)

theorem rawtBStart_records : Records rawtBStart := .bind (records_regOf _) fun _ => records_wrAB _ _ _

theorem pollRest_records {i : Instr} {b : Body Unit} (h : pollRest i = some b) : Records b := by
  cases i with
  | rawtB =>
    cases h
    exact .bind rawtBPolling_records fun _ => records_pure ()
  | tempB =>
    cases h
    exact .bind rawtBPolling_records fun raw => .bind (comptBBody_records raw) fun _ => records_pure ()
  | presB =>
    cases h
    exact .bind rawtBPolling_records fun raw => .bind (comptBBody_records raw) fun _ =>
      .bind rawpBBody_records fun _ => comppBBody_records _ _
  | _ => cases h

/-! ## Every command -/

theorem runBody_grows {b : Body Unit} (hb : Records b) (s : State) : Grows s (runBody b s) :=
  runBody_sat ((hb.bind fun _ => records_endBody) s) (Grows.of_sameBus ⟨rfl, rfl⟩)

/-- A launch only adds to the trace: a busy block drops the write, an idle one accepts the command and runs it. -/
theorem launch_grows {i : Instr} {run : State → State} (hrun : ∀ u, Grows u (run u)) {s t : State}
    (h : launch i run s = .next t) : Grows s t := by
  have haccept : Grows s (accept i s) := .of_sameBus ⟨rfl, rfl⟩
  unfold launch at h
  cases h
  split
  · exact .of_sameBus ⟨rfl, rfl⟩
  · exact haccept.trans (hrun _)

theorem launch_grows_of_records {i : Instr} {b : Body Unit} (hb : Records b) {s t : State}
    (h : launch i (runBody b) s = .next t) : Grows s t := launch_grows (runBody_grows hb) h

theorem exec_grows {i : Instr} {s t : State} (h : exec i s = .next t) : Grows s t := by
  have hpolls : ∀ {j : Instr} {b : Body Unit}, pollRest j = some b → Records (do rawtBStart; b) := fun hb =>
    .bind rawtBStart_records fun _ => pollRest_records hb
  cases i with
  | nop => exact launch_grows (fun u => .of_sameBus (sameBus_commit none [] u)) h
  | regRead dev reg => exact launch_grows_of_records (regReadBody_records dev reg) h
  | regWrite dev reg data => exact launch_grows_of_records (regWriteBody_records dev reg data) h
  | framedRead dev reg => exact launch_grows_of_records (framedReadBody_records dev reg) h
  | comboTemp => exact launch_grows_of_records (comboBody_records _ _ _) h
  | comboHum => exact launch_grows_of_records (comboBody_records _ _ _) h
  | calLoadA setting => exact launch_grows_of_records (calLoadABody_records setting) h
  | calLoadB => exact launch_grows_of_records calLoadBBody_records h
  | frameEncode => exact launch_grows_of_records frameEncodeBody_records h
  | rawtA => exact launch_grows_of_records (.bind rawtABody_records fun _ => records_pure ()) h
  | rawpA => exact launch_grows_of_records (.bind rawpABody_records fun _ => records_pure ()) h
  | comptA => exact launch_grows_of_records (.bind (records_regOf _) fun raw => comptABody_records raw []) h
  | comppA =>
    exact launch_grows_of_records (.bind needB5_records fun _ => .bind (records_regOf _) fun raw =>
      comppABody_records raw []) h
  | tempA => exact launch_grows_of_records (.bind rawtABody_records fun raw => comptABody_records raw _) h
  | presA =>
    exact launch_grows_of_records (.bind needB5_records fun _ => .bind rawpABody_records fun raw =>
      comppABody_records raw _) h
  | rawpB => exact launch_grows_of_records (.bind rawpBBody_records fun _ => records_pure ()) h
  | comptB =>
    exact launch_grows_of_records (.bind (records_regOf _) fun raw => .bind (comptBBody_records raw) fun _ =>
      records_pure ()) h
  | comppB => exact launch_grows_of_records comppBFull_records h
  | rawtB => exact launch_grows_of_records (hpolls (j := .rawtB) rfl) h
  | tempB => exact launch_grows_of_records (hpolls (j := .tempB) rfl) h
  | presB => exact launch_grows_of_records (hpolls (j := .presB) rfl) h

theorem resumePolling_grows {r : Running} {s t : State} (h : resumePolling r s = .next t) : Grows s t := by
  unfold resumePolling at h
  split at h
  · rename_i b hb
    split at h
    · cases h
      exact runBody_grows (pollRest_records hb) s
    · cases h
  · cases h

/-! ## Every step -/

theorem commandWrite_grows {w : Word} {s t : State} (h : commandWrite w s = .next t) : Grows s t := by
  unfold commandWrite at h
  split at h
  · exact exec_grows h
  · cases h
    exact .of_sameBus ⟨rfl, rfl⟩

theorem hostAccess_grows {a : HostAccess} {s t : State} (h : hostAccess a s = .next t) : Grows s t := by
  unfold hostAccess at h
  split at h
  · cases a with
    | read size off =>
      cases h
      exact .of_sameBus ⟨rfl, rfl⟩
    | write size off v =>
      simp only [hostWrite] at h
      split at h
      · exact commandWrite_grows h
      · cases h
        exact .of_sameBus (sameBus_hostWriteIdle off v s)
  · cases h

theorem takeInput_grows {e : Event} {s t : State} (h : takeInput e s = .next t) : Grows s t := by
  unfold takeInput at h
  split at h
  · cases h
    exact .of_sameBus (sameBus_platformReset s)
  · cases h
    exact .of_sameBus ⟨rfl, rfl⟩
  · exact hostAccess_grows h

theorem idleStep_grows {s t : State} (h : idleStep s = .next t) : Grows s t := by
  cases hi : s.inputs with
  | nil =>
    simp only [idleStep, hi] at h
    cases h
    exact .of_sameBus ⟨rfl, rfl⟩
  | cons it rest =>
    have htaken : Grows s (setInputs rest s) := .of_sameBus ⟨rfl, rfl⟩
    rw [idleStep_cons hi] at h
    exact htaken.trans (takeInput_grows h)

/-- Settles O60: a running command polls on, an idle block takes its next input. -/
theorem traceOnlyGrows : Obligations.TraceOnlyGrows := by
  intro s t h
  unfold step at h
  split at h
  · exact resumePolling_grows h
  · exact idleStep_grows h

end Sys2Proof.Machine
end

