-- ==== Sys2Proof/Proofs/Encoding.lean ====
section
/-! LAW. The command word: the decoder and the encoder are inverse to each other (R120 to R123), the rows of the opcode
map accept exactly the words that decode (R123), and the assembler accepts exactly the commands' own sources (R128). -/

namespace Sys2Proof

/-! ## The decoder and the encoder -/

/-- The words the decoder accepts: an opcode of the table, and zeros where its format reserves bits (R121, R123). -/
theorem decode_eq_ok_iff {w : Word} {i : Instr} :
    decode w = .ok i ↔ ∃ f, formatOf (opField w) = some f ∧ f.reservedZero w = true ∧ f.instr w = i := by
  unfold decode
  cases formatOf (opField w) with
  | none => simp
  | some f => cases hz : f.reservedZero w <;> simp [hz]

theorem decode_encodeN {op : Byte} {i : Instr} (h : formatOf op = some (.n i)) : decode (encodeN op) = .ok i := by
  simp [decode, h, Format.reservedZero, Format.instr]

theorem decode_encodeRW {op : Byte} {f : Dev → Byte → Byte → Instr} (h : formatOf op = some (.rw f)) (dev : Dev)
    (reg data : Byte) : decode (encodeRW op dev reg data) = .ok (f dev reg data) := by
  simp [decode, h, Format.reservedZero, Format.instr]

theorem decode_encodeRR {op : Byte} {f : Dev → Byte → Instr} (h : formatOf op = some (.rr f)) (dev : Dev)
    (reg : Byte) : decode (encodeRR op dev reg) = .ok (f dev reg) := by
  simp [decode, encodeRR_eq, h, Format.reservedZero, Format.instr]

theorem decode_encodeCA {op : Byte} {f : Byte → Instr} (h : formatOf op = some (.ca f)) (setting : Byte) :
    decode (encodeCA op setting) = .ok (f setting) := by
  simp [decode, h, Format.reservedZero, Format.instr]

theorem decode_encode (i : Instr) : decode (encode i) = .ok i := by
  cases i with
  | regRead dev reg => exact decode_encodeRR rfl dev reg
  | regWrite dev reg data => exact decode_encodeRW rfl dev reg data
  | framedRead dev reg => exact decode_encodeRR rfl dev reg
  | calLoadA setting => exact decode_encodeCA rfl setting
  | _ => exact decode_encodeN rfl

theorem encode_injective {i j : Instr} (h : encode i = encode j) : i = j := by
  have hdecode : decode (encode i) = decode (encode j) := congrArg decode h
  rw [decode_encode, decode_encode] at hdecode
  exact Except.ok.inj hdecode

/-- A word whose reserved bits are zero is its command's fields side by side, in the format of its opcode. -/
theorem encode_of_decode {w : Word} {i : Instr} (h : decode w = .ok i) : encode i = w := by
  obtain ⟨f, hf, hzero, rfl⟩ := decode_eq_ok_iff.mp h
  have hencode := formatOf_encodesAs hf
  cases f with
  | n j =>
    have hlow : w.extractLsb' 0 24 = 0#24 := by simpa [Format.reservedZero] using hzero
    have hw := word_eq_n w
    rw [hlow] at hw
    exact hencode.trans hw.symm
  | rr f =>
    obtain ⟨hbit, hdata⟩ : bit23Field w = 0#1 ∧ dataField w = 0#8 := by simpa [Format.reservedZero] using hzero
    have hw := word_eq_rw w
    rw [hbit, hdata] at hw
    exact (hencode _ _).trans hw.symm
  | rw f =>
    have hbit : bit23Field w = 0#1 := by simpa [Format.reservedZero] using hzero
    have hw := word_eq_rw w
    rw [hbit] at hw
    exact (hencode _ _ _).trans hw.symm
  | ca f =>
    have hmid : w.extractLsb' 8 16 = 0#16 := by simpa [Format.reservedZero] using hzero
    have hw := word_eq_ca w
    rw [hmid] at hw
    exact (hencode _).trans hw.symm

/-- Settles O9: each format's fields are read back where they were put, and a legal word is put together from its fields. -/
theorem decodeAndEncodeAgree : Obligations.DecodeAndEncodeAgree :=
  ⟨fun i _ => decode_encode i, fun _ _ => encode_of_decode⟩

/-! ## The opcode map (R123) -/

/-- The bits a format fixes: the opcode and the reserved bits (R121, R123). -/
def Format.mask : Format → Word
  | .n _ => 0xFFFFFFFF
  | .rr _ => 0xFF8000FF
  | .rw _ => 0xFF800000
  | .ca _ => 0xFFFFFF00

/-- The row of a command is its opcode and zeros, under the mask of its format. -/
theorem formatOf_row {op : Byte} {f : Format} (h : formatOf op = some f) (w : Word) :
    (f.instr w).row = ⟨encodeN op, f.mask⟩ := by
  have key : ∀ k : Nat, op.toNat = k → op = BitVec.ofNat 8 k := fun k hk => by rw [← hk]; simp
  unfold formatOf at h
  split at h <;> simp only [Option.some.injEq, reduceCtorEq] at h <;> subst h <;>
    (rename_i heq; rw [key _ heq]; rfl)

section
variable {w m v : Word} {start len : Nat}

/-- A field of a word that lies wholly under a mask is read off the masked word. -/
theorem extractLsb'_of_and_eq (h : w &&& m = v) (hm : m.extractLsb' start len = BitVec.allOnes len) :
    w.extractLsb' start len = v.extractLsb' start len := by
  rw [← h, BitVec.extractLsb'_and, hm, BitVec.and_allOnes]

theorem extractLsb'_encodeN (op : Byte) (h : start + len ≤ 24) : (encodeN op).extractLsb' start len = 0#len := by
  unfold encodeN
  erw [BitVec.extractLsb'_append_eq_of_add_le h]
  simp

/-- Under the mask of a row the bits below the opcode are zero. -/
theorem extractLsb'_eq_zero_of_and_eq {op : Byte} (h : w &&& m = encodeN op)
    (hm : m.extractLsb' start len = BitVec.allOnes len) (hle : start + len ≤ 24) :
    w.extractLsb' start len = 0#len :=
  (extractLsb'_of_and_eq h hm).trans (extractLsb'_encodeN op hle)

end

/-- A word with an opcode's bits under the mask of its format has that opcode, and zeros in the reserved bits. -/
theorem fields_of_and_mask {w : Word} {op : Byte} (f : Format) (h : w &&& f.mask = encodeN op) :
    opField w = op ∧ f.reservedZero w = true := by
  have hop : f.mask.extractLsb' 24 8 = BitVec.allOnes 8 := by
    cases f <;> simp only [Format.mask] <;> decide
  refine ⟨(extractLsb'_of_and_eq h hop).trans (opField_encodeN op), ?_⟩
  cases f with
  | n i => exact beq_iff_eq.mpr (extractLsb'_eq_zero_of_and_eq (m := 0xFFFFFFFF) h (by decide) (by decide))
  | rr f =>
    have hbit : bit23Field w = 0#1 := extractLsb'_eq_zero_of_and_eq (m := 0xFF8000FF) h (by decide) (by decide)
    have hdata : dataField w = 0#8 := extractLsb'_eq_zero_of_and_eq (m := 0xFF8000FF) h (by decide) (by decide)
    exact Bool.and_eq_true_iff.mpr ⟨beq_iff_eq.mpr hbit, beq_iff_eq.mpr hdata⟩
  | rw f => exact beq_iff_eq.mpr (extractLsb'_eq_zero_of_and_eq (m := 0xFF800000) h (by decide) (by decide))
  | ca f => exact beq_iff_eq.mpr (extractLsb'_eq_zero_of_and_eq (m := 0xFFFFFF00) h (by decide) (by decide))

theorem row_accepts_encode (i : Instr) : i.row.accepts (encode i) = true := by
  cases i with
  | regRead dev reg => exact beq_iff_eq.mpr (Laws.EncodeRow.regRead dev reg)
  | regWrite dev reg data => exact beq_iff_eq.mpr (Laws.EncodeRow.regWrite dev reg data)
  | framedRead dev reg => exact beq_iff_eq.mpr (Laws.EncodeRow.framedRead dev reg)
  | calLoadA setting => exact beq_iff_eq.mpr (Laws.EncodeRow.calLoadA setting)
  | _ => decide

theorem row_accepts_of_decode {w : Word} {i : Instr} (h : decode w = .ok i) : i.row.accepts w = true := by
  rw [← encode_of_decode h]
  exact row_accepts_encode i

/-- A row accepts exactly the words that decode to a command of that row. -/
theorem row_accepts_iff {i : Instr} {w : Word} : i.row.accepts w = true ↔ ∃ j, decode w = .ok j ∧ j.row = i.row := by
  constructor
  · intro h
    obtain ⟨f, hf, -, hi⟩ := decode_eq_ok_iff.mp (decode_encode i)
    have hirow : i.row = ⟨encodeN (opField (encode i)), f.mask⟩ :=
      (congrArg Instr.row hi).symm.trans (formatOf_row hf _)
    have hmask : w &&& f.mask = encodeN (opField (encode i)) := by
      rw [hirow] at h
      exact beq_iff_eq.mp h
    obtain ⟨hop, hzero⟩ := fields_of_and_mask f hmask
    exact ⟨f.instr w, decode_eq_ok_iff.mpr ⟨f, hop ▸ hf, hzero, rfl⟩, (formatOf_row hf w).trans hirow.symm⟩
  · rintro ⟨j, hj, hrow⟩
    rw [← hrow]
    exact row_accepts_of_decode hj

theorem row_mem_opTable (i : Instr) : i.row ∈ opTable := by
  cases i <;> simp [opTable, Instr.row]

theorem opTable_nodup : opTable.Nodup := by decide

theorem exists_row_of_mem {r : OpRow} (h : r ∈ opTable) : ∃ i : Instr, i.row = r := by
  obtain ⟨i, -, hi⟩ := List.mem_map.mp h
  exact ⟨i, hi⟩

/-- The rows that accept a legal word: its command's row alone. -/
theorem filter_accepts_of_decode {w : Word} {i : Instr} (h : decode w = .ok i) :
    (opTable.filter fun r => r.accepts w) = opTable.filter (· == i.row) := by
  refine List.filter_congr fun r hr => ?_
  obtain ⟨j, rfl⟩ := exists_row_of_mem hr
  rw [Bool.eq_iff_iff, row_accepts_iff, beq_iff_eq]
  constructor
  · rintro ⟨k, hk, hrow⟩
    cases h.symm.trans hk
    exact hrow.symm
  · exact fun hrow => ⟨i, h, hrow.symm⟩

/-- Settles O10: the rows that accept w are those of the commands w decodes to, and the table lists each row once. -/
theorem legalWordsMatchExactlyOneRow : Obligations.LegalWordsMatchExactlyOneRow := by
  refine ⟨fun w => ⟨?_, fun hone => ?_⟩, fun w i => row_accepts_of_decode⟩
  · rintro ⟨i, hi⟩
    rw [filter_accepts_of_decode hi, ← List.countP_eq_length_filter]
    exact List.count_eq_one_of_mem opTable_nodup (row_mem_opTable i)
  · obtain ⟨r, hr⟩ := List.length_eq_one_iff.mp hone
    obtain ⟨hmem, hacc⟩ := List.mem_filter.mp (hr ▸ List.mem_singleton_self r)
    obtain ⟨i, rfl⟩ := exists_row_of_mem hmem
    obtain ⟨j, hj, -⟩ := row_accepts_iff.mp hacc
    exact ⟨j, hj⟩

/-! ## The assembler (R128) -/

theorem fitsDev_iff {n : Nat} : fitsDev n = true ↔ n ≤ 0x7F := decide_eq_true_iff

theorem fitsByte_iff {n : Nat} : fitsByte n = true ↔ n ≤ 0xFF := decide_eq_true_iff

theorem fitsDev_toNat (dev : Dev) : fitsDev dev.toNat = true := fitsDev_iff.mpr (Nat.le_of_lt_succ dev.isLt)

theorem fitsByte_toNat (b : Byte) : fitsByte b.toNat = true := fitsByte_iff.mpr (Nat.le_of_lt_succ b.isLt)

theorem toNat_ofNat_of_fitsDev {n : Nat} (h : fitsDev n = true) : (BitVec.ofNat 7 n).toNat = n :=
  Nat.mod_eq_of_lt (Nat.lt_succ_of_le (fitsDev_iff.mp h))

theorem toNat_ofNat_of_fitsByte {n : Nat} (h : fitsByte n = true) : (BitVec.ofNat 8 n).toNat = n :=
  Nat.mod_eq_of_lt (Nat.lt_succ_of_le (fitsByte_iff.mp h))

theorem assemble_eq_some_iff {src : Source} {i : Instr} : assemble src = some i ↔ src.wf = true ∧ src.instr = i := by
  simp [assemble]

theorem assemble_eq_none_iff {src : Source} : assemble src = none ↔ ¬ src.wf = true := by
  simp [assemble]

theorem wf_source (i : Instr) : i.source.wf = true := by
  cases i <;> simp [Instr.source, Source.wf, fitsDev_toNat, fitsByte_toNat]

theorem instr_source (i : Instr) : i.source.instr = i := by
  cases i <;> simp [Instr.source, Source.instr]

/-- A source that fits is its command's own: no operand is truncated (R128). -/
theorem source_instr {src : Source} (h : src.wf = true) : src.instr.source = src := by
  cases src with
  | regRead dev reg =>
    obtain ⟨hdev, hreg⟩ := Bool.and_eq_true_iff.mp h
    simp only [Source.instr, Instr.source, toNat_ofNat_of_fitsDev hdev, toNat_ofNat_of_fitsByte hreg]
  | regWrite dev reg data =>
    obtain ⟨hdevreg, hdata⟩ := Bool.and_eq_true_iff.mp h
    obtain ⟨hdev, hreg⟩ := Bool.and_eq_true_iff.mp hdevreg
    simp only [Source.instr, Instr.source, toNat_ofNat_of_fitsDev hdev, toNat_ofNat_of_fitsByte hreg,
      toNat_ofNat_of_fitsByte hdata]
  | framedRead dev reg =>
    obtain ⟨hdev, hreg⟩ := Bool.and_eq_true_iff.mp h
    simp only [Source.instr, Instr.source, toNat_ofNat_of_fitsDev hdev, toNat_ofNat_of_fitsByte hreg]
  | calLoadA setting => simp only [Source.instr, Instr.source, toNat_ofNat_of_fitsByte h]
  | _ => rfl

/-- Settles O11: a source is refused iff an operand does not fit; one that fits is read back from its command. -/
theorem assemblerRefusesOperandsThatDoNotFit : Obligations.AssemblerRefusesOperandsThatDoNotFit := by
  refine ⟨fun dev reg => ?_, fun dev reg data => ?_, fun dev reg => ?_, fun setting => ?_, fun i => ?_,
    fun src i h => ?_⟩
  · rw [assemble_eq_none_iff, Source.wf, Bool.and_eq_true, fitsDev_iff, fitsByte_iff]
    omega
  · rw [assemble_eq_none_iff, Source.wf, Bool.and_eq_true, Bool.and_eq_true, fitsDev_iff, fitsByte_iff, fitsByte_iff]
    omega
  · rw [assemble_eq_none_iff, Source.wf, Bool.and_eq_true, fitsDev_iff, fitsByte_iff]
    omega
  · rw [assemble_eq_none_iff, Source.wf, fitsByte_iff]
    omega
  · exact assemble_eq_some_iff.mpr ⟨wf_source i, instr_source i⟩
  · obtain ⟨hwf, rfl⟩ := assemble_eq_some_iff.mp h
    exact source_instr hwf

/-! ## Stated words (R121, R123, R126, R128) -/

/-- The four examples of R128, each read as a line of text. -/
theorem assembleLine_examples :
    Machine.assembleLine "REG_READ 0x77, 0xD0" = some 0x0177D000 ∧
    Machine.assembleLine "REG_WRITE 0x77, 0xF4, 0x2E" = some 0x0277F42E ∧
    Machine.assembleLine "FRAMED_READ 0x5C, 0x02" = some 0x105C0200 ∧
    Machine.assembleLine "CAL_LOAD_A 3" = some 0x20000003 := by decide

/-- Settles O12: the formats at every operand by definition, the closed words by evaluation. -/
theorem statedWordsDecode : Obligations.StatedWordsDecode := by
  refine ⟨fun _ _ _ => ⟨rfl, rfl, rfl, rfl⟩, ?_⟩
  iterate 28 refine ⟨by decide, ?_⟩
  exact assembleLine_examples

end Sys2Proof
end

