-- ==== Sys2Proof/Proofs/BodyFrames.lean ====
section
/-! LAW. Frames of a running command, said once for every property: what every change that a body can make to the block
keeps, every command keeps from its accept to its end (R18, R53, R124, R390). -/

namespace Sys2Proof.Machine

/-- A property that each change a body can make to the block keeps: a transaction, a delay, a move of the sequencer, an
overflow, a state of the framed read, a commit, a host access, and a reset where the inputs may carry one. -/
structure Steady (calm : Bool) (P : State → Prop) : Prop where
  host : HostStable P
  reset : calm = false → ∀ s, P s → P (platformReset s)
  xfer : ∀ dev w n s, P s → P (afterXfer dev w n s)
  delay : ∀ ms s, P s → P (afterDelay ms s)
  onSeq : ∀ f s, P s → P (onSeq f s)
  noteOvf : ∀ o s, P s → P (noteOvf o s)
  passFr : ∀ fr s, P s → P (passFr fr s)
  commit : ∀ e info ws s, P s → P (commit e ws (takeBuscode info s))

/-- The body b keeps every steady property, whether it goes on or ends for good. -/
def Carries {α : Type} (b : Body α) : Prop :=
  ∀ calm P, Steady calm P → Sat (fun s => P s ∧ Calm calm s) b (fun _ s => P s ∧ Calm calm s) P

/-! ## Sequencing, and the pieces of a body -/

section
variable {α β : Type}

theorem Carries.bind {x : Body α} {g : α → Body β} (hx : Carries x) (hg : ∀ a, Carries (g a)) : Carries (x >>= g) :=
  fun calm P hP => sat_bind (hx calm P hP) fun a => hg a calm P hP

theorem carries_pure (a : α) : Carries (pure a : Body α) := fun _ _ _ => sat_pure a fun _ h => h

theorem carries_ite {c : Prop} [Decidable c] {x y : Body α} (hx : Carries x) (hy : Carries y) :
    Carries (if c then x else y) := fun calm P hP => sat_ite (fun _ => hx calm P hP) fun _ => hy calm P hP

theorem carries_regOf (f : State → α) : Carries (regOf f) := fun _ _ _ => sat_regOf fun _ h => h

theorem carries_onSeq (f : Running → Running) : Carries (change (onSeq f)) := fun _ _ hP =>
  sat_change fun s h => ⟨hP.onSeq f s h.1, h.2⟩

theorem carries_stage (w : RegWrite) : Carries (stage w) := carries_onSeq _

/-- A write staged, then the rest of the body. -/
theorem Carries.stage_bind {w : RegWrite} {g : Unit → Body α} (h : Carries (g ())) : Carries (stage w >>= g) :=
  .bind (carries_stage w) fun _ => h

theorem carries_setFr (fr : FrState) : Carries (setFr fr) := fun _ _ hP =>
  sat_change fun s h => ⟨hP.onSeq _ _ (hP.passFr fr s h.1), h.2⟩

theorem carries_xfer (dev : Dev) (w : List Byte) (n : Nat) : Carries (xfer dev w n) := fun calm _ hP =>
  sat_xfer calm hP.host hP.reset dev w n fun s h hc => ⟨hP.onSeq _ _ (hP.xfer dev w n s h), hc⟩

theorem carries_delay (ms : Nat) : Carries (delay ms) := fun calm _ hP =>
  sat_delay calm hP.host hP.reset ms fun s h hc => ⟨hP.onSeq _ _ (hP.delay ms s h), hc⟩

theorem carries_raise (e : ErrorKind) (info : Option Word) (ws : List RegWrite) :
    Carries (raise e info ws : Body α) := fun calm _ hP =>
  sat_raise calm hP.host hP.reset e info ws fun s h _ => hP.commit (some e) info ws s h

theorem carries_raiseStaged (e : ErrorKind) (info : Option Word) : Carries (raiseStaged e info : Body α) :=
  .bind (carries_regOf _) fun ws => carries_raise e info ws

theorem carries_compute (c : Calc α) (ws : List RegWrite) : Carries (compute c ws) := fun calm _ hP =>
  sat_compute calm hP.host hP.reset hP.noteOvf c ws (fun _ _ s _ h hc => ⟨hP.onSeq _ s h, hc⟩) hP.host hP.reset
    (fun _ _ s _ h _ => hP.onSeq _ s h) fun e _ s _ h _ => hP.commit (some e) none ws s h

theorem carries_rdAB (reg : Byte) (n : Nat) (ws : List RegWrite) : Carries (rdAB reg n ws) := fun calm _ hP =>
  sat_rdAB calm hP.host hP.reset reg n ws hP.host hP.reset
    (fun s h => hP.onSeq _ _ (hP.xfer pressAddr [reg] n s h)) (fun _ _ h hc => ⟨h, hc⟩)
    fun c s h _ => hP.commit (some .busNack) (some c) ws s h

theorem carries_wrAB (reg v : Byte) (ws : List RegWrite) : Carries (wrAB reg v ws) := fun calm _ hP =>
  sat_wrAB calm hP.host hP.reset reg v ws hP.host hP.reset
    (fun s h => hP.onSeq _ _ (hP.xfer pressAddr [reg, v] 0 s h)) (fun _ h hc => ⟨h, hc⟩)
    fun c s h _ => hP.commit (some .busNack) (some c) ws s h

theorem carries_rdByte (reg : Byte) : Carries (rdByte reg) := .bind (carries_rdAB _ _ _) fun _ => carries_pure _

end

/-! ## The framed read -/

theorem framedNack_carries (c : Word) : Carries (framedNack c) := .bind (carries_setFr _) fun _ => carries_pure _

theorem framedValidate_carries (b : List Byte) : Carries (framedValidate b) :=
  .bind (carries_setFr _) fun _ => by
    cases validateResponse b with
    | ok v => exact .bind (carries_setFr _) fun _ => carries_pure _
    | error e => exact .bind (carries_setFr _) fun _ => carries_pure _

theorem framedResponse_carries (dev : Dev) : Carries (framedResponse dev) :=
  .bind (carries_setFr _) fun _ => .bind (carries_xfer _ _ _) fun r => by
    cases r with
    | nack c b => exact framedNack_carries c
    | ack b => exact framedValidate_carries b

theorem framedRequest_carries (dev : Dev) (reg : Byte) : Carries (framedRequest dev reg) :=
  .bind (carries_setFr _) fun _ => .bind (carries_xfer _ _ _) fun r => by
    cases r with
    | nack c b => exact framedNack_carries c
    | ack b => exact .bind (carries_setFr _) fun _ => .bind (carries_delay _) fun _ => framedResponse_carries dev

theorem framedAwake_carries (dev : Dev) (reg : Byte) : Carries (framedAwake dev reg) :=
  .bind (carries_setFr _) fun _ => .bind (carries_delay _) fun _ => framedRequest_carries dev reg

theorem framedRead_carries (dev : Dev) (reg : Byte) : Carries (framedRead dev reg) :=
  .bind (carries_regOf _) fun p => .bind (carries_setFr _) fun _ => .bind (carries_xfer _ _ _) fun r => by
    cases r with
    | ack b => exact framedAwake_carries dev reg
    | nack c b =>
      cases p.wakeNackPolicy with
      | error => exact framedNack_carries c
      | ignore => exact framedAwake_carries dev reg

theorem stageFramed_carries (f : Framed) : Carries (stageFramed f) :=
  .stage_bind <| by
    cases f.b with
    | some r => exact carries_stage _
    | none => exact carries_pure ()

/-! ## The pieces several commands share -/

theorem readCalWords_carries (order : ByteOrder) (base : Byte) (ws : List RegWrite) (is : List Nat) :
    Carries (readCalWords order base ws is) := by
  induction is with
  | nil => exact carries_pure _
  | cons i is ih => exact .bind (carries_rdAB _ _ _) fun _ => .bind ih fun _ => carries_pure _

theorem rawtABody_carries : Carries rawtABody :=
  .bind (carries_regOf _) fun _ => .bind (carries_wrAB _ _ _) fun _ => .bind (carries_delay _) fun _ =>
    .bind (carries_rdByte _) fun _ => .bind (carries_rdByte _) fun _ => .stage_bind (carries_pure _)

theorem rawpABody_carries : Carries rawpABody :=
  .bind (carries_regOf _) fun _ => .bind (carries_regOf _) fun _ => .bind (carries_regOf _) fun _ =>
    .bind (carries_wrAB _ _ _) fun _ => .bind (carries_delay _) fun _ => .bind (carries_rdByte _) fun _ =>
      .bind (carries_rdByte _) fun _ => .bind (carries_rdByte _) fun _ => .stage_bind (carries_pure _)

theorem comptABody_carries (raw : Word) (ws : List RegWrite) : Carries (comptABody raw ws) :=
  .bind (carries_regOf _) fun _ => .bind (carries_regOf _) fun _ => .bind (carries_compute _ ws) fun _ =>
    .stage_bind <| .stage_bind <| carries_stage _

theorem comppABody_carries (raw : Word) (ws : List RegWrite) : Carries (comppABody raw ws) :=
  .bind (carries_regOf _) fun _ => .bind (carries_regOf _) fun _ => .bind (carries_regOf _) fun _ =>
    .bind (carries_regOf _) fun _ => .bind (carries_compute _ ws) fun _ => carries_stage _

theorem needB5_carries : Carries needB5 :=
  .bind (carries_regOf _) fun _ => carries_ite (carries_pure ()) (carries_raise _ _ _)

theorem rawpBBody_carries : Carries rawpBBody :=
  .bind (carries_regOf _) fun _ => .bind (carries_rdByte _) fun _ => .bind (carries_rdByte _) fun _ =>
    .bind (carries_rdByte _) fun _ => .stage_bind (carries_pure _)

theorem comptBBody_carries (raw : Word) : Carries (comptBBody raw) :=
  .bind (carries_regOf _) fun _ => .bind (carries_regOf _) fun _ => .bind (carries_compute _ _) fun _ =>
    .stage_bind <| .stage_bind <| .stage_bind <| carries_pure _

theorem comppBBody_carries (raw tFine : Word) : Carries (comppBBody raw tFine) :=
  .bind (carries_regOf _) fun _ => .bind (carries_regOf _) fun _ => .bind (carries_compute _ _) fun _ =>
    .stage_bind <| carries_ite (carries_raiseStaged _ _) (carries_pure ())

theorem needTfine_carries : Carries needTfine :=
  .bind (carries_regOf _) fun _ => carries_ite (carries_pure ()) (carries_raise _ _ _)

/-- However many polls a step may still make (R281, log 6). -/
theorem pollLoop_carries (k : Nat) : Carries (pollLoop k) := by
  induction k with
  | zero => exact fun _ _ _ _ h => h.1
  | succ k ih =>
    refine .bind (carries_regOf _) fun p => .bind (carries_rdByte _) fun st => .bind (carries_onSeq _) fun _ =>
      carries_ite (carries_pure ()) (.bind (carries_regOf _) fun n => ?_)
    exact carries_ite (carries_raise _ _ _) (.bind (carries_onSeq _) fun _ => ih)

theorem rawtBPolling_carries : Carries rawtBPolling :=
  .bind (.bind (carries_regOf _) fun _ => pollLoop_carries _) fun _ => .bind (carries_regOf _) fun _ =>
    .bind (carries_rdByte _) fun _ => .bind (carries_rdByte _) fun _ => .bind (carries_rdByte _) fun _ =>
      .stage_bind (carries_pure _)

theorem pollRest_carries {i : Instr} {b : Body Unit} (h : pollRest i = some b) : Carries b := by
  cases i with
  | rawtB =>
    cases h
    exact .bind rawtBPolling_carries fun _ => carries_pure ()
  | tempB =>
    cases h
    exact .bind rawtBPolling_carries fun raw => .bind (comptBBody_carries raw) fun _ => carries_pure ()
  | presB =>
    cases h
    exact .bind rawtBPolling_carries fun raw => .bind (comptBBody_carries raw) fun _ =>
      .bind rawpBBody_carries fun _ => comppBBody_carries _ _
  | _ => cases h

/-! ## The commands' bodies -/

theorem regReadBody_carries (dev : Dev) (reg : Byte) : Carries (regReadBody dev reg) :=
  .bind (carries_xfer _ _ _) fun r => by
    cases r with
    | nack c b => exact carries_raise _ _ _
    | ack b => exact carries_stage _

theorem regWriteBody_carries (dev : Dev) (reg data : Byte) : Carries (regWriteBody dev reg data) :=
  .bind (carries_xfer _ _ _) fun r => by
    cases r with
    | nack c b => exact carries_raise _ _ _
    | ack b => exact carries_pure ()

theorem framedReadBody_carries (dev : Dev) (reg : Byte) : Carries (framedReadBody dev reg) :=
  .bind (framedRead_carries dev reg) fun f => .bind (stageFramed_carries f) fun _ => by
    cases f.e with
    | some e => exact carries_raiseStaged e.1 e.2
    | none => exact carries_pure ()

theorem comboBody_carries (reg : Params → Byte) (decodeWord : Half → Int) (target : Word → RegWrite) :
    Carries (comboBody reg decodeWord target) :=
  .bind (carries_regOf _) fun _ => .bind (framedRead_carries _ _) fun f => .bind (stageFramed_carries f) fun _ => by
    cases f.e with
    | some e => exact .stage_bind (carries_raiseStaged e.1 e.2)
    | none => exact carries_stage _

theorem calLoadABody_carries (setting : Byte) : Carries (calLoadABody setting) := by
  refine .bind (carries_regOf _) fun p => .bind (carries_rdAB _ _ _) fun idb =>
    .bind (readCalWords_carries _ _ _ _) fun words => ?_
  iterate 9 refine .stage_bind ?_
  exact carries_ite (carries_raiseStaged _ _) (carries_pure ())

theorem calLoadBBody_carries : Carries calLoadBBody := by
  refine .bind (carries_regOf _) fun p => .bind (carries_rdAB _ _ _) fun idb =>
    .bind (readCalWords_carries _ _ _ _) fun words => ?_
  iterate 7 refine .stage_bind ?_
  exact carries_ite (carries_raiseStaged _ _) (carries_pure ())

theorem frameEncodeBody_carries : Carries frameEncodeBody :=
  .bind (carries_regOf _) fun _ => .bind (carries_regOf _) fun _ => .bind (carries_regOf _) fun _ =>
    .bind (carries_regOf _) fun _ => .stage_bind <| .stage_bind <| .stage_bind <| carries_stage _

/-! ## Every command -/

/-- What is steady and holds of the accepted state holds of the state that the body leaves. -/
theorem launch_keeps {calm : Bool} {P : State → Prop} (hP : Steady calm P) {i : Instr} {b : Body Unit}
    (hb : Carries b) {s t : State} (hs : s.seq = none) (hc : Calm calm s) (ha : P (accept i s))
    (h : launch i (runBody b) s = .next t) : P t := by
  rw [launch_of_idle hs] at h
  cases h
  exact runBody_sat (sat_bind (hb calm P hP) fun _ =>
    sat_endBody calm hP.host hP.reset fun u hu _ => hP.commit none none (stagedOf u) u hu) ⟨ha, hc⟩

/-- A command launched at an idle block keeps every steady property from its accept on. -/
theorem exec_keeps {calm : Bool} {P : State → Prop} (hP : Steady calm P) {i : Instr} {s t : State}
    (hs : s.seq = none) (hc : Calm calm s) (ha : P (accept i s)) (h : exec i s = .next t) : P t := by
  have hpolls : ∀ {b : Body Unit}, pollRest i = some b → Carries (do rawtBStart; b) := fun hb =>
    .bind (.bind (carries_regOf _) fun _ => carries_wrAB _ _ _) fun _ => pollRest_carries hb
  cases i with
  | nop =>
    rw [show exec .nop s = launch .nop (commit none []) s from rfl, launch_of_idle hs] at h
    cases h
    exact hP.commit none none [] _ ha
  | regRead dev reg => exact launch_keeps hP (regReadBody_carries dev reg) hs hc ha h
  | regWrite dev reg data => exact launch_keeps hP (regWriteBody_carries dev reg data) hs hc ha h
  | framedRead dev reg => exact launch_keeps hP (framedReadBody_carries dev reg) hs hc ha h
  | comboTemp => exact launch_keeps hP (comboBody_carries _ _ _) hs hc ha h
  | comboHum => exact launch_keeps hP (comboBody_carries _ _ _) hs hc ha h
  | calLoadA setting => exact launch_keeps hP (calLoadABody_carries setting) hs hc ha h
  | calLoadB => exact launch_keeps hP calLoadBBody_carries hs hc ha h
  | frameEncode => exact launch_keeps hP frameEncodeBody_carries hs hc ha h
  | rawtA => exact launch_keeps hP (.bind rawtABody_carries fun _ => carries_pure ()) hs hc ha h
  | rawpA => exact launch_keeps hP (.bind rawpABody_carries fun _ => carries_pure ()) hs hc ha h
  | comptA => exact launch_keeps hP (.bind (carries_regOf _) fun raw => comptABody_carries raw []) hs hc ha h
  | comppA =>
    exact launch_keeps hP (.bind needB5_carries fun _ => .bind (carries_regOf _) fun raw =>
      comppABody_carries raw []) hs hc ha h
  | tempA => exact launch_keeps hP (.bind rawtABody_carries fun raw => comptABody_carries raw _) hs hc ha h
  | presA =>
    exact launch_keeps hP (.bind needB5_carries fun _ => .bind rawpABody_carries fun raw =>
      comppABody_carries raw _) hs hc ha h
  | rawpB => exact launch_keeps hP (.bind rawpBBody_carries fun _ => carries_pure ()) hs hc ha h
  | comptB =>
    exact launch_keeps hP (.bind (carries_regOf _) fun raw => .bind (comptBBody_carries raw) fun _ =>
      carries_pure ()) hs hc ha h
  | comppB =>
    exact launch_keeps hP (.bind needTfine_carries fun _ => .bind (carries_regOf _) fun _ =>
      .bind (carries_regOf _) fun _ => comppBBody_carries _ _) hs hc ha h
  | rawtB => exact launch_keeps hP (hpolls rfl) hs hc ha h
  | tempB => exact launch_keeps hP (hpolls rfl) hs hc ha h
  | presB => exact launch_keeps hP (hpolls rfl) hs hc ha h

end Sys2Proof.Machine
end

