-- ==== Sys2Proof/Proofs/CommandCompletes.lean ====
section
/-! LAW. A command from its word to its end: the step that launches it (R34, R124), NOP (R127), and that without a reset
every command leaves its word in CMD and commits, or stands at its poll (R125, R358). -/

namespace Sys2Proof.Machine

/-! ## The launch of a command word -/

theorem commandWrite_of_decode {w : Word} {i : Instr} (h : decode w = .ok i) (s : State) :
    commandWrite w s = exec i s := by rw [commandWrite, h]

/-- An idle block runs the command whose word is written to CMD, the input taken from the list (log 1). -/
theorem step_of_command {s : State} {ar : Arrival} {w : Word} {rest : List Input} {i : Instr} (hs : s.seq = none)
    (hi : s.inputs = ⟨ar, .access (.write .word 0x000 w)⟩ :: rest) (hw : decode w = .ok i) :
    step s = exec i (setInputs rest s) := by
  rw [step_of_access hs hi, hostAccess, if_pos (supported_write _ _ rfl), ← commandWrite_of_decode hw]
  exact if_pos csrAt_cmd

/-- The word that withFetchWord places is the encoding itself. -/
theorem ofNat_toNat_mod (w : Word) : BitVec.ofNat 32 (w.toNat % 2 ^ 32) = w := by
  rw [Nat.mod_eq_of_lt w.isLt, BitVec.ofNat_toNat, BitVec.setWidth_eq]

/-- Settles O3: every operand fits by its type, and a write of CMD at an idle block is a launch. -/
theorem stepRunsTheDecodedCommand : Obligations.StepRunsTheDecodedCommand := by
  refine ⟨wf_source, fun s ar w rest i hs hi hw => step_of_command hs hi hw, fun s i hw => ?_⟩
  exact step_of_command (s := s.withFetchWord 32 (encode i).toNat) (rest := s.inputs) rfl
    (by rw [State.withFetchWord, ofNat_toNat_mod]; rfl) hw

/-- Settles O13: accept and commit, with nothing between them and no write to commit. -/
theorem nopOnlyCompletes : Obligations.NopOnlyCompletes := by
  intro s hs
  have hlaunch : exec .nop s = .next (commit none [] (accept .nop s)) := launch_of_idle hs
  have hcmd : encode .nop = 0x00000000 := by decide
  rw [hlaunch, ← hcmd, commit, accept, applyWrites_nil, ← hs]
  rfl

/-! ## How a command ends (R125, R358) -/

theorem exec_next (i : Instr) (s : State) : ∃ t, exec i s = .next t := by
  cases i <;> exact launch_next _ _ s

/-- Without a reset nothing writes CMD while a command runs (R34, R53). -/
theorem steady_cmd (w : Word) : Steady true fun s => s.cmd = w where
  host := { inputs := fun _ _ h => h, access := hostAccessBusy_keeps (fun _ _ h => h) (fun _ _ h => h) fun _ h => h }
  reset := nofun
  xfer _ _ _ _ h := h
  delay _ _ h := h
  onSeq _ _ h := h
  noteOvf _ _ h := h
  passFr _ _ h := h
  commit e info ws s h := (commit_cmd e ws (takeBuscode info s)).trans h

theorem exec_cmd {i : Instr} {s t : State} (hs : s.seq = none) (hn : s.noReset = true) (h : exec i s = .next t) :
    t.cmd = encode i := exec_keeps (steady_cmd (encode i)) hs (fun _ => hn) rfl h

theorem pollRest_isSome_iff {i : Instr} :
    (pollRest i).isSome = true ↔ i = .rawtB ∨ i = .tempB ∨ i = .presB := by
  cases i <;> simp [pollRest]

/-- Settles O58: a command ends in a commit, or stands at its poll, where CMD says which command it is. -/
theorem commandCommitsOrPolls : Obligations.CommandCommitsOrPolls := by
  intro i s hs hn
  obtain ⟨t, ht⟩ := exec_next i s
  have hcmd := exec_cmd hs hn ht
  refine ⟨t, ht, hcmd, ?_⟩
  cases exec_ended (calm := true) hs (fun _ => hn) ht with
  | reset u hcalm => cases hcalm
  | committed e ws u _ _ _ hu => exact .inl ⟨by rw [hu, commit_seq], by rw [hu, commit_done]⟩
  | polling _ hpoll hseq =>
    obtain ⟨r, hr⟩ := Option.isSome_iff_exists.mp hseq
    obtain ⟨r', hr', hword, hrest, -⟩ := (underway_of_seqAtPoll hr hpoll).seq
    have hi : r'.cmd = i := encode_injective (hword.symm.trans hcmd)
    exact .inr ⟨⟨r', hr', hi⟩, hpoll, pollRest_isSome_iff.mp (hi ▸ hrest)⟩

end Sys2Proof.Machine
end

