-- ==== Sys2Proof/Proofs/RegisterClient.lean ====
section
/-! LAW. The register transaction client (R160, R161): a command that makes one transaction, run on its acknowledged
and on its refused answer, with the whole state it leaves. -/

namespace Sys2Proof.Machine

/-! ## What one transaction leaves, by its answer (R16, R86) -/

theorem afterXfer_of_ack {dev : Dev} {w : List Byte} {n : Nat} {s : State} {b : List Byte}
    (h : busAnswer dev w n s = .ack b) :
    afterXfer dev w n s = { s with answers := s.answers.tail, trace := s.trace ++ [.xfer dev w n (.ack b)] } := by
  simp only [afterXfer, h, isNack, Bool.or_false]

theorem afterXfer_of_nack {dev : Dev} {w : List Byte} {n : Nat} {s : State} {c : Word} {b : List Byte}
    (h : busAnswer dev w n s = .nack c b) :
    afterXfer dev w n s =
      { s with answers := s.answers.tail, trace := s.trace ++ [.xfer dev w n (.nack c b)], buserrSeen := true } := by
  simp only [afterXfer, h, isNack, Bool.or_true]

/-! ## How a command without a framed read ends (R125, R19) -/

/-- The sequencer ends as idle as the launch found it, and fr never left Idle: only CMD, the status fields, BUSCODE and
the writes ws show. -/
theorem completed_idle {t : State} (ht : t.seq = none) (i : Instr) (e : Option ErrorKind) (info : Option Word)
    (ws : List RegWrite) :
    completed i .idle e info ws t =
      { applyWrites ws t with cmd := encode i, done := true, err := e, buscode := info.getD 0 } := by
  have hseq : (applyWrites ws t).seq = none := (applyWrites_seq ws t).trans ht
  simp only [completed, if_pos, ← hseq, ← applyWrites_frLog ws t]

/-- An error ends a running command (R19). -/
theorem raise_running {α : Type} {i : Instr} {r : Running} {t : State} (h : t.hostQuiet = true) (e : ErrorKind)
    (info : Option Word) (ws : List RegWrite) :
    (raise e info ws : Body α) (running i r t) = .error () (completed i r.fr (some e) info ws t) := by
  rw [raise_of_quiet (s := running i r t) h, commit_takeBuscode_running]

/-! ## A command of one transaction -/

section
variable {i : Instr} {dev : Dev} {w : List Byte} {n : Nat} {s : State} {g : BusAnswer → Body Unit} {b : List Byte}

/-- The transaction is acknowledged, and the rest of the body only stages the writes ws: they are committed. -/
theorem launch_xfer_of_ack {ws : List RegWrite} (hs : s.ready = true) (ha : busAnswer dev w n s = .ack b)
    (hg : ∀ r t, g (.ack b) (running i r t) = .ok () (running i { r with staged := r.staged ++ ws } t)) :
    launch i (runBody (xfer dev w n >>= g)) s =
      .next { applyWrites ws (afterXfer dev w n s) with cmd := encode i, done := true, err := none, buscode := 0 } := by
  have hq := hostQuiet_of_ready hs
  have hbody : (xfer dev w n >>= g) (running i (started i) s) =
      .ok () (running i { started i with step := 1, staged := ws } (afterXfer dev w n s)) := by
    rw [xfer_bind hq, ha, hg]
    rfl
  rw [launch_of_ok hbody (seq_of_ready hs) hq]
  exact congrArg _ (completed_idle (t := afterXfer dev w n s) (seq_of_ready hs) i none none ws)

/-- The transaction is refused, and the body raises BusNack with the code and no write: nothing is committed. -/
theorem launch_xfer_of_nack {c : Word} (hs : s.ready = true) (ha : busAnswer dev w n s = .nack c b)
    (hg : g (.nack c b) = raise .busNack (some c) []) :
    launch i (runBody (xfer dev w n >>= g)) s =
      .next { afterXfer dev w n s with cmd := encode i, done := true, err := some .busNack, buscode := c } := by
  have hq := hostQuiet_of_ready hs
  have hbody : (xfer dev w n >>= g) (running i (started i) s) =
      .error () (completed i .idle (some .busNack) (some c) [] (afterXfer dev w n s)) := by
    rw [xfer_bind hq, ha, hg]
    exact raise_running (t := afterXfer dev w n s) hq _ _ _
  rw [launch_of_error hbody (seq_of_ready hs)]
  exact congrArg _ (completed_idle (t := afterXfer dev w n s) (seq_of_ready hs) i _ (some c) [])

end

/-! ## The two commands -/

/-- Settles O14: the byte of the acknowledged answer is the one write staged, and a refused answer stages none. -/
theorem regReadReturnsTheByte : Obligations.RegReadReturnsTheByte := by
  intro s dev reg hs
  refine ⟨fun b ha => ?_, fun c b ha => ?_, fun w n => busAnswer_length dev w n s,
    fun _ _ _ => ⟨rfl, rfl, rfl, rfl, rfl, rfl⟩⟩
  · have hrun : exec (.regRead dev reg) s = _ :=
      launch_xfer_of_ack (ws := [.result ((byteAt b 0).setWidth 32)]) hs ha fun _ _ => rfl
    rw [hrun, afterXfer_of_ack ha, byte_eq_append]
    rfl
  · have hrun : exec (.regRead dev reg) s = _ := launch_xfer_of_nack hs ha rfl
    rw [hrun, afterXfer_of_nack ha]

/-- Settles O15: no answer to a write carries a byte that the command stages. -/
theorem regWriteMakesOneTransaction : Obligations.RegWriteMakesOneTransaction := by
  intro s dev reg data hs
  refine ⟨fun b ha => ?_, fun c b ha => ?_⟩
  · have hrun : exec (.regWrite dev reg data) s = _ :=
      launch_xfer_of_ack (ws := []) hs ha fun r _ => by rw [List.append_nil]; rfl
    rw [hrun, afterXfer_of_ack ha, applyWrites_nil]
  · have hrun : exec (.regWrite dev reg data) s = _ := launch_xfer_of_nack hs ha rfl
    rw [hrun, afterXfer_of_nack ha]

end Sys2Proof.Machine
end

