-- ==== Sys2Proof/Proofs/Checksum.lean ====
section
/-! LAW. The checksum of R163: its step byte by byte, and why a frame followed by its own checksum, low byte first, has
the checksum 0 (R194). -/

namespace Sys2Proof.Machine

/-! ## The iterations of one byte -/

theorem crcByte_eq_iterate (c : Half) (x : Byte) : crcByte c x = crcBit^[8] (c ^^^ x.setWidth 16) := rfl

/-- R163's text, the polynomial written out. -/
theorem crcByte_eq_foldl (c : Half) (x : Byte) :
    crcByte c x =
      (List.range 8).foldl (fun (c : Half) _ => if c.getLsbD 0 then (c >>> 1) ^^^ 0xA001 else c >>> 1)
        (c ^^^ x.setWidth 16) := rfl

theorem crcBit_of_even {c : Half} (h : c.getLsbD 0 = false) : crcBit c = c >>> 1 := by
  simp only [crcBit, h, Bool.false_eq_true, if_false]

/-- While only zeros are shifted out the polynomial never enters. -/
theorem crcBit_iterate_of_low_zero {c : Half} (n : Nat) (h : ∀ k < n, c.getLsbD k = false) :
    crcBit^[n] c = c >>> n := by
  induction n with
  | zero => simp
  | succ n ih =>
    have hshift : crcBit^[n] c = c >>> n := ih fun k hk => h k (by omega)
    have heven : (c >>> n).getLsbD 0 = false := by simpa using h n (by omega)
    rw [Function.iterate_succ_apply', hshift, crcBit_of_even heven, BitVec.shiftRight_add]

/-! ## A frame's own checksum -/

/-- The low byte of the checksum clears the low half, so that the eight iterations shift the high byte down. -/
theorem crcByte_lowByte (c : Half) : crcByte c (c.extractLsb' 0 8) = c >>> 8 := by
  have hlow : ∀ k < 8, (c ^^^ (c.extractLsb' 0 8).setWidth 16).getLsbD k = false := by
    intro k hk
    simp [hk, show k < 16 by omega]
  rw [crcByte_eq_iterate, crcBit_iterate_of_low_zero 8 hlow]
  apply BitVec.eq_of_getLsbD_eq
  intro k _
  simp

/-- The high byte then meets itself. -/
theorem crcByte_highByte (c : Half) : crcByte (c >>> 8) (c.extractLsb' 8 8) = 0 := by
  have hhigh : (c.extractLsb' 8 8).setWidth 16 = c >>> 8 := by
    have hc := c.isLt
    apply BitVec.eq_of_toNat_eq
    simp only [BitVec.toNat_setWidth, BitVec.extractLsb'_toNat, BitVec.toNat_ushiftRight, Nat.shiftRight_eq_div_pow]
    omega
  rw [crcByte_eq_iterate, hhigh, BitVec.xor_self, crcBit_iterate_of_low_zero 8 fun _ _ => BitVec.getLsbD_zero]
  exact BitVec.zero_ushiftRight

/-! ## The checksum of a byte sequence -/

theorem crc16_append (b b' : List Byte) : crc16 (b ++ b') = b'.foldl crcByte (crc16 b) := List.foldl_append

/-- Settles O16: the two bytes of a frame's own checksum take the checksum to its high byte and then to 0. -/
theorem checksumOfAWholeFrameIsZero : Obligations.ChecksumOfAWholeFrameIsZero := by
  refine ⟨rfl, by decide +kernel, fun b x => ?_, fun b => ?_⟩
  · exact (crc16_append b [x]).trans (crcByte_eq_foldl (crc16 b) x)
  · calc crc16 (b ++ [(crc16 b).extractLsb' 0 8, (crc16 b).extractLsb' 8 8])
      _ = crcByte (crcByte (crc16 b) ((crc16 b).extractLsb' 0 8)) ((crc16 b).extractLsb' 8 8) := crc16_append b _
      _ = crcByte (crc16 b >>> 8) ((crc16 b).extractLsb' 8 8) := by rw [crcByte_lowByte]
      _ = 0 := crcByte_highByte (crc16 b)

end Sys2Proof.Machine
end

