-- ==== Sys2Proof/Proofs/FramedOperands.lean ====
section
/-! LAW. The operands of the framed read on every input: Validate on every six bytes (R194, R195) and the two decoders
on every word (R196, R197). -/

namespace Sys2Proof.Machine

/-! ## Validate (R194) -/

/-- Two bytes side by side, in the spec's `(hi << 8) | lo`. -/
theorem append_eq_shift_or (hi lo : Byte) : hi ++ lo = (hi.setWidth 16 <<< 8) ||| lo.setWidth 16 := by
  have hshift : hi.toNat <<< 8 < 2 ^ 16 := by
    have := hi.isLt
    rw [Nat.shiftLeft_eq]
    omega
  apply BitVec.eq_of_toNat_eq
  rw [BitVec.toNat_append, BitVec.toNat_or, BitVec.toNat_shiftLeft, BitVec.toNat_setWidth_of_le (by decide),
    BitVec.toNat_setWidth_of_le (by decide), Nat.mod_eq_of_lt hshift]

/-- Validate on six bytes: function code, then length, then checksum, and the first that fails decides (R194). -/
theorem validateResponse_six (b0 b1 b2 b3 b4 b5 : Byte) :
    validateResponse [b0, b1, b2, b3, b4, b5] =
      if b0 ≠ 0x03 then .error .protocolMismatch
      else if b1 ≠ 0x02 then .error .protocolMismatch
      else if crc16 [b0, b1, b2, b3] ≠ b5 ++ b4 then .error .checksumMismatch
      else .ok (b2 ++ b3) := rfl

/-- Settles O17: the checks in R194's order, the two 16-bit words put together from their bytes. -/
theorem validateClassifiesEveryResponse : Obligations.ValidateClassifiesEveryResponse := by
  intro b0 b1 b2 b3 b4 b5
  have hcrc : b4.setWidth 16 ||| (b5.setWidth 16 <<< 8) = b5 ++ b4 := by rw [append_eq_shift_or, BitVec.or_comm]
  rw [validateResponse_six, hcrc, ← append_eq_shift_or]
  refine ⟨fun ⟨hfc, hlen, hok⟩ => ?_, fun hwrong => ?_, fun hfc hlen hbad => ?_⟩
  · rw [if_neg (not_not.mpr hfc), if_neg (not_not.mpr hlen), if_neg (not_not.mpr hok)]
  · by_cases hfc : b0 = 0x03
    · rw [if_neg (not_not.mpr hfc), if_pos (hwrong.resolve_left (not_not.mpr hfc))]
    · rw [if_pos hfc]
  · rw [if_neg (not_not.mpr hfc), if_neg (not_not.mpr hlen), if_pos hbad]

/-! ## The decoders (R196, R197) -/

/-- A word with a clear sign flag is its own magnitude. -/
theorem tempDecode_of_lt {v : Half} (h : v.toNat < 0x8000) : tempDecode v = 10 * (v.toNat : Int) := by
  have hsign : v.getLsbD 15 = false :=
    v.msb_eq_getLsbD_last.symm.trans (BitVec.msb_eq_false_iff_two_mul_lt.mpr (by omega))
  rw [tempDecode, hsign, if_neg Bool.false_ne_true, mul_comm]

/-- With the sign flag set, what is left of the word is the magnitude. -/
theorem tempDecode_of_le {v : Half} (h : 0x8000 ≤ v.toNat) : tempDecode v = -(10 * ((v.toNat : Int) - 0x8000)) := by
  have hv := v.isLt
  have hsign : v.getLsbD 15 = true :=
    v.msb_eq_getLsbD_last.symm.trans (BitVec.msb_eq_true_iff_two_mul_ge.mpr (by omega))
  have hmag : ((v.extractLsb' 0 15).toNat : Int) = (v.toNat : Int) - 0x8000 := by
    rw [BitVec.extractLsb'_toNat, Nat.shiftRight_zero]
    omega
  rw [tempDecode, hsign, if_pos rfl, hmag]
  ring

theorem tempDecode_range (v : Half) : -327670 ≤ tempDecode v ∧ tempDecode v ≤ 327670 := by
  have hv := v.isLt
  rcases Nat.lt_or_ge v.toNat 0x8000 with h | h
  · rw [tempDecode_of_lt h]; omega
  · rw [tempDecode_of_le h]; omega

theorem humDecode_eq (v : Half) : humDecode v = 10 * (v.toNat : Int) := mul_comm _ _

/-- Settles O18: each value by its sign flag, and both ranges lie within s32. -/
theorem comboDecodersAreExact : Obligations.ComboDecodersAreExact := by
  intro v
  obtain ⟨hlo, hhi⟩ := tempDecode_range v
  have hhum := humDecode_eq v
  have hv := v.isLt
  have htempFits : inS32 (tempDecode v) = true := (inS32_iff _).mpr (by omega)
  have hhumFits : inS32 (humDecode v) = true := (inS32_iff _).mpr (by omega)
  exact ⟨tempDecode_of_lt, tempDecode_of_le, hlo, hhi, hhum, toInt_ofInt_of_inS32 htempFits,
    toInt_ofInt_of_inS32 hhumFits⟩

end Sys2Proof.Machine
end

