-- ==== Sys2Proof/Proofs/FramedPaths.lean ====
section
/-! LAW. The ways through the framed read (R191, R192) as a function of the state: there is one, and only one. -/

namespace Sys2Proof.Machine

/-- What a way through the protocol ends with: the state the bus is left in, what FramedRead returns, and the protocol
states passed. -/
abbrev FramedEnd : Type := State × Framed × List FrState

/-- How the protocol ends from the command-frame write on, once the wake write let it go on (R191). -/
def requestEnd (dev : Dev) (reg : Byte) (s : State) : FramedEnd :=
  match busAnswer dev [0x03, reg, 0x02] 0 (beforeRequest dev s), busAnswer dev [] 6 (beforeResponse dev reg s) with
  | .nack c _, _ =>
    (afterRequest dev reg s, ⟨0xFFFF, some (.busNack, some c), none⟩,
      [.wakeWrite, .waitWake, .commandFrameWrite, .fault])
  | .ack _, .nack c _ =>
    (afterResponse dev reg s, ⟨0xFFFF, some (.busNack, some c), none⟩,
      [.wakeWrite, .waitWake, .commandFrameWrite, .waitCmd, .responseRead, .fault])
  | .ack _, .ack b =>
    match validateResponse b with
    | .error e =>
      (afterResponse dev reg s, ⟨0xFFFF, some (e, none), some (Resp.ofBytes b)⟩,
        [.wakeWrite, .waitWake, .commandFrameWrite, .waitCmd, .responseRead, .validate, .fault])
    | .ok v =>
      (afterResponse dev reg s, ⟨v, none, some (Resp.ofBytes b)⟩,
        [.wakeWrite, .waitWake, .commandFrameWrite, .waitCmd, .responseRead, .validate, .done])

/-- How the protocol ends (R191). -/
def framedEnd (dev : Dev) (reg : Byte) (s : State) : FramedEnd :=
  match busAnswer dev s.params.wakeBytes 0 s, s.params.wakeNackPolicy with
  | .nack c _, .error => (afterWake dev s, ⟨0xFFFF, some (.busNack, some c), none⟩, [.wakeWrite, .fault])
  | .nack _ _, .ignore => requestEnd dev reg s
  | .ack _, _ => requestEnd dev reg s

section
variable {dev : Dev} {reg : Byte} {s : State}

theorem framedEnd_of_wakeGoesOn (h : wakeGoesOn dev s = true) : framedEnd dev reg s = requestEnd dev reg s := by
  unfold wakeGoesOn at h
  unfold framedEnd
  cases ha : busAnswer dev s.params.wakeBytes 0 s with
  | ack b => rfl
  | nack c b =>
    have hp : s.params.wakeNackPolicy = .ignore := by simpa [ha, isNack] using h
    rw [hp]

/-- From the command-frame write on, the way is one of the last four. -/
theorem requestEnd_path (h : wakeGoesOn dev s = true) :
    FramedPath dev reg s (requestEnd dev reg s).1 (requestEnd dev reg s).2.1 (requestEnd dev reg s).2.2 := by
  unfold requestEnd
  cases hreq : busAnswer dev [0x03, reg, 0x02] 0 (beforeRequest dev s) with
  | nack c b => exact .requestNack c b h hreq
  | ack b0 =>
    cases hres : busAnswer dev [] 6 (beforeResponse dev reg s) with
    | nack c b => exact .responseNack b0 c b h hreq hres
    | ack b =>
      cases hval : validateResponse b with
      | error e =>
        simp only [hval]
        exact .invalid b0 b e h hreq hres hval
      | ok v =>
        simp only [hval]
        exact .valid b0 b v h hreq hres hval

/-- There is a way through the protocol, from every state. -/
theorem framedEnd_path (dev : Dev) (reg : Byte) (s : State) :
    FramedPath dev reg s (framedEnd dev reg s).1 (framedEnd dev reg s).2.1 (framedEnd dev reg s).2.2 := by
  cases hw : wakeGoesOn dev s with
  | true =>
    rw [framedEnd_of_wakeGoesOn hw]
    exact requestEnd_path hw
  | false =>
    unfold wakeGoesOn at hw
    unfold framedEnd
    cases ha : busAnswer dev s.params.wakeBytes 0 s with
    | ack b => simp [ha, isNack] at hw
    | nack c b =>
      cases hp : s.params.wakeNackPolicy with
      | error => exact .wakeNack c b ha hp
      | ignore => simp [hp] at hw

/-- Every way through the protocol ends as the bus's answers decide. -/
theorem framedEnd_of_path {t : State} {f : Framed} {log : List FrState} (hp : FramedPath dev reg s t f log) :
    framedEnd dev reg s = (t, f, log) := by
  cases hp with
  | wakeNack c b ha hw => rw [framedEnd, ha, hw]
  | requestNack c b hw ha => rw [framedEnd_of_wakeGoesOn hw, requestEnd, ha]
  | responseNack b0 c b hw h0 ha => rw [framedEnd_of_wakeGoesOn hw, requestEnd, h0, ha]
  | invalid b0 b e hw h0 ha hv =>
    rw [framedEnd_of_wakeGoesOn hw, requestEnd, h0, ha]
    simp only [hv]
    rfl
  | valid b0 b v hw h0 ha hv =>
    rw [framedEnd_of_wakeGoesOn hw, requestEnd, h0, ha]
    simp only [hv]
    rfl

end

/-- Settles O19: two ways from one state end as the one function says. -/
theorem framedReadTakesExactlyOnePath : Obligations.FramedReadTakesExactlyOnePath := by
  refine fun dev reg s => ⟨⟨_, _, _, framedEnd_path dev reg s⟩, fun t f log t' f' log' h h' => ?_⟩
  have heq : (t, f, log) = (t', f', log') := (framedEnd_of_path h).symm.trans (framedEnd_of_path h')
  rwa [Prod.mk.injEq, Prod.mk.injEq] at heq

end Sys2Proof.Machine
end

