-- ==== Sys2Proof/Proofs/FramedCommands.lean ====
section
/-! LAW. The commands of the framed read (R193, R198, R199): one theorem for a framed read followed by what a command
stages and raises, then the whole state each of the three commands leaves on each way. -/

namespace Sys2Proof.Machine

/-! ## What a framed-read command stages and how it ends -/

/-- What every framed-read command stages: RESULT, and RESP when a response arrived (R193, R201). -/
def framedWrites (f : Framed) : List RegWrite := .result (u16 f.v) :: (f.b.map RegWrite.resp).toList

theorem stageFramed_bind_run {β : Type} (f : Framed) (g : Unit → Body β) (i : Instr) (r : Running) (t : State) :
    (stageFramed f >>= g) (running i r t) = g () (running i { r with staged := r.staged ++ framedWrites f } t) := by
  obtain ⟨v, e, b⟩ := f
  cases b with
  | none => rfl
  | some resp =>
    rw [framedWrites, Option.map_some, Option.toList_some, List.append_cons]
    rfl

theorem applyWrites_framedWrites (f : Framed) (t : State) :
    applyWrites (framedWrites f) t = { t with result := 0#16 ++ f.v, resp := f.b.getD t.resp } := by
  obtain ⟨v, e, b⟩ := f
  rw [framedWrites, u16_eq_append]
  cases b <;> rfl

/-- An error ends a running command with everything staged (R19). -/
theorem raiseStaged_running {α : Type} {i : Instr} {r : Running} {t : State} (h : t.hostQuiet = true) (e : ErrorKind)
    (info : Option Word) :
    (raiseStaged e info : Body α) (running i r t) = .error () (completed i r.fr (some e) info r.staged t) := by
  rw [raiseStaged_of_quiet (s := running i r t) h, commit_takeBuscode_running, stagedOf_running]

/-- No register write looks at the protocol log. -/
theorem applyWrites_passAll (log : List FrState) (ws : List RegWrite) (t : State) :
    applyWrites ws (passAll log t) = passAll log (applyWrites ws t) := by
  induction ws generalizing t with
  | nil => rfl
  | cons w ws ih =>
    rw [applyWrites_cons, applyWrites_cons, ← ih]
    cases w <;> rfl

/-- A commit after a framed read: fr returns to Idle (R192), and the writes ws show (R125, R19). -/
theorem completed_passAll {fr : FrState} (hfr : fr ≠ .idle) {t : State} (ht : t.seq = none) (i : Instr)
    (e : Option ErrorKind) (info : Option Word) (ws : List RegWrite) (log : List FrState) :
    completed i fr e info ws (passAll log t) =
      { applyWrites ws t with
        cmd := encode i, done := true, err := e, buscode := info.getD 0, frLog := t.frLog ++ log ++ [.idle] } := by
  have hseq : (applyWrites ws t).seq = none := (applyWrites_seq ws t).trans ht
  rw [completed, applyWrites_passAll, if_neg hfr, ← hseq]
  rfl

/-- How a command's body goes on after its framed read answered f: with the writes ws staged it ends normally, or with
f's error (R19, R191). -/
def EndsWith (i : Instr) (f : Framed) (ws : List RegWrite) (b : Body Unit) : Prop :=
  ∀ r t, t.hostQuiet = true → b (running i r t) =
    match f.e with
    | none => .ok () (running i { r with staged := r.staged ++ ws } t)
    | some e => .error () (completed i r.fr (some e.1) e.2 (r.staged ++ ws) t)

/-- A framed-read command launched at a ready block commits on each way through the protocol what it staged, with the
error of the way (R191, R193). -/
theorem launch_framed {i : Instr} {dev : Dev} {reg : Byte} {s t : State} {f : Framed} {log : List FrState}
    {ws : List RegWrite} {b : Body Unit} {g : Framed → Body Unit} (hs : s.ready = true)
    (hp : FramedPath dev reg s t f log)
    (hb : b (running i (started i) s) = (framedRead dev reg >>= g) (running i (started i) s))
    (hg : EndsWith i f ws (g f)) :
    launch i (runBody b) s = .next { applyWrites ws t with
      cmd := encode i, done := true, err := f.e.map Prod.fst, buscode := (f.e.bind Prod.snd).getD 0
      frLog := s.frLog ++ log ++ [.idle] } := by
  have hseq := seq_of_ready hs
  have hquiet := hostQuiet_of_path hp (hostQuiet_of_ready hs)
  have ht : t.seq = none := (seq_of_path hp).trans hseq
  obtain ⟨n, fr, hread, hfr⟩ := framedRead_of_path (i := i) (r := started i) (hostQuiet_of_ready hs) hp
  rw [body_bind_ok hread, hg _ (passAll log t) hquiet] at hb
  rw [← frLog_of_path hp]
  cases he : f.e with
  | none =>
    rw [he] at hb
    rw [launch_of_ok hb hseq hquiet, completed_passAll hfr ht]
    rfl
  | some e =>
    rw [he] at hb
    rw [launch_of_error hb hseq, completed_passAll hfr ht]
    rfl

/-! ## FRAMED_READ (R193) -/

/-- FRAMED_READ after its framed read (R193). -/
def framedReadTail (f : Framed) : Body Unit := do
  stageFramed f
  match f.e with
  | some e => raiseStaged e.1 e.2
  | none => pure ()

theorem framedReadBody_eq (dev : Dev) (reg : Byte) : framedReadBody dev reg = framedRead dev reg >>= framedReadTail :=
  rfl

theorem framedReadTail_endsWith (i : Instr) (f : Framed) : EndsWith i f (framedWrites f) (framedReadTail f) := by
  intro r t ht
  rw [framedReadTail, stageFramed_bind_run]
  cases f.e with
  | none => rfl
  | some e => exact raiseStaged_running ht e.1 e.2

/-- Settles O20: FRAMED_READ stages what every framed-read command does, and nothing else. -/
theorem framedReadCommitsItsPath : Obligations.FramedReadCommitsItsPath := by
  intro s dev reg t f log hs hp
  have hrun : exec (.framedRead dev reg) s = _ :=
    launch_framed hs hp (congrFun (framedReadBody_eq dev reg) _) (framedReadTail_endsWith _ f)
  rw [hrun, applyWrites_framedWrites, resp_of_path hp]

/-! ## COMBO_TEMP and COMBO_HUM (R198, R199) -/

/-- The value register's word: the decoded one, or the sentinel (R198, R199, R200). -/
def comboValue (decodeWord : Half → Int) (f : Framed) : Word :=
  if f.e = none then BitVec.ofInt 32 (decodeWord f.v) else BitVec.ofInt 32 (-1000)

/-- A combo reader after its framed read (R198, R199). -/
def comboTail (decodeWord : Half → Int) (target : Word → RegWrite) (f : Framed) : Body Unit := do
  stageFramed f
  match f.e with
  | some e => do
    stage (target sentinelVal)
    raiseStaged e.1 e.2
  | none => stage (target (BitVec.ofInt 32 (decodeWord f.v)))

section
variable {i : Instr} {reg : Params → Byte} {decodeWord : Half → Int} {target : Word → RegWrite} {s t : State}
  {f : Framed} {log : List FrState}

theorem comboBody_apply (s : State) :
    comboBody reg decodeWord target s = (framedRead comboAddr (reg s.params) >>= comboTail decodeWord target) s := rfl

theorem comboTail_endsWith :
    EndsWith i f (framedWrites f ++ [target (comboValue decodeWord f)]) (comboTail decodeWord target f) := by
  intro r t ht
  rw [comboTail, stageFramed_bind_run, comboValue, ← List.append_assoc]
  cases f.e with
  | none => rfl
  | some e => exact raiseStaged_running ht e.1 e.2

/-- A combo reader on each way through the protocol, up to the write of its own value register. -/
theorem launch_combo (hs : s.ready = true) (hp : FramedPath comboAddr (reg s.params) s t f log) :
    launch i (runBody (comboBody reg decodeWord target)) s = .next
      { applyWrite { t with result := 0#16 ++ f.v, resp := f.b.getD s.resp } (target (comboValue decodeWord f)) with
        cmd := encode i, done := true, err := f.e.map Prod.fst, buscode := (f.e.bind Prod.snd).getD 0
        frLog := s.frLog ++ log ++ [.idle] } := by
  rw [launch_framed hs hp (comboBody_apply _) comboTail_endsWith, applyWrites_append, applyWrites_framedWrites,
    resp_of_path hp]
  rfl

end

/-- Settles O21: the two readers differ in the register read, the decoder and the value register. -/
theorem comboReadersCommitTheirPath : Obligations.ComboReadersCommitTheirPath := by
  intro s t f log hs
  refine ⟨fun hp => ?_, fun hp => ?_⟩
  · have hcmd : encode .comboTemp = 0x11000000 := by decide
    have hrun : exec .comboTemp s = _ := launch_combo hs hp
    rw [hrun, hcmd]
    rfl
  · have hcmd : encode .comboHum = 0x12000000 := by decide
    have hrun : exec .comboHum s = _ := launch_combo hs hp
    rw [hrun, hcmd]
    rfl

end Sys2Proof.Machine
end

