-- ==== Sys2Proof/Proofs/ProtocolWalk.lean ====
section
/-! LAW. The protocol states a command passes (R191, R192), whatever the bus answers and the host does but for a reset:
from which state of fr to which each piece of a body moves along the table of R192, and what a command's end adds. -/

namespace Sys2Proof.Machine

/-! ## Walks of the table of R192 -/

theorem frFollows_concat (a c : FrState) (log : List FrState) :
    frFollows a (log ++ [c]) = (frFollows a log && frTransition (log.getLastD a) c) := by
  induction log generalizing a with
  | nil => exact Bool.and_comm _ _
  | cons b log ih =>
    rw [List.cons_append, frFollows, frFollows, ih b, List.getLastD_cons, Bool.and_assoc]

/-- The states log are a walk from Idle that has not come back to it and stands at a. -/
structure Walk (a : FrState) (log : List FrState) : Prop where
  follows : frFollows .idle log = true
  last : log.getLastD .idle = a
  nil_iff : log = [] ↔ a = .idle

theorem walk_nil : Walk .idle [] := ⟨rfl, rfl, iff_of_true rfl rfl⟩

theorem Walk.follows_concat {a c : FrState} {log : List FrState} (h : Walk a log) (ht : frTransition a c = true) :
    frFollows .idle (log ++ [c]) = true := by
  rw [frFollows_concat, h.follows, h.last, ht, Bool.and_self]

theorem Walk.concat {a c : FrState} {log : List FrState} (h : Walk a log) (ht : frTransition a c = true)
    (hc : c ≠ .idle) : Walk c (log ++ [c]) :=
  ⟨h.follows_concat ht, List.getLastD_concat, by simp [hc]⟩

/-! ## A command on its walk, and its end -/

/-- A command runs with its fr at a, and since the log base fr has walked there from Idle. -/
structure StandsAt (base : List FrState) (a : FrState) (s : State) : Prop where
  log : ∃ log, Walk a log ∧ s.frLog = base ++ log
  seq : ∃ r, s.seq = some r ∧ r.fr = a

/-- Since the log base fr has walked from Idle back to Idle, or never left it; it left it exactly in a framed read. -/
def Returned (base : List FrState) (framed : Bool) (t : State) : Prop :=
  ∃ log, t.frLog = base ++ log ∧ frFollows .idle log = true ∧ (log = [] ∨ log.getLast? = some .idle) ∧
    (framed = true ↔ log ≠ [])

/-- Where fr stands when a command ends: from there it returns to Idle by R192's table, or it never left Idle. -/
def EndsAt (framed : Bool) (a : FrState) : Prop :=
  if framed then frTransition a .idle = true else a = .idle

theorem endsAt_idle : EndsAt false .idle := rfl
theorem endsAt_done : EndsAt true .done := rfl
theorem endsAt_fault : EndsAt true .fault := rfl

section
variable {base : List FrState} {framed : Bool} {a : FrState} {s : State}

theorem standsAt_accept (i : Instr) (s : State) : StandsAt s.frLog .idle (accept i s) :=
  ⟨⟨[], walk_nil, (List.append_nil _).symm⟩, _, rfl, rfl⟩

/-- The host reaches neither the protocol log nor fr (R53). -/
theorem standsAt_hostStable : HostStable (StandsAt base a) where
  inputs _ _ h := ⟨h.log, h.seq⟩
  access := hostAccessBusy_keeps (fun _ _ h => ⟨h.log, h.seq⟩) (fun _ _ h => ⟨h.log, h.seq⟩) fun _ h => ⟨h.log, h.seq⟩

theorem StandsAt.onSeq (h : StandsAt base a s) {f : Running → Running} (hf : ∀ r, (f r).fr = r.fr) :
    StandsAt base a (onSeq f s) := by
  obtain ⟨r, hr, hfr⟩ := h.seq
  exact ⟨h.log, f r, by rw [onSeq_seq, hr, Option.map_some], (hf r).trans hfr⟩

theorem StandsAt.advance (h : StandsAt base a s) : StandsAt base a (advance s) := h.onSeq fun _ => rfl

/-- fr moves along the table. -/
theorem StandsAt.setFr {c : FrState} (h : StandsAt base a s) (ht : frTransition a c = true) (hc : c ≠ .idle) :
    StandsAt base c (Machine.onSeq (fun r => { r with fr := c }) (passFr c s)) := by
  obtain ⟨⟨log, hwalk, hlog⟩, r, hr, -⟩ := h
  refine ⟨⟨log ++ [c], hwalk.concat ht hc, ?_⟩, { r with fr := c }, ?_, rfl⟩
  · rw [onSeq_frLog, passFr_frLog, hlog, List.append_assoc]
  · rw [onSeq_seq, passFr_seq, hr, Option.map_some]

theorem frReturn_of_standsAt (h : StandsAt base a s) :
    frReturn s = if a = .idle then s.frLog else s.frLog ++ [.idle] := by
  obtain ⟨r, hr, hfr⟩ := h.seq
  simp only [frReturn, hr, hfr]

/-- A command that has run no framed read adds nothing to the log. -/
theorem returned_of_idle (h : StandsAt base .idle s) {t : State} (ht : t.frLog = s.frLog) : Returned base false t := by
  obtain ⟨log, hwalk, hlog⟩ := h.log
  have hnil : log = [] := hwalk.nil_iff.mpr rfl
  exact ⟨log, ht.trans hlog, hwalk.follows, .inl hnil, by simp [hnil]⟩

/-- Where a command may end, its commit takes fr back to Idle (R192). -/
theorem StandsAt.commit (h : StandsAt base a s) (ha : EndsAt framed a) (e : Option ErrorKind) (ws : List RegWrite)
    (info : Option Word) : Returned base framed (commit e ws (takeBuscode info s)) := by
  have hcommit : (Machine.commit e ws (takeBuscode info s)).frLog = if a = .idle then s.frLog else s.frLog ++ [.idle] :=
    frReturn_of_standsAt (s := takeBuscode info s) ⟨h.log, h.seq⟩
  cases framed with
  | false =>
    cases show a = .idle from ha
    exact returned_of_idle h hcommit
  | true =>
    have ht : frTransition a .idle = true := ha
    have hne : a ≠ .idle := by rintro rfl; cases ht
    obtain ⟨log, hwalk, hlog⟩ := h.log
    refine ⟨log ++ [.idle], ?_, hwalk.follows_concat ht, .inr List.getLast?_concat, by simp⟩
    rw [hcommit, if_neg hne, hlog, List.append_assoc]

end

/-! ## One rule for each piece of a body -/

/-- The body b takes fr from a along the table to where V says for its answer; where it ends for good, fr has returned
to Idle (R192). -/
def Moves {α : Type} (framed : Bool) (a : FrState) (b : Body α) (V : α → FrState) : Prop :=
  ∀ base, Sat (fun s => StandsAt base a s ∧ Calm true s) b (fun x s => StandsAt base (V x) s ∧ Calm true s)
    (Returned base framed)

section
variable {α β : Type} {framed : Bool} {a : FrState}

theorem Moves.bind {x : Body α} {g : α → Body β} {V : α → FrState} {V' : β → FrState} (hx : Moves framed a x V)
    (hg : ∀ y, Moves framed (V y) (g y) V') : Moves framed a (x >>= g) V' :=
  fun base => sat_bind (hx base) fun y => hg y base

theorem moves_pure {y : α} {V : α → FrState} (hV : V y = a) : Moves framed a (pure y) V :=
  fun _ => sat_pure y fun _ h => ⟨hV ▸ h.1, h.2⟩

theorem moves_ite {c : Prop} [Decidable c] {x y : Body α} {V : α → FrState} (hx : Moves framed a x V)
    (hy : Moves framed a y V) : Moves framed a (if c then x else y) V :=
  fun base => sat_ite (fun _ => hx base) fun _ => hy base

theorem moves_setFr {c : FrState} (ht : frTransition a c = true) (hc : c ≠ .idle) :
    Moves framed a (setFr c) fun _ => c :=
  fun _ => sat_change fun _ h => ⟨h.1.setFr ht hc, h.2⟩

theorem moves_regOf (f : State → α) : Moves framed a (regOf f) fun _ => a := fun _ => sat_regOf fun _ h => h

theorem moves_onSeq {f : Running → Running} (hf : ∀ r, (f r).fr = r.fr) :
    Moves framed a (change (onSeq f)) fun _ => a := fun _ => sat_change fun _ h => ⟨h.1.onSeq hf, h.2⟩

theorem moves_stage (w : RegWrite) : Moves framed a (stage w) fun _ => a := moves_onSeq fun _ => rfl

/-- A write staged, then the rest of the body. -/
theorem Moves.stage_bind {w : RegWrite} {g : Unit → Body α} {V : α → FrState} (h : Moves framed a (g ()) V) :
    Moves framed a (stage w >>= g) V := .bind (moves_stage w) fun _ => h

theorem moves_xfer (dev : Dev) (w : List Byte) (n : Nat) : Moves framed a (xfer dev w n) fun _ => a :=
  fun _ => sat_xfer true standsAt_hostStable nofun dev w n fun _ h hc => ⟨.advance ⟨h.log, h.seq⟩, hc⟩

theorem moves_delay (ms : Nat) : Moves framed a (delay ms) fun _ => a :=
  fun _ => sat_delay true standsAt_hostStable nofun ms fun _ h hc => ⟨.advance ⟨h.log, h.seq⟩, hc⟩

theorem moves_raise (ha : EndsAt framed a) (e : ErrorKind) (info : Option Word) (ws : List RegWrite)
    {V : α → FrState} : Moves framed a (raise e info ws : Body α) V :=
  fun _ => sat_raise true standsAt_hostStable nofun e info ws fun _ h _ => h.commit ha (some e) ws info

theorem moves_raiseStaged (ha : EndsAt framed a) (e : ErrorKind) (info : Option Word) {V : α → FrState} :
    Moves framed a (raiseStaged e info : Body α) V :=
  .bind (moves_regOf _) fun ws => moves_raise ha e info ws

/-- A body that answers is followed by its commit (R125). -/
theorem runBody_returned {b : Body Unit} {V : Unit → FrState} (hb : Moves framed a b V) (hV : EndsAt framed (V ()))
    {base : List FrState} {s : State} (hs : StandsAt base a s) (hc : Calm true s) :
    Returned base framed (runBody b s) :=
  runBody_sat (sat_bind (hb base) fun _ =>
    sat_endBody true standsAt_hostStable nofun fun u hu _ => hu.commit hV none (stagedOf u) none) ⟨hs, hc⟩

theorem launch_returned {i : Instr} {b : Body Unit} {V : Unit → FrState} (hb : Moves framed .idle b V)
    (hV : EndsAt framed (V ())) {s t : State} (hs : s.seq = none) (hn : s.noReset = true)
    (h : launch i (runBody b) s = .next t) : Returned s.frLog framed t := by
  rw [launch_of_idle hs] at h
  cases h
  exact runBody_returned hb hV (standsAt_accept i s) fun _ => hn

end

/-! ## The framed read (R191) -/

/-- Where fr stands when the framed read has answered f (R191). -/
def Framed.lastFr (f : Framed) : FrState :=
  match f.e with
  | none => .done
  | some _ => .fault

theorem framedNack_moves {a : FrState} (ha : frTransition a .fault = true) (c : Word) :
    Moves true a (framedNack c) Framed.lastFr :=
  .bind (moves_setFr ha nofun) fun _ => moves_pure rfl

theorem framedValidate_moves (b : List Byte) : Moves true .responseRead (framedValidate b) Framed.lastFr :=
  .bind (moves_setFr rfl nofun) fun _ => by
    cases validateResponse b with
    | ok v => exact .bind (moves_setFr rfl nofun) fun _ => moves_pure rfl
    | error e => exact .bind (moves_setFr rfl nofun) fun _ => moves_pure rfl

theorem framedResponse_moves (dev : Dev) : Moves true .waitCmd (framedResponse dev) Framed.lastFr :=
  .bind (moves_setFr rfl nofun) fun _ => .bind (moves_xfer _ _ _) fun r => by
    cases r with
    | nack c b => exact framedNack_moves rfl c
    | ack b => exact framedValidate_moves b

theorem framedRequest_moves (dev : Dev) (reg : Byte) : Moves true .waitWake (framedRequest dev reg) Framed.lastFr :=
  .bind (moves_setFr rfl nofun) fun _ => .bind (moves_xfer _ _ _) fun r => by
    cases r with
    | nack c b => exact framedNack_moves rfl c
    | ack b =>
      exact .bind (moves_setFr rfl nofun) fun _ => .bind (moves_delay _) fun _ => framedResponse_moves dev

theorem framedAwake_moves (dev : Dev) (reg : Byte) : Moves true .wakeWrite (framedAwake dev reg) Framed.lastFr :=
  .bind (moves_setFr rfl nofun) fun _ => .bind (moves_delay _) fun _ => framedRequest_moves dev reg

theorem framedRead_moves (dev : Dev) (reg : Byte) : Moves true .idle (framedRead dev reg) Framed.lastFr :=
  .bind (moves_regOf _) fun p => .bind (moves_setFr rfl nofun) fun _ => .bind (moves_xfer _ _ _) fun r => by
    cases r with
    | ack b => exact framedAwake_moves dev reg
    | nack c b =>
      cases p.wakeNackPolicy with
      | error => exact framedNack_moves rfl c
      | ignore => exact framedAwake_moves dev reg

theorem stageFramed_moves {a : FrState} (f : Framed) : Moves true a (stageFramed f) fun _ => a :=
  .stage_bind <| by
    cases f.b with
    | some r => exact moves_stage _
    | none => exact moves_pure rfl

theorem framedReadTail_moves (f : Framed) : Moves true f.lastFr (framedReadTail f) fun _ => .done :=
  .bind (stageFramed_moves f) fun _ => by
    rw [Framed.lastFr]
    cases f.e with
    | some e => exact moves_raiseStaged endsAt_fault e.1 e.2
    | none => exact moves_pure rfl

theorem comboTail_moves (decodeWord : Half → Int) (target : Word → RegWrite) (f : Framed) :
    Moves true f.lastFr (comboTail decodeWord target f) fun _ => .done :=
  .bind (stageFramed_moves f) fun _ => by
    rw [Framed.lastFr]
    cases f.e with
    | some e => exact .stage_bind (moves_raiseStaged endsAt_fault e.1 e.2)
    | none => exact moves_stage _

theorem framedReadBody_moves (dev : Dev) (reg : Byte) : Moves true .idle (framedReadBody dev reg) fun _ => .done := by
  rw [framedReadBody_eq]
  exact .bind (framedRead_moves dev reg) framedReadTail_moves

theorem comboBody_moves (reg : Params → Byte) (decodeWord : Half → Int) (target : Word → RegWrite) :
    Moves true .idle (comboBody reg decodeWord target) fun _ => .done :=
  .bind (moves_regOf _) fun _ => .bind (framedRead_moves _ _) (comboTail_moves decodeWord target)

/-! ## The pieces of the other commands -/

/-- The body b leaves fr in Idle, where it also ends. -/
def Unframed {α : Type} (b : Body α) : Prop := Moves false .idle b fun _ => .idle

section
variable {α β : Type}

theorem Unframed.bind {x : Body α} {g : α → Body β} (hx : Unframed x) (hg : ∀ y, Unframed (g y)) :
    Unframed (x >>= g) := Moves.bind hx hg

theorem unframed_pure (y : α) : Unframed (pure y : Body α) := moves_pure rfl

theorem unframed_ite {c : Prop} [Decidable c] {x y : Body α} (hx : Unframed x) (hy : Unframed y) :
    Unframed (if c then x else y) := moves_ite hx hy

theorem unframed_regOf (f : State → α) : Unframed (regOf f) := moves_regOf f

theorem unframed_stage (w : RegWrite) : Unframed (stage w) := moves_stage w

theorem Unframed.stage_bind {w : RegWrite} {g : Unit → Body α} (h : Unframed (g ())) : Unframed (stage w >>= g) :=
  .bind (unframed_stage w) fun _ => h

theorem unframed_raise (e : ErrorKind) (info : Option Word) (ws : List RegWrite) :
    Unframed (raise e info ws : Body α) := moves_raise endsAt_idle e info ws

theorem unframed_raiseStaged (e : ErrorKind) (info : Option Word) : Unframed (raiseStaged e info : Body α) :=
  moves_raiseStaged endsAt_idle e info

theorem unframed_compute (c : Calc α) (ws : List RegWrite) : Unframed (compute c ws) := fun _ =>
  sat_compute true standsAt_hostStable nofun (fun _ _ h => ⟨h.log, h.seq⟩) c ws
    (fun _ _ _ _ h hc => ⟨h.advance, hc⟩) standsAt_hostStable nofun (fun _ _ _ _ h _ => h.advance)
    fun e _ _ _ h _ => h.commit endsAt_idle (some e) ws none

theorem unframed_rdAB (reg : Byte) (n : Nat) (ws : List RegWrite) : Unframed (rdAB reg n ws) :=
  .bind (unframed_regOf _) fun p => Moves.bind (moves_xfer _ _ _) fun r => by
    cases r with
    | ack b => exact unframed_pure b
    | nack c b =>
      cases p.abBusPolicy with
      | abort => exact unframed_raise _ _ _
      | ignore => exact unframed_pure b

theorem unframed_wrAB (reg v : Byte) (ws : List RegWrite) : Unframed (wrAB reg v ws) :=
  .bind (unframed_regOf _) fun p => Moves.bind (moves_xfer _ _ _) fun r => by
    cases r with
    | ack b => exact unframed_pure ()
    | nack c b =>
      cases p.abBusPolicy with
      | abort => exact unframed_raise _ _ _
      | ignore => exact unframed_pure ()

theorem unframed_rdByte (reg : Byte) : Unframed (rdByte reg) := .bind (unframed_rdAB _ _ _) fun _ => unframed_pure _

theorem unframed_delay (ms : Nat) : Unframed (delay ms) := moves_delay ms

end

/-! ## The other commands' bodies -/

theorem regReadBody_unframed (dev : Dev) (reg : Byte) : Unframed (regReadBody dev reg) :=
  Moves.bind (moves_xfer _ _ _) fun r => by
    cases r with
    | nack c b => exact unframed_raise _ _ _
    | ack b => exact unframed_stage _

theorem regWriteBody_unframed (dev : Dev) (reg data : Byte) : Unframed (regWriteBody dev reg data) :=
  Moves.bind (moves_xfer _ _ _) fun r => by
    cases r with
    | nack c b => exact unframed_raise _ _ _
    | ack b => exact unframed_pure ()

theorem readCalWords_unframed (order : ByteOrder) (base : Byte) (ws : List RegWrite) (is : List Nat) :
    Unframed (readCalWords order base ws is) := by
  induction is with
  | nil => exact unframed_pure _
  | cons i is ih => exact .bind (unframed_rdAB _ _ _) fun _ => .bind ih fun _ => unframed_pure _

theorem calLoadABody_unframed (setting : Byte) : Unframed (calLoadABody setting) := by
  refine .bind (unframed_regOf _) fun p => .bind (unframed_rdAB _ _ _) fun idb =>
    .bind (readCalWords_unframed _ _ _ _) fun words => ?_
  iterate 9 refine .stage_bind ?_
  exact unframed_ite (unframed_raiseStaged _ _) (unframed_pure ())

theorem calLoadBBody_unframed : Unframed calLoadBBody := by
  refine .bind (unframed_regOf _) fun p => .bind (unframed_rdAB _ _ _) fun idb =>
    .bind (readCalWords_unframed _ _ _ _) fun words => ?_
  iterate 7 refine .stage_bind ?_
  exact unframed_ite (unframed_raiseStaged _ _) (unframed_pure ())

theorem frameEncodeBody_unframed : Unframed frameEncodeBody :=
  .bind (unframed_regOf _) fun _ => .bind (unframed_regOf _) fun _ => .bind (unframed_regOf _) fun _ =>
    .bind (unframed_regOf _) fun _ => .stage_bind <| .stage_bind <| .stage_bind <| unframed_stage _

theorem rawtABody_unframed : Unframed rawtABody :=
  .bind (unframed_regOf _) fun _ => .bind (unframed_wrAB _ _ _) fun _ => .bind (unframed_delay _) fun _ =>
    .bind (unframed_rdByte _) fun _ => .bind (unframed_rdByte _) fun _ => .stage_bind (unframed_pure _)

theorem rawpABody_unframed : Unframed rawpABody :=
  .bind (unframed_regOf _) fun _ => .bind (unframed_regOf _) fun _ => .bind (unframed_regOf _) fun _ =>
    .bind (unframed_wrAB _ _ _) fun _ => .bind (unframed_delay _) fun _ => .bind (unframed_rdByte _) fun _ =>
      .bind (unframed_rdByte _) fun _ => .bind (unframed_rdByte _) fun _ => .stage_bind (unframed_pure _)

theorem comptABody_unframed (raw : Word) (ws : List RegWrite) : Unframed (comptABody raw ws) :=
  .bind (unframed_regOf _) fun _ => .bind (unframed_regOf _) fun _ => .bind (unframed_compute _ ws) fun _ =>
    .stage_bind <| .stage_bind <| unframed_stage _

theorem comppABody_unframed (raw : Word) (ws : List RegWrite) : Unframed (comppABody raw ws) :=
  .bind (unframed_regOf _) fun _ => .bind (unframed_regOf _) fun _ => .bind (unframed_regOf _) fun _ =>
    .bind (unframed_regOf _) fun _ => .bind (unframed_compute _ ws) fun _ => unframed_stage _

theorem needB5_unframed : Unframed needB5 :=
  .bind (unframed_regOf _) fun _ => unframed_ite (unframed_pure ()) (unframed_raise _ _ _)

theorem rawpBBody_unframed : Unframed rawpBBody :=
  .bind (unframed_regOf _) fun _ => .bind (unframed_rdByte _) fun _ => .bind (unframed_rdByte _) fun _ =>
    .bind (unframed_rdByte _) fun _ => .stage_bind (unframed_pure _)

theorem comptBBody_unframed (raw : Word) : Unframed (comptBBody raw) :=
  .bind (unframed_regOf _) fun _ => .bind (unframed_regOf _) fun _ => .bind (unframed_compute _ _) fun _ =>
    .stage_bind <| .stage_bind <| .stage_bind <| unframed_pure _

theorem comppBBody_unframed (raw tFine : Word) : Unframed (comppBBody raw tFine) :=
  .bind (unframed_regOf _) fun _ => .bind (unframed_regOf _) fun _ => .bind (unframed_compute _ _) fun _ =>
    .stage_bind <| unframed_ite (unframed_raiseStaged _ _) (unframed_pure ())

theorem needTfine_unframed : Unframed needTfine :=
  .bind (unframed_regOf _) fun _ => unframed_ite (unframed_pure ()) (unframed_raise _ _ _)

theorem comppBFull_unframed : Unframed comppBFull :=
  .bind needTfine_unframed fun _ => .bind (unframed_regOf _) fun _ => .bind (unframed_regOf _) fun _ =>
    comppBBody_unframed _ _

/-- A command left at its poll has run no framed read either (R281, log 6). -/
theorem pollLoop_unframed (k : Nat) : Unframed (pollLoop k) := by
  induction k with
  | zero => exact fun _ _ hs => returned_of_idle hs.1 rfl
  | succ k ih =>
    refine .bind (unframed_regOf _) fun p => .bind (unframed_rdByte _) fun st => Moves.bind (moves_onSeq fun _ => rfl)
      fun _ => unframed_ite (unframed_pure ()) (.bind (unframed_regOf _) fun n => ?_)
    exact unframed_ite (unframed_raise _ _ _) (Moves.bind (moves_onSeq fun _ => rfl) fun _ => ih)

theorem rawtBPolling_unframed : Unframed rawtBPolling :=
  .bind (.bind (unframed_regOf _) fun _ => pollLoop_unframed _) fun _ => .bind (unframed_regOf _) fun _ =>
    .bind (unframed_rdByte _) fun _ => .bind (unframed_rdByte _) fun _ => .bind (unframed_rdByte _) fun _ =>
      .stage_bind (unframed_pure _)

theorem rawtBStart_unframed : Unframed rawtBStart := .bind (unframed_regOf _) fun _ => unframed_wrAB _ _ _

/-! ## Every command -/

/-- The command runs a framed read. -/
def runsFramed : Instr → Bool
  | .framedRead _ _ | .comboTemp | .comboHum => true
  | .nop | .regRead _ _ | .regWrite _ _ _ | .calLoadA _ | .rawtA | .rawpA | .comptA | .comppA | .tempA | .presA
  | .calLoadB | .rawtB | .rawpB | .comptB | .comppB | .tempB | .presB | .frameEncode => false

theorem runsFramed_iff (i : Instr) :
    runsFramed i = true ↔ (∃ dev reg, i = .framedRead dev reg) ∨ i = .comboTemp ∨ i = .comboHum := by
  cases i <;> simp [runsFramed]

/-- Every command launched at an idle block takes fr from Idle back to Idle (R192). -/
theorem exec_returned {i : Instr} {s t : State} (hs : s.seq = none) (hn : s.noReset = true) (h : exec i s = .next t) :
    Returned s.frLog (runsFramed i) t := by
  have hunframed : ∀ {j : Instr} {b : Body Unit}, Unframed b → launch j (runBody b) s = .next t →
      Returned s.frLog false t := fun hb hj => launch_returned hb endsAt_idle hs hn hj
  have hframed : ∀ {j : Instr} {b : Body Unit}, Moves true .idle b (fun _ => .done) →
      launch j (runBody b) s = .next t → Returned s.frLog true t := fun hb hj => launch_returned hb endsAt_done hs hn hj
  cases i with
  | nop =>
    rw [show exec .nop s = launch .nop (commit none []) s from rfl, launch_of_idle hs] at h
    cases h
    exact (standsAt_accept .nop s).commit endsAt_idle none [] none
  | framedRead dev reg => exact hframed (framedReadBody_moves dev reg) h
  | comboTemp => exact hframed (comboBody_moves _ _ _) h
  | comboHum => exact hframed (comboBody_moves _ _ _) h
  | regRead dev reg => exact hunframed (regReadBody_unframed dev reg) h
  | regWrite dev reg data => exact hunframed (regWriteBody_unframed dev reg data) h
  | calLoadA setting => exact hunframed (calLoadABody_unframed setting) h
  | calLoadB => exact hunframed calLoadBBody_unframed h
  | frameEncode => exact hunframed frameEncodeBody_unframed h
  | rawtA => exact hunframed (.bind rawtABody_unframed fun _ => unframed_pure ()) h
  | rawpA => exact hunframed (.bind rawpABody_unframed fun _ => unframed_pure ()) h
  | comptA => exact hunframed (.bind (unframed_regOf _) fun raw => comptABody_unframed raw []) h
  | comppA =>
    exact hunframed (.bind needB5_unframed fun _ => .bind (unframed_regOf _) fun raw => comppABody_unframed raw []) h
  | tempA => exact hunframed (.bind rawtABody_unframed fun raw => comptABody_unframed raw _) h
  | presA =>
    exact hunframed (.bind needB5_unframed fun _ => .bind rawpABody_unframed fun raw => comppABody_unframed raw _) h
  | rawpB => exact hunframed (.bind rawpBBody_unframed fun _ => unframed_pure ()) h
  | comptB =>
    exact hunframed (.bind (unframed_regOf _) fun raw => .bind (comptBBody_unframed raw) fun _ => unframed_pure ()) h
  | comppB => exact hunframed comppBFull_unframed h
  | rawtB =>
    exact hunframed (.bind rawtBStart_unframed fun _ => .bind rawtBPolling_unframed fun _ => unframed_pure ()) h
  | tempB =>
    exact hunframed (.bind rawtBStart_unframed fun _ => .bind rawtBPolling_unframed fun raw =>
      .bind (comptBBody_unframed raw) fun _ => unframed_pure ()) h
  | presB =>
    exact hunframed (.bind rawtBStart_unframed fun _ => .bind rawtBPolling_unframed fun raw =>
      .bind (comptBBody_unframed raw) fun tf => .bind rawpBBody_unframed fun rawP => comppBBody_unframed rawP tf) h

/-- Settles O22: fr leaves Idle in a framed read only, moves along the table, and returns at the commit. -/
theorem protocolStatesFollowTheTransitions : Obligations.ProtocolStatesFollowTheTransitions := by
  intro i s t hs hn h
  rw [← runsFramed_iff i]
  exact exec_returned hs hn h

end Sys2Proof.Machine
end

