-- ==== Sys2Proof/Proofs/LoadOperands.lean ====
section
/-! LAW. The operands of a calibration load on every input: OssMap and the wait of each code (R232), Classify (R231),
CalFault (R233), and the two bytes and the place of each coefficient (R84, R44, R45). -/

namespace Sys2Proof.Machine

/-! ## The oversampling code and its wait (R232) -/

theorem byte_cases_of_le {setting : Byte} (h : setting.toNat ≤ 3) :
    setting = 0 ∨ setting = 1 ∨ setting = 2 ∨ setting = 3 := by
  bv_omega

theorem ossCodeOf_of_le {setting : Byte} (h : setting.toNat ≤ 3) :
    ossCodeOf setting = BitVec.ofNat 2 setting.toNat := by
  obtain rfl | rfl | rfl | rfl := byte_cases_of_le h <;> rfl

theorem ossCodeOf_of_ge {setting : Byte} (h : 4 ≤ setting.toNat) : ossCodeOf setting = 1 := by
  have h0 : setting ≠ 0 := by bv_omega
  have h1 : setting ≠ 1 := by bv_omega
  have h2 : setting ≠ 2 := by bv_omega
  have h3 : setting ≠ 3 := by bv_omega
  rw [ossCodeOf, if_neg h0, if_neg h1, if_neg h2, if_neg h3]

theorem ossCode_cases (oss : BitVec 2) : oss = 0 ∨ oss = 1 ∨ oss = 2 ∨ oss = 3 := by
  bv_omega

theorem waitA_eq_getD (oss : BitVec 2) : (waitA oss).toNat = [5, 8, 14, 26].getD oss.toNat 0 := by
  obtain rfl | rfl | rfl | rfl := ossCode_cases oss <;> rfl

/-! ## CalFault and the coefficient words (R233, R84) -/

theorem calFault_iff (words : List Half) : calFault words = true ↔ ∃ w ∈ words, w = 0x0000 ∨ w = 0xFFFF := by
  simp only [calFault, List.any_eq_true, Bool.or_eq_true, beq_iff_eq]

/-- The fault patterns read the same in both byte orders. -/
theorem append_faulty_comm (b0 b1 : Byte) :
    b0 ++ b1 = (0x0000 : Half) ∨ b0 ++ b1 = (0xFFFF : Half) ↔
      b1 ++ b0 = (0x0000 : Half) ∨ b1 ++ b0 = (0xFFFF : Half) := by
  have hnat : ∀ (x y : Byte) (w : Half), x ++ y = w ↔ x.toNat * 256 + y.toNat = w.toNat := by
    intro x y w
    have hy := y.isLt
    rw [← BitVec.toNat_inj, BitVec.toNat_append, ← Nat.shiftLeft_add_eq_or_of_lt hy, Nat.shiftLeft_eq]
  have h0 := b0.isLt
  have h1 := b1.isLt
  simp only [hnat, show (0x0000 : Half).toNat = 0 from rfl, show (0xFFFF : Half).toNat = 65535 from rfl]
  omega

theorem calWord_eq (order : ByteOrder) (b : List Byte) : calWord order b = match order with
    | .big => byteAt b 0 ++ byteAt b 1
    | .little => byteAt b 1 ++ byteAt b 0 := by
  cases order <;> rfl

theorem calFault_byteOrder (b0 b1 : Byte) :
    calFault [calWord .big [b0, b1]] = calFault [calWord .little [b0, b1]] := by
  rw [Bool.eq_iff_iff, calFault_iff, calFault_iff]
  simp only [List.mem_singleton, exists_eq_left]
  exact append_faulty_comm b0 b1

/-- Settles O23: each classification by its own cases; the words of a store are its fields in order. -/
theorem loadClassificationsAreTotal : Obligations.LoadClassificationsAreTotal := by
  refine ⟨fun setting => ⟨ossCodeOf_of_le, ossCodeOf_of_ge, waitA_eq_getD _⟩, fun id => ⟨?_, ?_, fun hA hB => ?_⟩,
    calFault_iff, fun b0 b1 => ⟨rfl, rfl, calFault_byteOrder b0 b1⟩, waitA_eq_getD,
    fun _ _ _ _ _ _ _ _ _ _ _ _ => ⟨rfl, rfl⟩, fun _ => rfl, fun _ => rfl⟩
  · rintro rfl; rfl
  · rintro rfl; rfl
  · rw [classify, if_neg hA, if_neg hB]

end Sys2Proof.Machine
end

