-- ==== Sys2Proof/Proofs/CalcExact.lean ====
section
/-! LAW. A computation of the compensation engines against its exact integer results (R10): what each s32 operation
answers and which exact result decides whether it is flagged, and how these facts compose along a computation. -/

namespace Sys2Proof.Machine

/-! ## What the operands read as -/

theorem toInt_s16 (h : Half) : (s16 h).toInt = h.toInt := BitVec.toInt_signExtend_of_le (by decide)

theorem toInt_u16 (h : Half) : (u16 h).toInt = h.toNat := by
  have hh := h.isLt
  rw [u16, BitVec.toInt_eq_toNat_of_lt] <;> rw [BitVec.toNat_setWidth_of_le (by decide)]
  omega

theorem toInt_eq_wrapS32_toNat (u : Word) : u.toInt = wrapS32 u.toNat := BitVec.toInt_eq_toNat_bmod u

/-! ## Exact results that fit -/

theorem allS32_nil : allS32 [] := fun _ h => by cases h

theorem allS32_cons {x : Int} {l : List Int} : allS32 (x :: l) ↔ inS32 x = true ∧ allS32 l := by
  rw [inS32_iff]
  exact List.forall_mem_cons

theorem allS32_append {l m : List Int} : allS32 (l ++ m) ↔ allS32 l ∧ allS32 m := List.forall_mem_append

/-! ## Computations with their exact results -/

/-- The steps overflow exactly when one of the exact results l does not fit s32 (R10). -/
def FlagsExactly (steps : List Bool) (l : List Int) : Prop := overflowed steps = false ↔ allS32 l

/-- The outcome of a computation, after the steps made. -/
def calcResult {α : Type} (steps : List Bool) : Except ErrorKind α → EStateM.Result ErrorKind (List Bool) α
  | .ok a => .ok a steps
  | .error e => .error e steps

/-- The computation ends in r, and its steps flag exactly the results l, whatever overflowed before it. -/
def Calc.Ends {α : Type} (c : Calc α) (r : Except ErrorKind α) (l : List Int) : Prop :=
  ∀ o, ∃ steps, c o = calcResult (o ++ steps) r ∧ FlagsExactly steps l

/-- The computation answers a, and its steps flag exactly the results l. -/
abbrev Calc.Gives {α : Type} (c : Calc α) (a : α) (l : List Int) : Prop := c.Ends (.ok a) l

theorem FlagsExactly.append {steps steps' : List Bool} {l m : List Int} (h : FlagsExactly steps l)
    (h' : FlagsExactly steps' m) : FlagsExactly (steps ++ steps') (l ++ m) := by
  unfold FlagsExactly at *
  rw [overflowed_append, Bool.or_eq_false_iff, allS32_append, h, h']

section
variable {α β : Type} {x : Calc α} {f : α → Calc β} {a : α} {r : Except ErrorKind β} {l m : List Int} {e : Int}

/-- The results of one computation, then those of the next. -/
theorem Calc.Gives.bind (hx : x.Gives a l) (hf : (f a).Ends r m) : (x >>= f : Calc β).Ends r (l ++ m) := by
  intro o
  obtain ⟨steps, hrun, hflags⟩ := hx o
  obtain ⟨steps', hrun', hflags'⟩ := hf (o ++ steps)
  refine ⟨steps ++ steps', ?_, hflags.append hflags'⟩
  rw [calc_bind_ok hrun, hrun', List.append_assoc]

/-- One step, then the rest. -/
theorem Calc.Gives.step (hx : x.Gives a [e]) (hf : (f a).Ends r m) : (x >>= f : Calc β).Ends r (e :: m) :=
  hx.bind hf

/-- A step that cannot overflow, then the rest. -/
theorem Calc.Gives.fits (hx : x.Gives a []) (hf : (f a).Ends r m) : (x >>= f : Calc β).Ends r m :=
  hx.bind hf

theorem gives_pure (a : α) : (pure a : Calc α).Gives a [] := fun o =>
  ⟨[], by rw [List.append_nil]; rfl, iff_of_true rfl allS32_nil⟩

theorem ends_throw (e : ErrorKind) : (throw e : Calc α).Ends (.error e) [] := fun o =>
  ⟨[], by rw [List.append_nil]; rfl, iff_of_true rfl allS32_nil⟩

/-- From the start of a computation. -/
theorem Calc.Gives.start (h : x.Gives a l) : ∃ o, x [] = .ok a o ∧ (overflowed o = false ↔ allS32 l) := h []

theorem Calc.Ends.startError {k : ErrorKind} (h : x.Ends (.error k) l) :
    ∃ o, x [] = .error k o ∧ (overflowed o = false ↔ allS32 l) := h []

end

/-! ## The operations (R10 to R13) -/

theorem flagsExactly_inS32 (r : Int) : FlagsExactly [!inS32 r] [r] := by
  rw [FlagsExactly, overflowed_cons, overflowed_nil, Bool.or_false, Bool.not_eq_false', allS32_cons]
  exact ⟨fun h => ⟨h, allS32_nil⟩, And.left⟩

theorem gives_narrow (r : Int) : (narrow r).Gives (BitVec.ofInt 32 r) [r] := fun _ =>
  ⟨_, rfl, flagsExactly_inS32 r⟩

theorem gives_asS32 (u : Word) : (asS32 u).Gives u [(u.toNat : Int)] := by
  have hmsb : u.msb = !inS32 u.toNat := by
    have hu := u.isLt
    rw [BitVec.msb_eq_decide, Bool.eq_iff_iff, Bool.not_eq_true', ← Bool.not_eq_true, inS32_iff, decide_eq_true_iff]
    omega
  exact fun _ => ⟨_, rfl, hmsb ▸ flagsExactly_inS32 _⟩

section
variable {a b : Word} {x y : Int}

theorem gives_sAdd (ha : a.toInt = x) (hb : b.toInt = y) : (sAdd a b).Gives (BitVec.ofInt 32 (x + y)) [x + y] := by
  subst ha hb; exact gives_narrow _

theorem gives_sSub (ha : a.toInt = x) (hb : b.toInt = y) : (sSub a b).Gives (BitVec.ofInt 32 (x - y)) [x - y] := by
  subst ha hb; exact gives_narrow _

theorem gives_sMul (ha : a.toInt = x) (hb : b.toInt = y) : (sMul a b).Gives (BitVec.ofInt 32 (x * y)) [x * y] := by
  subst ha hb; exact gives_narrow _

theorem gives_sShl (ha : a.toInt = x) (k : Nat) : (sShl a k).Gives (BitVec.ofInt 32 (x * 2 ^ k)) [x * 2 ^ k] := by
  subst ha; exact gives_narrow _

theorem gives_sTdiv (ha : a.toInt = x) (hb : b.toInt = y) :
    (sTdiv a b).Gives (BitVec.ofInt 32 (x.tdiv y)) [x.tdiv y] := by
  subst ha hb; exact gives_narrow _

theorem inS32_tdiv_four (ha : a.toInt = x) : inS32 (x.tdiv 4) = true := by
  subst ha; exact inS32_tdiv (inS32_toInt a) (by omega)

/-- The quotient by 4 always fits (R11). -/
theorem gives_sTdiv_four (ha : a.toInt = x) : (sTdiv a 4).Gives (BitVec.ofInt 32 (x.tdiv 4)) [] := by
  intro o
  obtain ⟨steps, hrun, hflags⟩ := gives_sTdiv ha (b := 4) rfl o
  exact ⟨steps, hrun, iff_of_true (hflags.mpr (allS32_cons.mpr ⟨inS32_tdiv_four ha, allS32_nil⟩)) allS32_nil⟩

theorem toInt_tdiv_four (ha : a.toInt = x) : (BitVec.ofInt 32 (x.tdiv 4)).toInt = x.tdiv 4 :=
  toInt_ofInt_of_inS32 (inS32_tdiv_four ha)

theorem toInt_pdiv_of (ha : a.toInt = x) (rnd : Rounding) (k : Nat) : (pdiv rnd a k).toInt = intPdiv rnd x k := by
  subst ha; exact toInt_pdiv rnd a k

theorem ofInt_eq_zero_iff : BitVec.ofInt 32 x = 0 ↔ wrapS32 x = 0 := by
  rw [← BitVec.toInt_inj, toInt_ofInt_eq_wrapS32]; rfl

end

end Sys2Proof.Machine
end

