-- ==== Sys2Proof/Proofs/CompensationA.lean ====
section
/-! LAW. CompTA (R237) and CompPA (R239) against their formulas over the integers (R10, R245). -/

namespace Sys2Proof.Machine

/-! ## CompTA (R237) -/

/-- CompTA from the test of its divisor d = X1 + MD on (R237). -/
def compTATail (rnd : Rounding) (c : CalA) (x1 d : Word) : Calc (Word × Word) :=
  if d = 0 then throw ErrorKind.divideByZero
  else do
    let mc ← sMul (s16 c.mc) 2048
    let x2 ← sTdiv mc d
    let b5 ← sAdd x1 x2
    let sum ← sAdd b5 8
    let t ← sMul (pdiv rnd sum 4) 10
    pure (b5, t)

/-- The steps of CompTA before the test of its divisor. -/
theorem compTAOf_ends {rnd : Rounding} {c : CalA} {raw : Word} {e1 e2 e3 : Int} {r : Except ErrorKind (Word × Word)}
    {l : List Int} (h1 : e1 = raw.toInt - c.ac6.toNat) (h2 : e2 = wrapS32 e1 * c.ac5.toNat)
    (h3 : e3 = intPdiv rnd (wrapS32 e2) 15 + c.md.toInt)
    (htail : (compTATail rnd c (pdiv rnd (BitVec.ofInt 32 e2) 15) (BitVec.ofInt 32 e3)).Ends r l) :
    (compTAOf rnd c raw).Ends r (raw.toNat :: e1 :: e2 :: e3 :: l) := by
  subst h1 h2 h3
  refine (gives_asS32 raw).step <| (gives_sSub rfl (toInt_u16 _)).step <|
    (gives_sMul (toInt_ofInt_eq_wrapS32 _) (toInt_u16 _)).step <|
    (gives_sAdd (toInt_pdiv_of (toInt_ofInt_eq_wrapS32 _) rnd 15) (toInt_s16 _)).step htail

/-- The steps of CompTA after the test, which found the divisor d. -/
theorem compTATail_gives {rnd : Rounding} {c : CalA} {x1 d : Word} {e4 e5 e6 e7 e8 : Int} (hd : d ≠ 0)
    (h4 : e4 = c.mc.toInt * 2048) (h5 : e5 = (wrapS32 e4).tdiv d.toInt) (h6 : e6 = x1.toInt + wrapS32 e5)
    (h7 : e7 = wrapS32 e6 + 8) (h8 : e8 = intPdiv rnd (wrapS32 e7) 4 * 10) :
    (compTATail rnd c x1 d).Gives (BitVec.ofInt 32 e6, BitVec.ofInt 32 e8) [e4, e5, e6, e7, e8] := by
  subst h4 h5 h6 h7 h8
  rw [compTATail, if_neg hd]
  exact (gives_sMul (toInt_s16 _) rfl).step <| (gives_sTdiv (toInt_ofInt_eq_wrapS32 _) rfl).step <|
    (gives_sAdd rfl (toInt_ofInt_eq_wrapS32 _)).step <| (gives_sAdd (toInt_ofInt_eq_wrapS32 _) rfl).step <|
    (gives_sMul (toInt_pdiv_of (toInt_ofInt_eq_wrapS32 _) rnd 4) rfl).step (gives_pure _)

/-- Settles O35: the two ways differ in the test of the divisor, and the first step is asS32 of the code. -/
theorem compTAIsTheStatedFormula : Obligations.CompTAIsTheStatedFormula := by
  intro rnd c raw e1 e2 x1 e3 d e4 e5 e6 e7 e8
  have hx1 : (pdiv rnd (BitVec.ofInt 32 e2) 15).toInt = x1 := toInt_pdiv_of (toInt_ofInt_eq_wrapS32 e2) rnd 15
  have hd : (BitVec.ofInt 32 e3).toInt = d := toInt_ofInt_eq_wrapS32 e3
  refine ⟨fun hzero => Calc.Ends.startError (compTAOf_ends rfl rfl rfl ?_),
    fun hne => Calc.Gives.start (compTAOf_ends rfl rfl rfl ?_), fun o => ?_⟩
  · rw [compTATail, if_pos (ofInt_eq_zero_iff.mpr hzero)]
    exact ends_throw _
  · exact compTATail_gives (mt ofInt_eq_zero_iff.mp hne) rfl (by rw [hd]) (by rw [hx1]) rfl rfl
  · rw [compTAOf, calc_bind_ok (asS32_eq raw o)]

/-! ## CompPA (R239) -/

section
variable {rnd : Rounding} {c : CalA}

theorem compPAB3_gives {oss : BitVec 2} {b6 sq : Word} {y z e3 e4 e5 e6 e7 e8 e9 : Int} (hb6 : b6.toInt = y)
    (hsq : sq.toInt = z) (h3 : e3 = c.b2.toInt * z) (h4 : e4 = c.ac2.toInt * y)
    (h5 : e5 = intPdiv rnd (wrapS32 e3) 11 + intPdiv rnd (wrapS32 e4) 11) (h6 : e6 = c.ac1.toInt * 4)
    (h7 : e7 = wrapS32 e6 + wrapS32 e5) (h8 : e8 = wrapS32 e7 * 2 ^ oss.toNat) (h9 : e9 = wrapS32 e8 + 2) :
    (compPAB3 rnd c oss b6 sq).Gives (BitVec.ofInt 32 ((wrapS32 e9).tdiv 4)) [e3, e4, e5, e6, e7, e8, e9] := by
  subst h3 h4 h5 h6 h7 h8 h9
  have wrapped := toInt_ofInt_eq_wrapS32
  exact (gives_sMul (toInt_s16 _) hsq).step <| (gives_sMul (toInt_s16 _) hb6).step <|
    (gives_sAdd (toInt_pdiv_of (wrapped _) rnd 11) (toInt_pdiv_of (wrapped _) rnd 11)).step <|
    (gives_sMul (toInt_s16 _) rfl).step <| (gives_sAdd (wrapped _) (wrapped _)).step <|
    (gives_sShl (wrapped _) _).step <| (gives_sAdd (wrapped _) rfl).step <| gives_sTdiv_four (wrapped _)

theorem compPAB4_gives {b6 sq : Word} {y z e10 e11 e12 e13 e14 : Int} (hb6 : b6.toInt = y) (hsq : sq.toInt = z)
    (h10 : e10 = c.ac3.toInt * y) (h11 : e11 = c.b1.toInt * z)
    (h12 : e12 = intPdiv rnd (wrapS32 e10) 13 + intPdiv rnd (wrapS32 e11) 16) (h13 : e13 = wrapS32 e12 + 2)
    (h14 : e14 = (wrapS32 e13).tdiv 4 + 32768) :
    (compPAB4 rnd c b6 sq).Gives ((u16 c.ac4 * BitVec.ofInt 32 e14) >>> 15) [e10, e11, e12, e13, e14] := by
  subst h10 h11 h12 h13 h14
  have wrapped := toInt_ofInt_eq_wrapS32
  exact (gives_sMul (toInt_s16 _) hb6).step <| (gives_sMul (toInt_s16 _) hsq).step <|
    (gives_sAdd (toInt_pdiv_of (wrapped _) rnd 13) (toInt_pdiv_of (wrapped _) rnd 16)).step <|
    (gives_sAdd (wrapped _) rfl).step <| (gives_sTdiv_four (wrapped _)).fits <|
    (gives_sAdd (toInt_tdiv_four (wrapped _)) rfl).step (gives_pure _)

theorem compPATail_gives {p : Word} {x e15 e16 e17 e18 e19 e20 : Int} (hp : p.toInt = x)
    (h15 : e15 = intPdiv rnd x 8 * intPdiv rnd x 8) (h16 : e16 = wrapS32 e15 * 3038) (h17 : e17 = -7357 * x)
    (h18 : e18 = intPdiv rnd (wrapS32 e16) 16 + intPdiv rnd (wrapS32 e17) 16) (h19 : e19 = wrapS32 e18 + 3791)
    (h20 : e20 = x + intPdiv rnd (wrapS32 e19) 4) :
    (compPATail rnd p).Gives (BitVec.ofInt 32 e20) [e15, e16, e17, e18, e19, e20] := by
  subst h15 h16 h17 h18 h19 h20
  have wrapped := toInt_ofInt_eq_wrapS32
  exact (gives_sMul (toInt_pdiv_of hp rnd 8) (toInt_pdiv_of hp rnd 8)).step <| (gives_sMul (wrapped _) rfl).step <|
    (gives_sMul rfl hp).step <|
    (gives_sAdd (toInt_pdiv_of (wrapped _) rnd 16) (toInt_pdiv_of (wrapped _) rnd 16)).step <|
    (gives_sAdd (wrapped _) rfl).step <| gives_sAdd hp (toInt_pdiv_of (wrapped _) rnd 4)

end

/-! ### Its u32 steps (R7, R10, R239) -/

theorem toNat_b4 (ac4 : Half) (e : Int) : ((u16 ac4 * BitVec.ofInt 32 e) >>> 15).toNat =
    (ac4.toNat * (e % 2 ^ 32).toNat % 2 ^ 32) / 2 ^ 15 := by
  rw [BitVec.toNat_ushiftRight, Nat.shiftRight_eq_div_pow, BitVec.toNat_mul, BitVec.toNat_ofInt, u16,
    BitVec.toNat_setWidth_of_le (by decide)]
  rfl

/-- B7 (R239). -/
def compPAB7 (up b3 : Word) (oss : BitVec 2) : Word := (up - asU32 b3) * asU32 (50000#32 >>> oss.toNat)

theorem ofInt_sub_toNat (u : Word) (x : Int) : BitVec.ofInt 32 ((u.toNat : Int) - x) = u - BitVec.ofInt 32 x := by
  rw [Int.sub_eq_add_neg, BitVec.ofInt_add, BitVec.ofInt_neg, BitVec.ofInt_natCast, BitVec.ofNat_toNat,
    BitVec.setWidth_eq, BitVec.sub_eq_add_neg]

theorem toNat_compPAB7 (up : Word) (b3 : Int) (oss : BitVec 2) : (compPAB7 up (BitVec.ofInt 32 b3) oss).toNat =
    ((((up.toNat : Int) - b3) * ((50000 / 2 ^ oss.toNat : Nat) : Int)) % 2 ^ 32).toNat := by
  have hscale : BitVec.ofInt 32 ((50000 / 2 ^ oss.toNat : Nat) : Int) = 50000#32 >>> oss.toNat := by
    obtain rfl | rfl | rfl | rfl := ossCode_cases oss <;> rfl
  rw [compPAB7, asU32, asU32, ← ofInt_sub_toNat, ← hscale, ← BitVec.ofInt_mul, BitVec.toNat_ofInt]
  rfl

/-- The quotient pu (R239). -/
def compPAQuotient (b7 b4 : Word) : Word := if b7 < 0x80000000#32 then uDiv (b7 * 2) b4 else uDiv b7 b4 * 2

theorem toNat_uDiv (a b : Word) : (uDiv a b).toNat = a.toNat / b.toNat := BitVec.toNat_udiv

/-- Doubling before the division cannot wrap where B7 < 2^31, and after it can. -/
theorem toNat_compPAQuotient (b7 b4 : Word) : (compPAQuotient b7 b4).toNat =
    if b7.toNat < 2 ^ 31 then b7.toNat * 2 / b4.toNat else b7.toNat / b4.toNat * 2 % 2 ^ 32 := by
  have hcond : b7 < 0x80000000#32 ↔ b7.toNat < 2 ^ 31 := BitVec.lt_def
  by_cases h : b7.toNat < 2 ^ 31
  · have hfits : b7.toNat * 2 < 2 ^ 32 := by omega
    rw [compPAQuotient, if_pos (hcond.mpr h), if_pos h, toNat_uDiv, BitVec.toNat_mul]
    exact congrArg (· / b4.toNat) (Nat.mod_eq_of_lt hfits)
  · rw [compPAQuotient, if_neg (mt hcond.mp h), if_neg h, BitVec.toNat_mul, toNat_uDiv]
    rfl

/-! ### The whole of it -/

/-- CompPA from the test of B4 on (R239). -/
def compPARest (rnd : Rounding) (b7 b4 : Word) : Calc Word :=
  if b4 = 0 then throw ErrorKind.divideByZero
  else do
    let p ← asS32 (compPAQuotient b7 b4)
    compPATail rnd p

theorem compPA_eq (rnd : Rounding) (c : CalA) (up b5 : Word) (oss : BitVec 2) : compPA rnd c up b5 oss = (do
    let b6 ← sSub b5 4000
    let sq ← sMul b6 b6
    let b3 ← compPAB3 rnd c oss b6 (pdiv rnd sq 12)
    let b4 ← compPAB4 rnd c b6 (pdiv rnd sq 12)
    compPARest rnd (compPAB7 up b3 oss) b4) := rfl

/-- Settles O36: the steps before the test of B4 are those of B6, S, B3 and B4; after it come the quotient
and the tail. -/
theorem compPAIsTheStatedFormula : Obligations.CompPAIsTheStatedFormula := by
  intro rnd c up b5 oss e1 b6 e2 sq e3 e4 e5 e6 e7 e8 e9 b3 e10 e11 e12 e13 x3 e14 b4 b7 pu p e15 e16 e17 e18 e19 e20
    head
  have hb6 : (BitVec.ofInt 32 e1).toInt = b6 := toInt_ofInt_eq_wrapS32 e1
  have hsq : (pdiv rnd (BitVec.ofInt 32 e2) 12).toInt = sq := toInt_pdiv_of (toInt_ofInt_eq_wrapS32 e2) rnd 12
  have hhead : ∀ {r : Except ErrorKind Word} {l : List Int}, (compPARest rnd (compPAB7 up (BitVec.ofInt 32 b3) oss)
      ((u16 c.ac4 * BitVec.ofInt 32 e14) >>> 15)).Ends r l → (compPA rnd c up b5 oss).Ends r (head ++ l) := by
    intro r l hrest
    rw [compPA_eq]
    exact (gives_sSub rfl rfl).step <| (gives_sMul hb6 hb6).step <|
      (compPAB3_gives hb6 hsq rfl rfl rfl rfl rfl rfl rfl).bind <|
      (compPAB4_gives hb6 hsq rfl rfl rfl rfl rfl).bind hrest
  have hb4 := toNat_b4 c.ac4 e14
  have hpu : (compPAQuotient (compPAB7 up (BitVec.ofInt 32 b3) oss)
      ((u16 c.ac4 * BitVec.ofInt 32 e14) >>> 15)).toNat = pu := by
    rw [toNat_compPAQuotient, toNat_compPAB7, hb4]
  have hp := (toInt_eq_wrapS32_toNat _).trans (congrArg (fun n : Nat => wrapS32 n) hpu)
  refine ⟨fun hzero => Calc.Ends.startError (l := head) ?_, fun hne => Calc.Gives.start (hhead ?_)⟩
  · rw [← List.append_nil head]
    refine hhead ?_
    rw [compPARest, if_pos (BitVec.eq_of_toNat_eq (y := 0) (hb4.trans hzero))]
    exact ends_throw _
  · rw [compPARest, if_neg fun h => hne (hb4.symm.trans (congrArg BitVec.toNat h)), ← hpu]
    exact (gives_asS32 _).step (compPATail_gives hp rfl rfl rfl rfl rfl rfl)

end Sys2Proof.Machine
end

