-- ==== Sys2Proof/Proofs/BusPrograms.lean ====
section
/-! LAW. The bus accesses of the family-A and family-B commands as one body that makes a list of operations (R87): what
it answers when every transaction goes on, how a Nack under ABORT ends it, and the bodies that are such a list followed
by the rest of the command. -/

namespace Sys2Proof.Machine

/-! ## What a list of operations leaves (R16, R17, R86) -/

/-- The events of a list of operations with the answers as. -/
def opEvents : List BusOp → List BusAnswer → List BusEvent
  | [], _ => []
  | .delay ms :: ops, as => .delay ms :: opEvents ops as
  | .xfer _ _ _ :: _, [] => []
  | .xfer dev w n :: ops, a :: as => .xfer dev w n a :: opEvents ops as

section
variable {ops : List BusOp} {s t : State} {as : List BusAnswer}

theorem runOps_trace (h : runOps ops s = (as, t)) : t.trace = s.trace ++ opEvents ops as := by
  induction ops generalizing s as with
  | nil =>
    obtain ⟨rfl, rfl⟩ := runOps_nil_iff.mp h
    rw [opEvents, List.append_nil]
  | cons op ops ih =>
    cases op with
    | xfer dev w n =>
      obtain ⟨rest, rfl, hrest⟩ := (runOps_xfer_iff dev w n).mp h
      rw [ih hrest, opEvents, List.append_cons, afterXfer_trace]
    | delay ms => rw [ih ((runOps_delay_iff ms).mp h), opEvents, List.append_cons, afterDelay_trace]

theorem runOps_buserrSeen (h : runOps ops s = (as, t)) : t.buserrSeen = (s.buserrSeen || as.any isNack) := by
  induction ops generalizing s as with
  | nil =>
    obtain ⟨rfl, rfl⟩ := runOps_nil_iff.mp h
    rw [List.any_nil, Bool.or_false]
  | cons op ops ih =>
    cases op with
    | xfer dev w n =>
      obtain ⟨rest, rfl, hrest⟩ := (runOps_xfer_iff dev w n).mp h
      rw [ih hrest, List.any_cons, ← Bool.or_assoc, afterXfer_buserrSeen]
    | delay ms => rw [ih ((runOps_delay_iff ms).mp h), afterDelay_buserrSeen]

theorem runOps_length (h : runOps ops s = (as, t)) : as.length = transactionCount ops := by
  induction ops generalizing s as with
  | nil =>
    obtain ⟨rfl, rfl⟩ := runOps_nil_iff.mp h
    rfl
  | cons op ops ih =>
    cases op with
    | xfer dev w n =>
      obtain ⟨rest, rfl, hrest⟩ := (runOps_xfer_iff dev w n).mp h
      exact congrArg Nat.succ (ih hrest) |>.trans (List.countP_cons_of_pos rfl).symm
    | delay ms =>
      exact (ih ((runOps_delay_iff ms).mp h)).trans (List.countP_cons_of_neg Bool.false_ne_true).symm

theorem runOps_ovf (h : runOps ops s = (as, t)) : t.ovf = s.ovf :=
  runOps_keeps State.ovf (fun _ _ _ _ => rfl) (fun _ _ => rfl) h

theorem runOps_calA (h : runOps ops s = (as, t)) : t.calA = s.calA :=
  runOps_keeps State.calA (fun _ _ _ _ => rfl) (fun _ _ => rfl) h

theorem runOps_calB (h : runOps ops s = (as, t)) : t.calB = s.calB :=
  runOps_keeps State.calB (fun _ _ _ _ => rfl) (fun _ _ => rfl) h

theorem runOps_b5 (h : runOps ops s = (as, t)) : t.b5 = s.b5 :=
  runOps_keeps State.b5 (fun _ _ _ _ => rfl) (fun _ _ => rfl) h

theorem runOps_ossCode (h : runOps ops s = (as, t)) : t.ossCode = s.ossCode :=
  runOps_keeps State.ossCode (fun _ _ _ _ => rfl) (fun _ _ => rfl) h

/-- One sequence after another, each with its answers. -/
theorem runOps_append_iff (post : List BusOp) : runOps (ops ++ post) s = (as, t) ↔
    ∃ bs cs u, as = bs ++ cs ∧ runOps ops s = (bs, u) ∧ runOps post u = (cs, t) := by
  rw [runOps_append, Prod.mk.injEq]
  constructor
  · rintro ⟨rfl, rfl⟩
    exact ⟨_, _, _, rfl, rfl, rfl⟩
  · rintro ⟨bs, cs, u, rfl, hpre, hpost⟩
    rw [hpre, hpost]
    exact ⟨rfl, rfl⟩

/-- The bus does not look at OVF. -/
theorem runOps_noteOvf (o : Bool) (h : runOps ops s = (as, t)) : runOps ops (noteOvf o s) = (as, noteOvf o t) := by
  induction ops generalizing s as with
  | nil =>
    obtain ⟨rfl, rfl⟩ := runOps_nil_iff.mp h
    rfl
  | cons op ops ih =>
    cases op with
    | xfer dev w n =>
      obtain ⟨rest, rfl, hrest⟩ := (runOps_xfer_iff dev w n).mp h
      exact (runOps_xfer_iff dev w n).mpr ⟨rest, rfl, ih hrest⟩
    | delay ms => exact ih ((runOps_delay_iff ms).mp h)

end

/-! ## One transaction of RdAB or WrAB (R164, R165) -/

/-- What an answer means to the command: it goes on, or ends with BusNack and the writes given. -/
def heed (p : Params) (onNack : List RegWrite) (a : BusAnswer) : Body BusAnswer :=
  match a with
  | .ack _ => pure a
  | .nack c _ =>
    match p.abBusPolicy with
    | .abort => raise .busNack (some c) onNack
    | .ignore => pure a

/-- The transaction that RdAB and WrAB make; it answers the bus's answer. -/
def askAB (dev : Dev) (w : List Byte) (n : Nat) (onNack : List RegWrite) : Body BusAnswer := do
  let p ← regOf State.params
  let a ← xfer dev w n
  heed p onNack a

theorem raise_bind_eq {α β : Type} (e : ErrorKind) (info : Option Word) (ws : List RegWrite) (g : α → Body β) :
    (raise e info ws : Body α) >>= g = raise e info ws := by
  simp only [raise, body_bind_assoc]
  rfl

/-- RdAB answers the bytes of the bus's answer. -/
theorem rdAB_eq (reg : Byte) (n : Nat) (ws : List RegWrite) :
    rdAB reg n ws = askAB pressAddr [reg] n ws >>= fun a => pure (answerBytes a) := by
  simp only [rdAB, askAB, body_bind_assoc]
  refine congrArg (regOf State.params >>= ·) (funext fun p => congrArg (xfer _ _ _ >>= ·) (funext fun a => ?_))
  cases a with
  | ack b => rfl
  | nack c b =>
    cases hp : p.abBusPolicy with
    | abort => simp only [heed, hp, raise_bind_eq]
    | ignore => simp only [heed, hp]; rfl

/-- WrAB answers nothing. -/
theorem wrAB_eq (reg v : Byte) (ws : List RegWrite) :
    wrAB reg v ws = askAB pressAddr [reg, v] 0 ws >>= fun _ => pure () := by
  simp only [wrAB, askAB, body_bind_assoc]
  refine congrArg (regOf State.params >>= ·) (funext fun p => congrArg (xfer _ _ _ >>= ·) (funext fun a => ?_))
  cases a with
  | ack b => rfl
  | nack c b =>
    cases hp : p.abBusPolicy with
    | abort => simp only [heed, hp, raise_bind_eq]
    | ignore => simp only [heed, hp]; rfl

theorem rdByte_eq (reg : Byte) : rdByte reg = askAB pressAddr [reg] 1 [] >>= fun a => pure (answerByte a 0) := by
  simp only [rdByte, rdAB_eq, body_bind_assoc]
  rfl

section
variable {β : Type} {i : Instr} {r : Running} {t : State} {dev : Dev} {w : List Byte} {n : Nat}
  {ws : List RegWrite} {g : BusAnswer → Body β}

theorem heed_of_goesOn {p : Params} {a : BusAnswer} (h : goesOn p a = true) : heed p ws a = pure a := by
  cases a with
  | ack b => rfl
  | nack c b =>
    have hp : p.abBusPolicy = .ignore := by simpa [isNack] using goesOn_cases h
    simp only [heed, hp]

theorem askAB_bind_of_goesOn (hq : t.hostQuiet = true) (h : goesOn t.params (busAnswer dev w n t) = true) :
    (askAB dev w n ws >>= g) (running i r t) =
      g (busAnswer dev w n t) (running i { r with step := r.step + 1 } (afterXfer dev w n t)) := by
  simp only [askAB, body_bind_assoc, regOf_bind, running_params, xfer_bind hq, heed_of_goesOn h]
  rfl

theorem askAB_bind_of_nack (hq : t.hostQuiet = true) {c : Word} {b : List Byte}
    (ha : busAnswer dev w n t = .nack c b) (hp : t.params.abBusPolicy = .abort) :
    (askAB dev w n ws >>= g) (running i r t) =
      .error () (completed i r.fr (some .busNack) (some c) ws (afterXfer dev w n t)) := by
  simp only [askAB, body_bind_assoc, regOf_bind, running_params, xfer_bind hq, ha, heed, hp]
  exact raise_bind (t := afterXfer dev w n t) hq ..

end

/-! ## A list of operations -/

/-- The operations one after the other; it answers the bus's answers. -/
def opsBody (onNack : List RegWrite) : List BusOp → Body (List BusAnswer)
  | [] => pure []
  | .xfer dev w n :: ops => do
    let a ← askAB dev w n onNack
    let as ← opsBody onNack ops
    pure (a :: as)
  | .delay ms :: ops => do
    delay ms
    opsBody onNack ops

section
variable {β : Type} {ws : List RegWrite} {ops : List BusOp} {g : List BusAnswer → Body β}

theorem opsBody_nil_bind : opsBody ws [] >>= g = g [] := rfl

theorem opsBody_xfer_bind (dev : Dev) (w : List Byte) (n : Nat) : opsBody ws (.xfer dev w n :: ops) >>= g =
    askAB dev w n ws >>= fun a => opsBody ws ops >>= fun as => g (a :: as) := by
  simp only [opsBody, body_bind_assoc]
  rfl

theorem opsBody_delay_bind (ms : Nat) :
    opsBody ws (.delay ms :: ops) >>= g = delay ms >>= fun _ => opsBody ws ops >>= g := by
  simp only [opsBody, body_bind_assoc]

theorem opsBody_append_bind (pre post : List BusOp) : opsBody ws (pre ++ post) >>= g =
    opsBody ws pre >>= fun as => opsBody ws post >>= fun bs => g (as ++ bs) := by
  induction pre generalizing g with
  | nil => rfl
  | cons op pre ih =>
    cases op with
    | xfer dev w n => simp only [List.cons_append, opsBody_xfer_bind, ih]
    | delay ms => simp only [List.cons_append, opsBody_delay_bind, ih]

variable {i : Instr} {r : Running} {t u : State} {as : List BusAnswer}

/-- Every transaction goes on. -/
theorem opsBody_bind_of_goesOn (hq : t.hostQuiet = true) (h : runOps ops t = (as, u))
    (hgo : ∀ a ∈ as, goesOn t.params a = true) :
    (opsBody ws ops >>= g) (running i r t) = g as (running i { r with step := r.step + ops.length } u) := by
  induction ops generalizing t as r g with
  | nil =>
    obtain ⟨rfl, rfl⟩ := runOps_nil_iff.mp h
    rfl
  | cons op ops ih =>
    have hstep : r.step + 1 + ops.length = r.step + (op :: ops).length := by
      rw [List.length_cons, Nat.add_assoc, Nat.add_comm 1]
    cases op with
    | xfer dev w n =>
      obtain ⟨rest, rfl, hrest⟩ := (runOps_xfer_iff dev w n).mp h
      obtain ⟨hfirst, hgoes⟩ := List.forall_mem_cons.mp hgo
      rw [opsBody_xfer_bind, askAB_bind_of_goesOn hq hfirst, ih (t := afterXfer dev w n t) hq hrest hgoes, ← hstep]
    | delay ms => rw [opsBody_delay_bind, delay_bind hq, ih (t := afterDelay ms t) hq h hgo, ← hstep]

/-- The transactions before one go on, and that one is refused under ABORT: no further one is made. -/
theorem opsBody_bind_of_nack {pre post : List BusOp} {dev : Dev} {w : List Byte} {n : Nat} {c : Word} {b : List Byte}
    (hq : t.hostQuiet = true) (h : runOps pre t = (as, u)) (hgo : ∀ a ∈ as, goesOn t.params a = true)
    (ha : busAnswer dev w n u = .nack c b) (hp : t.params.abBusPolicy = .abort) :
    (opsBody ws (pre ++ .xfer dev w n :: post) >>= g) (running i r t) =
      .error () (completed i r.fr (some .busNack) (some c) ws (afterXfer dev w n u)) := by
  have hqu : u.hostQuiet = true := (runOps_hostQuiet h).trans hq
  rw [opsBody_append_bind, opsBody_bind_of_goesOn hq h hgo, opsBody_xfer_bind,
    askAB_bind_of_nack hqu ha (by rw [runOps_params h, hp])]

end

/-! ## A list of writes staged -/

/-- The writes staged one after the other (R18). -/
def stageAll : List RegWrite → Body Unit
  | [] => pure ()
  | w :: ws => do
    stage w
    stageAll ws

theorem stageAll_bind {β : Type} (ws : List RegWrite) (g : Unit → Body β) (i : Instr) (r : Running) (t : State) :
    (stageAll ws >>= g) (running i r t) = g () (running i { r with staged := r.staged ++ ws } t) := by
  induction ws generalizing r with
  | nil => rw [List.append_nil]; rfl
  | cons w ws ih => rw [stageAll, body_bind_assoc, stage_bind, onSeq_running, ih, ← List.append_cons]

theorem stageAll_run (ws : List RegWrite) (i : Instr) (r : Running) (t : State) :
    stageAll ws (running i r t) = .ok () (running i { r with staged := r.staged ++ ws } t) :=
  (congrFun (bind_pure (stageAll ws)).symm _).trans (stageAll_bind ws pure i r t)

/-! ## The bodies as lists of operations (R87, R230, R235, R236, R280, R281, R282) -/

/-- The coefficient words are the coefficient reads' answers (R84, R230, R280). -/
theorem readCalWords_eq (order : ByteOrder) (base : Byte) (ws : List RegWrite) (is : List Nat) :
    readCalWords order base ws is =
      opsBody ws (is.map fun i => readOp (base + BitVec.ofNat 8 (2 * i)) 2) >>= fun as =>
        pure (as.map fun a => calWord order (answerBytes a)) := by
  induction is with
  | nil => rfl
  | cons i is ih =>
    rw [readCalWords, rdAB_eq, ih]
    simp only [body_bind_assoc, List.map_cons, readOp, opsBody_xfer_bind]
    rfl

/-- The end of a load, with its writes (R230, R280): all staged, then CalibrationFault or the normal end (R234). -/
def loadEnd (words : List Half) (writes : List RegWrite) : Body Unit := do
  stageAll writes
  if calFault words then raiseStaged .calibrationFault none else pure ()

/-- What follows the transactions of a load, by their answers: the identification's, then the coefficients'. -/
def loadTail (order : ByteOrder) (writes : Byte → List Half → List RegWrite) : List BusAnswer → Body Unit
  | [] => pure ()
  | a :: as => do
    let words := as.map fun b => calWord order (answerBytes b)
    loadEnd words (writes (answerByte a 0) words)

theorem calLoadABody_apply (setting : Byte) (s : State) : calLoadABody setting s =
    (opsBody calLoadANack (calLoadAOps s.params) >>= loadTail s.params.calOrderA (calLoadAWrites setting)) s := by
  rw [calLoadABody, regOf_bind]
  simp only [rdAB_eq, readCalWords_eq, body_bind_assoc, calLoadAOps, readOp, opsBody_xfer_bind]
  rfl

theorem calLoadBBody_apply (s : State) : calLoadBBody s =
    (opsBody calLoadBNack (calLoadBOps s.params) >>= loadTail s.params.calOrderB calLoadBWrites) s := by
  rw [calLoadBBody, regOf_bind]
  simp only [rdAB_eq, readCalWords_eq, body_bind_assoc, calLoadBOps, readOp, opsBody_xfer_bind]
  rfl

/-- The end of an acquisition: the code is staged, and answered. -/
def codeTail (write : Word → RegWrite) (code : List BusAnswer → Word) (as : List BusAnswer) : Body Word := do
  stage (write (code as))
  pure (code as)

/-- Byte 0 of answer i of a list of answers. -/
def byteOf (as : List BusAnswer) (i : Nat) : Byte := answerByte (as.getD i (.ack [])) 0

/-- The code of RAWT_A (R235). -/
def codeTA (as : List BusAnswer) : Word := raw16 (byteOf as 1) (byteOf as 2)

/-- The code of RAWP_A (R236). -/
def codePA (oss : BitVec 2) (as : List BusAnswer) : Word :=
  raw24 (byteOf as 1) (byteOf as 2) (byteOf as 3) >>> (8 - oss.toNat)

/-- The code of RAWT_B and of RAWP_B (R281, R282). -/
def codeB (as : List BusAnswer) : Word := raw24 (byteOf as 0) (byteOf as 1) (byteOf as 2) >>> 4

theorem rawtABody_apply (s : State) : rawtABody s = (opsBody [] (rawtAOps s.params) >>= codeTail .rawT codeTA) s := by
  rw [rawtABody, regOf_bind]
  simp only [wrAB_eq, rdByte_eq, body_bind_assoc, rawtAOps, readOp, opsBody_xfer_bind, opsBody_delay_bind,
    opsBody_nil_bind]
  rfl

theorem rawpABody_apply (s : State) :
    rawpABody s = (opsBody [] (rawpAOps s) >>= codeTail .rawP (codePA s.ossCode)) s := by
  rw [rawpABody, regOf_bind, regOf_bind, regOf_bind]
  simp only [wrAB_eq, rdByte_eq, body_bind_assoc, rawpAOps, readOp, opsBody_xfer_bind, opsBody_delay_bind,
    opsBody_nil_bind]
  rfl

theorem rawpBBody_apply (s : State) : rawpBBody s = (opsBody [] (rawpBOps s.params) >>= codeTail .rawP codeB) s := by
  rw [rawpBBody, regOf_bind]
  simp only [rdByte_eq, body_bind_assoc, rawpBOps, readOp, opsBody_xfer_bind, opsBody_nil_bind]
  rfl

/-- RAWT_B after its polls (R281). -/
def rawtBData : Body Word := do
  let p ← regOf State.params
  let m ← rdByte p.regTempB
  let l ← rdByte (p.regTempB + 1)
  let x ← rdByte (p.regTempB + 2)
  stage (.rawT (raw24 m l x >>> 4))
  pure (raw24 m l x >>> 4)

theorem rawtBData_apply (s : State) :
    rawtBData s = (opsBody [] (rawtBDataOps s.params) >>= codeTail .rawT codeB) s := by
  rw [rawtBData, regOf_bind]
  simp only [rdByte_eq, body_bind_assoc, rawtBDataOps, readOp, opsBody_xfer_bind, opsBody_nil_bind]
  rfl

theorem rawtBStart_apply (s : State) :
    rawtBStart s = (opsBody [] [rawtBControlOp s.params] >>= fun _ => pure ()) s := by
  rw [rawtBStart, regOf_bind]
  simp only [wrAB_eq, rawtBControlOp, opsBody_xfer_bind, opsBody_nil_bind]

end Sys2Proof.Machine
end

