-- ==== Sys2Proof/Proofs/CommandPrograms.lean ====
section
/-! LAW. The commands that begin with a list of bus operations (R87): how each is such a list followed by the rest of
its body, and how it goes on when every transaction does, or ends with a Nack under ABORT (R164, R361). -/

namespace Sys2Proof.Machine

/-! ## Running a body from a running state -/

theorem runBody_congr {b b' : Body Unit} {s s' : State} (h : b s = b' s') : runBody b s = runBody b' s' := by
  simp only [runBody, bind, EStateM.bind, h]

section
variable {α : Type} {i : Instr} {r : Running} {t : State}

theorem body_bind_congr {β : Type} {x y : Body α} {s : State} (h : x s = y s) (g : α → Body β) :
    (x >>= g) s = (y >>= g) s := by
  simp only [bind, EStateM.bind, h]

/-- A body with nothing left to do is committed (R125). -/
theorem runBody_pure (hq : t.hostQuiet = true) :
    runBody (pure ()) (running i r t) = completed i r.fr none none r.staged t := runBody_running_of_ok rfl hq

/-- An acquisition's code is staged before the rest of the body. -/
theorem runBody_codeTail (write : Word → RegWrite) (code : List BusAnswer → Word) (as : List BusAnswer)
    (g : Word → Body Unit) : runBody (codeTail write code as >>= g) (running i r t) =
      runBody (g (code as)) (running i { r with staged := r.staged ++ [write (code as)] } t) := runBody_congr rfl

/-- A load's end commits everything, with CalibrationFault if a coefficient shows the fault pattern (R234). -/
theorem runBody_loadEnd (hq : t.hostQuiet = true) (words : List Half) (writes : List RegWrite) :
    runBody (loadEnd words writes) (running i r t) =
      completed i r.fr (if calFault words then some .calibrationFault else none) none (r.staged ++ writes) t := by
  have hstaged := runBody_congr (stageAll_bind writes
    (fun _ => if calFault words then raiseStaged .calibrationFault none else pure ()) i r t)
  rw [loadEnd, hstaged]
  cases calFault words with
  | true => exact runBody_of_error (raiseStaged_running hq _ _)
  | false => exact runBody_pure hq

end

/-! ## A commit after a computation -/

theorem applyWrites_noteOvf (o : Bool) (ws : List RegWrite) (t : State) :
    applyWrites ws (noteOvf o t) = noteOvf o (applyWrites ws t) := by
  induction ws generalizing t with
  | nil => rfl
  | cons w ws ih =>
    rw [applyWrites_cons, applyWrites_cons, ← ih]
    cases w <;> rfl

/-- A commit after a computation: OVF gains its overflow (R10, R125). -/
theorem completed_noteOvf {i : Instr} {fr : FrState} {t : State} (hfr : fr = .idle) (ht : t.seq = none)
    (e : Option ErrorKind) (info : Option Word) (ws : List RegWrite) (o : Bool) :
    completed i fr e info ws (noteOvf o t) = { applyWrites ws t with
      cmd := encode i, done := true, err := e, buscode := info.getD 0, ovf := t.ovf || o } := by
  rw [hfr, completed_idle (t := noteOvf o t) ht, applyWrites_noteOvf, noteOvf, applyWrites_ovf]

/-! ## The test of B5_VALID (R246, R360) -/

section
variable {β : Type} {i : Instr} {r : Running} {t : State} {g : Unit → Body β}

theorem needB5_bind_of_valid (h : t.b5Valid = true) : (needB5 >>= g) (running i r t) = g () (running i r t) := by
  rw [needB5, body_bind_assoc, regOf_bind, running_b5Valid, h]
  rfl

theorem needB5_bind_of_invalid (hq : t.hostQuiet = true) (h : t.b5Valid = false) :
    (needB5 >>= g) (running i r t) = .error () (completed i r.fr (some .noTemperature) none [] t) := by
  rw [needB5, body_bind_assoc, regOf_bind, running_b5Valid, h]
  exact raise_bind hq ..

end

/-! ## Commands that begin with a list of operations -/

/-- The command i launched at s makes the operations ops, a refused one committing onNack, and goes on with rest by
their answers. -/
def StartsWith (i : Instr) (s : State) (onNack : List RegWrite) (ops : List BusOp)
    (rest : List BusAnswer → Body Unit) : Prop :=
  exec i s = .next (runBody (opsBody onNack ops >>= rest) (running i (started i) s))

section
variable {i : Instr} {s t : State} {ws : List RegWrite} {ops : List BusOp} {rest : List BusAnswer → Body Unit}
  {as : List BusAnswer}

theorem StartsWith.run (h : StartsWith i s ws ops rest) (hs : s.ready = true) (hrun : runOps ops s = (as, t))
    (hgo : ∀ a ∈ as, goesOn s.params a = true) :
    exec i s = .next (runBody (rest as) (running i { started i with step := 0 + ops.length } t)) :=
  h.trans (congrArg _ (runBody_congr (opsBody_bind_of_goesOn (hostQuiet_of_ready hs) hrun hgo)))

theorem StartsWith.refused (h : StartsWith i s ws ops rest) (hs : s.ready = true) (hp : s.params.abBusPolicy = .abort)
    {pre post : List BusOp} {dev : Dev} {w : List Byte} {n : Nat} {c : Word} {b : List Byte}
    (hops : ops = pre ++ .xfer dev w n :: post) (hrun : runOps pre s = (as, t))
    (hgo : ∀ a ∈ as, goesOn s.params a = true) (ha : busAnswer dev w n t = .nack c b) :
    exec i s = .next { applyWrites ws (afterXfer dev w n t) with
      cmd := encode i, done := true, err := some .busNack, buscode := c } := by
  have hseq : (afterXfer dev w n t).seq = none := (runOps_seq hrun).trans (seq_of_ready hs)
  have hbody := opsBody_bind_of_nack (ws := ws) (g := rest) (r := started i) (i := i) (post := post)
    (hostQuiet_of_ready hs) hrun hgo ha hp
  rw [← hops] at hbody
  rw [h, runBody_of_error hbody]
  exact congrArg _ (completed_idle hseq i _ (some c) ws)

/-- A launch whose body is, from the accepted state, the operations and the rest. -/
theorem startsWith_of_body {b : Body Unit} (hs : s.seq = none) (hexec : exec i s = launch i (runBody b) s)
    (hb : b (running i (started i) s) = (opsBody ws ops >>= rest) (running i (started i) s)) :
    StartsWith i s ws ops rest := by
  rw [StartsWith, hexec, launch_of_idle hs, accept_eq_running, runBody_congr hb]

/-- A launch of an acquisition whose code the rest of the body takes. -/
theorem startsWith_of_acquisition {x : Body Word} {g : Word → Body Unit} {tail : List BusAnswer → Body Word}
    (hs : s.seq = none) (hexec : exec i s = launch i (runBody (x >>= g)) s)
    (hx : x (running i (started i) s) = (opsBody ws ops >>= tail) (running i (started i) s)) :
    StartsWith i s ws ops fun as => tail as >>= g :=
  startsWith_of_body hs hexec (by rw [body_bind_congr hx, body_bind_assoc])

theorem calLoadA_startsWith (setting : Byte) (hs : s.seq = none) :
    StartsWith (.calLoadA setting) s calLoadANack (calLoadAOps s.params)
      (loadTail s.params.calOrderA (calLoadAWrites setting)) :=
  startsWith_of_body hs rfl (calLoadABody_apply setting _)

theorem calLoadB_startsWith (hs : s.seq = none) :
    StartsWith .calLoadB s calLoadBNack (calLoadBOps s.params) (loadTail s.params.calOrderB calLoadBWrites) :=
  startsWith_of_body hs rfl (calLoadBBody_apply _)

theorem rawtA_startsWith (hs : s.seq = none) :
    StartsWith .rawtA s [] (rawtAOps s.params) fun as => codeTail .rawT codeTA as >>= fun _ => pure () :=
  startsWith_of_acquisition hs rfl (rawtABody_apply _)

theorem tempA_startsWith (hs : s.seq = none) :
    StartsWith .tempA s [] (rawtAOps s.params) fun as =>
      codeTail .rawT codeTA as >>= fun raw => comptABody raw [.rawT raw] :=
  startsWith_of_acquisition hs rfl (rawtABody_apply _)

theorem rawpA_startsWith (hs : s.seq = none) :
    StartsWith .rawpA s [] (rawpAOps s) fun as => codeTail .rawP (codePA s.ossCode) as >>= fun _ => pure () :=
  startsWith_of_acquisition hs rfl (rawpABody_apply _)

theorem rawpB_startsWith (hs : s.seq = none) :
    StartsWith .rawpB s [] (rawpBOps s.params) fun as => codeTail .rawP codeB as >>= fun _ => pure () :=
  startsWith_of_acquisition hs rfl (rawpBBody_apply _)

/-- With B5 valid the test passes, and PRES_A begins with its acquisition (R243). -/
theorem presA_startsWith (hs : s.seq = none) (hv : s.b5Valid = true) :
    StartsWith .presA s [] (rawpAOps s) fun as =>
      codeTail .rawP (codePA s.ossCode) as >>= fun raw => comppABody raw [.rawP raw] := by
  refine startsWith_of_body hs rfl ?_
  rw [needB5_bind_of_valid hv, body_bind_congr (rawpABody_apply _), body_bind_assoc]
  rfl

end

end Sys2Proof.Machine
end

