-- ==== Sys2Proof/Proofs/CalibrationLoad.lean ====
section
/-! LAW. The calibration loads: CAL_LOAD_A with every transaction going on (R230), and both loads ended by a Nack under
ABORT (R361). -/

namespace Sys2Proof.Machine

theorem applyWrites_calLoadAWrites (setting id : Byte) (words : List Half) (t : State) :
    applyWrites (calLoadAWrites setting id words) t = { t with
      id := id, result := 0#24 ++ id, family := classify id, calA := CalA.ofWords words, ossCode := ossCodeOf setting
      waitPMs := waitA (ossCodeOf setting), calValidA := !calFault words, calFaultA := calFault words
      b5Valid := false } := by
  simp only [calLoadAWrites, applyWrites_cons, applyWrites_nil, applyWrite, ossWaitOf, byte_eq_append]

/-- Settles O24: the answers' words are what the load stages, and both of its ends commit them. -/
theorem calLoadAReplacesTheStore : Obligations.CalLoadAReplacesTheStore := by
  intro s t setting a0 as hs hrun hgo words fault
  have hlen : as.length = 11 := Nat.succ.inj (runOps_length hrun)
  have hwords : words.length = 11 := (List.length_map _).trans hlen
  refine ⟨⟨calA_words_ofWords hwords, hwords, fun i a hi => ?_⟩, ?_⟩
  · rw [List.getElem?_map, hi, Option.map_some, calWord_eq]
    rfl
  · have hseq : t.seq = none := (runOps_seq hrun).trans (seq_of_ready hs)
    have hq : t.hostQuiet = true := (runOps_hostQuiet hrun).trans (hostQuiet_of_ready hs)
    rw [(calLoadA_startsWith setting (seq_of_ready hs)).run hs hrun hgo, loadTail, runBody_loadEnd hq]
    have hend := completed_idle hseq (.calLoadA setting) (if fault then some .calibrationFault else none) none
      (calLoadAWrites setting (answerByte a0 0) words)
    rw [applyWrites_calLoadAWrites] at hend
    exact congrArg _ hend

/-- Settles O26: a refused transaction of a load's list commits the two VALID bits of its family. -/
theorem nackInALoadClearsOnlyValidBits : Obligations.NackInALoadClearsOnlyValidBits := by
  intro s t setting pre reg n post as c b hs hp hrun hgo ha
  have hseq := seq_of_ready hs
  have hcmd : encode .calLoadB = 0x30000000 := by decide
  refine ⟨fun hops => (calLoadA_startsWith setting hseq).refused hs hp hops hrun hgo ha, fun hops => ?_⟩
  rw [← hcmd]
  exact (calLoadB_startsWith hseq).refused hs hp hops hrun hgo ha

end Sys2Proof.Machine
end

