-- ==== Sys2Proof/Proofs/Acquisition.lean ====
section
/-! LAW. The raw acquisitions with a fixed bus program: RAWT_A (R235), RAWP_A (R236), RAWP_B (R282). -/

namespace Sys2Proof.Machine

theorem cmdPresA_eq_getD (p : Params) (oss : BitVec 2) :
    cmdPresA p oss = [p.cmdPresA0, p.cmdPresA1, p.cmdPresA2, p.cmdPresA3].getD oss.toNat 0 := by
  obtain rfl | rfl | rfl | rfl := ossCode_cases oss <;> rfl

/-- A command that only stages the code it acquired. -/
theorem acquisition_commits {i : Instr} {s t : State} {ops : List BusOp} {write : Word → RegWrite}
    {code : List BusAnswer → Word} {as : List BusAnswer} (hs : s.ready = true)
    (hstart : StartsWith i s [] ops fun as => codeTail write code as >>= fun _ => pure ())
    (hrun : runOps ops s = (as, t)) (hgo : ∀ a ∈ as, goesOn s.params a = true) :
    exec i s = .next { applyWrite t (write (code as)) with
      cmd := encode i, done := true, err := none, buscode := 0 } := by
  have hseq : t.seq = none := (runOps_seq hrun).trans (seq_of_ready hs)
  have hq : t.hostQuiet = true := (runOps_hostQuiet hrun).trans (hostQuiet_of_ready hs)
  rw [hstart.run hs hrun hgo, runBody_codeTail, runBody_pure hq]
  exact congrArg _ (completed_idle hseq i none none [write (code as)])

/-- Settles O27: each command stages its code, and its events are those of its list. -/
theorem acquisitionsStoreTheirCodes : Obligations.AcquisitionsStoreTheirCodes := by
  intro s t a0 a1 a2 a3 hs hgo
  have hseq := seq_of_ready hs
  have hgo3 : ∀ a ∈ [a0, a1, a2], goesOn s.params a = true := fun a ha => hgo a (List.mem_append_left [a3] ha)
  have hnacks : ∀ a b c : BusAnswer, (s.buserrSeen || [a, b, c].any isNack) =
      (s.buserrSeen || isNack a || isNack b || isNack c) := by simp [Bool.or_assoc]
  refine ⟨fun hrun => ⟨?_, runOps_trace hrun, (runOps_buserrSeen hrun).trans (hnacks ..)⟩,
    fun hrun => ⟨?_, ?_, ?_⟩, fun hrun => ⟨?_, runOps_trace hrun, (runOps_buserrSeen hrun).trans (hnacks ..)⟩⟩
  · have hcmd : encode .rawtA = 0x21000000 := by decide
    rw [acquisition_commits hs (rawtA_startsWith hseq) hrun hgo3, hcmd, ← raw16_eq_append]
    rfl
  · have hcmd : encode .rawpA = 0x22000000 := by decide
    rw [acquisition_commits hs (rawpA_startsWith hseq) hrun hgo, hcmd, ← raw24_eq_append]
    rfl
  · rw [runOps_trace hrun, ← cmdPresA_eq_getD]
    rfl
  · rw [runOps_buserrSeen hrun]
    simp [Bool.or_assoc]
  · have hcmd : encode .rawpB = 0x32000000 := by decide
    rw [acquisition_commits hs (rawpB_startsWith hseq) hrun hgo3, hcmd, ← raw24_eq_append]
    rfl

end Sys2Proof.Machine
end

