-- ==== Sys2Proof/Proofs/CompensationCommandsA.lean ====
section
/-! LAW. The compensating commands of family A: COMPT_A (R238), COMPP_A (R240), TEMP_A (R242), PRES_A (R243). -/

namespace Sys2Proof.Machine

/-! ## What the computations raise (R244) -/

/-- A computation that either raises k or answers raises nothing else. -/
theorem error_eq_of_outcomes {α : Type} {x : Calc α} {a : α} {k e : ErrorKind} {o : List Bool} {P Q : List Bool → Prop}
    (h : (∃ o, x [] = .error k o ∧ P o) ∨ ∃ o, x [] = .ok a o ∧ Q o) (he : x [] = .error e o) : e = k := by
  obtain ⟨o', ho, -⟩ | ⟨o', ho, -⟩ := h
  · rw [ho] at he
    cases he
    rfl
  · rw [ho] at he
    cases he

theorem compTAOf_error {rnd : Rounding} {c : CalA} {raw : Word} {e : ErrorKind} {o : List Bool}
    (h : compTAOf rnd c raw [] = .error e o) : e = .divideByZero := by
  obtain ⟨hzero, hne, -⟩ := compTAIsTheStatedFormula rnd c raw
  exact error_eq_of_outcomes ((Classical.em _).imp hzero hne) h

theorem compPA_error {rnd : Rounding} {c : CalA} {up b5 : Word} {oss : BitVec 2} {e : ErrorKind} {o : List Bool}
    (h : compPA rnd c up b5 oss [] = .error e o) : e = .divideByZero := by
  obtain ⟨hzero, hne⟩ := compPAIsTheStatedFormula rnd c up b5 oss
  exact error_eq_of_outcomes ((Classical.em _).imp hzero hne) h

/-! ## The compensation parts (R238, R240) -/

section
variable {i : Instr} {r : Running} {t : State} {raw : Word} {ws : List RegWrite} {o : List Bool}

/-- The compensation of a temperature commits what was staged and its three writes. -/
theorem runBody_comptABody_of_ok (hq : t.hostQuiet = true) (hfr : r.fr = .idle) (ht : t.seq = none) {b5 v : Word}
    (hc : compTAOf t.params.divPow2 t.calA raw [] = .ok (b5, v) o) :
    runBody (comptABody raw ws) (running i r t) = { applyWrites r.staged t with
      cmd := encode i, done := true, err := none, buscode := 0, ovf := t.ovf || overflowed o
      b5 := b5, b5Valid := true, valT1 := v } := by
  have hcompute : comptABody raw ws (running i r t) = stageAll [.b5 b5, .b5Valid true, .valT1 v]
      (running i { r with step := r.step + 1 } (noteOvf (overflowed o) t)) := compute_bind_of_ok hq ws hc _
  rw [runBody_running_of_ok (hcompute.trans (stageAll_run ..)) hq, completed_noteOvf hfr ht, applyWrites_append]
  simp only [applyWrites_cons, applyWrites_nil, applyWrite, Option.getD_none]

theorem runBody_comptABody_of_error (hq : t.hostQuiet = true) (hfr : r.fr = .idle) (ht : t.seq = none) {e : ErrorKind}
    (hc : compTAOf t.params.divPow2 t.calA raw [] = .error e o) :
    runBody (comptABody raw ws) (running i r t) = { applyWrites ws t with
      cmd := encode i, done := true, err := some .divideByZero, buscode := 0, ovf := t.ovf || overflowed o } := by
  have hrun : comptABody raw ws (running i r t) = _ := compute_bind_of_error (i := i) (r := r) hq ws hc _
  rw [runBody_of_error hrun, compTAOf_error hc, completed_noteOvf hfr ht]
  rfl

/-- The compensation of a pressure commits what was staged and its one write. -/
theorem runBody_comppABody_of_ok (hq : t.hostQuiet = true) (hfr : r.fr = .idle) (ht : t.seq = none) {p : Word}
    (hc : compPA t.params.divPow2 t.calA raw t.b5 t.ossCode [] = .ok p o) :
    runBody (comppABody raw ws) (running i r t) = { applyWrites r.staged t with
      cmd := encode i, done := true, err := none, buscode := 0, ovf := t.ovf || overflowed o, valP := p } := by
  have hcompute : comppABody raw ws (running i r t) = stageAll [.valP p]
      (running i { r with step := r.step + 1 } (noteOvf (overflowed o) t)) := compute_bind_of_ok hq ws hc _
  rw [runBody_running_of_ok (hcompute.trans (stageAll_run ..)) hq, completed_noteOvf hfr ht, applyWrites_append]
  rfl

theorem runBody_comppABody_of_error (hq : t.hostQuiet = true) (hfr : r.fr = .idle) (ht : t.seq = none) {e : ErrorKind}
    (hc : compPA t.params.divPow2 t.calA raw t.b5 t.ossCode [] = .error e o) :
    runBody (comppABody raw ws) (running i r t) = { applyWrites ws t with
      cmd := encode i, done := true, err := some .divideByZero, buscode := 0, ovf := t.ovf || overflowed o } := by
  have hrun : comppABody raw ws (running i r t) = _ := compute_bind_of_error (i := i) (r := r) hq ws hc _
  rw [runBody_of_error hrun, compPA_error hc, completed_noteOvf hfr ht]
  rfl

end

/-! ## COMPT_A and COMPP_A (R238, R240) -/

/-- An idle block's launch runs the body from the accepted state. -/
theorem launch_eq_runBody {i : Instr} {b b' : Body Unit} {s : State} (hs : s.seq = none)
    (hb : b (running i (started i) s) = b' (running i (started i) s)) :
    launch i (runBody b) s = .next (runBody b' (running i (started i) s)) := by
  rw [launch_of_idle hs, accept_eq_running, runBody_congr hb]

/-- Settles O39: COMPT_A is the compensation of RAW_T with nothing staged before. -/
theorem comptACommitsTheTemperature : Obligations.ComptACommitsTheTemperature := by
  intro s hs
  have hseq := seq_of_ready hs
  have hq := hostQuiet_of_ready hs
  have hcmd : encode .comptA = 0x23000000 := by decide
  have hexec : exec .comptA s = .next (runBody (comptABody s.rawT []) (running .comptA (started .comptA) s)) :=
    launch_eq_runBody hseq rfl
  rw [← hcmd, hexec]
  refine ⟨fun b5 t o hc => ?_, fun e o hc => ?_⟩
  · rw [runBody_comptABody_of_ok hq rfl hseq hc]
    rfl
  · rw [runBody_comptABody_of_error hq rfl hseq hc, applyWrites_nil]

/-- With B5 not valid, a command that tests it first ends with NoTemperature and nothing else (R246, R360). -/
theorem launch_needB5_of_invalid {i : Instr} {s : State} {g : Unit → Body Unit} (hs : s.ready = true)
    (hv : s.b5Valid = false) : launch i (runBody (needB5 >>= g)) s =
      .next { s with cmd := encode i, done := true, err := some .noTemperature, buscode := 0 } := by
  have hseq := seq_of_ready hs
  rw [launch_of_error (needB5_bind_of_invalid (hostQuiet_of_ready hs) hv) hseq]
  exact congrArg _ (completed_idle hseq i (some .noTemperature) none [])

/-- Settles O40: after the test COMPP_A is the compensation of RAW_P with nothing staged before. -/
theorem comppACommitsThePressure : Obligations.ComppACommitsThePressure := by
  intro s hs
  have hseq := seq_of_ready hs
  have hq := hostQuiet_of_ready hs
  have hcmd : encode .comppA = 0x24000000 := by decide
  rw [← hcmd]
  refine ⟨fun hv => launch_needB5_of_invalid hs hv, fun hv => ?_⟩
  have hexec : exec .comppA s = .next (runBody (comppABody s.rawP []) (running .comppA (started .comppA) s)) :=
    launch_eq_runBody hseq (needB5_bind_of_valid hv)
  rw [hexec]
  refine ⟨fun p o hc => ?_, fun e o hc => ?_⟩
  · rw [runBody_comppABody_of_ok hq rfl hseq hc]
    rfl
  · rw [runBody_comppABody_of_error hq rfl hseq hc, applyWrites_nil]

/-! ## TEMP_A and PRES_A (R242, R243) -/

/-- Settles O41: TEMP_A is the compensation of the code it staged. -/
theorem tempAAcquiresThenCompensates : Obligations.TempAAcquiresThenCompensates := by
  intro s t a0 a1 a2 hs hrun hgo raw
  have hseq : t.seq = none := (runOps_seq hrun).trans (seq_of_ready hs)
  have hq : t.hostQuiet = true := (runOps_hostQuiet hrun).trans (hostQuiet_of_ready hs)
  have hcmd : encode .tempA = 0x25000000 := by decide
  have hcode : codeTA [a0, a1, a2] = raw := raw16_eq_append _ _
  rw [← hcmd, (tempA_startsWith (seq_of_ready hs)).run hs hrun hgo, runBody_codeTail, hcode, ← runOps_params hrun,
    ← runOps_calA hrun, ← runOps_ovf hrun]
  refine ⟨fun b5 v o hc => ?_, fun e o hc => ?_⟩
  · rw [runBody_comptABody_of_ok hq rfl hseq hc]
    rfl
  · rw [runBody_comptABody_of_error hq rfl hseq hc]
    rfl

/-- Settles O42: after the test PRES_A is the compensation of the code it staged. -/
theorem presAAcquiresThenCompensates : Obligations.PresAAcquiresThenCompensates := by
  intro s hs
  have hcmd : encode .presA = 0x26000000 := by decide
  rw [← hcmd]
  refine ⟨fun hv => launch_needB5_of_invalid hs hv, ?_⟩
  intro t a0 a1 a2 a3 hv hrun hgo raw
  have hseq : t.seq = none := (runOps_seq hrun).trans (seq_of_ready hs)
  have hq : t.hostQuiet = true := (runOps_hostQuiet hrun).trans (hostQuiet_of_ready hs)
  have hcode : codePA s.ossCode [a0, a1, a2, a3] = raw := by
    rw [codePA, raw24_eq_append]
    rfl
  rw [(presA_startsWith (seq_of_ready hs) hv).run hs hrun hgo, runBody_codeTail, hcode, ← runOps_params hrun,
    ← runOps_calA hrun, ← runOps_b5 hrun, ← runOps_ossCode hrun, ← runOps_ovf hrun]
  refine ⟨fun p o hc => ?_, fun e o hc => ?_⟩
  · rw [runBody_comppABody_of_ok hq rfl hseq hc]
    rfl
  · rw [runBody_comppABody_of_error hq rfl hseq hc]
    rfl

end Sys2Proof.Machine
end

