-- ==== Sys2Proof/Proofs/PollingRuns.lean ====
section
/-! LAW. The polling commands over the steps they take (R281, R358): one poll by its answer, any number of polls that
find the measuring bit set, in however many steps (log 6), and what follows a poll that ends the loop. -/

namespace Sys2Proof.Machine

/-! ## The bodies around the poll loop -/

/-- What a polling command does with the temperature code (R281, R287, R288). -/
def afterCode : Instr → Word → Body Unit
  | .tempB, raw => do
    let _ ← comptBBody raw
  | .presB, raw => do
    let tf ← comptBBody raw
    let rawP ← rawpBBody
    comppBBody rawP tf
  | _, _ => pure ()

/-- What a polling command does once the measuring bit is clear. -/
def afterPolls (i : Instr) : Body Unit := rawtBData >>= afterCode i

theorem pollRest_eq {i : Instr} {b : Body Unit} (h : pollRest i = some b) :
    b = pollStatus >>= fun _ => afterPolls i := by
  cases i with
  | rawtB => cases h; exact body_bind_assoc ..
  | tempB => cases h; exact body_bind_assoc ..
  | presB => cases h; exact body_bind_assoc ..
  | _ => cases h

theorem pollRest_of_polling {i : Instr} (h : i = .rawtB ∨ i = .tempB ∨ i = .presB) : ∃ b, pollRest i = some b :=
  Option.isSome_iff_exists.mp (pollRest_isSome_iff.mpr h)

theorem polling_startsWith {i : Instr} {b : Body Unit} {s : State} (hb : pollRest i = some b) (hs : s.seq = none) :
    StartsWith i s [] [rawtBControlOp s.params] fun _ => b := by
  have hstart : (rawtBStart >>= fun _ => b) (running i (started i) s) =
      (opsBody [] [rawtBControlOp s.params] >>= fun _ => b) (running i (started i) s) := by
    rw [body_bind_congr (rawtBStart_apply _), body_bind_assoc]
    rfl
  cases i with
  | rawtB => cases hb; exact startsWith_of_body hs rfl hstart
  | tempB => cases hb; exact startsWith_of_body hs rfl hstart
  | presB => cases hb; exact startsWith_of_body hs rfl hstart
  | _ => cases hb

/-! ## One poll -/

/-- The sequencer of the command i at the poll loop's head, after c polls. -/
def headAt (i : Instr) (c : Nat) : Running := ⟨i, pollHead, .idle, [], c⟩

theorem limitReached_of_belowLimit {p : Params} {n : Nat} (h : belowLimit p n = true) :
    limitReached p.pollLimit n = false := by
  unfold belowLimit at h
  unfold limitReached
  cases hl : p.pollLimit with
  | none => rfl
  | some l => simpa [hl] using h

theorem belowLimit_of_le {p : Params} {m n : Nat} (hmn : m ≤ n) (h : belowLimit p n = true) :
    belowLimit p m = true := by
  unfold belowLimit at h ⊢
  cases hl : p.pollLimit with
  | none => rfl
  | some l =>
    simp only [hl, decide_eq_true_eq] at h ⊢
    omega

theorem pollCount_running (i : Instr) (r : Running) (t : State) : (running i r t).pollCount = r.pollCount := rfl

section
variable {β : Type} {i : Instr} {c k : Nat} {t : State} {g : Unit → Body β}

/-- The state after a poll (R281). -/
def afterPoll (t : State) : State := afterXfer 0x77 [t.params.regStatusB] 1 t

theorem pollBusy_iff {p : Params} {a : BusAnswer} :
    pollBusy p a = true ↔ goesOn p a = true ∧ answerByte a 0 &&& p.measMaskB ≠ 0 := by
  simp [pollBusy]

theorem pollClear_iff {p : Params} {a : BusAnswer} :
    pollClear p a = true ↔ goesOn p a = true ∧ answerByte a 0 &&& p.measMaskB = 0 := by
  simp [pollClear]

/-- A poll that finds the bit clear ends the loop. -/
theorem pollLoop_bind_of_clear (hq : t.hostQuiet = true)
    (ha : pollClear t.params (busAnswer 0x77 [t.params.regStatusB] 1 t) = true) :
    (pollLoop (k + 1) >>= g) (running i (headAt i c) t) =
      g () (running i ⟨i, pollHead + 1, .idle, [], c + 1⟩ (afterPoll t)) := by
  obtain ⟨hgo, hclear⟩ := pollClear_iff.mp ha
  simp only [pollLoop, body_bind_assoc, regOf_bind, running_params, rdByte_bind hq _ _ hgo, countPoll, change_bind,
    onSeq_running, hclear, if_true]
  rfl

/-- A poll that finds the bit set goes back to the loop's head while the limit is not reached. -/
theorem pollLoop_bind_of_busy (hq : t.hostQuiet = true)
    (ha : pollBusy t.params (busAnswer 0x77 [t.params.regStatusB] 1 t) = true)
    (hl : belowLimit t.params (c + 1) = true) :
    (pollLoop (k + 1) >>= g) (running i (headAt i c) t) =
      (pollLoop k >>= g) (running i (headAt i (c + 1)) (afterPoll t)) := by
  obtain ⟨hgo, hbusy⟩ := pollBusy_iff.mp ha
  have hgoesOn : limitReached t.params.pollLimit (c + 1) = false := limitReached_of_belowLimit hl
  simp only [pollLoop, body_bind_assoc, regOf_bind, running_params, rdByte_bind hq _ _ hgo, countPoll, change_bind,
    onSeq_running, hbusy, if_false, pollCount_running, headAt, hgoesOn, Bool.false_eq_true]
  rfl

theorem pollLoop_bind_of_nack (hq : t.hostQuiet = true) {code : Word} {b : List Byte}
    (ha : busAnswer 0x77 [t.params.regStatusB] 1 t = .nack code b) (hp : t.params.abBusPolicy = .abort) :
    (pollLoop (k + 1) >>= g) (running i (headAt i c) t) =
      .error () (completed i .idle (some .busNack) (some code) [] (afterPoll t)) := by
  simp only [pollLoop, body_bind_assoc, regOf_bind, running_params, rdByte_bind_of_nack hq _ _ ha hp]
  rfl

end

/-! ## Polls that find the measuring bit set -/

section
variable {i : Instr} {n c : Nat} {t u : State} {polls : List BusAnswer}

/-- As many polls as the step makes at least, each finding the bit set, take the loop from its head to its head. -/
theorem pollLoop_bind_of_busy_polls {β : Type} {g : Unit → Body β} (k : Nat) (hq : t.hostQuiet = true)
    (hrun : runOps (List.replicate n (pollOp t.params)) t = (polls, u))
    (hbusy : ∀ a ∈ polls, pollBusy t.params a = true) (hl : belowLimit t.params (c + n) = true ∨ n = 0) :
    (pollLoop (n + k) >>= g) (running i (headAt i c) t) = (pollLoop k >>= g) (running i (headAt i (c + n)) u) := by
  induction n generalizing t c polls with
  | zero =>
    obtain ⟨rfl, rfl⟩ := runOps_nil_iff.mp hrun
    rw [Nat.zero_add, Nat.add_zero]
  | succ n ih =>
    obtain ⟨rest, rfl, hrest⟩ := (runOps_xfer_iff _ _ _).mp hrun
    have hlimit : belowLimit t.params (c + (n + 1)) = true := hl.resolve_right (Nat.succ_ne_zero n)
    obtain ⟨hbusyFirst, hbusyRest⟩ := List.forall_mem_cons.mp hbusy
    have hfirst : belowLimit t.params (c + 1) = true := belowLimit_of_le (by omega) hlimit
    have hrec := ih (c := c + 1) (t := afterPoll t) hq hrest hbusyRest
      (.inl (by rwa [Nat.add_assoc, Nat.add_comm 1 n]))
    rw [Nat.add_right_comm n 1 k, pollLoop_bind_of_busy hq hbusyFirst hfirst, hrec, Nat.add_assoc, Nat.add_comm 1 n]

/-- The polls of a step come one after another: a longer sequence is a shorter one and the rest of it. -/
theorem runOps_replicate_add {op : BusOp} (m n : Nat) (h : runOps (List.replicate (m + n) op) t = (polls, u)) :
    ∃ bs cs v, polls = bs ++ cs ∧ runOps (List.replicate m op) t = (bs, v) ∧
      runOps (List.replicate n op) v = (cs, u) := by
  rw [← List.replicate_append_replicate] at h
  exact (runOps_append_iff _).mp h

/-! ## Polls over steps (log 6) -/

theorem run_succ_of_step {s v : State} (k : Nat) (h : step s = .next v) :
    Host.Core.run Sys2Proof.core (k + 1) s = Host.Core.run Sys2Proof.core k v := by
  have hcore : Sys2Proof.core.step s = .next v := h
  simp only [Host.Core.run, hcore]

/-- A block left at the loop's head polls on (R358). -/
theorem step_headAt {b : Body Unit} (hb : pollRest i = some b) :
    step (running i (headAt i c) t) = .next (runBody b (running i (headAt i c) t)) := by
  have hstep : step (running i (headAt i c) t) = resumePolling (headAt i c) (running i (headAt i c) t) := rfl
  rw [hstep, resumePolling]
  simp only [headAt, hb, if_true]

/-- From the loop's head, n polls that find the bit set and then one that ends the loop in v, however many of them each
step makes: the command comes to v in this step or at most n further ones. -/
theorem run_polls {b : Body Unit} {v : State} (hb : pollRest i = some b) (hq : t.hostQuiet = true)
    (hrun : runOps (List.replicate n (pollOp t.params)) t = (polls, u))
    (hbusy : ∀ a ∈ polls, pollBusy t.params a = true) (hl : belowLimit t.params (c + n) = true ∨ n = 0)
    (hend : ∀ k, runBody (pollLoop (k + 1) >>= fun _ => afterPolls i) (running i (headAt i (c + n)) u) = v) :
    ∃ j, j ≤ n ∧ Host.Core.run Sys2Proof.core j (runBody b (running i (headAt i c) t)) = .next v := by
  induction n using Nat.strong_induction_on generalizing t c polls with
  | _ n ih =>
    obtain ⟨m, hm⟩ : ∃ m, max t.answers.length 1 = m + 1 := ⟨max t.answers.length 1 - 1, by omega⟩
    have hloop : runBody b (running i (headAt i c) t) =
        runBody (pollLoop (m + 1) >>= fun _ => afterPolls i) (running i (headAt i c) t) := by
      rw [pollRest_eq hb, ← hm]
      exact runBody_congr (by rw [pollStatus, body_bind_assoc, regOf_bind]; rfl)
    rw [hloop]
    obtain hall | hsome := Nat.lt_or_ge m n
    · obtain ⟨rest, rfl⟩ : ∃ rest, n = m + 1 + rest := ⟨n - (m + 1), by omega⟩
      obtain ⟨bs, cs, w, rfl, hfirst, hrest⟩ := runOps_replicate_add _ _ hrun
      obtain ⟨hbusyFirst, hbusyRest⟩ := List.forall_mem_append.mp hbusy
      have hlimit := hl.resolve_right (by omega)
      have hleft : (pollLoop (m + 1) >>= fun _ => afterPolls i) (running i (headAt i c) t) =
          .error () (running i (headAt i (c + (m + 1))) w) :=
        (pollLoop_bind_of_busy_polls 0 hq hfirst hbusyFirst (.inl (belowLimit_of_le (by omega) hlimit))).trans rfl
      have hparams : w.params = t.params := runOps_params hfirst
      have hrec := ih rest (by omega) (t := w) (c := c + (m + 1)) ((runOps_hostQuiet hfirst).trans hq)
        (by rwa [hparams]) (by rw [hparams]; exact hbusyRest) (by rw [hparams, Nat.add_assoc]; exact .inl hlimit)
        (by rwa [Nat.add_assoc])
      obtain ⟨j, hj, hjrun⟩ := hrec
      refine ⟨j + 1, by omega, ?_⟩
      rw [runBody_of_error hleft, run_succ_of_step j (step_headAt hb), hjrun]
    · obtain ⟨k, rfl⟩ : ∃ k, m = n + k := ⟨m - n, by omega⟩
      refine ⟨0, Nat.zero_le n, ?_⟩
      rw [Nat.add_assoc, runBody_congr (pollLoop_bind_of_busy_polls (k + 1) hq hrun hbusy hl), hend]
      rfl

/-- From the host's write of the command word on (log 1): the control write goes on, n polls find the bit set, and the
next poll ends the loop in v. -/
theorem run_polling_command {s v : State} {b : Body Unit} (hb : pollRest i = some b) (hs : s.ready = true)
    {a0 : BusAnswer}
    (hrun : runOps (rawtBControlOp s.params :: List.replicate n (pollOp s.params)) s = (a0 :: polls, u))
    (hgo : goesOn s.params a0 = true) (hbusy : ∀ a ∈ polls, pollBusy s.params a = true)
    (hl : belowLimit s.params n = true ∨ n = 0)
    (hend : ∀ k, runBody (pollLoop (k + 1) >>= fun _ => afterPolls i) (running i (headAt i n) u) = v) :
    ∃ k, k ≤ n ∧ Host.Core.run Sys2Proof.core (k + 1) (s.withFetchWord 32 (encode i).toNat) = .next v := by
  have hseq := seq_of_ready hs
  obtain ⟨rest, hanswers, hpolls⟩ := (runOps_xfer_iff _ _ _).mp hrun
  obtain ⟨rfl, rfl⟩ := List.cons.inj hanswers
  have hcontrol : runOps [rawtBControlOp s.params] s = ([_], _) := rfl
  have hexec := (polling_startsWith hb hseq).run hs hcontrol (by simpa using hgo)
  have hfetch : step (s.withFetchWord 32 (encode i).toNat) = exec i s := by
    obtain ⟨-, -, hplaced⟩ := stepRunsTheDecodedCommand
    rw [hplaced s i (decode_encode i), ← hseq]
  obtain ⟨j, hj, hjrun⟩ := run_polls (c := 0)
    (t := afterXfer 0x77 [s.params.regCtrlB, s.params.ctrlBValue] 0 s) hb (hostQuiet_of_ready hs) hpolls hbusy
    (by rwa [Nat.zero_add]) (by rwa [Nat.zero_add])
  exact ⟨j, hj, (run_succ_of_step j (hfetch.trans hexec)).trans hjrun⟩

/-- The polls that find the bit set, then the one that finds it clear (R281). -/
theorem runOps_pollingOps {s : State} (hrun : runOps (pollingOps s.params n) s = (polls, u))
    (hclear : pollsClearAfter s.params n polls) :
    ∃ a0 busy w, runOps (rawtBControlOp s.params :: List.replicate n (pollOp s.params)) s = (a0 :: busy, w) ∧
      goesOn s.params a0 = true ∧ (∀ a ∈ busy, pollBusy s.params a = true) ∧ w.params = s.params ∧
      pollClear w.params (busAnswer 0x77 [w.params.regStatusB] 1 w) = true ∧ u = afterPoll w := by
  obtain ⟨a0, busy, a1, rfl, -, hgo, hbusy, ha1⟩ := hclear
  rw [pollingOps, List.replicate_succ', ← List.cons_append] at hrun
  obtain ⟨bs, cs, w, heq, hfirst, hlast⟩ := (runOps_append_iff _).mp hrun
  obtain ⟨rest, rfl, hnil⟩ := (runOps_xfer_iff _ _ _).mp hlast
  obtain ⟨rfl, rfl⟩ := runOps_nil_iff.mp hnil
  obtain ⟨rfl, ha⟩ := List.append_inj' heq rfl
  have hw : w.params = s.params := runOps_params hfirst
  refine ⟨a0, busy, w, hfirst, hgo, hbusy, hw, ?_, by rw [afterPoll, hw]⟩
  rwa [hw, ← List.singleton_inj.mp ha]

/-- From the host's write of the command word to the end the rest of the body has, once the bit was found clear. -/
theorem run_once_clear {s v : State} {b : Body Unit} (hb : pollRest i = some b) (hs : s.ready = true)
    (hrun : runOps (pollingOps s.params n) s = (polls, u)) (hclear : pollsClearAfter s.params n polls)
    (hl : belowLimit s.params n = true ∨ n = 0)
    (hend : runBody (afterPolls i) (running i ⟨i, pollHead + 1, .idle, [], n + 1⟩ u) = v) :
    ∃ k, k ≤ n ∧ Host.Core.run Sys2Proof.core (k + 1) (s.withFetchWord 32 (encode i).toNat) = .next v := by
  obtain ⟨a0, busy, w, hfirst, hgo, hbusy, -, ha, rfl⟩ := runOps_pollingOps hrun hclear
  have hq : w.hostQuiet = true := (runOps_hostQuiet hfirst).trans (hostQuiet_of_ready hs)
  exact run_polling_command hb hs hfirst hgo hbusy hl fun k =>
    (runBody_congr (pollLoop_bind_of_clear hq ha)).trans hend

end

end Sys2Proof.Machine
end

