-- ==== Sys2Proof/Proofs/AcquisitionNack.lean ====
section
/-! LAW. A Nack under ABORT at any transaction of an acquisition (R361): of the commands with a fixed bus program, and
of the polling commands at the control write, at any poll, at any temperature read and, for PRES_B, at any pressure
read. -/

namespace Sys2Proof.Machine

/-! ## The computation between the two acquisitions of PRES_B (R288) -/

/-- CompTB cannot fail (R291). -/
theorem compTBOf_answers (rnd : Rounding) (c : CalB) (raw : Word) : (compTBOf rnd c raw).answers :=
  answers_bind (answers_asS32 _) fun _ => answers_bind (answers_narrow _) fun _ =>
    answers_bind (answers_narrow _) fun _ => answers_bind (answers_narrow _) fun _ =>
      answers_bind (answers_narrow _) fun _ => answers_bind (answers_narrow _) fun _ =>
        answers_bind (answers_narrow _) fun _ => answers_bind (answers_narrow _) fun _ =>
          answers_bind (answers_narrow _) fun _ => answers_bind (answers_narrow _) fun _ => answers_pure _

section
variable {i : Instr} {r : Running} {t u : State} {as : List BusAnswer} {pre post : List BusOp} {w : List Byte} {n : Nat}
  {c : Word} {b : List Byte}

theorem comptBBody_bind_eq {β : Type} (raw : Word) (g : Word → Body β) : comptBBody raw >>= g =
    regOf State.params >>= fun p => regOf State.calB >>= fun c => compute (compTBOf p.divPow2 c raw) [] >>= fun x =>
      stageAll [.tfine x.1, .tfineValid true, .valT1 x.2] >>= fun _ => g x.1 := by
  simp only [comptBBody, stageAll, body_bind_assoc]
  rfl

theorem comptBBody_bind_of_ok {β : Type} {g : Word → Body β} (hq : t.hostQuiet = true) {raw tf v : Word} {o : List Bool}
    (hc : compTBOf t.params.divPow2 t.calB raw [] = .ok (tf, v) o) :
    (comptBBody raw >>= g) (running i r t) = g tf (running i
      { r with step := r.step + 1, staged := r.staged ++ [.tfine tf, .tfineValid true, .valT1 v] }
      (noteOvf (overflowed o) t)) := by
  rw [comptBBody_bind_eq, regOf_bind, regOf_bind, running_params, running_calB, compute_bind_of_ok hq [] hc,
    stageAll_bind]

/-! ## After the polls -/

/-- A refused transaction ends a body that begins with a list of operations, whatever was to follow. -/
theorem bind_of_refused_op {α β : Type} {ops : List BusOp} {x : Body α} {g : α → Body β}
    {tail : List BusAnswer → Body α}
    (hx : x (running i r u) = (opsBody [] ops >>= tail) (running i r u)) (hq : u.hostQuiet = true)
    (hp : u.params.abBusPolicy = .abort) (hops : ops = pre ++ .xfer 0x77 w n :: post) (hrun : runOps pre u = (as, t))
    (hgo : ∀ a ∈ as, goesOn u.params a = true) (ha : busAnswer 0x77 w n t = .nack c b) :
    (x >>= g) (running i r u) =
      .error () (completed i r.fr (some .busNack) (some c) [] (afterXfer 0x77 w n t)) := by
  rw [body_bind_congr hx, body_bind_assoc, hops]
  exact opsBody_bind_of_nack hq hrun hgo ha hp

/-- A temperature read refused. -/
theorem runBody_afterPolls_of_nack (hq : u.hostQuiet = true) (hp : u.params.abBusPolicy = .abort)
    (hops : rawtBDataOps u.params = pre ++ .xfer 0x77 w n :: post) (hrun : runOps pre u = (as, t))
    (hgo : ∀ a ∈ as, goesOn u.params a = true) (ha : busAnswer 0x77 w n t = .nack c b) :
    runBody (afterPolls i) (running i r u) =
      completed i r.fr (some .busNack) (some c) [] (afterXfer 0x77 w n t) :=
  runBody_of_error (bind_of_refused_op (rawtBData_apply _) hq hp hops hrun hgo ha)

/-- Every temperature read goes on: the code is staged, and the rest of the body takes it. -/
theorem runBody_afterPolls_of_goesOn (hq : u.hostQuiet = true) (hrun : runOps (rawtBDataOps u.params) u = (as, t))
    (hgo : ∀ a ∈ as, goesOn u.params a = true) :
    runBody (afterPolls i) (running i r u) = runBody (afterCode i (codeB as))
      (running i { r with step := r.step + 3, staged := r.staged ++ [.rawT (codeB as)] } t) := by
  have hdata := opsBody_bind_of_goesOn (i := i) (r := r) (ws := [])
    (g := fun as => codeTail .rawT codeB as >>= afterCode i) hq hrun hgo
  rw [afterPolls, runBody_congr (body_bind_congr (rawtBData_apply _) _), body_bind_assoc, running_params,
    runBody_congr hdata, runBody_codeTail]
  rfl

/-- A pressure read refused, after the temperature was computed. -/
theorem runBody_afterPolls_of_pressure_nack {v : State} {temps : List BusAnswer} {tf t1 : Word} {o : List Bool}
    (hq : u.hostQuiet = true) (hp : u.params.abBusPolicy = .abort)
    (htemps : runOps (rawtBDataOps u.params) u = (temps, v))
    (hgoT : ∀ a ∈ temps, goesOn u.params a = true)
    (hc : compTBOf u.params.divPow2 u.calB (codeB temps) [] = .ok (tf, t1) o)
    (hops : rawpBOps u.params = pre ++ .xfer 0x77 w n :: post) (hrun : runOps pre v = (as, t))
    (hgo : ∀ a ∈ as, goesOn u.params a = true) (ha : busAnswer 0x77 w n t = .nack c b) :
    runBody (afterPolls .presB) (running .presB r u) =
      completed .presB r.fr (some .busNack) (some c) [] (noteOvf (overflowed o) (afterXfer 0x77 w n t)) := by
  have hqv : v.hostQuiet = true := (runOps_hostQuiet htemps).trans hq
  have hparams : v.params = u.params := runOps_params htemps
  rw [← hparams, ← runOps_calB htemps] at hc
  have hops' : rawpBOps v.params = pre ++ .xfer 0x77 w n :: post := by rw [hparams, hops]
  have hrun' : runOps pre (noteOvf (overflowed o) v) = (as, noteOvf (overflowed o) t) := runOps_noteOvf _ hrun
  have ha' : busAnswer 0x77 w n (noteOvf (overflowed o) t) = .nack c b := (busAnswer_noteOvf ..).trans ha
  have hrefused : ∀ r', (rawpBBody >>= fun rawP => comppBBody rawP tf) (running .presB r' (noteOvf (overflowed o) v)) =
      .error () (completed .presB r'.fr (some .busNack) (some c) []
        (afterXfer 0x77 w n (noteOvf (overflowed o) t))) := by
    intro r'
    rw [← hparams] at hgo hp
    exact bind_of_refused_op (rawpBBody_apply _) hqv hp hops' hrun' hgo ha'
  rw [runBody_afterPolls_of_goesOn hq htemps hgoT, afterCode, runBody_congr (comptBBody_bind_of_ok hqv hc),
    runBody_of_error (hrefused _)]
  rfl

end

/-! ## The statement -/

/-- The commands whose bus program is fixed. -/
theorem nackInAFixedAcquisition {s t : State} {i : Instr} {ops pre post : List BusOp} {w : List Byte} {n : Nat}
    {as : List BusAnswer} {c : Word} {b : List Byte} (hs : s.ready = true) (hp : s.params.abBusPolicy = .abort)
    (hi : (i = .rawtA ∨ i = .tempA) ∧ ops = rawtAOps s.params ∨
      (i = .rawpA ∨ (i = .presA ∧ s.b5Valid = true)) ∧ ops = rawpAOps s ∨ i = .rawpB ∧ ops = rawpBOps s.params)
    (hops : ops = pre ++ .xfer 0x77 w n :: post) (hrun : runOps pre s = (as, t))
    (hgo : ∀ a ∈ as, goesOn s.params a = true) (ha : busAnswer 0x77 w n t = .nack c b) :
    exec i s = .next { afterXfer 0x77 w n t with
      cmd := encode i, done := true, err := some .busNack, buscode := c } := by
  have hseq := seq_of_ready hs
  obtain ⟨rest, hstart⟩ : ∃ rest, StartsWith i s [] ops rest := by
    obtain ⟨rfl | rfl, rfl⟩ | ⟨rfl | ⟨rfl, hv⟩, rfl⟩ | ⟨rfl, rfl⟩ := hi
    · exact ⟨_, rawtA_startsWith hseq⟩
    · exact ⟨_, tempA_startsWith hseq⟩
    · exact ⟨_, rawpA_startsWith hseq⟩
    · exact ⟨_, presA_startsWith hseq hv⟩
    · exact ⟨_, rawpB_startsWith hseq⟩
  exact hstart.refused hs hp hops hrun hgo ha

/-- What a Nack that commits nothing leaves (R19, R361). -/
theorem completed_nack {t : State} (ht : t.seq = none) (i : Instr) (c : Word) :
    completed i .idle (some .busNack) (some c) [] t =
      { t with cmd := encode i, done := true, err := some .busNack, buscode := c } :=
  completed_idle ht i (some .busNack) (some c) []

section
variable {s u t : State} {i : Instr} {n : Nat} {polls as : List BusAnswer} {pre post : List BusOp} {reg : Byte}
  {c : Word} {b : List Byte}

/-- A polling command at the poll after n that found the bit set. -/
theorem nackAtAPoll {a0 : BusAnswer} (hs : s.ready = true) (hp : s.params.abBusPolicy = .abort)
    (hi : i = .rawtB ∨ i = .tempB ∨ i = .presB)
    (hrun : runOps (rawtBControlOp s.params :: List.replicate n (pollOp s.params)) s = (a0 :: polls, u))
    (hgo : goesOn s.params a0 = true) (hbusy : ∀ a ∈ polls, pollBusy s.params a = true)
    (hl : belowLimit s.params n = true ∨ n = 0) (ha : busAnswer 0x77 [s.params.regStatusB] 1 u = .nack c b) :
    ∃ k, k ≤ n ∧ Host.Core.run Sys2Proof.core (k + 1) (s.withFetchWord 32 (encode i).toNat) =
      .next { afterXfer 0x77 [s.params.regStatusB] 1 u with
        cmd := encode i, done := true, err := some .busNack, buscode := c } := by
  obtain ⟨body, hbody⟩ := pollRest_of_polling hi
  have hparams : u.params = s.params := runOps_params hrun
  have hq : u.hostQuiet = true := (runOps_hostQuiet hrun).trans (hostQuiet_of_ready hs)
  have hseq : (afterPoll u).seq = none := (runOps_seq hrun).trans (seq_of_ready hs)
  refine run_polling_command hbody hs hrun hgo hbusy hl fun k => ?_
  rw [← hparams] at ha hp ⊢
  rw [runBody_of_error (pollLoop_bind_of_nack hq ha hp), completed_nack hseq, afterPoll]

/-- A polling command at a temperature read, after the bit cleared. -/
theorem nackAtATemperatureRead (hs : s.ready = true) (hp : s.params.abBusPolicy = .abort)
    (hi : i = .rawtB ∨ i = .tempB ∨ i = .presB) (hrun : runOps (pollingOps s.params n) s = (polls, u))
    (hclear : pollsClearAfter s.params n polls) (hl : belowLimit s.params n = true ∨ n = 0)
    (hpre : runOps pre u = (as, t)) (hgo : ∀ a ∈ as, goesOn s.params a = true)
    (ha : busAnswer 0x77 [reg] 1 t = .nack c b) (hops : rawtBDataOps s.params = pre ++ readOp reg 1 :: post) :
    ∃ k, k ≤ n ∧ Host.Core.run Sys2Proof.core (k + 1) (s.withFetchWord 32 (encode i).toNat) =
      .next { afterXfer 0x77 [reg] 1 t with
        cmd := encode i, done := true, err := some .busNack, buscode := c } := by
  obtain ⟨body, hbody⟩ := pollRest_of_polling hi
  have hparams : u.params = s.params := runOps_params hrun
  have hq : u.hostQuiet = true := (runOps_hostQuiet hrun).trans (hostQuiet_of_ready hs)
  have hseq : (afterXfer 0x77 [reg] 1 t).seq = none :=
    (runOps_seq hpre).trans ((runOps_seq hrun).trans (seq_of_ready hs))
  refine run_once_clear hbody hs hrun hclear hl ?_
  rw [← hparams] at hp hgo hops
  rw [runBody_afterPolls_of_nack hq hp hops hpre hgo ha, completed_nack hseq]

/-- PRES_B at a pressure read: the overflow of its temperature stays in OVF. -/
theorem nackAtAPressureRead {a0 a1 a2 : BusAnswer} {more : List BusAnswer} {pre' : List BusOp} (hs : s.ready = true)
    (hp : s.params.abBusPolicy = .abort) (hrun : runOps (pollingOps s.params n) s = (polls, u))
    (hclear : pollsClearAfter s.params n polls) (hl : belowLimit s.params n = true ∨ n = 0)
    (hpre : runOps (rawtBDataOps s.params ++ pre') u = (a0 :: a1 :: a2 :: more, t))
    (hgo : ∀ a ∈ a0 :: a1 :: a2 :: more, goesOn s.params a = true) (ha : busAnswer 0x77 [reg] 1 t = .nack c b)
    (hops : rawpBOps s.params = pre' ++ readOp reg 1 :: post) :
    ∃ tf t1 o, compTBOf s.params.divPow2 s.calB
        ((0#8 ++ answerByte a0 0 ++ answerByte a1 0 ++ answerByte a2 0) >>> 4) [] = .ok (tf, t1) o ∧
      ∃ k, k ≤ n ∧ Host.Core.run Sys2Proof.core (k + 1) (s.withFetchWord 32 (encode .presB).toNat) =
        .next { afterXfer 0x77 [reg] 1 t with
          cmd := encode .presB, done := true, err := some .busNack, buscode := c, ovf := s.ovf || overflowed o } := by
  obtain ⟨⟨tf, t1⟩, o, hc⟩ := compTBOf_answers s.params.divPow2 s.calB
    ((0#8 ++ answerByte a0 0 ++ answerByte a1 0 ++ answerByte a2 0) >>> 4) []
  refine ⟨tf, t1, o, hc, run_once_clear rfl hs hrun hclear hl ?_⟩
  have hparams : u.params = s.params := runOps_params hrun
  have hq : u.hostQuiet = true := (runOps_hostQuiet hrun).trans (hostQuiet_of_ready hs)
  have hseq : (afterXfer 0x77 [reg] 1 t).seq = none :=
    (runOps_seq hpre).trans ((runOps_seq hrun).trans (seq_of_ready hs))
  have hovf : (afterXfer 0x77 [reg] 1 t).ovf = s.ovf := (runOps_ovf hpre).trans (runOps_ovf hrun)
  obtain ⟨temps, pressures, v, heq, htemps, hpressures⟩ := (runOps_append_iff _).mp hpre
  obtain ⟨rfl, rfl⟩ : [a0, a1, a2] = temps ∧ more = pressures :=
    List.append_inj heq (runOps_length htemps).symm
  rw [← raw24_eq_append] at hc
  rw [← hparams] at hp hgo hops htemps hc
  rw [← runOps_calB hrun] at hc
  obtain ⟨hgoT, hgoP⟩ := List.forall_mem_append (l₁ := [a0, a1, a2]).mp hgo
  rw [runBody_afterPolls_of_pressure_nack hq hp htemps hgoT hc hops hpressures hgoP ha,
    completed_noteOvf rfl hseq, hovf]
  rfl

end

/-- Settles O32: a fixed bus program stops at the refused transaction, and a polling command comes through its polls to
the transaction that is refused. -/
theorem nackInAnAcquisitionCommitsNothing : Obligations.NackInAnAcquisitionCommitsNothing := by
  refine ⟨fun s t i ops pre post w n as c b hs hp hi hops hrun hgo ha =>
    nackInAFixedAcquisition hs hp hi hops hrun hgo ha, fun s i hs hp hi => ?_⟩
  obtain ⟨body, hbody⟩ := pollRest_of_polling hi
  refine ⟨fun c b ha => (polling_startsWith hbody (seq_of_ready hs)).refused (pre := []) hs hp rfl rfl nofun ha,
    fun n u a0 polls c b hrun hgo hbusy hl ha => nackAtAPoll hs hp hi hrun hgo hbusy hl ha,
    fun n u t polls as pre post reg c b hrun hclear hl hpre hgo ha => ?_⟩
  refine ⟨fun hops => nackAtATemperatureRead hs hp hi hrun hclear hl hpre hgo ha hops, ?_⟩
  rintro a0 a1 a2 more pre' rfl rfl rfl hops
  have hcmd : encode .presB = 0x36000000 := by decide
  have hword : (encode .presB).toNat = 0x36000000 := by decide
  rw [← hcmd, ← hword]
  exact nackAtAPressureRead hs hp hrun hclear hl hpre hgo ha hops

end Sys2Proof.Machine
end

