-- ==== Sys2Proof/Proofs/CalibrationLoadB.lean ====
section
/-! LAW. CAL_LOAD_B with every transaction going on (R280). -/

namespace Sys2Proof.Machine

theorem applyWrites_calLoadBWrites (id : Byte) (words : List Half) (t : State) :
    applyWrites (calLoadBWrites id words) t = { t with
      id := id, result := 0#24 ++ id, family := classify id, calB := CalB.ofWords words
      calValidB := !calFault words, calFaultB := calFault words, tfineValid := false } := by
  simp only [calLoadBWrites, applyWrites_cons, applyWrites_nil, applyWrite, byte_eq_append]

/-- Settles O25: the answers' words are what the load stages, and both of its ends commit them. -/
theorem calLoadBReplacesTheStore : Obligations.CalLoadBReplacesTheStore := by
  intro s t a0 as hs hrun hgo words fault
  have hlen : as.length = 12 := Nat.succ.inj (runOps_length hrun)
  have hwords : words.length = 12 := (List.length_map _).trans hlen
  refine ⟨⟨calB_words_ofWords hwords, hwords, fun i a hi => ?_⟩, ?_⟩
  · rw [List.getElem?_map, hi, Option.map_some, calWord_eq]
    rfl
  · have hseq : t.seq = none := (runOps_seq hrun).trans (seq_of_ready hs)
    have hq : t.hostQuiet = true := (runOps_hostQuiet hrun).trans (hostQuiet_of_ready hs)
    have hcmd : encode .calLoadB = 0x30000000 := by decide
    have hend := completed_idle hseq .calLoadB (if fault then some .calibrationFault else none) none
      (calLoadBWrites (answerByte a0 0) words)
    rw [applyWrites_calLoadBWrites, hcmd] at hend
    rw [(calLoadB_startsWith (seq_of_ready hs)).run hs hrun hgo, loadTail, runBody_loadEnd hq]
    exact congrArg _ hend

end Sys2Proof.Machine
end

