-- ==== Sys2Proof/Proofs/CompensationB.lean ====
section
/-! LAW. CompTB (R284) and CompPB (R286, R289) against their formulas over the integers (R10, R291). -/

namespace Sys2Proof.Machine

section
variable {rnd : Rounding} {c : CalB} {a : Word} {x : Int}

theorem toInt_sar_of (ha : a.toInt = x) (k : Nat) : (sar a k).toInt = x / 2 ^ k := by
  subst ha; exact toInt_sar a k

theorem pdiv_eq_ofInt (ha : a.toInt = x) (rnd : Rounding) (k : Nat) :
    pdiv rnd a k = BitVec.ofInt 32 (intPdiv rnd x k) := by
  rw [← toInt_pdiv_of ha, BitVec.ofInt_toInt]

/-! ## CompTB (R284) -/

theorem compTB_gives {e1 e2 e3 e4 e5 e6 e7 e8 e9 : Int} (ha : a.toInt = x) (h1 : e1 = c.t1.toNat * 2 ^ 1)
    (h2 : e2 = x / 2 ^ 3 - wrapS32 e1) (h3 : e3 = wrapS32 e2 * c.t2.toInt) (h4 : e4 = x / 2 ^ 4 - c.t1.toNat)
    (h5 : e5 = wrapS32 e4 * wrapS32 e4) (h6 : e6 = intPdiv rnd (wrapS32 e5) 12 * c.t3.toInt)
    (h7 : e7 = intPdiv rnd (wrapS32 e3) 11 + intPdiv rnd (wrapS32 e6) 14) (h8 : e8 = wrapS32 e7 * 5)
    (h9 : e9 = wrapS32 e8 + 128) :
    (compTB rnd c a).Gives (BitVec.ofInt 32 e7, BitVec.ofInt 32 (intPdiv rnd (wrapS32 e9) 8))
      [e1, e2, e3, e4, e5, e6, e7, e8, e9] := by
  have wrapped := toInt_ofInt_eq_wrapS32
  rw [← pdiv_eq_ofInt (wrapped e9)]
  subst h1 h2 h3 h4 h5 h6 h7 h8 h9
  exact (gives_sShl (toInt_u16 _) 1).step <| (gives_sSub (toInt_sar_of ha 3) (wrapped _)).step <|
    (gives_sMul (wrapped _) (toInt_s16 _)).step <| (gives_sSub (toInt_sar_of ha 4) (toInt_u16 _)).step <|
    (gives_sMul (wrapped _) (wrapped _)).step <|
    (gives_sMul (toInt_pdiv_of (wrapped _) rnd 12) (toInt_s16 _)).step <|
    (gives_sAdd (toInt_pdiv_of (wrapped _) rnd 11) (toInt_pdiv_of (wrapped _) rnd 14)).step <|
    (gives_sMul (wrapped _) rfl).step <| (gives_sAdd (wrapped _) rfl).step (gives_pure _)

/-- Settles O37: asS32 of the code, then the nine steps of CompTB. -/
theorem compTBIsTheStatedFormula : Obligations.CompTBIsTheStatedFormula := by
  intro rnd c raw e1 e2 e3 var1 e4 e5 e6 var2 e7 e8 e9
  refine ⟨Calc.Gives.start ((gives_asS32 raw).step (compTB_gives rfl ?_ rfl rfl rfl rfl rfl rfl rfl rfl)), fun o => ?_⟩
  · rw [pow_one]
  · rw [compTBOf, calc_bind_ok (asS32_eq raw o)]

/-! ## CompPB (R286) -/

theorem compPBVar2_gives {var1 q : Word} {v y e2 e3 e4 e5 e6 e7 e8 : Int} (hvar1 : var1.toInt = v) (hq : q.toInt = y)
    (h2 : e2 = y * y) (h3 : e3 = intPdiv rnd (wrapS32 e2) 11 * c.p6.toInt) (h4 : e4 = v * c.p5.toInt)
    (h5 : e5 = wrapS32 e4 * 2 ^ 1) (h6 : e6 = wrapS32 e3 + wrapS32 e5) (h7 : e7 = c.p4.toInt * 2 ^ 16)
    (h8 : e8 = intPdiv rnd (wrapS32 e6) 2 + wrapS32 e7) :
    (compPBVar2 rnd c var1 q).Gives (BitVec.ofInt 32 e8) [e2, e3, e4, e5, e6, e7, e8] := by
  subst h2 h3 h4 h5 h6 h7 h8
  have wrapped := toInt_ofInt_eq_wrapS32
  exact (gives_sMul hq hq).step <| (gives_sMul (toInt_pdiv_of (wrapped _) rnd 11) (toInt_s16 _)).step <|
    (gives_sMul hvar1 (toInt_s16 _)).step <| (gives_sShl (wrapped _) 1).step <|
    (gives_sAdd (wrapped _) (wrapped _)).step <| (gives_sShl (toInt_s16 _) 16).step <|
    gives_sAdd (toInt_pdiv_of (wrapped _) rnd 2) (wrapped _)

/-- The square of q is made again, so its exact result is listed again. -/
theorem compPBVar1_gives {var1 q : Word} {v y e2 e9 e10 e11 e12 e13 : Int} (hvar1 : var1.toInt = v) (hq : q.toInt = y)
    (h2 : e2 = y * y) (h9 : e9 = c.p3.toInt * intPdiv rnd (wrapS32 e2) 13) (h10 : e10 = c.p2.toInt * v)
    (h11 : e11 = intPdiv rnd (wrapS32 e9) 3 + intPdiv rnd (wrapS32 e10) 1)
    (h12 : e12 = 32768 + intPdiv rnd (wrapS32 e11) 18) (h13 : e13 = wrapS32 e12 * c.p1.toNat) :
    (compPBVar1 rnd c var1 q).Gives (BitVec.ofInt 32 (intPdiv rnd (wrapS32 e13) 15)) [e2, e9, e10, e11, e12, e13] := by
  have wrapped := toInt_ofInt_eq_wrapS32
  rw [← pdiv_eq_ofInt (wrapped e13)]
  subst h2 h9 h10 h11 h12 h13
  exact (gives_sMul hq hq).step <| (gives_sMul (toInt_s16 _) (toInt_pdiv_of (wrapped _) rnd 13)).step <|
    (gives_sMul (toInt_s16 _) hvar1).step <|
    (gives_sAdd (toInt_pdiv_of (wrapped _) rnd 3) (toInt_pdiv_of (wrapped _) rnd 1)).step <|
    (gives_sAdd rfl (toInt_pdiv_of (wrapped _) rnd 18)).step <|
    (gives_sMul (wrapped _) (toInt_u16 _)).step (gives_pure _)

/-! ### Its u32 steps (R7, R10, R286, R289) -/

/-- The square of p in the tail (R289). -/
def compPBSquare (p : Word) : Word := ((p >>> 3) * (p >>> 3)) >>> 13

theorem toNat_compPBSquare (p : Word) :
    (compPBSquare p).toNat = p.toNat / 8 * (p.toNat / 8) % 2 ^ 32 / 2 ^ 13 := by
  rw [compPBSquare, BitVec.toNat_ushiftRight, BitVec.toNat_mul, BitVec.toNat_ushiftRight, Nat.shiftRight_eq_div_pow,
    Nat.shiftRight_eq_div_pow]

theorem toInt_of_toNat_lt {u : Word} (h : u.toNat < 2 ^ 31) : u.toInt = u.toNat :=
  BitVec.toInt_eq_toNat_of_lt (by omega)

theorem toInt_compPBSquare (p : Word) : (compPBSquare p).toInt = (compPBSquare p).toNat := by
  refine toInt_of_toNat_lt ?_
  rw [toNat_compPBSquare]
  omega

theorem toNat_quarter (p : Word) : (p >>> 2).toNat = p.toNat / 4 := by
  rw [BitVec.toNat_ushiftRight, Nat.shiftRight_eq_div_pow]

theorem toInt_quarter (p : Word) : (p >>> 2).toInt = (p >>> 2).toNat := by
  have hp := p.isLt
  refine toInt_of_toNat_lt ?_
  rw [toNat_quarter]
  omega

theorem compPBTail_gives {p : Word} {n sq : Nat} {e16 e17 e18 e19 e20 : Int} (hp : p.toNat = n)
    (hx : p.toInt = x) (hsq : sq = n / 8 * (n / 8) % 2 ^ 32 / 2 ^ 13) (h16 : e16 = c.p9.toInt * (sq : Int))
    (h17 : e17 = ((n / 4 : Nat) : Int) * c.p8.toInt)
    (h18 : e18 = intPdiv rnd (wrapS32 e16) 12 + intPdiv rnd (wrapS32 e17) 13)
    (h19 : e19 = wrapS32 e18 + c.p7.toInt) (h20 : e20 = x + wrapS32 e19 / 2 ^ 4) :
    (compPBTail rnd c p).Gives (BitVec.ofInt 32 e20)
      [(sq : Int), e16, ((n / 4 : Nat) : Int), e17, (n : Int), e18, e19, e20] := by
  subst hp
  rw [← toNat_compPBSquare] at hsq
  rw [← toNat_quarter] at h17 ⊢
  subst hsq h16 h17 h18 h19 h20
  have wrapped := toInt_ofInt_eq_wrapS32
  exact (gives_asS32 _).step <| (gives_sMul (toInt_s16 _) (toInt_compPBSquare p)).step <| (gives_asS32 _).step <|
    (gives_sMul (toInt_quarter p) (toInt_s16 _)).step <| (gives_asS32 p).step <|
    (gives_sAdd (toInt_pdiv_of (wrapped _) rnd 12) (toInt_pdiv_of (wrapped _) rnd 13)).step <|
    (gives_sAdd (wrapped _) (toInt_s16 _)).step <|
    (gives_sAdd hx (toInt_sar_of (wrapped _) 4)).step (gives_pure _)

/-- The dividend of CompPB, from the exact result e of its last subtraction (R286). -/
theorem toNat_compPBDividend (e : Int) :
    (asU32 (BitVec.ofInt 32 e) * 3125).toNat = ((wrapS32 e * 3125) % 2 ^ 32).toNat := by
  have hwrap : BitVec.ofInt 32 e = BitVec.ofInt 32 (wrapS32 e) := by
    rw [← toInt_ofInt_eq_wrapS32, BitVec.ofInt_toInt]
  have hmul : asU32 (BitVec.ofInt 32 e) * 3125 = BitVec.ofInt 32 (wrapS32 e * 3125) := by
    rw [BitVec.ofInt_mul, ← hwrap]
    rfl
  rw [hmul, BitVec.toNat_ofInt]
  rfl

/-- The quotient of CompPB is CompPA's: a shift left by 1 doubles (R239, R286). -/
theorem compPBQuotient_eq (p d : Word) :
    (if p < 0x80000000#32 then uDiv (p <<< 1) d else uDiv p d * 2) = compPAQuotient p d := by
  have hdouble : p <<< 1 = p * 2 := BitVec.shiftLeft_eq_mul_twoPow p 1
  rw [compPAQuotient, hdouble]

/-! ### The whole of it -/

/-- CompPB from the test of its divisor on (R286). -/
def compPBRest (rnd : Rounding) (c : CalB) (rawP var2 div : Word) : Calc (Word × Bool) :=
  if div = 0 then pure (0, true)
  else do
    let a ← sSub 1048576 rawP
    let b ← sSub a (sar var2 12)
    let r ← compPBTail rnd c (compPAQuotient (asU32 b * 3125) div)
    pure (r, false)

theorem compPB_eq (rnd : Rounding) (c : CalB) (rawP tFine : Word) : compPB rnd c rawP tFine = (do
    let var1 ← sSub (sar tFine 1) 64000
    let var2 ← compPBVar2 rnd c var1 (sar var1 2)
    let div ← compPBVar1 rnd c var1 (sar var1 2)
    compPBRest rnd c rawP var2 div) := by
  simp only [compPBRest, ← compPBQuotient_eq]
  rfl

/-- A result already listed adds nothing when it is listed again. -/
theorem allS32_append_of_mem {l m : List Int} {e : Int} (he : e ∈ l) : allS32 (l ++ e :: m) ↔ allS32 (l ++ m) := by
  rw [allS32_append, allS32_append]
  exact and_congr_right fun hl => (List.forall_mem_cons).trans (and_iff_right (hl e he))

theorem Calc.Ends.congr {α : Type} {y : Calc α} {r : Except ErrorKind α} {l m : List Int} (h : y.Ends r l)
    (hlm : allS32 l ↔ allS32 m) : y.Ends r m := fun o =>
  (h o).imp fun _ hsteps => ⟨hsteps.1, hsteps.2.trans hlm⟩

end

/-- Settles O38: the steps before the guard are those of the first var1, var2 and the divisor; after it come
the quotient and the tail. -/
theorem compPBIsTheStatedFormula : Obligations.CompPBIsTheStatedFormula := by
  intro rnd c raw tFine e1 var1 q e2 e3 e4 e5 e6 e7 e8 e9 e10 e11 e12 e13 div divU e14 e15 p0 p sq e16 e17 e18 e19 e20
    head
  have wrapped := toInt_ofInt_eq_wrapS32
  have hvar1 : (BitVec.ofInt 32 e1).toInt = var1 := wrapped e1
  have hq : (sar (BitVec.ofInt 32 e1) 2).toInt = q := toInt_sar_of hvar1 2
  have hdiv : BitVec.ofInt 32 div = 0 ↔ div = 0 := by
    have hint : (BitVec.ofInt 32 div).toInt = div := by
      rw [← pdiv_eq_ofInt (wrapped e13), toInt_pdiv_of (wrapped e13)]
    rw [← BitVec.toInt_inj, hint]
    rfl
  have hhead : ∀ {r : Except ErrorKind (Word × Bool)} {l : List Int},
      (compPBRest rnd c raw (BitVec.ofInt 32 e8) (BitVec.ofInt 32 div)).Ends r l →
      (compPBOf rnd c raw tFine).Ends r (head ++ l) := by
    intro r l hrest
    refine Calc.Ends.congr ?_ (allS32_append_of_mem (l := [(raw.toNat : Int), e1, e2, e3, e4, e5, e6, e7, e8])
      (m := e9 :: e10 :: e11 :: e12 :: e13 :: l) (e := e2) (by simp))
    refine (gives_asS32 raw).step ?_
    rw [compPB_eq]
    exact (gives_sSub (toInt_sar tFine 1) rfl).step <|
      (compPBVar2_gives hvar1 hq rfl rfl rfl (by rw [pow_one]) rfl rfl rfl).bind <|
      (compPBVar1_gives hvar1 hq rfl rfl rfl rfl rfl rfl).bind hrest
  have hp0 : (asU32 (BitVec.ofInt 32 e15) * 3125).toNat = p0 := toNat_compPBDividend e15
  have hp : (compPAQuotient (asU32 (BitVec.ofInt 32 e15) * 3125) (BitVec.ofInt 32 div)).toNat = p := by
    rw [toNat_compPAQuotient, hp0, BitVec.toNat_ofInt]
    rfl
  have hpInt := (toInt_eq_wrapS32_toNat _).trans (congrArg (fun m : Nat => wrapS32 m) hp)
  refine ⟨fun hzero => Calc.Gives.start (l := head) ?_, fun hne => Calc.Gives.start (hhead ?_), fun o => ?_⟩
  · rw [← List.append_nil head]
    refine hhead ?_
    rw [compPBRest, if_pos (hdiv.mpr hzero)]
    exact gives_pure _
  · rw [compPBRest, if_neg (mt hdiv.mp hne)]
    exact (gives_sSub rfl rfl).step <| (gives_sSub (wrapped _) (toInt_sar_of (wrapped _) 12)).step <|
      (compPBTail_gives hp hpInt rfl rfl rfl rfl rfl rfl).bind (gives_pure _)
  · rw [compPBOf, calc_bind_ok (asS32_eq raw o)]

end Sys2Proof.Machine
end

