-- ==== Sys2Proof/Proofs/CompensationCommandsB.lean ====
section
/-! LAW. The compensating commands of family B without polls: COMPT_B (R283) and COMPP_B (R285), with the compensation
parts that TEMP_B and PRES_B share with them. -/

namespace Sys2Proof.Machine

/-! ## What the computations answer (R291) -/

theorem compTBOf_answer (rnd : Rounding) (c : CalB) (raw : Word) :
    ∃ tf v o, compTBOf rnd c raw [] = .ok (tf, v) o := by
  obtain ⟨⟨tf, v⟩, o, h⟩ := compTBOf_answers rnd c raw []
  exact ⟨tf, v, o, h⟩

/-- CompPB cannot fail: where its divisor is 0 the guard answers 0 (R289, R291). -/
theorem compPBOf_answer (rnd : Rounding) (c : CalB) (raw tFine : Word) :
    ∃ p guard o, compPBOf rnd c raw tFine [] = .ok (p, guard) o ∧ (guard = true → p = 0) := by
  obtain ⟨hzero, hne, -⟩ := compPBIsTheStatedFormula rnd c raw tFine
  obtain ⟨o, ho, -⟩ | ⟨o, ho, -⟩ := (Classical.em _).imp hzero hne
  · exact ⟨_, true, o, ho, fun _ => rfl⟩
  · exact ⟨_, false, o, ho, nofun⟩

/-! ## The compensation parts (R283, R285) -/

section
variable {i : Instr} {r : Running} {t : State} {raw tf : Word} {o : List Bool}

/-- The compensation of a temperature, with nothing after it, commits what was staged and its three writes. -/
theorem runBody_comptBBody (ht : t.ready = true) (hfr : r.fr = .idle) {v : Word}
    (hc : compTBOf t.params.divPow2 t.calB raw [] = .ok (tf, v) o) :
    runBody (comptBBody raw >>= fun _ => pure ()) (running i r t) = { applyWrites r.staged t with
      cmd := encode i, done := true, err := none, buscode := 0, ovf := t.ovf || overflowed o
      tfine := tf, tfineValid := true, valT1 := v } := by
  have hq := hostQuiet_of_ready ht
  rw [runBody_congr (comptBBody_bind_of_ok hq hc), runBody_pure (t := noteOvf _ t) hq,
    completed_noteOvf hfr (seq_of_ready ht), applyWrites_append]
  simp only [applyWrites_cons, applyWrites_nil, applyWrite, Option.getD_none]

/-- The compensation of a pressure commits what was staged and its one write, with the guard's error or none (R356). -/
theorem runBody_comppBBody (ht : t.ready = true) (hfr : r.fr = .idle) {p : Word} {guard : Bool}
    (hc : compPBOf t.params.divPow2 t.calB raw tf [] = .ok (p, guard) o) :
    runBody (comppBBody raw tf) (running i r t) = { applyWrites r.staged t with
      cmd := encode i, done := true, err := if guard then some .divideByZeroGuard else none, buscode := 0
      ovf := t.ovf || overflowed o, valP := p } := by
  have hq := hostQuiet_of_ready ht
  have hcompute : comppBBody raw tf (running i r t) =
      (if guard then raiseStaged .divideByZeroGuard none else pure () : Body Unit)
        (running i { r with step := r.step + 1, staged := r.staged ++ [.valP p] } (noteOvf (overflowed o) t)) :=
    compute_bind_of_ok hq [] hc _
  have hend : runBody (comppBBody raw tf) (running i r t) =
      completed i r.fr (if guard then some .divideByZeroGuard else none) none (r.staged ++ [.valP p])
        (noteOvf (overflowed o) t) := by
    rw [runBody_congr hcompute]
    cases guard with
    | true => exact runBody_of_error (raiseStaged_running (t := noteOvf _ t) hq _ _)
    | false => exact runBody_pure (t := noteOvf _ t) hq
  rw [hend, completed_noteOvf hfr (seq_of_ready ht), applyWrites_append]
  rfl

/-! ## The test of TFINE_VALID (R290, R360) -/

theorem needTfine_bind_of_valid {β : Type} {g : Unit → Body β} (h : t.tfineValid = true) :
    (needTfine >>= g) (running i r t) = g () (running i r t) := by
  rw [needTfine, body_bind_assoc, regOf_bind, running_tfineValid, h]
  rfl

theorem needTfine_bind_of_invalid {β : Type} {g : Unit → Body β} (hq : t.hostQuiet = true)
    (h : t.tfineValid = false) :
    (needTfine >>= g) (running i r t) = .error () (completed i r.fr (some .noTemperature) none [] t) := by
  rw [needTfine, body_bind_assoc, regOf_bind, running_tfineValid, h]
  exact raise_bind hq ..

end

/-! ## COMPT_B and COMPP_B (R283, R285) -/

/-- Settles O43: COMPT_B is the compensation of RAW_T with nothing staged before. -/
theorem comptBCommitsTheTemperature : Obligations.ComptBCommitsTheTemperature := by
  intro s hs
  have hcmd : encode .comptB = 0x33000000 := by decide
  have hexec : exec .comptB s =
      .next (runBody (comptBBody s.rawT >>= fun _ => pure ()) (running .comptB (started .comptB) s)) :=
    launch_eq_runBody (seq_of_ready hs) rfl
  obtain ⟨tf, v, o, hc⟩ := compTBOf_answer s.params.divPow2 s.calB s.rawT
  refine ⟨tf, v, o, hc, ?_⟩
  rw [← hcmd, hexec, runBody_comptBBody hs rfl hc]
  rfl

/-- Settles O44: after the test COMPP_B is the compensation of RAW_P with nothing staged before. -/
theorem comppBCommitsThePressure : Obligations.ComppBCommitsThePressure := by
  intro s hs
  have hseq := seq_of_ready hs
  have hcmd : encode .comppB = 0x34000000 := by decide
  rw [← hcmd]
  refine ⟨fun hv => ?_, fun hv => ?_⟩
  · have hexec : exec .comppB s = .next (completed .comppB .idle (some .noTemperature) none [] s) :=
      launch_of_error (needTfine_bind_of_invalid (hostQuiet_of_ready hs) hv) hseq
    rw [hexec, completed_idle hseq]
    rfl
  · have hexec : exec .comppB s =
        .next (runBody (comppBBody s.rawP s.tfine) (running .comppB (started .comppB) s)) :=
      launch_eq_runBody hseq (needTfine_bind_of_valid hv)
    obtain ⟨p, guard, o, hc, hguard⟩ := compPBOf_answer s.params.divPow2 s.calB s.rawP s.tfine
    refine ⟨p, guard, o, hc, hguard, ?_⟩
    rw [hexec, runBody_comppBBody hs rfl hc]
    rfl

end Sys2Proof.Machine
end

