-- ==== Sys2Proof/Proofs/PollingCommands.lean ====
section
/-! LAW. RAWT_B (R281), TEMP_B (R287) and PRES_B (R288) whose polling ends and whose reads go on: what each commits, in
one step where the answers laid down beforehand reach that far, and over at most n + 1 steps wherever they come from
(log 6). -/

namespace Sys2Proof.Machine

/-! ## All polls in one step (log 6) -/

section
variable {i : Instr} {n : Nat} {s u v : State} {polls : List BusAnswer}

/-- A step at the poll loop's head makes at least as many polls as answers are laid down, and at least one. -/
theorem runBody_pollRest {b : Body Unit} (hb : pollRest i = some b) (r : Running) (t : State) :
    runBody b (running i r t) =
      runBody (pollLoop (max t.answers.length 1) >>= fun _ => afterPolls i) (running i r t) := by
  rw [pollRest_eq hb]
  exact runBody_congr (by rw [pollStatus, body_bind_assoc, regOf_bind]; rfl)

/-- With the answers laid down as far as the polls reach, the launch itself comes to the end the rest of the body has
once the bit was found clear. -/
theorem exec_once_clear {b : Body Unit} (hb : pollRest i = some b) (hs : s.ready = true)
    (hrun : runOps (pollingOps s.params n) s = (polls, u)) (hclear : pollsClearAfter s.params n polls)
    (hanswers : n + 1 < s.answers.length ∨ n = 0) (hl : belowLimit s.params n = true ∨ n = 0)
    (hend : runBody (afterPolls i) (running i ⟨i, pollHead + 1, .idle, [], n + 1⟩ u) = v) : exec i s = .next v := by
  obtain ⟨a0, busy, w, hfirst, hgo, hbusy, -, ha, rfl⟩ := runOps_pollingOps hrun hclear
  have hq : w.hostQuiet = true := (runOps_hostQuiet hfirst).trans (hostQuiet_of_ready hs)
  obtain ⟨rest, hcons, hpolls⟩ := (runOps_xfer_iff _ _ _).mp hfirst
  obtain ⟨rfl, rfl⟩ := List.cons.inj hcons
  have hcontrol : runOps [rawtBControlOp s.params] s = ([_], _) := rfl
  rw [(polling_startsWith hb (seq_of_ready hs)).run hs hcontrol (by simpa using hgo), runBody_pollRest hb]
  obtain ⟨k, hk⟩ : ∃ k, max s.answers.tail.length 1 = n + (k + 1) :=
    ⟨max s.answers.tail.length 1 - (n + 1), by rw [List.length_tail]; omega⟩
  have hloop := pollLoop_bind_of_busy_polls (i := i) (c := 0) (g := fun _ => afterPolls i) (k + 1)
    (t := afterXfer 0x77 [s.params.regCtrlB, s.params.ctrlBValue] 0 s) (hostQuiet_of_ready hs) hpolls hbusy
    (by rwa [Nat.zero_add])
  rw [← hk, Nat.zero_add, pollLoop_bind_of_clear hq ha] at hloop
  exact congrArg _ ((runBody_congr hloop).trans hend)

end

/-! ## What the bus leaves alone -/

/-- t is s but for what the bus changes, as far as a command without inputs looks at it. -/
structure BusOnly (s t : State) : Prop where
  ready : t.ready = true
  params : t.params = s.params
  calB : t.calB = s.calB
  ovf : t.ovf = s.ovf

theorem runOps_busOnly {ops : List BusOp} {s t : State} {as : List BusAnswer} (hs : s.ready = true)
    (h : runOps ops s = (as, t)) : BusOnly s t where
  ready := (runOps_keeps State.ready (fun _ _ _ _ => rfl) (fun _ _ => rfl) h).trans hs
  params := runOps_params h
  calB := runOps_calB h
  ovf := runOps_ovf h

theorem BusOnly.trans {s t u : State} (h : BusOnly s t) (h' : BusOnly t u) : BusOnly s u where
  ready := h'.ready
  params := h'.params.trans h.params
  calB := h'.calB.trans h.calB
  ovf := h'.ovf.trans h.ovf

/-! ## After the polls -/

theorem codeB_eq (a0 a1 a2 : BusAnswer) :
    codeB [a0, a1, a2] = (0#8 ++ answerByte a0 0 ++ answerByte a1 0 ++ answerByte a2 0) >>> 4 := by
  rw [codeB, raw24_eq_append]
  rfl

theorem afterCode_rawtB (raw : Word) : afterCode .rawtB raw = pure () := rfl

/-- Every pressure read goes on: the code is staged, and the rest of the body takes it. -/
theorem runBody_rawpBBody_of_goesOn {i : Instr} {r : Running} {u v : State} {as : List BusAnswer}
    {g : Word → Body Unit} (hq : u.hostQuiet = true) (hrun : runOps (rawpBOps u.params) u = (as, v))
    (hgo : ∀ a ∈ as, goesOn u.params a = true) :
    runBody (rawpBBody >>= g) (running i r u) = runBody (g (codeB as))
      (running i { r with step := r.step + 3, staged := r.staged ++ [.rawP (codeB as)] } v) := by
  have hdata := opsBody_bind_of_goesOn (i := i) (r := r) (ws := [])
    (g := fun as => codeTail .rawP codeB as >>= g) hq hrun hgo
  rw [runBody_congr (body_bind_congr (rawpBBody_apply _) _), body_bind_assoc, running_params,
    runBody_congr hdata, runBody_codeTail]
  rfl

/-- What RAWT_B commits (R281). -/
def rawtBDone (t : State) (raw : Word) : State :=
  { t with cmd := 0x31000000, done := true, err := none, buscode := 0, rawT := raw }

/-- What TEMP_B commits, OVF being ovf after its computation (R287). -/
def tempBDone (t : State) (ovf : Bool) (raw tf v : Word) : State :=
  { t with
    cmd := 0x35000000, done := true, err := none, buscode := 0, ovf := ovf
    rawT := raw, tfine := tf, tfineValid := true, valT1 := v }

/-- What PRES_B commits, OVF being ovf after its two computations (R288, R356). -/
def presBDone (t : State) (ovf : Bool) (rawT tf v rawP p : Word) (guard : Bool) : State :=
  { t with
    cmd := 0x36000000, done := true, err := if guard then some .divideByZeroGuard else none, buscode := 0, ovf := ovf
    rawT := rawT, tfine := tf, tfineValid := true, valT1 := v, rawP := rawP, valP := p }

section
variable {i : Instr} {s u t v : State} {as ps : List BusAnswer} {tf t1 p : Word} {guard : Bool} {o o' : List Bool}
  {r : Running} (hu : BusOnly s u) (hfr : r.fr = .idle) (hstaged : r.staged = [])
  (hdata : runOps (rawtBDataOps s.params) u = (as, t)) (hgo : ∀ a ∈ as, goesOn s.params a = true)
include hu hfr hstaged hdata hgo

theorem runBody_afterPolls_rawtB : runBody (afterPolls .rawtB) (running .rawtB r u) = rawtBDone t (codeB as) := by
  have ht := runOps_busOnly hu.ready hdata
  have hcmd : encode .rawtB = 0x31000000 := by decide
  rw [← hu.params] at hdata hgo
  rw [runBody_afterPolls_of_goesOn (hostQuiet_of_ready hu.ready) hdata hgo, afterCode_rawtB,
    runBody_pure (hostQuiet_of_ready ht.ready), hfr, hstaged, completed_idle (seq_of_ready ht.ready), hcmd]
  rfl

theorem runBody_afterPolls_tempB (hc : compTBOf s.params.divPow2 s.calB (codeB as) [] = .ok (tf, t1) o) :
    runBody (afterPolls .tempB) (running .tempB r u) = tempBDone t (s.ovf || overflowed o) (codeB as) tf t1 := by
  have ht := hu.trans (runOps_busOnly hu.ready hdata)
  have hcmd : encode .tempB = 0x35000000 := by decide
  rw [← ht.params, ← ht.calB] at hc
  rw [← hu.params] at hdata hgo
  rw [runBody_afterPolls_of_goesOn (hostQuiet_of_ready hu.ready) hdata hgo, afterCode,
    runBody_comptBBody ht.ready ?_ hc, hstaged, hcmd, ht.ovf]
  · rfl
  · exact hfr

theorem runBody_afterPolls_presB (hc : compTBOf s.params.divPow2 s.calB (codeB as) [] = .ok (tf, t1) o)
    (hpress : runOps (rawpBOps s.params) t = (ps, v)) (hgoP : ∀ a ∈ ps, goesOn s.params a = true)
    (hc' : compPBOf s.params.divPow2 s.calB (codeB ps) tf [] = .ok (p, guard) o') :
    runBody (afterPolls .presB) (running .presB r u) =
      presBDone v (s.ovf || overflowed o || overflowed o') (codeB as) tf t1 (codeB ps) p guard := by
  have ht := hu.trans (runOps_busOnly hu.ready hdata)
  have hv := ht.trans (runOps_busOnly ht.ready hpress)
  have hq := hostQuiet_of_ready ht.ready
  have hcmd : encode .presB = 0x36000000 := by decide
  rw [← ht.params, ← ht.calB] at hc
  rw [← hv.params, ← hv.calB] at hc'
  rw [← ht.params] at hpress hgoP
  rw [← hu.params] at hdata hgo
  rw [runBody_afterPolls_of_goesOn (hostQuiet_of_ready hu.ready) hdata hgo, afterCode,
    runBody_congr (comptBBody_bind_of_ok hq hc),
    runBody_rawpBBody_of_goesOn (u := noteOvf _ t) hq (runOps_noteOvf _ hpress) hgoP,
    runBody_comppBBody (t := noteOvf _ v) hv.ready ?_ hc', hstaged, hcmd, ← hv.ovf]
  · simp only [List.nil_append, List.cons_append, applyWrites_cons, applyWrites_nil, applyWrite, noteOvf,
      presBDone]
  · exact hfr

end

/-! ## The statements -/

/-- Settles O28: all polls in the launch's step, then the code is staged and committed. -/
theorem rawtBStoresTheCodeAfterPolling : Obligations.RawtBStoresTheCodeAfterPolling := by
  intro s u t n polls a0 a1 a2 hs hpolls hclear hanswers hl hdata hgo
  rw [← codeB_eq]
  exact exec_once_clear rfl hs hpolls hclear hanswers hl
    (runBody_afterPolls_rawtB (runOps_busOnly hs hpolls) rfl rfl hdata hgo)

/-- Settles O45: all polls in the launch's step, then the compensation of the code staged. -/
theorem tempBAcquiresThenCompensates : Obligations.TempBAcquiresThenCompensates := by
  intro s u t n polls a0 a1 a2 hs hpolls hclear hanswers hl hdata hgo raw
  have hraw : codeB [a0, a1, a2] = raw := codeB_eq a0 a1 a2
  obtain ⟨tf, v, o, hc⟩ := compTBOf_answer s.params.divPow2 s.calB raw
  refine ⟨tf, v, o, hc, ?_⟩
  rw [← hraw] at hc ⊢
  exact exec_once_clear rfl hs hpolls hclear hanswers hl
    (runBody_afterPolls_tempB (runOps_busOnly hs hpolls) rfl rfl hdata hgo hc)

/-- Settles O46: all polls in the launch's step, then both acquisitions with their compensations, the second from the
first's tFine. -/
theorem presBRefreshesTfineThenCompensates : Obligations.PresBRefreshesTfineThenCompensates := by
  intro s u t v n polls a0 a1 a2 p0 p1 p2 hs hpolls hclear hanswers hl hdata hpress hgo rawT rawP
  have hrawT : codeB [a0, a1, a2] = rawT := codeB_eq a0 a1 a2
  have hrawP : codeB [p0, p1, p2] = rawP := codeB_eq p0 p1 p2
  obtain ⟨hgoT, hgoP⟩ := List.forall_mem_append (l₁ := [a0, a1, a2]).mp hgo
  obtain ⟨tf, t1, o, hc⟩ := compTBOf_answer s.params.divPow2 s.calB rawT
  obtain ⟨p, guard, o', hc', hguard⟩ := compPBOf_answer s.params.divPow2 s.calB rawP tf
  refine ⟨tf, t1, o, p, guard, o', hc, hc', hguard, ?_⟩
  rw [← hrawT] at hc ⊢
  rw [← hrawP] at hc' ⊢
  exact exec_once_clear rfl hs hpolls hclear hanswers hl
    (runBody_afterPolls_presB (runOps_busOnly hs hpolls) rfl rfl hdata hgoT hc hpress hgoP hc')

/-- Settles O29: the same ends, over as many steps as the polls take. -/
theorem pollingCommandsEndOnceTheBitClears : Obligations.PollingCommandsEndOnceTheBitClears := by
  intro s u t n polls a0 a1 a2 hs hpolls hclear hl hdata hgo rawT
  have hu := runOps_busOnly hs hpolls
  have hrawT : codeB [a0, a1, a2] = rawT := codeB_eq a0 a1 a2
  have hword : (encode .rawtB).toNat = 0x31000000 ∧ (encode .tempB).toNat = 0x35000000 ∧
      (encode .presB).toNat = 0x36000000 := by decide
  obtain ⟨hrawtB, htempB, hpresB⟩ := hword
  obtain ⟨tf, t1, o, hc⟩ := compTBOf_answer s.params.divPow2 s.calB rawT
  rw [← hrawtB, ← htempB, ← hpresB]
  refine ⟨?_, tf, t1, o, hc, ?_, ?_⟩
  · rw [← hrawT]
    exact run_once_clear rfl hs hpolls hclear hl (runBody_afterPolls_rawtB hu rfl rfl hdata hgo)
  · rw [← hrawT] at hc ⊢
    exact run_once_clear rfl hs hpolls hclear hl (runBody_afterPolls_tempB hu rfl rfl hdata hgo hc)
  · intro v p0 p1 p2 hpress hgoP rawP
    have hrawP : codeB [p0, p1, p2] = rawP := codeB_eq p0 p1 p2
    obtain ⟨p, guard, o', hc', hguard⟩ := compPBOf_answer s.params.divPow2 s.calB rawP tf
    refine ⟨p, guard, o', hc', hguard, ?_⟩
    rw [← hrawT] at hc ⊢
    rw [← hrawP] at hc' ⊢
    exact run_once_clear rfl hs hpolls hclear hl (runBody_afterPolls_presB hu rfl rfl hdata hgo hc hpress hgoP hc')

end Sys2Proof.Machine
end

