-- ==== Sys2Proof/Proofs/FrameEncoder.lean ====
section
/-! LAW. FRAME_ENCODE (R334) and the frame over every step: what the four value fields make of the frame memory, and
that every step keeps the canonical form, the header and the tags (R330 to R332, R97). -/

namespace Sys2Proof.Machine

/-! ## The encoded frame -/

/-- The frame m with the four value fields written at the offsets of R330. -/
def encodedFrame (p : Params) (t1 pres t2 hum : Word) (m : Memory) : Memory :=
  Memory.writeLE p 14 2 hum (Memory.writeLE p 11 2 t2 (Memory.writeLE p 7 3 pres (Memory.writeLE p 4 2 t1 m)))

/-- FRAME_ENCODE's list of writes encodes the frame and does nothing else. -/
theorem applyWrites_frameEncodeWrites (t1 pres t2 hum : Word) (s : State) :
    applyWrites (frameEncodeWrites t1 pres t2 hum) s =
      { s with frame := encodedFrame s.params t1 pres t2 hum s.frame } := by
  simp only [frameEncodeWrites, applyWrites_cons, applyWrites_nil, applyWrite, encodedFrame]

section
variable {p : Params} {t1 pres t2 hum : Word} {m : Memory}

theorem wf_encodedFrame (h : Memory.wf p m = true) : Memory.wf p (encodedFrame p t1 pres t2 hum m) = true :=
  wf_writeLE _ _ _ (wf_writeLE _ _ _ (wf_writeLE _ _ _ (wf_writeLE _ _ _ h)))

/-- Outside the four fields every byte reads as before. -/
theorem read_encodedFrame_of_other {a : Nat} (ha : a ∉ [4, 5, 7, 8, 9, 11, 12, 14, 15]) :
    Memory.read p (encodedFrame p t1 pres t2 hum m) a = Memory.read p m a := by
  simp only [List.mem_cons, List.not_mem_nil, or_false, not_or] at ha
  rw [encodedFrame, read_writeLE_of_outside _ _ _ _ _ _ (by omega), read_writeLE_of_outside _ _ _ _ _ _ (by omega),
    read_writeLE_of_outside _ _ _ _ _ _ (by omega), read_writeLE_of_outside _ _ _ _ _ _ (by omega)]

theorem read_encodedFrame_t1 (k : Nat) (hk : k < 2) :
    Memory.read p (encodedFrame p t1 pres t2 hum m) (4 + k) = t1.extractLsb' (8 * k) 8 := by
  rw [encodedFrame, read_writeLE_of_outside _ _ _ _ _ _ (by omega), read_writeLE_of_outside _ _ _ _ _ _ (by omega),
    read_writeLE_of_outside _ _ _ _ _ _ (by omega), read_writeLE_of_inside p _ _ hk (by decide)]

theorem read_encodedFrame_pres (k : Nat) (hk : k < 3) :
    Memory.read p (encodedFrame p t1 pres t2 hum m) (7 + k) = pres.extractLsb' (8 * k) 8 := by
  rw [encodedFrame, read_writeLE_of_outside _ _ _ _ _ _ (by omega), read_writeLE_of_outside _ _ _ _ _ _ (by omega),
    read_writeLE_of_inside p _ _ hk (by decide)]

theorem read_encodedFrame_t2 (k : Nat) (hk : k < 2) :
    Memory.read p (encodedFrame p t1 pres t2 hum m) (11 + k) = t2.extractLsb' (8 * k) 8 := by
  rw [encodedFrame, read_writeLE_of_outside _ _ _ _ _ _ (by omega), read_writeLE_of_inside p _ _ hk (by decide)]

theorem read_encodedFrame_hum (k : Nat) (hk : k < 2) :
    Memory.read p (encodedFrame p t1 pres t2 hum m) (14 + k) = hum.extractLsb' (8 * k) 8 :=
  read_writeLE_of_inside p _ _ hk (by decide)

end

/-! ## The frame over every step -/

/-- The frame m is canonical, and its header and tag bytes read as R332 sets them (R331). -/
def IntactFrame (p : Params) (m : Memory) : Prop :=
  Memory.wf p m = true ∧ ∀ a ∈ [0, 1, 2, 3, 6, 10, 13], Memory.read p m a = frameInit p a

theorem frameIntact_iff (s : State) : s.frameIntact = true ↔ IntactFrame s.params s.frame := by
  simp only [State.frameIntact, State.frameByte, IntactFrame, Bool.and_eq_true, List.all_eq_true, beq_iff_eq]

/-- The fields of R330 lie apart from the header and the tags. -/
theorem IntactFrame.encodedFrame {p : Params} {m : Memory} (h : IntactFrame p m) (t1 pres t2 hum : Word) :
    IntactFrame p (encodedFrame p t1 pres t2 hum m) := by
  obtain ⟨hwf, hfixed⟩ := h
  have hapart : ∀ a ∈ [0, 1, 2, 3, 6, 10, 13], a ∉ [4, 5, 7, 8, 9, 11, 12, 14, 15] := by decide
  refine ⟨wf_encodedFrame hwf, fun a ha => ?_⟩
  rw [read_encodedFrame_of_other (hapart a ha), hfixed a ha]

/-- The stores hold everything the invariant looks at. -/
theorem frameIntact_of_stores {s t : State} (h : t.stores = s.stores) : t.frameIntact = s.frameIntact := by
  have hparams : t.params = s.params := congrArg Stores.params h
  have hframe : t.frame = s.frame := congrArg Stores.frame h
  simp only [State.frameIntact, State.frameByte, hparams, hframe]

/-- The commit of FRAME_ENCODE encodes the frame, and no other command's touches it. -/
theorem frame_of_mayCommit {i : Instr} {ws : List RegWrite} (h : mayCommit i ws) (s : State) :
    (applyWrites ws s).frame = s.frame ∨
      ∃ t1 pres t2 hum, (applyWrites ws s).frame = encodedFrame s.params t1 pres t2 hum s.frame := by
  by_cases hi : i = .frameEncode
  · subst hi
    obtain ⟨t1, pres, t2, hum, rfl⟩ := h
    exact .inr ⟨t1, pres, t2, hum, by rw [applyWrites_frameEncodeWrites]⟩
  · exact .inl ((committed_of_mayCommit h s).keeps_frame hi)

theorem applyWrites_keeps_frameIntact {i : Instr} {ws : List RegWrite} (hws : mayCommit i ws) {s : State}
    (hs : s.frameIntact = true) : (applyWrites ws s).frameIntact = true := by
  rw [frameIntact_iff] at hs ⊢
  rw [applyWrites_params]
  obtain hkept | ⟨t1, pres, t2, hum, hencoded⟩ := frame_of_mayCommit hws s
  · rwa [hkept]
  · rw [hencoded]
    exact hs.encodedFrame t1 pres t2 hum

/-- Settles O51: a reset restores the frame, a host access and a poll leave it, and every commit keeps it intact. -/
theorem stepKeepsTheFrameIntact : Obligations.StepKeepsTheFrameIntact := by
  intro s t hp hs h
  cases step_cases hp h with
  | reset u ht =>
    rw [ht]
    exact frameIntact_reset u.params
  | host hsame => rwa [frameIntact_of_stores hsame]
  | command i hend =>
    cases hend with
    | reset u _ _ ht =>
      rw [ht]
      exact frameIntact_reset u.params
    | committed e ws u hsame hws _ ht =>
      rw [ht, frameIntact_of_stores (commit_stores e ws u)]
      exact applyWrites_keeps_frameIntact hws (by rwa [frameIntact_of_stores hsame])
    | polling hsame => rwa [frameIntact_of_stores hsame]

/-! ## FRAME_ENCODE (R334) -/

/-- FRAME_ENCODE with no input due: the four values as they stand are encoded (R334, R125). -/
theorem exec_frameEncode {s : State} (hs : s.ready = true) :
    exec .frameEncode s = .next { s with
      cmd := 0x40000000, done := true, err := none, buscode := 0
      frame := encodedFrame s.params s.valT1 s.valP s.valT2 s.valH s.frame } := by
  have hcmd : encode .frameEncode = 0x40000000 := by decide
  have hbody : frameEncodeBody (running .frameEncode (started .frameEncode) s) =
      .ok () (running .frameEncode
        { started .frameEncode with staged := frameEncodeWrites s.valT1 s.valP s.valT2 s.valH } s) := rfl
  have hrun : exec .frameEncode s = _ := launch_of_ok hbody (seq_of_ready hs) (hostQuiet_of_ready hs)
  have hend := completed_idle (seq_of_ready hs) .frameEncode none none
    (frameEncodeWrites s.valT1 s.valP s.valT2 s.valH)
  rw [applyWrites_frameEncodeWrites, hcmd] at hend
  rw [hrun]
  exact congrArg _ hend

/-- Settles O49: each value's bytes from its own field of the encoded frame. -/
theorem frameEncodePacksTheValues : Obligations.FrameEncodePacksTheValues := by
  intro s hs
  exact ⟨_, exec_frameEncode hs, rfl, read_encodedFrame_t1 0 (by decide), read_encodedFrame_t1 1 (by decide),
    read_encodedFrame_pres 0 (by decide), read_encodedFrame_pres 1 (by decide), read_encodedFrame_pres 2 (by decide),
    read_encodedFrame_t2 0 (by decide), read_encodedFrame_t2 1 (by decide), read_encodedFrame_hum 0 (by decide),
    read_encodedFrame_hum 1 (by decide), fun _ ha => read_encodedFrame_of_other ha⟩

end Sys2Proof.Machine
end

