-- ==== Sys2Proof/Proofs/StepStops.lean ====
section
/-! LAW. What becomes of a word that is no command (R124, R126, R351), and where a step can stop (R82, R363). -/

namespace Sys2Proof.Machine

/-! ## A word written to CMD of an idle block -/

/-- The host's write of CMD takes the input and launches, or records, the word (R124, log 1). -/
theorem step_of_cmdWrite {s : State} {ar : Arrival} {w : Word} {rest : List Input} (hs : s.seq = none)
    (hi : s.inputs = ⟨ar, .access (.write .word 0x000 w)⟩ :: rest) :
    step s = commandWrite w (setInputs rest s) := by
  rw [step_of_access hs hi, hostAccess, if_pos (supported_write _ _ rfl)]
  exact if_pos csrAt_cmd

theorem commandWrite_of_illegal {w : Word} {e : DecodeError} (h : decode w = .error e) (s : State) :
    commandWrite w s = .next (illegalCommand w s) := by rw [commandWrite, h]

/-- Settles O4: an idle block records the illegal word, and a running command drops it as it drops every write of
CMD (R53). -/
theorem illegalWordIsRecordedOrDropped : Obligations.IllegalWordIsRecordedOrDropped := by
  intro s ar w rest e hw
  refine ⟨fun hs hi => ?_, fun r hr hi => ?_⟩
  · rw [step_of_cmdWrite hs hi, commandWrite_of_illegal hw]
    rfl
  · obtain ⟨-, hdropped, -⟩ := busyBlockDropsWrites s r 0x000 w rest hr rfl
    exact hdropped hi (by decide) (by decide)

/-! ## Where a step can stop (R82, R363) -/

theorem commandWrite_next (w : Word) (s : State) : ∃ t, commandWrite w s = .next t := by
  cases hw : decode w with
  | ok i =>
    rw [commandWrite_of_decode hw]
    exact exec_next i s
  | error e => exact ⟨_, commandWrite_of_illegal hw s⟩

theorem hostWrite_next (off w : Word) (s : State) : ∃ t, hostWrite off w s = .next t := by
  by_cases hcmd : csrAt off = some .cmd
  · simp only [hostWrite, hcmd, if_true]
    exact commandWrite_next w s
  · exact ⟨_, if_neg hcmd⟩

theorem hostAccess_next {a : HostAccess} (ha : a.supported = true) (s : State) : ∃ t, hostAccess a s = .next t := by
  cases a with
  | read size off => exact ⟨_, if_pos ha⟩
  | write size off v =>
    simp only [hostAccess, ha, if_true]
    exact hostWrite_next off v s

theorem hostAccess_refused {a : HostAccess} (ha : a.supported = false) (s : State) :
    hostAccess a s = .refused .unsupportedHostAccess := by
  simp only [hostAccess, ha, Bool.false_eq_true, if_false]

section
variable {s : State} {ar : Arrival} {e : Event} {rest : List Input}

theorem step_of_csr (hs : s.seq = none) (hi : s.inputs = ⟨ar, e⟩ :: rest) {a : HostAccess}
    (hr : e.reach s.params = .csr a) : step s = hostAccess a (setInputs rest s) := by
  simp only [step_of_idle hs hi, takeInput, setInputs_params, hr]

theorem step_of_reset (hs : s.seq = none) (hi : s.inputs = ⟨ar, e⟩ :: rest) (hr : e.reach s.params = .reset) :
    step s = .next (platformReset (setInputs rest s)) := by
  simp only [step_of_idle hs hi, takeInput, setInputs_params, hr]

/-- An unsupported access of the CSR space is refused by an idle block (R82). -/
theorem step_of_unsupported (hs : s.seq = none) (hi : s.inputs = ⟨ar, e⟩ :: rest) {a : HostAccess}
    (hr : e.reach s.params = .csr a) (ha : a.supported = false) : step s = .refused .unsupportedHostAccess := by
  rw [step_of_csr hs hi hr, hostAccess_refused ha]

/-- Everything else an idle block can be given has a next state. -/
theorem step_next_or_unsupported (hs : s.seq = none) (hi : s.inputs = ⟨ar, e⟩ :: rest) :
    (∃ t, step s = .next t) ∨ ∃ a, e.reach s.params = .csr a ∧ a.supported = false := by
  cases hr : e.reach s.params with
  | reset => exact .inl ⟨_, step_of_reset hs hi hr⟩
  | elsewhere => exact .inl ⟨_, step_of_elsewhere hs hi hr⟩
  | csr a =>
    cases ha : a.supported with
    | true =>
      rw [step_of_csr hs hi hr]
      exact .inl (hostAccess_next ha _)
    | false => exact .inr ⟨a, rfl, ha⟩

end

/-- A block without inputs waits (R98). -/
theorem step_of_no_inputs {s : State} (hs : s.seq = none) (hi : s.inputs = []) : step s = .next s := by
  simp only [step, hs, idleStep, hi]

/-- What `seqAtPoll` says of the place of a running sequencer. -/
theorem atHead_of_seqAtPoll {s : State} {r : Running} (hr : s.seq = some r) (h : s.seqAtPoll = true) :
    AtHead s.params.pollLimit r := by
  simp only [State.seqAtPoll, hr, Bool.and_eq_true, beq_iff_eq, Bool.not_eq_true', decide_eq_true_eq] at h
  obtain ⟨⟨⟨⟨⟨⟨⟨⟨⟨hrest, hstep⟩, hfr⟩, hstaged⟩, hcount⟩, hlimit⟩, -⟩, -⟩, -⟩, -⟩ := h
  exact ⟨⟨hrest, hfr, hstaged⟩, hstep, hcount, hlimit⟩

/-- At its poll a command goes on (R358). -/
theorem step_of_polling {s : State} {r : Running} (hr : s.seq = some r) (h : s.seqAtPoll = true) :
    ∃ b, pollRest r.cmd = some b ∧ step s = .next (runBody b s) := by
  obtain ⟨⟨hrest, -, -⟩, hstep, -⟩ := atHead_of_seqAtPoll hr h
  obtain ⟨b, hb⟩ := Option.isSome_iff_exists.mp hrest
  exact ⟨b, hb, by simp only [step, hr, resumePolling, hb, hstep, if_true]⟩

/-- Settles O57: a poll goes on, an idle block serves whatever reaches it but an unsupported access, and an access by
offset or by host address that R82 does not support is one. -/
theorem stepStopsOnlyOnUnsupportedAccess : Obligations.StepStopsOnlyOnUnsupportedAccess := by
  refine ⟨fun s hp => ?_, fun s ar a rest hs hi hun => ?_, fun s ar m rest size addr hs hi hm hlo hhi hun => ?_⟩
  · cases hs : s.seq with
    | some r =>
      obtain ⟨b, -, hstep⟩ := step_of_polling hs hp
      exact .inl ⟨_, hstep⟩
    | none =>
      cases hi : s.inputs with
      | nil => exact .inl ⟨s, step_of_no_inputs hs hi⟩
      | cons it rest =>
        refine (step_next_or_unsupported hs hi).imp_right ?_
        rintro ⟨a, hr, ha⟩
        exact ⟨step_of_unsupported hs hi hr ha, rfl, _, _, a, rest, rfl, hr, ha⟩
  · obtain ⟨size, off, rfl | ⟨v, rfl⟩, hsize⟩ := hun
    · exact step_of_unsupported hs hi rfl ((unsupported_iff off).mpr hsize)
    · exact step_of_unsupported hs hi rfl ((unsupported_iff off).mpr hsize)
  · obtain rfl | ⟨v, rfl⟩ := hm
    · obtain ⟨-, a, hr, ha⟩ := memory_reach_unsupported s.params size addr 0 hlo hhi hun
      exact step_of_unsupported hs hi hr ha
    · obtain ⟨⟨a, hr, ha⟩, -⟩ := memory_reach_unsupported s.params size addr v hlo hhi hun
      exact step_of_unsupported hs hi hr ha

end Sys2Proof.Machine
end

