-- ==== Sys2Proof/Proofs/PollTimeout.lean ====
section
/-! LAW. Polls that go on finding the measuring bit set (R281): the command polls on (R358) until POLL_LIMIT ends it in
PollTimeout (R359). -/

namespace Sys2Proof.Machine

/-! ## One poll that finds the bit set, as a step (R358) -/

/-- A block that stands at its poll differs only in the number of polls from its command at the loop's head. -/
theorem running_headAt {s : State} {r : Running} (hr : s.seq = some r) (h : s.seqAtPoll = true) (c : Nat) :
    running r.cmd (headAt r.cmd c) s = { s with seq := some { r with pollCount := c } } := by
  obtain ⟨⟨-, hfr, hstaged⟩, hstep, -⟩ := atHead_of_seqAtPoll hr h
  have hunder := underway_of_seqAtPoll hr h
  obtain ⟨r', hr', hword, -⟩ := hunder.seq
  obtain rfl : r = r' := Option.some.inj (hr.symm.trans hr')
  rw [running, headAt, ← hstep, ← hfr, ← hstaged, ← hword, ← hunder.done, ← hunder.err, ← hunder.buscode]

theorem running_headAt_self {s : State} {r : Running} (hr : s.seq = some r) (h : s.seqAtPoll = true) :
    running r.cmd (headAt r.cmd r.pollCount) s = s := by rw [running_headAt hr h, ← hr]

/-- Settles O31: with at most one answer laid down the step makes one poll, which takes the loop back to its head. -/
theorem stuckPollKeepsPolling : Obligations.StuckPollKeepsPolling := by
  intro s r hr hp hq hanswers hbusy hl
  have hunder := underway_of_seqAtPoll hr hp
  obtain ⟨b, hb, hstep⟩ := step_of_polling hr hp
  have hone : max s.answers.length 1 = 0 + 1 := by omega
  have hpoll : (pollLoop (0 + 1) >>= fun _ => afterPolls r.cmd) (running r.cmd (headAt r.cmd r.pollCount) s) =
      .error () (running r.cmd (headAt r.cmd (r.pollCount + 1)) (afterPoll s)) := pollLoop_bind_of_busy hq hbusy hl
  have hleft : runBody b s = running r.cmd (headAt r.cmd (r.pollCount + 1)) (afterPoll s) := by
    rw [← runBody_of_error hpoll, ← hone, ← runBody_pollRest hb, running_headAt_self hr hp]
  have hhead : running r.cmd (headAt r.cmd (r.pollCount + 1)) (afterPoll s) = _ :=
    congrArg afterPoll (running_headAt hr hp (r.pollCount + 1))
  exact ⟨hstep.trans (congrArg _ (hleft.trans hhead)), by rw [State.busy, hr]; rfl, hunder.done, hunder.err⟩

/-! ## The poll that reaches the limit (R359) -/

theorem limitReached_of_le {p : Params} {l n : Nat} (hl : p.pollLimit = some l) (h : l ≤ n) :
    limitReached p.pollLimit n = true := by simp only [limitReached, hl, h, decide_true]

section
variable {i : Instr} {n c k : Nat} {s t u v : State} {a0 : BusAnswer} {polls : List BusAnswer}

/-- A poll that finds the bit set at the limit ends the command with nothing committed. -/
theorem pollLoop_bind_of_limit {β : Type} {g : Unit → Body β} (hq : t.hostQuiet = true)
    (ha : pollBusy t.params (busAnswer 0x77 [t.params.regStatusB] 1 t) = true)
    (hl : limitReached t.params.pollLimit (c + 1) = true) :
    (pollLoop (k + 1) >>= g) (running i (headAt i c) t) =
      .error () (completed i .idle (some .pollTimeout) none [] (afterPoll t)) := by
  obtain ⟨hgo, hbusy⟩ := pollBusy_iff.mp ha
  simp only [pollLoop, body_bind_assoc, regOf_bind, running_params, rdByte_bind hq _ _ hgo, countPoll, change_bind,
    onSeq_running, hbusy, if_false, pollCount_running, headAt, hl, if_true]
  exact raise_bind (t := afterPoll t) hq ..

/-- The last of n + 1 polls comes after the control write and n polls. -/
theorem runOps_last_poll (hrun : runOps (rawtBControlOp s.params :: List.replicate (n + 1) (pollOp s.params)) s =
      (a0 :: polls, u)) :
    ∃ busy w, runOps (rawtBControlOp s.params :: List.replicate n (pollOp s.params)) s = (a0 :: busy, w) ∧
      polls = busy ++ [busAnswer 0x77 [w.params.regStatusB] 1 w] ∧ w.params = s.params ∧ u = afterPoll w := by
  obtain ⟨rest, hcons, hpolls⟩ := (runOps_xfer_iff _ _ _).mp hrun
  obtain ⟨rfl, rfl⟩ := List.cons.inj hcons
  obtain ⟨busy, last, w, rfl, hbusy, hlast⟩ := runOps_replicate_add n 1 hpolls
  have hfirst := (runOps_xfer_iff _ _ _).mpr ⟨busy, rfl, hbusy⟩
  obtain ⟨nothing, rfl, hnil⟩ := (runOps_xfer_iff _ _ _).mp hlast
  obtain ⟨rfl, rfl⟩ := runOps_nil_iff.mp hnil
  have hw : w.params = s.params := runOps_params hfirst
  exact ⟨busy, w, hfirst, by rw [hw], hw, by rw [afterPoll, hw]⟩

/-- A step at the loop's head that has an answer laid down past n polls that find the bit set makes the poll after them
too, which ends the loop in v. -/
theorem runBody_pollRest_of_busy_polls {b : Body Unit} (hb : pollRest i = some b) (hq : t.hostQuiet = true)
    (hrun : runOps (List.replicate n (pollOp t.params)) t = (polls, u))
    (hbusy : ∀ a ∈ polls, pollBusy t.params a = true) (hl : belowLimit t.params (c + n) = true)
    (hanswers : n < t.answers.length)
    (hend : ∀ k, runBody (pollLoop (k + 1) >>= fun _ => afterPolls i) (running i (headAt i (c + n)) u) = v) :
    runBody b (running i (headAt i c) t) = v := by
  obtain ⟨k, hk⟩ := Nat.exists_eq_add_of_le hanswers
  have hpolls : max t.answers.length 1 = n + (k + 1) := by omega
  rw [runBody_pollRest hb, hpolls, runBody_congr (pollLoop_bind_of_busy_polls (k + 1) hq hrun hbusy (.inl hl)), hend]

/-- The same for the launch itself, whose first answer is the control write's. -/
theorem exec_polling_command {b : Body Unit} (hb : pollRest i = some b) (hs : s.ready = true)
    (hrun : runOps (rawtBControlOp s.params :: List.replicate n (pollOp s.params)) s = (a0 :: polls, u))
    (hgo : goesOn s.params a0 = true) (hbusy : ∀ a ∈ polls, pollBusy s.params a = true)
    (hl : belowLimit s.params n = true) (hanswers : n + 1 < s.answers.length)
    (hend : ∀ k, runBody (pollLoop (k + 1) >>= fun _ => afterPolls i) (running i (headAt i n) u) = v) :
    exec i s = .next v := by
  obtain ⟨rest, hcons, hpolls⟩ := (runOps_xfer_iff _ _ _).mp hrun
  obtain ⟨rfl, rfl⟩ := List.cons.inj hcons
  have hcontrol : runOps [rawtBControlOp s.params] s = ([_], _) := rfl
  have hexec := (polling_startsWith hb (seq_of_ready hs)).run hs hcontrol (by simpa using hgo)
  have hleft : n < s.answers.tail.length := by
    rw [List.length_tail]
    omega
  exact hexec.trans (congrArg _ (runBody_pollRest_of_busy_polls (c := 0)
    (t := afterXfer 0x77 [s.params.regCtrlB, s.params.ctrlBValue] 0 s) hb (hostQuiet_of_ready hs) hpolls hbusy
    (by rwa [Nat.zero_add]) hleft (by rwa [Nat.zero_add])))

end

/-- Settles O30: all polls but the last leave the command at the loop's head, and the last reaches the limit. -/
theorem pollLimitEndsInPollTimeout : Obligations.PollLimitEndsInPollTimeout := by
  intro s u l a0 polls hs hlimit hpos hrun hgo hbusy i hi
  obtain ⟨n, rfl⟩ := Nat.exists_eq_add_one.mpr hpos
  obtain ⟨busy, w, hfirst, rfl, hw, rfl⟩ := runOps_last_poll hrun
  obtain ⟨hbusyFirst, hbusyLast⟩ := List.forall_mem_append.mp hbusy
  obtain ⟨b, hb⟩ := pollRest_of_polling hi
  have hbelow : belowLimit s.params n = true := by simp [belowLimit, hlimit]
  have hseq : (afterPoll w).seq = none := (runOps_seq hfirst).trans (seq_of_ready hs)
  have hend : ∀ k, runBody (pollLoop (k + 1) >>= fun _ => afterPolls i) (running i (headAt i n) w) =
      { afterPoll w with cmd := encode i, done := true, err := some .pollTimeout, buscode := 0 } := by
    intro k
    have hlast := pollLoop_bind_of_limit (i := i) (c := n) (k := k) (g := fun _ => afterPolls i)
      ((runOps_hostQuiet hfirst).trans (hostQuiet_of_ready hs)) (by rw [hw]; exact hbusyLast _ (by simp [hw]))
      (limitReached_of_le (hw ▸ hlimit) (Nat.le_refl _))
    rw [runBody_of_error hlast]
    exact completed_idle hseq i _ none []
  obtain ⟨k, hk, hkrun⟩ := run_polling_command hb hs hfirst hgo hbusyFirst (.inl hbelow) hend
  exact ⟨fun hanswers => exec_polling_command hb hs hfirst hgo hbusyFirst hbelow hanswers hend,
    k, Nat.lt_succ_of_le hk, hkrun⟩

end Sys2Proof.Machine
end

