-- ==== Sys2Proof/Proofs/NoPressure.lean ====
section
/-! LAW. When the block gives no pressure: a compensation on the store of reset (R392), and a pressure command after a
calibration load (R397). -/

namespace Sys2Proof.Machine

/-! ## Compensation on the store of reset (R392, R244) -/

theorem intPdiv_zero (rnd : Rounding) (k : Nat) : intPdiv rnd 0 k = 0 := by
  cases rnd with
  | floor => rw [intPdiv, Int.zero_ediv]
  | trunc => rw [intPdiv, Int.zero_tdiv]

theorem wrapS32_zero : wrapS32 0 = 0 := by decide

/-- Settles O47: AC5 = 0 and MD = 0 make the divisor of CompTA 0, AC4 = 0 makes B4 0, and P1 = 0 the divisor of
CompPB. -/
theorem resetStoreGivesNoPressure : Obligations.ResetStoreGivesNoPressure := by
  refine ⟨fun rnd raw => ?_, fun rnd raw b5 oss => ?_, fun rnd raw tFine => ?_⟩
  · obtain ⟨hzero, -, -⟩ := compTAIsTheStatedFormula rnd CalA.zero raw
    obtain ⟨o, ho, -⟩ := hzero <| by simp [CalA.zero, intPdiv_zero, wrapS32_zero]
    exact ⟨o, ho⟩
  · obtain ⟨hzero, -⟩ := compPAIsTheStatedFormula rnd CalA.zero raw b5 oss
    obtain ⟨o, ho, -⟩ := hzero <| by simp [CalA.zero]
    exact ⟨o, ho⟩
  · obtain ⟨hzero, -, -⟩ := compPBIsTheStatedFormula rnd CalB.zero raw tFine
    obtain ⟨o, ho, -⟩ := hzero <| by simp [CalB.zero, intPdiv_zero, wrapS32_zero]
    exact ⟨o, ho⟩

/-! ## After a calibration load (R397, R46, R47) -/

/-- Without a reset, a command that leaves the block idle has committed one of its lists of writes. -/
theorem exec_committed {i : Instr} {s t : State} (hs : s.seq = none) (hn : s.noReset = true) (ht : t.seq = none)
    (h : exec i s = .next t) : ∃ e ws u, mayCommit i ws ∧ t = commit e ws u := by
  cases exec_ended (calm := true) hs (fun _ => hn) h with
  | reset u hcalm => cases hcalm
  | committed e ws u _ hws _ hu => exact ⟨e, ws, u, hws, hu⟩
  | polling _ _ hseq =>
    rw [ht] at hseq
    cases hseq

/-- Both lists of CAL_LOAD_A clear B5_VALID, that of a Nack and that of a completed load (R230, R361). -/
theorem b5Valid_of_calLoadA {setting : Byte} {ws : List RegWrite} (h : mayCommit (.calLoadA setting) ws) (s : State) :
    (applyWrites ws s).b5Valid = false := by
  obtain rfl | ⟨id, words, -, rfl⟩ := h <;> rfl

/-- Both lists of CAL_LOAD_B clear TFINE_VALID (R280, R361). -/
theorem tfineValid_of_calLoadB {ws : List RegWrite} (h : mayCommit .calLoadB ws) (s : State) :
    (applyWrites ws s).tfineValid = false := by
  obtain rfl | ⟨id, words, -, rfl⟩ := h <;> rfl

/-- Settles O48: whichever of its lists a load commits, the family's intermediate is not valid, and the pressure
commands test that first. -/
theorem reloadRequiresANewTemperature : Obligations.ReloadRequiresANewTemperature := by
  intro s t setting hs hn ht
  refine ⟨fun h => ?_, fun h => ?_⟩
  · obtain ⟨e, ws, u, hws, hu⟩ := exec_committed hs hn (seq_of_ready ht) h
    have hv : t.b5Valid = false := by rw [hu, commit_b5Valid, b5Valid_of_calLoadA hws]
    obtain ⟨hcomppA, -⟩ := comppACommitsThePressure t ht
    obtain ⟨hpresA, -⟩ := presAAcquiresThenCompensates t ht
    exact ⟨hcomppA hv, hpresA hv⟩
  · obtain ⟨e, ws, u, hws, hu⟩ := exec_committed hs hn (seq_of_ready ht) h
    have hv : t.tfineValid = false := by rw [hu, commit_tfineValid, tfineValid_of_calLoadB hws]
    obtain ⟨hcomppB, -⟩ := comppBCommitsThePressure t ht
    exact hcomppB hv

end Sys2Proof.Machine
end

