-- ==== Sys2Proof/Proofs/PlatformReset.lean ====
section
/-! LAW. A reset by the platform (R390): at an idle block, at a slot of a running command, and as the input that is due
when a command is launched or polls on. -/

namespace Sys2Proof.Machine

/-! ## What a reset leaves (R59, R390) -/

theorem frReturn_of_idle {s : State} (h : s.seq = none) : frReturn s = s.frLog := by rw [frReturn, h]

theorem frReturn_of_running {s : State} {r : Running} (h : s.seq = some r) :
    frReturn s = if r.fr = .idle then s.frLog else s.frLog ++ [.idle] := by rw [frReturn, h]

/-- fr's return to Idle depends on the sequencer's fr only. -/
theorem frReturn_onSeq {f : Running → Running} (hf : ∀ r, (f r).fr = r.fr) (s : State) :
    frReturn (onSeq f s) = frReturn s := by
  cases h : s.seq with
  | none => rw [frReturn_of_idle h, frReturn_of_idle (by rw [onSeq_seq, h]; rfl), onSeq_frLog]
  | some r => rw [frReturn_of_running h, frReturn_of_running (r := f r) (by rw [onSeq_seq, h]; rfl), hf, onSeq_frLog]

/-- A reset taken from the list leaves the rest of it. -/
theorem platformReset_setInputs (rest : List Input) (s : State) : platformReset (setInputs rest s) =
    { State.resetWith s.params with
      inputs := rest, answers := s.answers, trace := s.trace, frLog := frReturn s, hostLog := s.hostLog } := rfl

/-- What a reset leaves does not show where the sequencer was, but for fr. -/
theorem platformReset_onSeq {f : Running → Running} (hf : ∀ r, (f r).fr = r.fr) (rest : List Input) (s : State) :
    platformReset (setInputs rest (onSeq f s)) = platformReset (setInputs rest s) := by
  rw [platformReset_setInputs, frReturn_onSeq hf]
  rfl

theorem slot_of_reset {s : State} {rest : List Input} (hi : s.inputs = ⟨.after 0, .reset⟩ :: rest) :
    slot s = .error () (platformReset (setInputs rest s)) := by
  simp only [slot, hi, serveInputs]
  rfl

/-! ## A body that meets a reset at its first slot -/

/-- A reset is due at the next slot, and it would leave the block in a state with E. -/
structure ResetDue (rest : List Input) (E : State → Prop) (s : State) : Prop where
  inputs : s.inputs = ⟨.after 0, .reset⟩ :: rest
  leaves : E (platformReset (setInputs rest s))

/-- With a reset due, the body ends at a slot, in the state the reset leaves. -/
def Halts {α : Type} (rest : List Input) (E : State → Prop) (b : Body α) : Prop :=
  Sat (ResetDue rest E) b (fun _ _ => False) E

/-- With a reset due, the body ends at a slot, in the state the reset leaves, or goes on without having met one. -/
def Yields {α : Type} (rest : List Input) (E : State → Prop) (b : Body α) : Prop :=
  Sat (ResetDue rest E) b (fun _ => ResetDue rest E) E

section
variable {α β : Type} {rest : List Input} {E : State → Prop}

/-- Nothing of the body after the slot is run. -/
theorem Halts.bind {x : Body α} (hx : Halts rest E x) (g : α → Body β) : Halts rest E (x >>= g) :=
  sat_bind hx fun _ _ h => h.elim

theorem Halts.yields {x : Body α} (hx : Halts rest E x) : Yields rest E x :=
  sat_mono hx (fun _ h => h) (fun _ _ h => h.elim) fun _ h => h

theorem Yields.bind {x : Body α} {g : α → Body β} (hx : Yields rest E x) (hg : ∀ a, Yields rest E (g a)) :
    Yields rest E (x >>= g) := sat_bind hx hg

theorem Yields.bind_halts {x : Body α} {g : α → Body β} (hx : Yields rest E x) (hg : ∀ a, Halts rest E (g a)) :
    Halts rest E (x >>= g) := sat_bind hx hg

theorem yields_pure (a : α) : Yields rest E (pure a) := sat_pure a fun _ h => h

theorem yields_regOf (f : State → α) : Yields rest E (regOf f) := sat_regOf fun _ h => h

theorem yields_ite {c : Prop} [Decidable c] {x y : Body α} (hx : Yields rest E x) (hy : Yields rest E y) :
    Yields rest E (if c then x else y) := sat_ite (fun _ => hx) fun _ => hy

/-- A move of the sequencer that leaves fr alone. -/
theorem yields_onSeq {f : Running → Running} (hf : ∀ r, (f r).fr = r.fr) : Yields rest E (change (onSeq f)) :=
  sat_change fun s h => ⟨h.inputs, by rw [platformReset_onSeq hf]; exact h.leaves⟩

theorem yields_advance : Yields rest E (change advance) := yields_onSeq fun _ => rfl

theorem yields_stage (w : RegWrite) : Yields rest E (stage w) := yields_onSeq fun _ => rfl

theorem slot_halts : Halts rest E slot := fun s h => by
  rw [slot_of_reset h.inputs]
  exact h.leaves

theorem xfer_halts (dev : Dev) (w : List Byte) (n : Nat) : Halts rest E (xfer dev w n) := slot_halts.bind _

theorem raise_halts (e : ErrorKind) (info : Option Word) (ws : List RegWrite) :
    Halts rest E (raise e info ws : Body α) := slot_halts.bind _

theorem raiseStaged_halts (e : ErrorKind) (info : Option Word) : Halts rest E (raiseStaged e info : Body α) :=
  (yields_regOf _).bind_halts fun ws => raise_halts e info ws

theorem rdAB_halts (reg : Byte) (n : Nat) (ws : List RegWrite) : Halts rest E (rdAB reg n ws) :=
  (yields_regOf _).bind_halts fun _ => (xfer_halts _ _ _).bind _

theorem wrAB_halts (reg v : Byte) (ws : List RegWrite) : Halts rest E (wrAB reg v ws) :=
  (yields_regOf _).bind_halts fun _ => (xfer_halts _ _ _).bind _

/-- The first step of a computation has a slot before it. -/
theorem playSteps_yields (steps : List Bool) : Yields rest E (playSteps steps) := by
  cases steps with
  | nil => exact yields_pure ()
  | cons o steps => exact (slot_halts.bind _).yields

theorem compute_yields (c : Calc α) (ws : List RegWrite) : Yields rest E (compute c ws) := by
  unfold compute
  cases c [] with
  | ok a steps => exact (playSteps_yields steps).bind fun _ => yields_advance.bind fun _ => yields_pure a
  | error e steps =>
    exact (playSteps_yields steps).bind fun _ => yields_advance.bind fun _ => (raise_halts e none ws).yields

/-- A command whose body has met no slot meets one before its commit. -/
theorem runBody_of_yields {b : Body Unit} {s : State} (hb : Yields rest E b) (h : ResetDue rest E s) :
    E (runBody b s) :=
  runBody_sat (sat_bind hb fun _ => sat_bind slot_halts fun _ _ hs => hs.elim) h

/-! ## The commands' bodies -/

/-- A framed read enters its protocol before its first slot (R191), so what the reset leaves differs in the protocol
log. -/
theorem framedRead_halts (hE : ∀ log s, E s → E { s with frLog := log }) (dev : Dev) (reg : Byte) :
    Halts rest E (framedRead dev reg) :=
  (yields_regOf _).bind_halts fun _ => Yields.bind_halts
    (sat_change fun _ h => ⟨h.inputs, hE _ _ h.leaves⟩) fun _ => (xfer_halts _ _ _).bind _

theorem rawtABody_halts : Halts rest E rawtABody := (yields_regOf _).bind_halts fun _ => (wrAB_halts _ _ _).bind _

theorem rawpABody_halts : Halts rest E rawpABody :=
  (yields_regOf _).bind_halts fun _ => (yields_regOf _).bind_halts fun _ => (yields_regOf _).bind_halts fun _ =>
    (wrAB_halts _ _ _).bind _

theorem rawpBBody_halts : Halts rest E rawpBBody :=
  (yields_regOf _).bind_halts fun _ => ((rdAB_halts _ _ _).bind _).bind _

theorem rawtBStart_halts : Halts rest E rawtBStart := (yields_regOf _).bind_halts fun _ => wrAB_halts _ _ _

theorem needB5_yields : Yields rest E needB5 :=
  (yields_regOf _).bind fun _ => yields_ite (yields_pure ()) (raise_halts _ _ _).yields

theorem needTfine_yields : Yields rest E needTfine :=
  (yields_regOf _).bind fun _ => yields_ite (yields_pure ()) (raise_halts _ _ _).yields

theorem comptABody_yields (raw : Word) (ws : List RegWrite) : Yields rest E (comptABody raw ws) :=
  (yields_regOf _).bind fun _ => (yields_regOf _).bind fun _ => (compute_yields _ ws).bind fun _ =>
    (yields_stage _).bind fun _ => (yields_stage _).bind fun _ => yields_stage _

theorem comppABody_yields (raw : Word) (ws : List RegWrite) : Yields rest E (comppABody raw ws) :=
  (yields_regOf _).bind fun _ => (yields_regOf _).bind fun _ => (yields_regOf _).bind fun _ =>
    (yields_regOf _).bind fun _ => (compute_yields _ ws).bind fun _ => yields_stage _

theorem comptBBody_yields (raw : Word) : Yields rest E (comptBBody raw) :=
  (yields_regOf _).bind fun _ => (yields_regOf _).bind fun _ => (compute_yields _ _).bind fun _ =>
    (yields_stage _).bind fun _ => (yields_stage _).bind fun _ => (yields_stage _).bind fun _ => yields_pure _

theorem comppBBody_yields (raw tFine : Word) : Yields rest E (comppBBody raw tFine) :=
  (yields_regOf _).bind fun _ => (yields_regOf _).bind fun _ => (compute_yields _ _).bind fun _ =>
    (yields_stage _).bind fun _ => yields_ite (raiseStaged_halts _ _).yields (yields_pure ())

theorem frameEncodeBody_yields : Yields rest E frameEncodeBody :=
  (yields_regOf _).bind fun _ => (yields_regOf _).bind fun _ => (yields_regOf _).bind fun _ =>
    (yields_regOf _).bind fun _ => (yields_stage _).bind fun _ => (yields_stage _).bind fun _ =>
      (yields_stage _).bind fun _ => yields_stage _

/-- A poll begins with a slot, and every step at the loop's head makes one (R281, log 6). -/
theorem rawtBPolling_halts : Halts rest E rawtBPolling := by
  refine Halts.bind ((yields_regOf _).bind_halts fun k => ?_) _
  obtain ⟨n, hn⟩ : ∃ n, max k 1 = n + 1 := ⟨max k 1 - 1, by omega⟩
  rw [hn]
  exact (yields_regOf _).bind_halts fun _ => Halts.bind ((rdAB_halts _ _ _).bind _) _

theorem pollRest_halts {i : Instr} {b : Body Unit} (h : pollRest i = some b) : Halts rest E b := by
  cases i with
  | rawtB | tempB | presB =>
    cases h
    exact rawtBPolling_halts.bind _
  | _ => cases h

/-! ## Every command but NOP -/

/-- A command whose body has a slot, or comes to its end's, is launched with a reset due. -/
theorem launch_of_resetDue {i : Instr} {b : Body Unit} {s : State} (hb : Yields rest E b) (hs : s.seq = none)
    (h : ResetDue rest E (accept i s)) : ∃ t, launch i (runBody b) s = .next t ∧ E t :=
  ⟨_, launch_of_idle hs, runBody_of_yields hb h⟩

/-- Every command but NOP is abandoned at its first slot (R390, 95_test_vectors.md E-ACC-3). -/
theorem exec_of_resetDue (hE : ∀ log s, E s → E { s with frLog := log }) {i : Instr} (hi : i ≠ .nop) {s : State}
    (hs : s.seq = none) (h : ResetDue rest E (accept i s)) : ∃ t, exec i s = .next t ∧ E t := by
  have hframed := framedRead_halts (rest := rest) hE
  cases i with
  | nop => exact absurd rfl hi
  | regRead dev reg => exact launch_of_resetDue ((xfer_halts _ _ _).bind _).yields hs h
  | regWrite dev reg data => exact launch_of_resetDue ((xfer_halts _ _ _).bind _).yields hs h
  | framedRead dev reg => exact launch_of_resetDue ((hframed dev reg).bind _).yields hs h
  | comboTemp | comboHum =>
    exact launch_of_resetDue ((yields_regOf _).bind_halts fun _ => (hframed _ _).bind _).yields hs h
  | calLoadA setting =>
    exact launch_of_resetDue ((yields_regOf _).bind_halts fun _ => (rdAB_halts _ _ _).bind _).yields hs h
  | calLoadB =>
    exact launch_of_resetDue ((yields_regOf _).bind_halts fun _ => (rdAB_halts _ _ _).bind _).yields hs h
  | rawtA | tempA => exact launch_of_resetDue (rawtABody_halts.bind _).yields hs h
  | rawpA => exact launch_of_resetDue (rawpABody_halts.bind _).yields hs h
  | presA => exact launch_of_resetDue (needB5_yields.bind_halts fun _ => rawpABody_halts.bind _).yields hs h
  | comptA => exact launch_of_resetDue ((yields_regOf _).bind fun raw => comptABody_yields raw []) hs h
  | comppA =>
    exact launch_of_resetDue (needB5_yields.bind fun _ => (yields_regOf _).bind fun raw =>
      comppABody_yields raw []) hs h
  | rawpB => exact launch_of_resetDue (rawpBBody_halts.bind _).yields hs h
  | comptB =>
    exact launch_of_resetDue ((yields_regOf _).bind fun raw => (comptBBody_yields raw).bind fun _ =>
      yields_pure ()) hs h
  | comppB =>
    exact launch_of_resetDue (needTfine_yields.bind fun _ => (yields_regOf _).bind fun raw =>
      (yields_regOf _).bind fun tf => comppBBody_yields raw tf) hs h
  | rawtB | tempB | presB => exact launch_of_resetDue (rawtBStart_halts.bind _).yields hs h
  | frameEncode => exact launch_of_resetDue frameEncodeBody_yields hs h

end

/-! ## The statement -/

/-- The step of a block that polls begins with a slot (log 6). -/
theorem step_of_reset_at_poll {s : State} {r : Running} {rest : List Input} (hr : s.seq = some r)
    (hp : s.seqAtPoll = true) (hi : s.inputs = ⟨.after 0, .reset⟩ :: rest) :
    step s = .next (platformReset (setInputs rest s)) := by
  obtain ⟨b, hb, hstep⟩ := step_of_polling hr hp
  have hdue : ResetDue rest (· = platformReset (setInputs rest s)) s := ⟨hi, rfl⟩
  rw [hstep, runBody_of_yields (pollRest_halts hb).yields hdue]

/-- A reset taken at s has left the block in t, but for the protocol states passed before it. -/
def LeftByReset (rest : List Input) (s t : State) : Prop :=
  ∃ log, t = { platformReset (setInputs rest s) with frLog := log }

theorem LeftByReset.frLog {rest : List Input} {s t : State} (h : LeftByReset rest s t) (log : List FrState) :
    LeftByReset rest s { t with frLog := log } := by
  obtain ⟨-, rfl⟩ := h
  exact ⟨log, rfl⟩

/-- Settles O2: an idle block takes the reset itself, a command just launched or polling on meets it at its first slot,
and at every slot it leaves nothing of what is staged. -/
theorem resetAbandonsTheRunningCommand : Obligations.ResetAbandonsTheRunningCommand := by
  intro s rest
  refine ⟨fun ar hs hi => ?_, fun i hne hs hi => ?_, fun r hr hp hi => ?_, fun r hr hi => ?_⟩
  · rw [step_of_reset hs hi rfl, platformReset_setInputs, frReturn_of_idle hs]
  · have hdue : ResetDue rest (LeftByReset rest s) (accept i s) := ⟨hi, _, rfl⟩
    obtain ⟨t, hexec, log, rfl⟩ := exec_of_resetDue (fun log _ h => h.frLog log) hne hs hdue
    exact ⟨log, hexec⟩
  · obtain ⟨r', hr', -, -, hfr, -⟩ := (underway_of_seqAtPoll hr hp).seq
    rw [step_of_reset_at_poll hr hp hi, platformReset_setInputs, frReturn_of_running hr', if_pos hfr]
  · rw [slot_of_reset hi, platformReset_setInputs, frReturn_of_running hr]

end Sys2Proof.Machine
end
